-- ==== Sys2Proof/Word.lean ====
section
/-! DEFINITION. The word types of the Vyonben VB9 and the one table type the state is built from. -/

namespace Sys2Proof

/-- A scalar register, a predicate register, a system register, a handle: 64 bits (R28). -/
abbrev Word := BitVec 64

/-- One byte; multi-byte values are little-endian (R4). -/
abbrev Byte := BitVec 8

/-- One 64-byte line, and so one vector register (R169): byte j at bits 8j+7:8j. -/
abbrev Line := BitVec 512

/-- One tile register of 1,024 bytes (R169): byte j at bits 8j+7:8j. -/
abbrev TileData := BitVec 8192

/-- Sparse data by key, keys strictly rising; a key not listed has the table's default. -/
abbrev Tab (α : Type) := List (Nat × α)

/-- Scalar register number, s0 to s63 (R28). -/
abbrev SReg := BitVec 6
/-- Vector register number, v0 to v31. -/
abbrev VReg := BitVec 5
/-- Tile register number, t0 to t7. -/
abbrev TReg := BitVec 3
/-- Predicate register number, p0 to p7. -/
abbrev PReg := BitVec 3
/-- Port register number, q0 to q7. -/
abbrev QReg := BitVec 3
/-- Accumulator slot number, a0 to a3. -/
abbrev ASlot := BitVec 2

/-- Process id: bits 31:8 the team id, bits 7:0 the member number (R321). -/
abbrev Pid := Nat

end Sys2Proof
end

