-- ==== Sys2Proof/Syntax.lean ====
section
/-! DEFINITION. The instruction type: one constructor per row of spec/opcode_table.json. The first 176 rows are the
instructions of the opcode map (R35); the others are the steps of the device's own agents and of the outside world, which the
table lists beside them without an encoding. -/

namespace Sys2Proof

/-! ## Selectors (R37) -/

/-- Access size, sub-field sz of R37. -/
inductive Sz where | d | w | h | b
  deriving DecidableEq, Repr

/-- Condition, sub-field cnd of R37 (value 7 is reserved). -/
inductive Cnd where | eq | ne | lt | ge | ltn | gen | un
  deriving DecidableEq, Repr

/-- Format tag codes 0 to 13 (R199). -/
inductive Tag where
  | raw | int8 | nat8 | int16 | nat16 | int32 | fp32 | bf16 | fp16 | f8a | f8b | dy8 | int4x2 | acc20
  deriving DecidableEq, Repr

/-- Transposition of LDT, sub-field tx of R37. -/
inductive Tx where | none | x8 | x16
  deriving DecidableEq, Repr

/-- Rounding selector, sub-field rnd of R37; `fctl` takes FCTL.RM. -/
inductive Rnd where | fctl | rne | rtz | rdn | rup | sr
  deriving DecidableEq, Repr

/-- Atomic operation, sub-field op of R37. -/
inductive AOp where | add | and | or | xor | min | max | minn | maxn | swap
  deriving DecidableEq, Repr

/-- Reduction operation, sub-field fop of R37. -/
inductive Fop where | add | min | max
  deriving DecidableEq, Repr

/-- Array mode (R37, R268). -/
inductive Mode where | bf16 | f8a | f8ab | f8ba | f8b | int8 | dy8 | int4x2
  deriving DecidableEq, Repr

/-- Kind of FENCE (R300). -/
inductive FenceKind where | full | acq | rel
  deriving DecidableEq, Repr

/-- Item of SELF (R356). -/
inductive SelfItem where | pid | team | stage | prio | reply
  deriving DecidableEq, Repr

/-- Kind of TLBI (R77). -/
inductive TlbiKind where | va | vaall | asid | all
  deriving DecidableEq, Repr

/-- The operands of PMOV by direction (R229). -/
inductive PMovOps where
  | pp (d s : PReg)
  | ps (d : PReg) (s : SReg)
  | sp (d : SReg) (s : PReg)
  deriving DecidableEq, Repr

/-- The data register of SEND and RECV, by dv (R37). -/
inductive DataReg where
  | sc (r : SReg)
  | vec (r : VReg)
  deriving DecidableEq, Repr

/-! ## What every form carries (R25 to R31) -/

/-- Predicate and scope of PFX.Q (R29). -/
structure PfxQ where
  pred : PReg
  neg : Bool
  /-- scope code 0 to 6 -/
  scope : BitVec 3
  deriving DecidableEq, Repr

/-- The prefixes an instruction carries beyond those its operands imply. `hasR` and `nI` are kept because they give the
instruction's length (R21), which JL, TCAUSE.LEN and containment use. -/
structure Mods where
  /-- a PFX.R prefix is present -/
  hasR : Bool
  /-- number of PFX.I prefixes -/
  nI : BitVec 3
  /-- PFX.M: nf and the four stall-count extension bits -/
  pfxM : Option (Bool × BitVec 4)
  /-- PFX.Q -/
  pfxQ : Option PfxQ
  /-- base word bits 1:0 -/
  stall : BitVec 2
  deriving DecidableEq, Repr

/-! ## Payloads of agent steps -/

/-- Who sends a memory-side request (R47, R79). -/
inductive Requester where
  /-- a core or engine of this device, at panel site 8y + x -/
  | site (n : Nat)
  | host
  | marrun
  deriving DecidableEq, Repr

/-- What a memory-side request does to its line (R47). -/
inductive MemOp where
  | read
  | write (data : Line) (mask : BitVec 64)
  | prefetch
  deriving DecidableEq, Repr

/-- An atomic or reduction as it reaches its home (R286, R293). -/
inductive HomeOp where
  | amo (op : AOp) (wide : Bool) (x : Word)
  | cas (wide : Bool) (e n : Word)
  | red (op : AOp) (wide : Bool) (x : Word)
  | redf (fop : Fop) (bf16 : Bool) (x : Word) (cn : Nat)
  deriving DecidableEq, Repr

/-- How an access that left the cluster ended (R114): its value, or a fault of class `cls` and kind `kind` with detail `aux`. -/
inductive Reply where
  | value (v : TileData)
  | fault (cls kind aux : Nat)
  deriving DecidableEq, Repr

/-- What PLAT records about a reply (R64). -/
structure PlatInfo where
  die : Nat
  minh : Nat
  reqh : Nat
  rsph : Nat
  src : Nat
  lat : Nat
  deriving DecidableEq, Repr

/-- A remote request arriving over Marrun (R112). -/
inductive RemoteReq where
  | load (len : Nat)
  | store (bytes : List Byte)
  /-- the bytes of a line that a mask names, written as one unit (R191), with the line's poison -/
  | storeLine (data : Line) (mask : BitVec 64) (poison : Bool)
  | atomic (op : HomeOp)
  /-- lines of a copy, by address (R122) -/
  | fetch (addrs : List Word)
  /-- CHCLOSE, and TBLK or TUBLK, of the endpoint whose handle stands in the address's place (R341, R348, R355) -/
  | close
  | block (blk : Bool)
  deriving DecidableEq, Repr

/-- What a Marrun packet is for. Request class: an access to a home or an endpoint (R112, R113); a message or the request of a transfer, with its
sender's tag (R122, R329); a withdrawal, or the report that the sender is dead (R335, R134); a token and the serials revoked (R127, R136); a probe (R343). Reply class: the answer to an access, whose data is in the packet's lines; the end of a message; a chunk
(R129); ARRIVE and RELEASE (R121). -/
inductive Body where
  | access (addr : Word) (scope reply : Nat) (req : RemoteReq)
  | answer (reply : Nat) (r : Reply)
  | message (handle : Word) (tag len : Nat) (bulk : Bool)
  | msgEnd (tag : Nat) (r : Reply)
  | withdraw (tag : Nat) (dead : Bool)
  | token (tag cl entry unit : Nat) (serial : BitVec 16) (off len : Nat)
  | chunk (cl entry unit : Nat) (serial : BitVec 16)
  | revoke (tag : Nat) (serials : List (BitVec 16))
  | probe (x : Pid) (origin : Nat) (path : List Nat) (hops : Nat)
  | arrive (n : Nat) (epoch : Bool) (count : Nat)
  | release (n : Nat) (epoch : Bool)
  deriving DecidableEq, Repr

/-- A line on its way: its bytes, check code and poison bit (R107). -/
abbrev SentLine := Line × BitVec 32 × Bool

/-- A Marrun packet (R106, R107): the intermediate group it has yet to pass, the index of the hop it takes, its class, the device that
injected it, the device it is for, and its lines. -/
structure Packet where
  via : Option Nat
  hop : Nat
  rep : Bool
  src : Nat
  dst : Nat
  body : Body
  lines : List SentLine
  deriving DecidableEq, Repr

/-- A Marrun data flit (R107): link word, packet header, at most three lines, and the flit check. `packet` is what the header of a
HEAD flit says, without its lines. -/
structure MarrunFlit where
  seq : BitVec 12
  vc : BitVec 3
  rep : Bool
  head : Bool
  tail : Bool
  hdr : BitVec 256
  lines : List SentLine
  check : BitVec 32
  packet : Option Packet
  deriving DecidableEq, Repr

/-- What an acknowledgement flit carries after BASE (R107, R108): MAP, the credits of the ten channels, and the flit check. -/
structure AckBody where
  map : BitVec 64
  credits : List Nat
  check : BitVec 32
  deriving DecidableEq, Repr

/-- A mesh data flit (R52, R60): source and destination sites, hop so far, network, previous direction. -/
structure MeshFlit where
  src : Nat
  dst : Nat
  hops : Nat
  /-- direction of the last hop: 0 none, 1 north, 2 east, 3 south, 4 west -/
  lastDir : Nat
  /-- whether a north, east or south (VN0), or any non-west (VN1), hop came before -/
  turned : Bool
  line : Line
  code : BitVec 32
  poison : Bool
  /-- resends of this flit so far -/
  resends : Nat
  /-- physical address of the line, 0 when none -/
  pa : Nat
  /-- the requesting process, when one waits for the packet -/
  pid : Option Pid
  deriving DecidableEq, Repr

/-- Thermal reading (R459). -/
inductive Thermal where | normal | throttle | critical
  deriving DecidableEq, Repr

/-- A DOE mailbox request (R97, R458). -/
inductive DoeReq where
  | keyExchange (slot : Nat) (key : BitVec 256) (salt : BitVec 32)
  | setState (st : Nat)
  | endSession
  | measurements
  | reply (pid : Pid) (ws : List Word)
  deriving DecidableEq, Repr

/-- Target of a system-register write by service firmware (R429). -/
inductive RegTarget where
  | device
  | cluster (cl : Nat)
  | die (d : Nat)
  deriving DecidableEq, Repr

/-! ## Instructions and steps -/

/-- One constructor per row of spec/opcode_table.json: the encoded forms in the table's order, then the steps of agents. Encoded forms: `m` the prefixes, `d` the rd field,
`s` the rs field, `t` the PFX.T register (an Option where the form marks it "T opt"). -/
inductive Instr where
  -- two-source scalar group (R221, R222)
  | add (m : Mods) (d s : SReg) (t : Option SReg)
  | sub (m : Mods) (d s : SReg) (t : Option SReg)
  | mul (m : Mods) (d s : SReg) (t : Option SReg)
  | mulh (m : Mods) (d s : SReg) (t : Option SReg)
  | mulhn (m : Mods) (d s : SReg) (t : Option SReg)
  | div (m : Mods) (d s : SReg) (t : Option SReg)
  | divn (m : Mods) (d s : SReg) (t : Option SReg)
  | rem (m : Mods) (d s : SReg) (t : Option SReg)
  | remn (m : Mods) (d s : SReg) (t : Option SReg)
  | and (m : Mods) (d s : SReg) (t : Option SReg)
  | or (m : Mods) (d s : SReg) (t : Option SReg)
  | xor (m : Mods) (d s : SReg) (t : Option SReg)
  | shl (m : Mods) (d s : SReg) (t : Option SReg)
  | shr (m : Mods) (d s : SReg) (t : Option SReg)
  | sar (m : Mods) (d s : SReg) (t : Option SReg)
  | rol (m : Mods) (d s : SReg) (t : Option SReg)
  | min (m : Mods) (d s : SReg) (t : Option SReg)
  | max (m : Mods) (d s : SReg) (t : Option SReg)
  | minn (m : Mods) (d s : SReg) (t : Option SReg)
  | maxn (m : Mods) (d s : SReg) (t : Option SReg)
  | sel (m : Mods) (d s t : SReg)
  | lea (m : Mods) (d s : SReg) (t : Option SReg) (sc : BitVec 2) (imm : Word)
  -- one-source scalar group (R223)
  | neg (m : Mods) (d s : SReg)
  | not (m : Mods) (d s : SReg)
  | clz (m : Mods) (d s : SReg)
  | ctz (m : Mods) (d s : SReg)
  | popc (m : Mods) (d s : SReg)
  | sext (m : Mods) (d s : SReg) (sz : Sz)
  | zext (m : Mods) (d s : SReg) (sz : Sz)
  | mov (m : Mods) (d s : SReg)
  -- immediates (R224)
  | addi (m : Mods) (d : SReg) (imm : Word)
  | andi (m : Mods) (d : SReg) (imm : Word)
  | ori (m : Mods) (d : SReg) (imm : Word)
  | xori (m : Mods) (d : SReg) (imm : Word)
  | movi (m : Mods) (d : SReg) (imm : Word)
  | movhi (m : Mods) (d : SReg) (imm : Word)
  -- compares (R228)
  | cmp (m : Mods) (d : PReg) (s : SReg) (t : Option SReg) (c : Cnd)
  | cmpi (m : Mods) (d : PReg) (s : SReg) (c : Cnd) (imm : Word)
  -- loads and stores (R190 to R197)
  | ld (m : Mods) (d s : SReg) (sz : Sz) (off : Word)
  | lds (m : Mods) (d s : SReg) (sz : Sz) (off : Word)
  | st (m : Mods) (d s : SReg) (sz : Sz) (off : Word)
  | ldv (m : Mods) (d : VReg) (s : SReg) (lf : Option Tag) (off : Word)
  | stv (m : Mods) (d : VReg) (s : SReg) (off : Word)
  | ldt (m : Mods) (d : TReg) (s : SReg) (lf : Option Tag) (tx : Tx) (off : Word)
  | stt (m : Mods) (d : TReg) (s : SReg) (off : Word)
  | ldg (m : Mods) (d : VReg) (s : SReg) (t : VReg) (lf : Option Tag)
  | stx (m : Mods) (d : VReg) (s : SReg) (t : VReg)
  | lda (m : Mods) (d s : SReg) (sz : Sz)
  | stl (m : Mods) (d s : SReg) (sz : Sz)
  | pref (m : Mods) (s : SReg) (lvl : BitVec 2) (off : Word)
  -- control (R231 to R240)
  | b (m : Mods) (disp : Word)
  | bp (m : Mods) (disp : Word)
  | bz (m : Mods) (d : SReg) (disp : Word)
  | bnz (m : Mods) (d : SReg) (disp : Word)
  | j (m : Mods) (d : SReg)
  | jl (m : Mods) (disp : Word)
  | ret (m : Mods)
  | rep (m : Mods) (d : SReg) (n : BitVec 7)
  | nop (m : Mods)
  | tfence (m : Mods)
  | bkpt (m : Mods) (n : BitVec 8)
  -- vectors (R243 to R253)
  | vadd (m : Mods) (d s : VReg) (t : Option VReg) (sat : Bool)
  | vsub (m : Mods) (d s : VReg) (t : Option VReg) (sat : Bool)
  | vmul (m : Mods) (d s : VReg) (t : Option VReg) (sat : Bool)
  | vfma (m : Mods) (d s t : VReg)
  | vfms (m : Mods) (d s t : VReg)
  | vmin (m : Mods) (d s : VReg) (t : Option VReg)
  | vmax (m : Mods) (d s : VReg) (t : Option VReg)
  | vabs (m : Mods) (d s : VReg) (sat : Bool)
  | vneg (m : Mods) (d s : VReg) (sat : Bool)
  | vand (m : Mods) (d s : VReg) (t : Option VReg)
  | vor (m : Mods) (d s : VReg) (t : Option VReg)
  | vxor (m : Mods) (d s : VReg) (t : Option VReg)
  | vnot (m : Mods) (d s : VReg)
  | vshl (m : Mods) (d s : VReg) (t : Option VReg)
  | vshr (m : Mods) (d s : VReg) (t : Option VReg)
  | vsar (m : Mods) (d s : VReg) (t : Option VReg)
  | vcmp (m : Mods) (d : PReg) (s t : VReg) (c : Cnd)
  | vsel (m : Mods) (d s t : VReg)
  | vcvt (m : Mods) (d s : VReg) (fmt : Tag) (rnd : Rnd)
  | vred (m : Mods) (d : SReg) (s : VReg) (fop : Fop)
  | vscan (m : Mods) (d s : VReg) (fop : Fop)
  | vperm (m : Mods) (d s t : VReg)
  | vbcast (m : Mods) (d s : VReg) (lane : BitVec 6)
  | vsplat (m : Mods) (d : VReg) (s : SReg) (fmt : Tag)
  | vext (m : Mods) (d : SReg) (s : VReg) (lane : BitVec 6)
  | vins (m : Mods) (d : VReg) (s : SReg) (lane : BitVec 6)
  | vrcp (m : Mods) (d s : VReg)
  | vrsq (m : Mods) (d s : VReg)
  | vexp2 (m : Mods) (d s : VReg)
  | vlog2 (m : Mods) (d s : VReg)
  | vtanh (m : Mods) (d s : VReg)
  | vdot4 (m : Mods) (d s t : VReg) (sat : Bool)
  | vmac (m : Mods) (d s t : VReg) (sat : Bool)
  | vclamp (m : Mods) (d s t : VReg)
  | pand (m : Mods) (d s : PReg) (t : Option PReg)
  | por (m : Mods) (d s : PReg) (t : Option PReg)
  | pnot (m : Mods) (d s : PReg)
  | pmov (m : Mods) (o : PMovOps)
  -- tiles (R256 to R258)
  | tzero (m : Mods) (d : TReg)
  | tmma (m : Mods) (d s t : TReg)
  | tadd (m : Mods) (d s : TReg) (t : Option TReg) (sat : Bool)
  | tcvt (m : Mods) (d s : TReg) (fmt : Tag) (rnd : Rnd)
  | ttrn (m : Mods) (d s : TReg) (x16 : Bool)
  | tscl (m : Mods) (d : TReg) (s : SReg)
  | ttag (m : Mods) (d : TReg) (fmt : Tag) (scale : BitVec 8)
  | tmov (m : Mods) (d s : TReg)
  -- the array (R282, R283)
  | mlease (m : Mods) (n : BitVec 5)
  | mrel (m : Mods)
  | mma (m : Mods) (d s t : SReg) (slot : ASlot) (mode : Mode)
  | mdrain (m : Mods) (d : SReg) (slot : ASlot) (fmt : Tag)
  | mzero (m : Mods) (slot : ASlot)
  | mstat (m : Mods) (d : SReg) (slot : ASlot)
  | mcarry (m : Mods) (trap : Bool)
  | mwait (m : Mods) (slot : ASlot)
  | mvmq (m : Mods) (d s t : SReg) (mode : Mode)
  -- atomics, reductions, ordering (R287 to R300)
  | amo (m : Mods) (d s t : SReg) (op : AOp) (wide : Bool)
  | cas (m : Mods) (d s t : SReg) (wide : Bool)
  | red (m : Mods) (d s : SReg) (op : AOp) (wide : Bool)
  | redf (m : Mods) (d s : SReg) (fop : Fop) (bf16 : Bool)
  | waitred (m : Mods)
  | fence (m : Mods) (kind : FenceKind)
  -- windows and copies (R158 to R168)
  | wset (m : Mods) (d s : SReg)
  | wclr (m : Mods) (d : SReg)
  | wprobe (m : Mods) (d s : SReg)
  | wwait (m : Mods) (d : SReg)
  | cpy (m : Mods) (d s t : SReg)
  | cpy2 (m : Mods) (d s t : SReg)
  | cpyb (m : Mods) (d : SReg)
  | waitb (m : Mods) (n : BitVec 8)
  | cpys (m : Mods) (d s t : SReg)
  | cpyq (m : Mods) (d s : SReg)
  -- channels and processes (R346 to R357)
  | chnew (m : Mods) (d s : SReg)
  | chclose (m : Mods) (d : SReg) (st : Bool)
  | chbind (m : Mods) (d s : SReg)
  | send (m : Mods) (d : SReg) (x : DataReg) (t : Option SReg) (st : Bool)
  | sendt (m : Mods) (d s : SReg) (t : Option SReg) (st : Bool)
  | recv (m : Mods) (x : DataReg) (s : SReg) (t : Option SReg) (st : Bool)
  | recvt (m : Mods) (d s : SReg) (t : Option SReg) (st : Bool)
  | alt (m : Mods) (d s : SReg) (cnt : BitVec 4) (t : Option SReg) (fair : Bool)
  | qbind (m : Mods) (d : QReg) (s : SReg)
  | qunbind (m : Mods) (d : QReg)
  | spawn (m : Mods) (d s : SReg) (t : Option SReg)
  | prio (m : Mods) (n : BitVec 3)
  | stage (m : Mods) (n : BitVec 4)
  | sleep (m : Mods) (d : SReg)
  | tblk (m : Mods) (d : SReg)
  | tublk (m : Mods) (d : SReg)
  | self (m : Mods) (d : SReg) (item : SelfItem)
  | exit (m : Mods)
  | yield (m : Mods)
  | launch (m : Mods) (d s : SReg) (t : Bool)
  | lstat (m : Mods) (d s : SReg)
  -- barriers (R383, R384)
  | barjoin (m : Mods) (d s : SReg)
  | bararv (m : Mods) (n : BitVec 5)
  | barwait (m : Mods) (n : BitVec 5)
  | bar (m : Mods) (n : BitVec 5)
  | barq (m : Mods) (d : SReg) (n : BitVec 5)
  -- system, experts, grants, trace (R426, R77, R78, R403, R139, R452)
  | trap (m : Mods) (n : BitVec 8)
  | sret (m : Mods)
  | mfsr (m : Mods) (d : SReg) (n : BitVec 12)
  | mtsr (m : Mods) (d : SReg) (n : BitVec 12)
  | tlbi (m : Mods) (d : SReg) (kind : TlbiKind)
  | tlbp (m : Mods) (d s : SReg)
  | phase (m : Mods) (d s : SReg)
  | ctxsync (m : Mods)
  | xbind (m : Mods) (d s : SReg)
  | xqry (m : Mods) (d s : SReg)
  | xpin (m : Mods) (d s : SReg)
  | xmerge (m : Mods) (d : SReg)
  | gpri (m : Mods) (d s : SReg)
  | gqry (m : Mods) (d s : SReg)
  | gcan (m : Mods) (d : SReg)
  | trmark (m : Mods) (d : SReg)
  | evread (m : Mods) (d : SReg) (n : BitVec 8)
  | evgather (m : Mods) (d : SReg) (n : BitVec 5)
  -- steps that other steps bring about
  | coalescingWindowClose (vec : Nat)
  | pageMoveStart (die : Nat)
  | pageMoveCopyDone (die : Nat)
  | pageMoveCasReply (die : Nat)
  | shootdownComplete (die : Nat)
  | scrub (die line : Nat)
  | serverCommandAccept (die msg : Nat)
  | gather (die : Nat)
  | scatter (die : Nat)
  | fill (die : Nat)
  | check (die : Nat)
  | mvm (die : Nat)
  | ackIntervalTimer (link : Nat)
  | lnkrtoExpiry (link : Nat)
  | mergeHoldExpiry (link : Nat)
  | grantRequestArrival (cl msg : Nat)
  | busyResend (cl msg : Nat)
  | grantNext (cl : Nat)
  | tokenReceipt (cl entry unit : Nat) (serial : BitVec 16)
  | chunkArrival (cl entry unit : Nat) (serial : BitVec 16) (lines : List (Line × Bool))
  | tokenExpiry (cl entry : Nat) (serial : BitVec 16)
  | orphanTimeout (cl entry : Nat)
  | chunkCommit (pid : Pid)
  | storeAck (pid : Pid) (id : Nat) (fault : Option (Nat × Nat)) (plat : PlatInfo)
  | amoReply (pid : Pid) (id : Nat) (r : Reply) (plat : Option PlatInfo)
  | reductionAck (pid : Pid) (id : Nat) (fault : Option (Nat × Nat))
  | atomicAtHome (loc : Nat) (op : HomeOp) (key : Nat)
  | redfAddArrival (loc : Nat) (bf16 : Bool) (x : Word) (cn : Nat)
  | messageArrival (cl entry : Nat)
  | deadlineExpiry (pid : Pid)
  | withdrawalArrival (pid : Pid)
  | sleepWake (pid : Pid)
  | probeTimer (pid : Pid)
  | probeArrival (x : Pid) (origin : Nat) (path : List Nat) (hops : Nat)
  | launchAcceptance (req : Nat)
  | dispatchClaim (die : Nat)
  | teamFirm (cls : Nat)
  | slotRefill (cl core : Nat)
  | workSteal (cl core : Nat)
  | priorityPreemption (cl core : Nat)
  | timeSliceExpiry (pid : Pid)
  | classPreemption (die : Nat)
  | advertisement (die : Nat)
  | advertisementReceipt (die toCl : Nat)
  | backlogResume (die : Nat)
  | registerLineFetch (pid : Pid) (line : Nat)
  | barrierAndRise (n : Nat)
  | leaseGrant (cl : Nat)
  | leaseTimeLimit (cl : Nat)
  | sliceComplete (cl slot : Nat)
  | mdrainComplete (cl slot : Nat)
  | mzeroComplete (cl slot : Nat)
  | serviceSlotStart (cl : Nat)
  | phaseOverrun (pid : Pid)
  | haltComplete (cl : Nat)
  | snufferSample (die n : Nat) (value : Nat)
  | traceSpill (cl : Nat)
  | stateLogExtension (cl core : Nat)
  | twinCompare (epoch : Nat)
  | twinUnpairedTimeout (key : Nat)
  | growCopyComplete (x : Nat) (fault : Option (Nat × Nat × Word))
  | growFillReply (x : Nat) (status : Nat) (faddr : Word)
  | versionAck (x point : Nat)
  | teamMigrationArrival (team toCl : Nat)
  | xmergeComplete (pid : Pid)
  | loadReply (pid : Pid) (id : Nat) (r : Reply) (plat : PlatInfo)
  | remoteAccessArrival (src : Nat) (addr : Word) (reply : Nat) (req : RemoteReq)
  | walkComplete (cl core asid : Nat) (va : Word) (write : Bool)
  | migfrmPush (pa : Word)
  -- steps that come from outside the device or from its controllers
  | warmStart (preserve : Bool)
  | thermalSample (level : Thermal)
  | criticalRecheck (level : Thermal)
  | hostCxlMemRead (h len : Nat)
  | hostCxlMemWrite (h : Nat) (bytes : List Byte)
  | launchSlotLaunch (q : Nat) (slot : List Word)
  | launchSlotNop (q : Nat) (slot : List Word)
  | queueReset (q : Nat)
  | hostMailboxInbound (mb : Nat)
  | secureSessionLoss (st : Nat)
  | memorySideAccess (line : Nat) (who : Requester) (op : MemOp)
  | meshFlitReceive (site : Nat) (f : MeshFlit)
  | marrunDataFlit (link : Nat) (f : MarrunFlit)
  | marrunAckFlit (link : Nat) (base : BitVec 12) (body : AckBody)
  | mergeRecordReply (rec : Nat) (r : Reply)
  | barrierArriveMessage (n : Nat) (epoch : Bool) (count dev : Nat)
  | barrierReleaseMessage (n : Nat) (epoch : Bool)
  | revokedSerialsReceipt (msg : Nat) (serials : List (BitVec 16))
  | grctlClear (cl : Nat)
  | engineLineWrite (cl off : Nat) (data : Line) (poison : Bool)
  | cpyctlResume (cl team place : Nat)
  | cpyctlEndFailed (cl team place : Nat)
  | debugHalt (cl : Nat)
  | debugResume (cl : Nat)
  | debugStep (cl : Nat)
  | watchpointReplay (cl : Nat)
  | daccRecord (cl pid : Nat) (write : Bool)
  | daccSaveArea (cl pid : Nat) (write : Bool)
  | daccTrapFrame (cl pid : Nat) (write : Bool)
  | daccRegionEntry (cl idx : Nat) (write : Bool)
  | daccEndpointEntry (cl idx : Nat) (write : Bool)
  | daccBatchStatus (cl pid : Nat) (write : Bool)
  | daccBarrierState (cl pid : Nat) (write : Bool)
  | daccAccumulatorSlot (cl idx : Nat) (write : Bool)
  | daccGrantEntry (cl idx : Nat) (write : Bool)
  | daccReplicaEntry (cl idx : Nat) (write : Bool)
  | daccOriginTable (cl pid : Nat) (write : Bool)
  | daccMemoryRead (cl pid count : Nat)
  | daccMemoryWrite (cl pid count : Nat)
  | snufferFiredClear (die n : Nat)
  | traceSessionOpen (cl : Nat) (v : Word)
  | traceSessionClose (cl : Nat)
  | registerWrite (tgt : RegTarget) (n : Nat) (v : Word)
  | doeMailboxRequest (r : DoeReq)
  | routingTableWrite (site dst port : Nat)
  -- steps without operands
  | coldStart
  | fuseLoad
  | fullBist
  | hbmTraining
  | memoryBist
  | firmwareAuthentication
  | attestationSetup
  | degradedStart
  | counterHalving
  | chandlerWindowEnd
  deriving DecidableEq, Repr

end Sys2Proof
end

