-- ==== Sys2Proof/WellFormed.lean ====
section
/-! DEFINITION. Which instructions have an encoding: the prefixes their operands need are there, no more than four, all accepted
by the form, and every selector and immediate is one the form takes (R25 to R29, R34 to R37). -/

namespace Sys2Proof

/-- How a form reads an immediate (R27). -/
inductive ImmKind where | none | signed | unsigned
  deriving DecidableEq, Repr

/-- The immediate whose `width` bits are the low bits of x (R27). -/
def immOf (k : ImmKind) (width x : Nat) : Word :=
  let y := x % 2 ^ width
  match k with
  | .none => 0
  | .unsigned => BitVec.ofNat 64 y
  | .signed => if width ≠ 0 ∧ 2 ^ (width - 1) ≤ y then BitVec.ofNat 64 (y + (2 ^ 64 - 2 ^ width)) else BitVec.ofNat 64 y

/-- Scope codes a form takes (R29, R77): 0 none, 1 codes 0 to 6, 2 those of TLBI. -/
def scopeOk (scp : Nat) (c : BitVec 3) : Bool :=
  match scp with
  | 0 => true
  | 1 => c ≠ 7
  | _ => c = 0 ∨ c = 2 ∨ c = 3 ∨ c = 4 ∨ c = 5

/-! ## Selector codes (R37) -/

def Sz.code : Sz → Nat | .d => 0 | .w => 1 | .h => 2 | .b => 3
def Cnd.code : Cnd → Nat | .eq => 0 | .ne => 1 | .lt => 2 | .ge => 3 | .ltn => 4 | .gen => 5 | .un => 6
def Tag.code : Tag → Nat
  | .raw => 0 | .int8 => 1 | .nat8 => 2 | .int16 => 3 | .nat16 => 4 | .int32 => 5 | .fp32 => 6 | .bf16 => 7 | .fp16 => 8
  | .f8a => 9 | .f8b => 10 | .dy8 => 11 | .int4x2 => 12 | .acc20 => 13
def lfCode : Option Tag → Nat | none => 0 | some t => 16 + t.code
def Tx.code : Tx → Nat | .none => 0 | .x8 => 1 | .x16 => 2
def Rnd.code : Rnd → Nat | .fctl => 0 | .rne => 1 | .rtz => 2 | .rdn => 3 | .rup => 4 | .sr => 5
def AOp.code : AOp → Nat
  | .add => 0 | .and => 1 | .or => 2 | .xor => 3 | .min => 4 | .max => 5 | .minn => 6 | .maxn => 7 | .swap => 8
def Fop.code : Fop → Nat | .add => 0 | .min => 1 | .max => 2
def Mode.code : Mode → Nat
  | .bf16 => 0 | .f8a => 1 | .f8ab => 2 | .f8ba => 3 | .f8b => 4 | .int8 => 5 | .dy8 => 6 | .int4x2 => 7
def wideCode : Bool → Nat | true => 0 | false => 1
def FenceKind.code : FenceKind → Nat | .full => 0 | .acq => 1 | .rel => 2
def SelfItem.code : SelfItem → Nat | .pid => 0 | .team => 1 | .stage => 2 | .prio => 3 | .reply => 4
def TlbiKind.code : TlbiKind → Nat | .va => 0 | .vaall => 1 | .asid => 2 | .all => 3
def DataReg.num : DataReg → Nat | .sc r => r.toNat | .vec r => r.toNat
def DataReg.dv : DataReg → Nat | .sc _ => 0 | .vec _ => 1
def PMovOps.rd : PMovOps → Nat | .pp d _ => d.toNat | .ps d _ => d.toNat | .sp d _ => d.toNat
def PMovOps.rs : PMovOps → Nat | .pp _ s => s.toNat | .ps _ s => s.toNat | .sp _ s => s.toNat
def PMovOps.dir : PMovOps → Nat | .pp .. => 0 | .ps .. => 1 | .sp .. => 2

/-- Formats a conversion or a drain writes (R209, R279). -/
def Tag.cvtOk (t : Tag) : Bool := t ≠ .raw && t ≠ .acc20
/-- Rounding selectors a conversion to `t` takes (R209). -/
def Rnd.okFor (r : Rnd) (t : Tag) : Bool := r ≠ .sr || t = .bf16 || t = .f8a || t = .f8b

/-! ## The check -/

/-- What the check needs of one instruction: whether its page needs PFX.P, a register number needs PFX.R, PFX.T is there, what
the form accepts, its selector, its immediate with the bits the base word holds, its scopes, and its own limits. -/
structure Shape where
  m : Mods
  paged : Bool
  high : Bool
  third : Bool
  acceptR : Bool
  acceptI : Bool
  w : Nat
  sel : Nat
  imm : ImmKind
  base : Nat
  v : Word
  needQ : Bool
  scp : Nat
  ok : Bool

/-- At most four prefixes (R26). -/
def Shape.count (h : Shape) : Nat :=
  h.paged.toNat + h.m.hasR.toNat + h.third.toNat + h.m.pfxM.isSome.toNat + h.m.pfxQ.isSome.toNat + h.m.nI.toNat

/-- The checks of R26 to R29: prefix count, register prefix, acceptance, selector, immediate, predicate and scope. -/
def Shape.wf (h : Shape) : Bool :=
  h.ok && h.count ≤ 4 && (!h.high || h.m.hasR) && (!h.m.hasR || h.acceptR) && (h.m.nI = 0 || h.acceptI) &&
  h.sel < 2 ^ (min h.w (7 * h.m.nI.toNat)) &&
  immOf h.imm (h.base + (7 * h.m.nI.toNat - h.w)) h.v.toNat = h.v &&
  (match h.m.pfxQ with
    | none => !h.needQ
    | some q => !(q.pred = 0 && q.neg) && scopeOk h.scp q.scope && (h.scp ≠ 0 || q.scope = 0))

/-- The shape of an encoded instruction; none for a step of an agent. -/
def shapeOf (i : Instr) : Option Shape :=
  match i with
  | .add m d s t => some ⟨m, false, (16 ≤ d.toNat || 16 ≤ s.toNat), t.isSome, true, false, 0, 0, .none, 0, 0, false, 0, true⟩
  | .sub m d s t => some ⟨m, false, (16 ≤ d.toNat || 16 ≤ s.toNat), t.isSome, true, false, 0, 0, .none, 0, 0, false, 0, true⟩
  | .mul m d s t => some ⟨m, false, (16 ≤ d.toNat || 16 ≤ s.toNat), t.isSome, true, false, 0, 0, .none, 0, 0, false, 0, true⟩
  | .mulh m d s t => some ⟨m, false, (16 ≤ d.toNat || 16 ≤ s.toNat), t.isSome, true, false, 0, 0, .none, 0, 0, false, 0, true⟩
  | .mulhn m d s t => some ⟨m, false, (16 ≤ d.toNat || 16 ≤ s.toNat), t.isSome, true, false, 0, 0, .none, 0, 0, false, 0, true⟩
  | .div m d s t => some ⟨m, false, (16 ≤ d.toNat || 16 ≤ s.toNat), t.isSome, true, false, 0, 0, .none, 0, 0, false, 0, true⟩
  | .divn m d s t => some ⟨m, false, (16 ≤ d.toNat || 16 ≤ s.toNat), t.isSome, true, false, 0, 0, .none, 0, 0, false, 0, true⟩
  | .rem m d s t => some ⟨m, false, (16 ≤ d.toNat || 16 ≤ s.toNat), t.isSome, true, false, 0, 0, .none, 0, 0, false, 0, true⟩
  | .remn m d s t => some ⟨m, false, (16 ≤ d.toNat || 16 ≤ s.toNat), t.isSome, true, false, 0, 0, .none, 0, 0, false, 0, true⟩
  | .and m d s t => some ⟨m, false, (16 ≤ d.toNat || 16 ≤ s.toNat), t.isSome, true, false, 0, 0, .none, 0, 0, false, 0, true⟩
  | .or m d s t => some ⟨m, false, (16 ≤ d.toNat || 16 ≤ s.toNat), t.isSome, true, false, 0, 0, .none, 0, 0, false, 0, true⟩
  | .xor m d s t => some ⟨m, false, (16 ≤ d.toNat || 16 ≤ s.toNat), t.isSome, true, false, 0, 0, .none, 0, 0, false, 0, true⟩
  | .shl m d s t => some ⟨m, false, (16 ≤ d.toNat || 16 ≤ s.toNat), t.isSome, true, false, 0, 0, .none, 0, 0, false, 0, true⟩
  | .shr m d s t => some ⟨m, false, (16 ≤ d.toNat || 16 ≤ s.toNat), t.isSome, true, false, 0, 0, .none, 0, 0, false, 0, true⟩
  | .sar m d s t => some ⟨m, false, (16 ≤ d.toNat || 16 ≤ s.toNat), t.isSome, true, false, 0, 0, .none, 0, 0, false, 0, true⟩
  | .rol m d s t => some ⟨m, false, (16 ≤ d.toNat || 16 ≤ s.toNat), t.isSome, true, false, 0, 0, .none, 0, 0, false, 0, true⟩
  | .min m d s t => some ⟨m, false, (16 ≤ d.toNat || 16 ≤ s.toNat), t.isSome, true, false, 0, 0, .none, 0, 0, false, 0, true⟩
  | .max m d s t => some ⟨m, false, (16 ≤ d.toNat || 16 ≤ s.toNat), t.isSome, true, false, 0, 0, .none, 0, 0, false, 0, true⟩
  | .minn m d s t => some ⟨m, false, (16 ≤ d.toNat || 16 ≤ s.toNat), t.isSome, true, false, 0, 0, .none, 0, 0, false, 0, true⟩
  | .maxn m d s t => some ⟨m, false, (16 ≤ d.toNat || 16 ≤ s.toNat), t.isSome, true, false, 0, 0, .none, 0, 0, false, 0, true⟩
  | .sel m d s _ => some ⟨m, false, (16 ≤ d.toNat || 16 ≤ s.toNat), true, true, false, 0, 0, .none, 0, 0, false, 0, true⟩
  | .lea m d s t sc imm => some ⟨m, false, (16 ≤ d.toNat || 16 ≤ s.toNat), t.isSome, true, true, 2, sc.toNat, .signed, 0, imm, false, 0, (t.isSome || sc = 0)⟩
  | .neg m d s => some ⟨m, false, (16 ≤ d.toNat || 16 ≤ s.toNat), false, true, true, 0, 0, .none, 0, 0, false, 0, true⟩
  | .not m d s => some ⟨m, false, (16 ≤ d.toNat || 16 ≤ s.toNat), false, true, true, 0, 0, .none, 0, 0, false, 0, true⟩
  | .clz m d s => some ⟨m, false, (16 ≤ d.toNat || 16 ≤ s.toNat), false, true, true, 0, 0, .none, 0, 0, false, 0, true⟩
  | .ctz m d s => some ⟨m, false, (16 ≤ d.toNat || 16 ≤ s.toNat), false, true, true, 0, 0, .none, 0, 0, false, 0, true⟩
  | .popc m d s => some ⟨m, false, (16 ≤ d.toNat || 16 ≤ s.toNat), false, true, true, 0, 0, .none, 0, 0, false, 0, true⟩
  | .mov m d s => some ⟨m, false, (16 ≤ d.toNat || 16 ≤ s.toNat), false, true, true, 0, 0, .none, 0, 0, false, 0, true⟩
  | .sext m d s sz => some ⟨m, false, (16 ≤ d.toNat || 16 ≤ s.toNat), false, true, true, 2, sz.code, .none, 0, 0, false, 0, (sz ≠ .d)⟩
  | .zext m d s sz => some ⟨m, false, (16 ≤ d.toNat || 16 ≤ s.toNat), false, true, true, 2, sz.code, .none, 0, 0, false, 0, (sz ≠ .d)⟩
  | .addi m d imm => some ⟨m, false, (16 ≤ d.toNat), false, true, true, 0, 0, .signed, 4, imm, false, 0, true⟩
  | .andi m d imm => some ⟨m, false, (16 ≤ d.toNat), false, true, true, 0, 0, .signed, 4, imm, false, 0, true⟩
  | .ori m d imm => some ⟨m, false, (16 ≤ d.toNat), false, true, true, 0, 0, .signed, 4, imm, false, 0, true⟩
  | .xori m d imm => some ⟨m, false, (16 ≤ d.toNat), false, true, true, 0, 0, .signed, 4, imm, false, 0, true⟩
  | .movi m d imm => some ⟨m, false, (16 ≤ d.toNat), false, true, true, 0, 0, .signed, 4, imm, false, 0, true⟩
  | .movhi m d imm => some ⟨m, false, (16 ≤ d.toNat), false, true, true, 0, 0, .unsigned, 4, imm, false, 0, true⟩
  | .cmp m d s t c => some ⟨m, false, (16 ≤ d.toNat || 16 ≤ s.toNat), t.isSome, true, true, 3, c.code, .none, 0, 0, false, 0, (c ≠ .un)⟩
  | .cmpi m d s c imm => some ⟨m, false, (16 ≤ d.toNat || 16 ≤ s.toNat), false, true, true, 3, c.code, .signed, 0, imm, false, 0, (c ≠ .un)⟩
  | .ld m d s sz off => some ⟨m, false, (16 ≤ d.toNat || 16 ≤ s.toNat), false, true, true, 2, sz.code, .signed, 0, off, false, 0, true⟩
  | .lds m d s sz off => some ⟨m, false, (16 ≤ d.toNat || 16 ≤ s.toNat), false, true, true, 2, sz.code, .signed, 0, off, false, 0, true⟩
  | .st m d s sz off => some ⟨m, false, (16 ≤ d.toNat || 16 ≤ s.toNat), false, true, true, 2, sz.code, .signed, 0, off, false, 0, true⟩
  | .ldv m d s lf off => some ⟨m, false, (16 ≤ d.toNat || 16 ≤ s.toNat), false, true, true, 5, (lfCode lf), .signed, 0, off, false, 0, true⟩
  | .stv m d s off => some ⟨m, false, (16 ≤ d.toNat || 16 ≤ s.toNat), false, true, true, 0, 0, .signed, 0, off, false, 0, true⟩
  | .ldt m d s lf tx off => some ⟨m, false, (16 ≤ d.toNat || 16 ≤ s.toNat), false, true, true, 7, (lfCode lf + 32 * tx.code), .signed, 0, off, false, 0, true⟩
  | .stt m d s off => some ⟨m, false, (16 ≤ d.toNat || 16 ≤ s.toNat), false, true, true, 0, 0, .signed, 0, off, false, 0, true⟩
  | .ldg m d s _ lf => some ⟨m, false, (16 ≤ d.toNat || 16 ≤ s.toNat), true, true, true, 5, (lfCode lf), .none, 0, 0, false, 0, true⟩
  | .stx m d s _ => some ⟨m, false, (16 ≤ d.toNat || 16 ≤ s.toNat), true, true, false, 0, 0, .none, 0, 0, false, 0, true⟩
  | .lda m d s sz => some ⟨m, false, (16 ≤ d.toNat || 16 ≤ s.toNat), false, true, true, 2, sz.code, .none, 0, 0, false, 1, true⟩
  | .stl m d s sz => some ⟨m, false, (16 ≤ d.toNat || 16 ≤ s.toNat), false, true, true, 2, sz.code, .none, 0, 0, false, 1, true⟩
  | .pref m s lvl off => some ⟨m, false, (16 ≤ s.toNat), false, true, true, 2, lvl.toNat, .signed, 0, off, false, 0, (lvl ≠ 3)⟩
  | .b m disp => some ⟨m, false, false, false, false, true, 0, 0, .signed, 8, disp, false, 0, true⟩
  | .bp m disp => some ⟨m, false, false, false, false, true, 0, 0, .signed, 8, disp, true, 0, true⟩
  | .jl m disp => some ⟨m, false, false, false, false, true, 0, 0, .signed, 8, disp, false, 0, true⟩
  | .bz m d disp => some ⟨m, false, (16 ≤ d.toNat), false, true, true, 0, 0, .signed, 4, disp, false, 0, true⟩
  | .bnz m d disp => some ⟨m, false, (16 ≤ d.toNat), false, true, true, 0, 0, .signed, 4, disp, false, 0, true⟩
  | .j m d => some ⟨m, false, (16 ≤ d.toNat), false, true, false, 0, 0, .none, 0, 0, false, 0, true⟩
  | .ret m => some ⟨m, false, false, false, false, false, 0, 0, .none, 0, 0, false, 0, true⟩
  | .rep m d n => some ⟨m, false, (16 ≤ d.toNat), false, true, true, 0, 0, .unsigned, 4, (n.setWidth 64), false, 0, (1 ≤ n.toNat && n.toNat ≤ 64)⟩
  | .nop m => some ⟨m, false, false, false, false, false, 0, 0, .none, 0, 0, false, 0, true⟩
  | .tfence m => some ⟨m, false, false, false, false, false, 0, 0, .none, 0, 0, false, 0, true⟩
  | .bkpt m n => some ⟨m, false, false, false, false, true, 0, 0, .unsigned, 4, (n.setWidth 64), false, 0, true⟩
  | .vadd m d s t sat => some ⟨m, true, (16 ≤ d.toNat || 16 ≤ s.toNat), t.isSome, true, true, 1, sat.toNat, .none, 0, 0, false, 0, true⟩
  | .vsub m d s t sat => some ⟨m, true, (16 ≤ d.toNat || 16 ≤ s.toNat), t.isSome, true, true, 1, sat.toNat, .none, 0, 0, false, 0, true⟩
  | .vmul m d s t sat => some ⟨m, true, (16 ≤ d.toNat || 16 ≤ s.toNat), t.isSome, true, true, 1, sat.toNat, .none, 0, 0, false, 0, true⟩
  | .vfma m d s _ => some ⟨m, true, (16 ≤ d.toNat || 16 ≤ s.toNat), true, true, false, 0, 0, .none, 0, 0, false, 0, true⟩
  | .vfms m d s _ => some ⟨m, true, (16 ≤ d.toNat || 16 ≤ s.toNat), true, true, false, 0, 0, .none, 0, 0, false, 0, true⟩
  | .vmin m d s t => some ⟨m, true, (16 ≤ d.toNat || 16 ≤ s.toNat), t.isSome, true, false, 0, 0, .none, 0, 0, false, 0, true⟩
  | .vmax m d s t => some ⟨m, true, (16 ≤ d.toNat || 16 ≤ s.toNat), t.isSome, true, false, 0, 0, .none, 0, 0, false, 0, true⟩
  | .vabs m d s sat => some ⟨m, true, (16 ≤ d.toNat || 16 ≤ s.toNat), false, true, true, 1, sat.toNat, .none, 0, 0, false, 0, true⟩
  | .vneg m d s sat => some ⟨m, true, (16 ≤ d.toNat || 16 ≤ s.toNat), false, true, true, 1, sat.toNat, .none, 0, 0, false, 0, true⟩
  | .vand m d s t => some ⟨m, true, (16 ≤ d.toNat || 16 ≤ s.toNat), t.isSome, true, false, 0, 0, .none, 0, 0, false, 0, true⟩
  | .vor m d s t => some ⟨m, true, (16 ≤ d.toNat || 16 ≤ s.toNat), t.isSome, true, false, 0, 0, .none, 0, 0, false, 0, true⟩
  | .vxor m d s t => some ⟨m, true, (16 ≤ d.toNat || 16 ≤ s.toNat), t.isSome, true, false, 0, 0, .none, 0, 0, false, 0, true⟩
  | .vnot m d s => some ⟨m, true, (16 ≤ d.toNat || 16 ≤ s.toNat), false, true, false, 0, 0, .none, 0, 0, false, 0, true⟩
  | .vshl m d s t => some ⟨m, true, (16 ≤ d.toNat || 16 ≤ s.toNat), t.isSome, true, false, 0, 0, .none, 0, 0, false, 0, true⟩
  | .vshr m d s t => some ⟨m, true, (16 ≤ d.toNat || 16 ≤ s.toNat), t.isSome, true, false, 0, 0, .none, 0, 0, false, 0, true⟩
  | .vsar m d s t => some ⟨m, true, (16 ≤ d.toNat || 16 ≤ s.toNat), t.isSome, true, false, 0, 0, .none, 0, 0, false, 0, true⟩
  | .vcmp m d s _ c => some ⟨m, true, (16 ≤ d.toNat || 16 ≤ s.toNat), true, true, true, 3, c.code, .none, 0, 0, false, 0, true⟩
  | .vsel m d s _ => some ⟨m, true, (16 ≤ d.toNat || 16 ≤ s.toNat), true, true, false, 0, 0, .none, 0, 0, false, 0, true⟩
  | .vcvt m d s fmt rnd => some ⟨m, true, (16 ≤ d.toNat || 16 ≤ s.toNat), false, true, true, 7, (fmt.code + 16 * rnd.code), .none, 0, 0, false, 0, (fmt.cvtOk && rnd.okFor fmt)⟩
  | .vred m d s fop => some ⟨m, true, (16 ≤ d.toNat || 16 ≤ s.toNat), false, true, true, 2, fop.code, .none, 0, 0, false, 0, true⟩
  | .vscan m d s fop => some ⟨m, true, (16 ≤ d.toNat || 16 ≤ s.toNat), false, true, true, 2, fop.code, .none, 0, 0, false, 0, true⟩
  | .vperm m d s _ => some ⟨m, true, (16 ≤ d.toNat || 16 ≤ s.toNat), true, true, false, 0, 0, .none, 0, 0, false, 0, true⟩
  | .vbcast m d s lane => some ⟨m, true, (16 ≤ d.toNat || 16 ≤ s.toNat), false, true, true, 0, 0, .unsigned, 0, (lane.setWidth 64), false, 0, true⟩
  | .vsplat m d s fmt => some ⟨m, true, (16 ≤ d.toNat || 16 ≤ s.toNat), false, true, true, 4, fmt.code, .none, 0, 0, false, 0, true⟩
  | .vext m d s lane => some ⟨m, true, (16 ≤ d.toNat || 16 ≤ s.toNat), false, true, true, 0, 0, .unsigned, 0, (lane.setWidth 64), false, 0, true⟩
  | .vins m d s lane => some ⟨m, true, (16 ≤ d.toNat || 16 ≤ s.toNat), false, true, true, 0, 0, .unsigned, 0, (lane.setWidth 64), false, 0, true⟩
  | .vrcp m d s => some ⟨m, true, (16 ≤ d.toNat || 16 ≤ s.toNat), false, true, false, 0, 0, .none, 0, 0, false, 0, true⟩
  | .vrsq m d s => some ⟨m, true, (16 ≤ d.toNat || 16 ≤ s.toNat), false, true, false, 0, 0, .none, 0, 0, false, 0, true⟩
  | .vexp2 m d s => some ⟨m, true, (16 ≤ d.toNat || 16 ≤ s.toNat), false, true, false, 0, 0, .none, 0, 0, false, 0, true⟩
  | .vlog2 m d s => some ⟨m, true, (16 ≤ d.toNat || 16 ≤ s.toNat), false, true, false, 0, 0, .none, 0, 0, false, 0, true⟩
  | .vtanh m d s => some ⟨m, true, (16 ≤ d.toNat || 16 ≤ s.toNat), false, true, false, 0, 0, .none, 0, 0, false, 0, true⟩
  | .vdot4 m d s _ sat => some ⟨m, true, (16 ≤ d.toNat || 16 ≤ s.toNat), true, true, true, 1, sat.toNat, .none, 0, 0, false, 0, true⟩
  | .vmac m d s _ sat => some ⟨m, true, (16 ≤ d.toNat || 16 ≤ s.toNat), true, true, true, 1, sat.toNat, .none, 0, 0, false, 0, true⟩
  | .vclamp m d s _ => some ⟨m, true, (16 ≤ d.toNat || 16 ≤ s.toNat), true, true, false, 0, 0, .none, 0, 0, false, 0, true⟩
  | .pand m d s t => some ⟨m, true, (16 ≤ d.toNat || 16 ≤ s.toNat), t.isSome, false, false, 0, 0, .none, 0, 0, false, 0, true⟩
  | .por m d s t => some ⟨m, true, (16 ≤ d.toNat || 16 ≤ s.toNat), t.isSome, false, false, 0, 0, .none, 0, 0, false, 0, true⟩
  | .pnot m d s => some ⟨m, true, (16 ≤ d.toNat || 16 ≤ s.toNat), false, false, false, 0, 0, .none, 0, 0, false, 0, true⟩
  | .pmov m o => some ⟨m, true, (16 ≤ o.rd || 16 ≤ o.rs), false, true, true, 2, o.dir, .none, 0, 0, false, 0, true⟩
  | .tzero m d => some ⟨m, true, (16 ≤ d.toNat), false, false, false, 0, 0, .none, 0, 0, false, 0, true⟩
  | .tmma m d s _ => some ⟨m, true, (16 ≤ d.toNat || 16 ≤ s.toNat), true, false, false, 0, 0, .none, 0, 0, false, 0, true⟩
  | .tadd m d s t sat => some ⟨m, true, (16 ≤ d.toNat || 16 ≤ s.toNat), t.isSome, false, true, 1, sat.toNat, .none, 0, 0, false, 0, true⟩
  | .tcvt m d s fmt rnd => some ⟨m, true, (16 ≤ d.toNat || 16 ≤ s.toNat), false, false, true, 7, (fmt.code + 16 * rnd.code), .none, 0, 0, false, 0, (fmt.cvtOk && rnd.okFor fmt)⟩
  | .ttrn m d s x16 => some ⟨m, true, (16 ≤ d.toNat || 16 ≤ s.toNat), false, false, true, 1, x16.toNat, .none, 0, 0, false, 0, true⟩
  | .tscl m d s => some ⟨m, true, (16 ≤ d.toNat || 16 ≤ s.toNat), false, true, false, 0, 0, .none, 0, 0, false, 0, true⟩
  | .ttag m d _ scale => some ⟨m, true, (16 ≤ d.toNat), false, false, true, 0, 0, .signed, 0, (scale.signExtend 64), false, 0, true⟩
  | .tmov m d s => some ⟨m, true, (16 ≤ d.toNat || 16 ≤ s.toNat), false, false, false, 0, 0, .none, 0, 0, false, 0, true⟩
  | .mlease m n => some ⟨m, true, false, false, false, true, 0, 0, .unsigned, 4, (n.setWidth 64), false, 0, (1 ≤ n.toNat && n.toNat ≤ 16)⟩
  | .mrel m => some ⟨m, true, false, false, false, false, 0, 0, .none, 0, 0, false, 0, true⟩
  | .mma m d s _ slot mode => some ⟨m, true, (16 ≤ d.toNat || 16 ≤ s.toNat), true, true, true, 6, (slot.toNat + 4 * mode.code), .none, 0, 0, false, 0, true⟩
  | .mdrain m d _ fmt => some ⟨m, true, (16 ≤ d.toNat), false, true, true, 4, fmt.code, .none, 0, 0, false, 0, fmt.cvtOk⟩
  | .mzero m _ => some ⟨m, true, false, false, false, false, 0, 0, .none, 0, 0, false, 0, true⟩
  | .mstat m d _ => some ⟨m, true, (16 ≤ d.toNat), false, true, false, 0, 0, .none, 0, 0, false, 0, true⟩
  | .mcarry m _ => some ⟨m, true, false, false, false, false, 0, 0, .none, 0, 0, false, 0, true⟩
  | .mwait m _ => some ⟨m, true, false, false, false, false, 0, 0, .none, 0, 0, false, 0, true⟩
  | .mvmq m d s _ mode => some ⟨m, true, (16 ≤ d.toNat || 16 ≤ s.toNat), true, true, true, 4, mode.code, .none, 0, 0, false, 0, true⟩
  | .amo m d s _ op wide => some ⟨m, true, (16 ≤ d.toNat || 16 ≤ s.toNat), true, true, true, 6, (op.code + 16 * (wideCode wide)), .none, 0, 0, false, 1, true⟩
  | .cas m d s _ wide => some ⟨m, true, (16 ≤ d.toNat || 16 ≤ s.toNat), true, true, true, 2, (wideCode wide), .none, 0, 0, false, 1, true⟩
  | .red m d s op wide => some ⟨m, true, (16 ≤ d.toNat || 16 ≤ s.toNat), false, true, true, 6, (op.code + 16 * (wideCode wide)), .none, 0, 0, false, 1, (op ≠ .swap)⟩
  | .redf m d s fop bf16 => some ⟨m, true, (16 ≤ d.toNat || 16 ≤ s.toNat), false, true, true, 6, (fop.code + 4 * (6 + bf16.toNat)), .none, 0, 0, false, 1, true⟩
  | .waitred m => some ⟨m, true, false, false, false, false, 0, 0, .none, 0, 0, false, 0, true⟩
  | .fence m _ => some ⟨m, true, false, false, false, false, 0, 0, .none, 0, 0, false, 1, true⟩
  | .wset m d s => some ⟨m, true, (16 ≤ d.toNat || 16 ≤ s.toNat), false, true, false, 0, 0, .none, 0, 0, false, 0, true⟩
  | .wclr m d => some ⟨m, true, (16 ≤ d.toNat), false, true, false, 0, 0, .none, 0, 0, false, 0, true⟩
  | .wprobe m d s => some ⟨m, true, (16 ≤ d.toNat || 16 ≤ s.toNat), false, true, false, 0, 0, .none, 0, 0, false, 0, true⟩
  | .wwait m d => some ⟨m, true, (16 ≤ d.toNat), false, true, false, 0, 0, .none, 0, 0, false, 0, true⟩
  | .cpy m d s _ => some ⟨m, true, (16 ≤ d.toNat || 16 ≤ s.toNat), true, true, false, 0, 0, .none, 0, 0, false, 0, true⟩
  | .cpy2 m d s _ => some ⟨m, true, (16 ≤ d.toNat || 16 ≤ s.toNat), true, true, false, 0, 0, .none, 0, 0, false, 0, true⟩
  | .cpyb m d => some ⟨m, true, (16 ≤ d.toNat), false, true, false, 0, 0, .none, 0, 0, false, 0, true⟩
  | .waitb m n => some ⟨m, true, false, false, false, true, 0, 0, .unsigned, 4, (n.setWidth 64), false, 0, true⟩
  | .cpys m d s t => some ⟨m, true, (16 ≤ d.toNat || 16 ≤ s.toNat), true, true, false, 0, 0, .none, 0, 0, false, 0, (t ≠ 63)⟩
  | .cpyq m d s => some ⟨m, true, (16 ≤ d.toNat || 16 ≤ s.toNat), false, true, false, 0, 0, .none, 0, 0, false, 0, true⟩
  | .chnew m d s => some ⟨m, true, (16 ≤ d.toNat || 16 ≤ s.toNat), false, true, false, 0, 0, .none, 0, 0, false, 0, true⟩
  | .chclose m d st => some ⟨m, true, (16 ≤ d.toNat), false, true, true, 1, st.toNat, .none, 0, 0, false, 0, true⟩
  | .chbind m d s => some ⟨m, true, (16 ≤ d.toNat || 16 ≤ s.toNat), false, true, false, 0, 0, .none, 0, 0, false, 0, true⟩
  | .send m d x t st => some ⟨m, true, (16 ≤ d.toNat || 16 ≤ x.num), t.isSome, true, true, 2, (st.toNat + 2 * x.dv), .none, 0, 0, false, 0, true⟩
  | .sendt m d s t st => some ⟨m, true, (16 ≤ d.toNat || 16 ≤ s.toNat), t.isSome, true, true, 1, st.toNat, .none, 0, 0, false, 0, true⟩
  | .recv m x s t st => some ⟨m, true, (16 ≤ x.num || 16 ≤ s.toNat), t.isSome, true, true, 2, (st.toNat + 2 * x.dv), .none, 0, 0, false, 0, true⟩
  | .recvt m d s t st => some ⟨m, true, (16 ≤ d.toNat || 16 ≤ s.toNat), t.isSome, true, true, 1, st.toNat, .none, 0, 0, false, 0, true⟩
  | .alt m d s cnt t fair => some ⟨m, true, (16 ≤ d.toNat || 16 ≤ s.toNat), t.isSome, true, true, 5, (cnt.toNat + 16 * fair.toNat), .none, 0, 0, false, 0, true⟩
  | .qbind m d s => some ⟨m, true, (16 ≤ d.toNat || 16 ≤ s.toNat), false, true, false, 0, 0, .none, 0, 0, false, 0, true⟩
  | .qunbind m d => some ⟨m, true, (16 ≤ d.toNat), false, false, false, 0, 0, .none, 0, 0, false, 0, true⟩
  | .spawn m d s t => some ⟨m, true, (16 ≤ d.toNat || 16 ≤ s.toNat), t.isSome, true, false, 0, 0, .none, 0, 0, false, 0, true⟩
  | .prio m n => some ⟨m, true, false, false, false, false, 0, 0, .unsigned, 4, (n.setWidth 64), false, 0, true⟩
  | .stage m n => some ⟨m, true, false, false, false, false, 0, 0, .unsigned, 4, (n.setWidth 64), false, 0, true⟩
  | .sleep m d => some ⟨m, true, (16 ≤ d.toNat), false, true, false, 0, 0, .none, 0, 0, false, 0, true⟩
  | .tblk m d => some ⟨m, true, (16 ≤ d.toNat), false, true, false, 0, 0, .none, 0, 0, false, 0, true⟩
  | .tublk m d => some ⟨m, true, (16 ≤ d.toNat), false, true, false, 0, 0, .none, 0, 0, false, 0, true⟩
  | .self m d _ => some ⟨m, true, (16 ≤ d.toNat), false, true, false, 0, 0, .none, 0, 0, false, 0, true⟩
  | .exit m => some ⟨m, true, false, false, false, false, 0, 0, .none, 0, 0, false, 0, true⟩
  | .yield m => some ⟨m, true, false, false, false, false, 0, 0, .none, 0, 0, false, 0, true⟩
  | .launch m d s t => some ⟨m, true, (16 ≤ d.toNat || 16 ≤ s.toNat), false, true, true, 1, t.toNat, .none, 0, 0, false, 0, true⟩
  | .lstat m d s => some ⟨m, true, (16 ≤ d.toNat || 16 ≤ s.toNat), false, true, false, 0, 0, .none, 0, 0, false, 0, true⟩
  | .barjoin m d s => some ⟨m, true, (16 ≤ d.toNat || 16 ≤ s.toNat), false, true, false, 0, 0, .none, 0, 0, false, 0, true⟩
  | .bararv m n => some ⟨m, true, false, false, false, true, 0, 0, .unsigned, 4, (n.setWidth 64), false, 0, true⟩
  | .barwait m n => some ⟨m, true, false, false, false, true, 0, 0, .unsigned, 4, (n.setWidth 64), false, 0, true⟩
  | .bar m n => some ⟨m, true, false, false, false, true, 0, 0, .unsigned, 4, (n.setWidth 64), false, 0, true⟩
  | .barq m d n => some ⟨m, true, (16 ≤ d.toNat), false, true, true, 0, 0, .unsigned, 4, (n.setWidth 64), false, 0, true⟩
  | .trap m n => some ⟨m, true, false, false, false, true, 0, 0, .unsigned, 4, (n.setWidth 64), false, 0, true⟩
  | .sret m => some ⟨m, true, false, false, false, false, 0, 0, .none, 0, 0, false, 0, true⟩
  | .mfsr m d n => some ⟨m, true, (16 ≤ d.toNat), false, true, true, 0, 0, .unsigned, 4, (n.setWidth 64), false, 0, true⟩
  | .mtsr m d n => some ⟨m, true, (16 ≤ d.toNat), false, true, true, 0, 0, .unsigned, 4, (n.setWidth 64), false, 0, true⟩
  | .tlbi m d _ => some ⟨m, true, (16 ≤ d.toNat), false, true, false, 0, 0, .none, 0, 0, false, 2, true⟩
  | .tlbp m d s => some ⟨m, true, (16 ≤ d.toNat || 16 ≤ s.toNat), false, true, false, 0, 0, .none, 0, 0, false, 0, true⟩
  | .phase m d s => some ⟨m, true, (16 ≤ d.toNat || 16 ≤ s.toNat), false, true, false, 0, 0, .none, 0, 0, false, 0, true⟩
  | .ctxsync m => some ⟨m, true, false, false, false, false, 0, 0, .none, 0, 0, false, 0, true⟩
  | .xbind m d s => some ⟨m, true, (16 ≤ d.toNat || 16 ≤ s.toNat), false, true, false, 0, 0, .none, 0, 0, false, 0, true⟩
  | .xqry m d s => some ⟨m, true, (16 ≤ d.toNat || 16 ≤ s.toNat), false, true, false, 0, 0, .none, 0, 0, false, 0, true⟩
  | .xpin m d s => some ⟨m, true, (16 ≤ d.toNat || 16 ≤ s.toNat), false, true, false, 0, 0, .none, 0, 0, false, 0, true⟩
  | .xmerge m d => some ⟨m, true, (16 ≤ d.toNat), false, true, false, 0, 0, .none, 0, 0, false, 0, true⟩
  | .gpri m d s => some ⟨m, true, (16 ≤ d.toNat || 16 ≤ s.toNat), false, true, false, 0, 0, .none, 0, 0, false, 0, true⟩
  | .gqry m d s => some ⟨m, true, (16 ≤ d.toNat || 16 ≤ s.toNat), false, true, false, 0, 0, .none, 0, 0, false, 0, true⟩
  | .gcan m d => some ⟨m, true, (16 ≤ d.toNat), false, true, false, 0, 0, .none, 0, 0, false, 0, true⟩
  | .trmark m d => some ⟨m, true, (16 ≤ d.toNat), false, true, false, 0, 0, .none, 0, 0, false, 0, true⟩
  | .evread m d n => some ⟨m, true, (16 ≤ d.toNat), false, true, true, 0, 0, .unsigned, 4, (n.setWidth 64), false, 0, true⟩
  | .evgather m d n => some ⟨m, true, (16 ≤ d.toNat || 16 ≤ n.toNat), false, true, false, 0, 0, .none, 4, 0, false, 0, true⟩
  | _ => none

/-- Well-formed: some chain of words is this instruction. Steps of agents have no words and always pass. -/
def Instr.wf (i : Instr) : Bool := match shapeOf i with | none => true | some h => h.wf

end Sys2Proof
end

