-- ==== Sys2Proof/Decode.lean ====
section
/-! DEFINITION. Instruction words: the decoder (R21 to R38), total on any words and naming the cause of R34 where a chain is no
instruction, and the encoder. The tables follow the opcode map of R35 and R37, row by row. -/

namespace Sys2Proof

/-! ## Words to fields -/

/-- The base layouts of R24. -/
inductive Layout where | rr | ri | r | j
  deriving DecidableEq, Repr

/-- What a register field of a form names: a scalar, a vector, one of eight (tile, predicate, port), a field listed as zero, a
function or slot number or a register whose class a selector gives, nothing (the layout has no such field), and the number of
EVGATHER (R452). -/
inductive RClass where | s | v | t | p | zero | fn | absent | gath
  deriving DecidableEq, Repr

/-- One row of the opcode map (R35): its layout, the classes of rd and rs, PFX.T (0 not accepted, 1 optional, 2 required) and
its class, whether PFX.R and PFX.I are accepted, the selector's width, the immediate, whether PFX.Q is required, and the scopes
(0 none, 1 codes 0 to 6, 2 those of TLBI, R77). -/
structure Spec where
  layout : Layout
  rd : RClass
  rs : RClass
  third : Nat
  rt : RClass
  acceptR : Bool
  acceptI : Bool
  w : Nat
  imm : ImmKind
  needQ : Bool
  scp : Nat
  deriving DecidableEq, Repr

/-- The fields of one chain (R24, R25): page and opcode, base-word fields, prefix payloads; `e` is E of R27 and `n` the number of
PFX.I words. -/
structure Fields where
  page : Nat
  op : Nat
  rd : BitVec 4
  rs : BitVec 4
  stall : BitVec 2
  r : Option (BitVec 2 × BitVec 2)
  t : Option (BitVec 6)
  m : Option (Bool × BitVec 4)
  q : Option PfxQ
  n : Nat
  e : Nat
  deriving DecidableEq, Repr

/-- The opcode map. -/
def specOf (page op : Nat) : Option Spec :=
  match page, op with
  | 0, 1 => some ⟨.rr, .s, .s, 1, .s, true, false, 0, .none, false, 0⟩ -- ADD
  | 0, 2 => some ⟨.rr, .s, .s, 1, .s, true, false, 0, .none, false, 0⟩ -- SUB
  | 0, 3 => some ⟨.rr, .s, .s, 1, .s, true, false, 0, .none, false, 0⟩ -- MUL
  | 0, 4 => some ⟨.rr, .s, .s, 1, .s, true, false, 0, .none, false, 0⟩ -- MULH
  | 0, 5 => some ⟨.rr, .s, .s, 1, .s, true, false, 0, .none, false, 0⟩ -- MULHN
  | 0, 6 => some ⟨.rr, .s, .s, 1, .s, true, false, 0, .none, false, 0⟩ -- DIV
  | 0, 7 => some ⟨.rr, .s, .s, 1, .s, true, false, 0, .none, false, 0⟩ -- DIVN
  | 0, 8 => some ⟨.rr, .s, .s, 1, .s, true, false, 0, .none, false, 0⟩ -- REM
  | 0, 9 => some ⟨.rr, .s, .s, 1, .s, true, false, 0, .none, false, 0⟩ -- REMN
  | 0, 10 => some ⟨.rr, .s, .s, 1, .s, true, false, 0, .none, false, 0⟩ -- AND
  | 0, 11 => some ⟨.rr, .s, .s, 1, .s, true, false, 0, .none, false, 0⟩ -- OR
  | 0, 12 => some ⟨.rr, .s, .s, 1, .s, true, false, 0, .none, false, 0⟩ -- XOR
  | 0, 13 => some ⟨.rr, .s, .s, 1, .s, true, false, 0, .none, false, 0⟩ -- SHL
  | 0, 14 => some ⟨.rr, .s, .s, 1, .s, true, false, 0, .none, false, 0⟩ -- SHR
  | 0, 15 => some ⟨.rr, .s, .s, 1, .s, true, false, 0, .none, false, 0⟩ -- SAR
  | 0, 16 => some ⟨.rr, .s, .s, 1, .s, true, false, 0, .none, false, 0⟩ -- ROL
  | 0, 17 => some ⟨.rr, .s, .s, 1, .s, true, false, 0, .none, false, 0⟩ -- MIN
  | 0, 18 => some ⟨.rr, .s, .s, 1, .s, true, false, 0, .none, false, 0⟩ -- MAX
  | 0, 19 => some ⟨.rr, .s, .s, 1, .s, true, false, 0, .none, false, 0⟩ -- MINN
  | 0, 20 => some ⟨.rr, .s, .s, 1, .s, true, false, 0, .none, false, 0⟩ -- MAXN
  | 0, 21 => some ⟨.rr, .s, .s, 2, .s, true, false, 0, .none, false, 0⟩ -- SEL
  | 0, 22 => some ⟨.rr, .s, .s, 1, .s, true, true, 2, .signed, false, 0⟩ -- LEA
  | 0, 23 => some ⟨.rr, .s, .s, 0, .s, true, true, 0, .none, false, 0⟩ -- NEG
  | 0, 24 => some ⟨.rr, .s, .s, 0, .s, true, true, 0, .none, false, 0⟩ -- NOT
  | 0, 25 => some ⟨.rr, .s, .s, 0, .s, true, true, 0, .none, false, 0⟩ -- CLZ
  | 0, 26 => some ⟨.rr, .s, .s, 0, .s, true, true, 0, .none, false, 0⟩ -- CTZ
  | 0, 27 => some ⟨.rr, .s, .s, 0, .s, true, true, 0, .none, false, 0⟩ -- POPC
  | 0, 30 => some ⟨.rr, .s, .s, 0, .s, true, true, 0, .none, false, 0⟩ -- MOV
  | 0, 28 => some ⟨.rr, .s, .s, 0, .s, true, true, 2, .none, false, 0⟩ -- SEXT
  | 0, 29 => some ⟨.rr, .s, .s, 0, .s, true, true, 2, .none, false, 0⟩ -- ZEXT
  | 0, 31 => some ⟨.ri, .s, .absent, 0, .s, true, true, 0, .signed, false, 0⟩ -- ADDI
  | 0, 32 => some ⟨.ri, .s, .absent, 0, .s, true, true, 0, .signed, false, 0⟩ -- ANDI
  | 0, 33 => some ⟨.ri, .s, .absent, 0, .s, true, true, 0, .signed, false, 0⟩ -- ORI
  | 0, 34 => some ⟨.ri, .s, .absent, 0, .s, true, true, 0, .signed, false, 0⟩ -- XORI
  | 0, 35 => some ⟨.ri, .s, .absent, 0, .s, true, true, 0, .signed, false, 0⟩ -- MOVI
  | 0, 36 => some ⟨.ri, .s, .absent, 0, .s, true, true, 0, .unsigned, false, 0⟩ -- MOVHI
  | 0, 37 => some ⟨.rr, .p, .s, 1, .s, true, true, 3, .none, false, 0⟩ -- CMP
  | 0, 38 => some ⟨.rr, .p, .s, 0, .s, true, true, 3, .signed, false, 0⟩ -- CMPI
  | 0, 39 => some ⟨.rr, .s, .s, 0, .s, true, true, 2, .signed, false, 0⟩ -- LD
  | 0, 40 => some ⟨.rr, .s, .s, 0, .s, true, true, 2, .signed, false, 0⟩ -- LDS
  | 0, 41 => some ⟨.rr, .s, .s, 0, .s, true, true, 2, .signed, false, 0⟩ -- ST
  | 0, 42 => some ⟨.rr, .v, .s, 0, .s, true, true, 5, .signed, false, 0⟩ -- LDV
  | 0, 43 => some ⟨.rr, .v, .s, 0, .s, true, true, 0, .signed, false, 0⟩ -- STV
  | 0, 44 => some ⟨.rr, .t, .s, 0, .s, true, true, 7, .signed, false, 0⟩ -- LDT
  | 0, 45 => some ⟨.rr, .t, .s, 0, .s, true, true, 0, .signed, false, 0⟩ -- STT
  | 0, 46 => some ⟨.rr, .v, .s, 2, .v, true, true, 5, .none, false, 0⟩ -- LDG
  | 0, 47 => some ⟨.rr, .v, .s, 2, .v, true, false, 0, .none, false, 0⟩ -- STX
  | 0, 48 => some ⟨.rr, .s, .s, 0, .s, true, true, 2, .none, false, 1⟩ -- LDA
  | 0, 49 => some ⟨.rr, .s, .s, 0, .s, true, true, 2, .none, false, 1⟩ -- STL
  | 0, 50 => some ⟨.rr, .zero, .s, 0, .s, true, true, 2, .signed, false, 0⟩ -- PREF
  | 0, 51 => some ⟨.j, .absent, .absent, 0, .s, false, true, 0, .signed, false, 0⟩ -- B
  | 0, 52 => some ⟨.j, .absent, .absent, 0, .s, false, true, 0, .signed, true, 0⟩ -- BP
  | 0, 56 => some ⟨.j, .absent, .absent, 0, .s, false, true, 0, .signed, false, 0⟩ -- JL
  | 0, 53 => some ⟨.ri, .s, .absent, 0, .s, true, true, 0, .signed, false, 0⟩ -- BZ
  | 0, 54 => some ⟨.ri, .s, .absent, 0, .s, true, true, 0, .signed, false, 0⟩ -- BNZ
  | 0, 55 => some ⟨.r, .s, .zero, 0, .s, true, false, 0, .none, false, 0⟩ -- J
  | 0, 57 => some ⟨.r, .zero, .zero, 0, .s, false, false, 0, .none, false, 0⟩ -- RET
  | 0, 58 => some ⟨.ri, .s, .absent, 0, .s, true, true, 0, .unsigned, false, 0⟩ -- REP
  | 0, 59 => some ⟨.r, .zero, .zero, 0, .s, false, false, 0, .none, false, 0⟩ -- NOP
  | 0, 60 => some ⟨.r, .zero, .zero, 0, .s, false, false, 0, .none, false, 0⟩ -- TFENCE
  | 0, 61 => some ⟨.ri, .zero, .absent, 0, .s, false, true, 0, .unsigned, false, 0⟩ -- BKPT
  | 1, 1 => some ⟨.rr, .v, .v, 1, .v, true, true, 1, .none, false, 0⟩ -- VADD
  | 1, 2 => some ⟨.rr, .v, .v, 1, .v, true, true, 1, .none, false, 0⟩ -- VSUB
  | 1, 3 => some ⟨.rr, .v, .v, 1, .v, true, true, 1, .none, false, 0⟩ -- VMUL
  | 1, 4 => some ⟨.rr, .v, .v, 2, .v, true, false, 0, .none, false, 0⟩ -- VFMA
  | 1, 5 => some ⟨.rr, .v, .v, 2, .v, true, false, 0, .none, false, 0⟩ -- VFMS
  | 1, 6 => some ⟨.rr, .v, .v, 1, .v, true, false, 0, .none, false, 0⟩ -- VMIN
  | 1, 7 => some ⟨.rr, .v, .v, 1, .v, true, false, 0, .none, false, 0⟩ -- VMAX
  | 1, 8 => some ⟨.rr, .v, .v, 0, .s, true, true, 1, .none, false, 0⟩ -- VABS
  | 1, 9 => some ⟨.rr, .v, .v, 0, .s, true, true, 1, .none, false, 0⟩ -- VNEG
  | 1, 10 => some ⟨.rr, .v, .v, 1, .v, true, false, 0, .none, false, 0⟩ -- VAND
  | 1, 11 => some ⟨.rr, .v, .v, 1, .v, true, false, 0, .none, false, 0⟩ -- VOR
  | 1, 12 => some ⟨.rr, .v, .v, 1, .v, true, false, 0, .none, false, 0⟩ -- VXOR
  | 1, 13 => some ⟨.rr, .v, .v, 0, .s, true, false, 0, .none, false, 0⟩ -- VNOT
  | 1, 14 => some ⟨.rr, .v, .v, 1, .v, true, false, 0, .none, false, 0⟩ -- VSHL
  | 1, 15 => some ⟨.rr, .v, .v, 1, .v, true, false, 0, .none, false, 0⟩ -- VSHR
  | 1, 16 => some ⟨.rr, .v, .v, 1, .v, true, false, 0, .none, false, 0⟩ -- VSAR
  | 1, 17 => some ⟨.rr, .p, .v, 2, .v, true, true, 3, .none, false, 0⟩ -- VCMP
  | 1, 18 => some ⟨.rr, .v, .v, 2, .v, true, false, 0, .none, false, 0⟩ -- VSEL
  | 1, 19 => some ⟨.rr, .v, .v, 0, .s, true, true, 7, .none, false, 0⟩ -- VCVT
  | 1, 20 => some ⟨.rr, .s, .v, 0, .s, true, true, 2, .none, false, 0⟩ -- VRED
  | 1, 21 => some ⟨.rr, .v, .v, 0, .s, true, true, 2, .none, false, 0⟩ -- VSCAN
  | 1, 22 => some ⟨.rr, .v, .v, 2, .v, true, false, 0, .none, false, 0⟩ -- VPERM
  | 1, 23 => some ⟨.rr, .v, .v, 0, .s, true, true, 0, .unsigned, false, 0⟩ -- VBCAST
  | 1, 24 => some ⟨.rr, .v, .s, 0, .s, true, true, 4, .none, false, 0⟩ -- VSPLAT
  | 1, 25 => some ⟨.rr, .s, .v, 0, .s, true, true, 0, .unsigned, false, 0⟩ -- VEXT
  | 1, 26 => some ⟨.rr, .v, .s, 0, .s, true, true, 0, .unsigned, false, 0⟩ -- VINS
  | 1, 27 => some ⟨.rr, .v, .v, 0, .s, true, false, 0, .none, false, 0⟩ -- VRCP
  | 1, 28 => some ⟨.rr, .v, .v, 0, .s, true, false, 0, .none, false, 0⟩ -- VRSQ
  | 1, 29 => some ⟨.rr, .v, .v, 0, .s, true, false, 0, .none, false, 0⟩ -- VEXP2
  | 1, 30 => some ⟨.rr, .v, .v, 0, .s, true, false, 0, .none, false, 0⟩ -- VLOG2
  | 1, 31 => some ⟨.rr, .v, .v, 0, .s, true, false, 0, .none, false, 0⟩ -- VTANH
  | 1, 32 => some ⟨.rr, .v, .v, 2, .v, true, true, 1, .none, false, 0⟩ -- VDOT4
  | 1, 33 => some ⟨.rr, .v, .v, 2, .v, true, true, 1, .none, false, 0⟩ -- VMAC
  | 1, 34 => some ⟨.rr, .v, .v, 2, .v, true, false, 0, .none, false, 0⟩ -- VCLAMP
  | 1, 35 => some ⟨.rr, .p, .p, 1, .p, false, false, 0, .none, false, 0⟩ -- PAND
  | 1, 36 => some ⟨.rr, .p, .p, 1, .p, false, false, 0, .none, false, 0⟩ -- POR
  | 1, 37 => some ⟨.rr, .p, .p, 0, .s, false, false, 0, .none, false, 0⟩ -- PNOT
  | 1, 38 => some ⟨.rr, .fn, .fn, 0, .s, true, true, 2, .none, false, 0⟩ -- PMOV
  | 2, 1 => some ⟨.r, .t, .zero, 0, .s, false, false, 0, .none, false, 0⟩ -- TZERO
  | 2, 2 => some ⟨.rr, .t, .t, 2, .t, false, false, 0, .none, false, 0⟩ -- TMMA
  | 2, 3 => some ⟨.rr, .t, .t, 1, .t, false, true, 1, .none, false, 0⟩ -- TADD
  | 2, 4 => some ⟨.rr, .t, .t, 0, .s, false, true, 7, .none, false, 0⟩ -- TCVT
  | 2, 5 => some ⟨.rr, .t, .t, 0, .s, false, true, 1, .none, false, 0⟩ -- TTRN
  | 2, 6 => some ⟨.rr, .t, .s, 0, .s, true, false, 0, .none, false, 0⟩ -- TSCL
  | 2, 7 => some ⟨.r, .t, .fn, 0, .s, false, true, 0, .signed, false, 0⟩ -- TTAG
  | 2, 8 => some ⟨.rr, .t, .t, 0, .s, false, false, 0, .none, false, 0⟩ -- TMOV
  | 2, 16 => some ⟨.ri, .zero, .absent, 0, .s, false, true, 0, .unsigned, false, 0⟩ -- MLEASE
  | 2, 17 => some ⟨.r, .zero, .zero, 0, .s, false, false, 0, .none, false, 0⟩ -- MREL
  | 2, 18 => some ⟨.rr, .s, .s, 2, .s, true, true, 6, .none, false, 0⟩ -- MMA
  | 2, 19 => some ⟨.r, .s, .fn, 0, .s, true, true, 4, .none, false, 0⟩ -- MDRAIN
  | 2, 20 => some ⟨.r, .zero, .fn, 0, .s, false, false, 0, .none, false, 0⟩ -- MZERO
  | 2, 21 => some ⟨.r, .s, .fn, 0, .s, true, false, 0, .none, false, 0⟩ -- MSTAT
  | 2, 22 => some ⟨.r, .zero, .fn, 0, .s, false, false, 0, .none, false, 0⟩ -- MCARRY
  | 2, 23 => some ⟨.r, .zero, .fn, 0, .s, false, false, 0, .none, false, 0⟩ -- MWAIT
  | 2, 24 => some ⟨.rr, .s, .s, 2, .s, true, true, 4, .none, false, 0⟩ -- MVMQ
  | 3, 1 => some ⟨.rr, .s, .s, 2, .s, true, true, 6, .none, false, 1⟩ -- AMO
  | 3, 2 => some ⟨.rr, .s, .s, 2, .s, true, true, 2, .none, false, 1⟩ -- CAS
  | 3, 3 => some ⟨.rr, .s, .s, 0, .s, true, true, 6, .none, false, 1⟩ -- RED
  | 3, 4 => some ⟨.rr, .s, .s, 0, .s, true, true, 6, .none, false, 1⟩ -- REDF
  | 3, 5 => some ⟨.r, .zero, .zero, 0, .s, false, false, 0, .none, false, 0⟩ -- WAITRED
  | 3, 6 => some ⟨.r, .zero, .fn, 0, .s, false, false, 0, .none, false, 1⟩ -- FENCE
  | 4, 1 => some ⟨.rr, .s, .s, 0, .s, true, false, 0, .none, false, 0⟩ -- WSET
  | 4, 2 => some ⟨.r, .s, .zero, 0, .s, true, false, 0, .none, false, 0⟩ -- WCLR
  | 4, 3 => some ⟨.rr, .s, .s, 0, .s, true, false, 0, .none, false, 0⟩ -- WPROBE
  | 4, 4 => some ⟨.r, .s, .zero, 0, .s, true, false, 0, .none, false, 0⟩ -- WWAIT
  | 4, 5 => some ⟨.rr, .s, .s, 2, .s, true, false, 0, .none, false, 0⟩ -- CPY
  | 4, 6 => some ⟨.rr, .s, .s, 2, .s, true, false, 0, .none, false, 0⟩ -- CPY2
  | 4, 7 => some ⟨.r, .s, .zero, 0, .s, true, false, 0, .none, false, 0⟩ -- CPYB
  | 4, 8 => some ⟨.ri, .zero, .absent, 0, .s, false, true, 0, .unsigned, false, 0⟩ -- WAITB
  | 4, 9 => some ⟨.rr, .s, .s, 2, .s, true, false, 0, .none, false, 0⟩ -- CPYS
  | 4, 10 => some ⟨.rr, .s, .s, 0, .s, true, false, 0, .none, false, 0⟩ -- CPYQ
  | 5, 1 => some ⟨.rr, .s, .s, 0, .s, true, false, 0, .none, false, 0⟩ -- CHNEW
  | 5, 2 => some ⟨.r, .s, .zero, 0, .s, true, true, 1, .none, false, 0⟩ -- CHCLOSE
  | 5, 3 => some ⟨.rr, .s, .s, 0, .s, true, false, 0, .none, false, 0⟩ -- CHBIND
  | 5, 4 => some ⟨.rr, .s, .fn, 1, .s, true, true, 2, .none, false, 0⟩ -- SEND
  | 5, 5 => some ⟨.rr, .s, .s, 1, .s, true, true, 1, .none, false, 0⟩ -- SENDT
  | 5, 6 => some ⟨.rr, .fn, .s, 1, .s, true, true, 2, .none, false, 0⟩ -- RECV
  | 5, 7 => some ⟨.rr, .s, .s, 1, .s, true, true, 1, .none, false, 0⟩ -- RECVT
  | 5, 8 => some ⟨.rr, .s, .s, 1, .s, true, true, 5, .none, false, 0⟩ -- ALT
  | 5, 9 => some ⟨.rr, .t, .s, 0, .s, true, false, 0, .none, false, 0⟩ -- QBIND
  | 5, 10 => some ⟨.r, .t, .zero, 0, .s, false, false, 0, .none, false, 0⟩ -- QUNBIND
  | 5, 11 => some ⟨.rr, .s, .s, 1, .s, true, false, 0, .none, false, 0⟩ -- SPAWN
  | 5, 12 => some ⟨.ri, .zero, .absent, 0, .s, false, false, 0, .unsigned, false, 0⟩ -- PRIO
  | 5, 13 => some ⟨.ri, .zero, .absent, 0, .s, false, false, 0, .unsigned, false, 0⟩ -- STAGE
  | 5, 14 => some ⟨.r, .s, .zero, 0, .s, true, false, 0, .none, false, 0⟩ -- SLEEP
  | 5, 15 => some ⟨.r, .s, .zero, 0, .s, true, false, 0, .none, false, 0⟩ -- TBLK
  | 5, 16 => some ⟨.r, .s, .zero, 0, .s, true, false, 0, .none, false, 0⟩ -- TUBLK
  | 5, 17 => some ⟨.r, .s, .fn, 0, .s, true, false, 0, .none, false, 0⟩ -- SELF
  | 5, 18 => some ⟨.r, .zero, .zero, 0, .s, false, false, 0, .none, false, 0⟩ -- EXIT
  | 5, 19 => some ⟨.r, .zero, .zero, 0, .s, false, false, 0, .none, false, 0⟩ -- YIELD
  | 5, 20 => some ⟨.rr, .s, .s, 0, .s, true, true, 1, .none, false, 0⟩ -- LAUNCH
  | 5, 21 => some ⟨.rr, .s, .s, 0, .s, true, false, 0, .none, false, 0⟩ -- LSTAT
  | 5, 32 => some ⟨.rr, .s, .s, 0, .s, true, false, 0, .none, false, 0⟩ -- BARJOIN
  | 5, 33 => some ⟨.ri, .zero, .absent, 0, .s, false, true, 0, .unsigned, false, 0⟩ -- BARARV
  | 5, 34 => some ⟨.ri, .zero, .absent, 0, .s, false, true, 0, .unsigned, false, 0⟩ -- BARWAIT
  | 5, 35 => some ⟨.ri, .zero, .absent, 0, .s, false, true, 0, .unsigned, false, 0⟩ -- BAR
  | 5, 36 => some ⟨.ri, .s, .absent, 0, .s, true, true, 0, .unsigned, false, 0⟩ -- BARQ
  | 6, 1 => some ⟨.ri, .zero, .absent, 0, .s, false, true, 0, .unsigned, false, 0⟩ -- TRAP
  | 6, 2 => some ⟨.r, .zero, .zero, 0, .s, false, false, 0, .none, false, 0⟩ -- SRET
  | 6, 3 => some ⟨.ri, .s, .absent, 0, .s, true, true, 0, .unsigned, false, 0⟩ -- MFSR
  | 6, 4 => some ⟨.ri, .s, .absent, 0, .s, true, true, 0, .unsigned, false, 0⟩ -- MTSR
  | 6, 5 => some ⟨.r, .s, .fn, 0, .s, true, false, 0, .none, false, 2⟩ -- TLBI
  | 6, 6 => some ⟨.rr, .s, .s, 0, .s, true, false, 0, .none, false, 0⟩ -- TLBP
  | 6, 7 => some ⟨.rr, .s, .s, 0, .s, true, false, 0, .none, false, 0⟩ -- PHASE
  | 6, 8 => some ⟨.r, .zero, .zero, 0, .s, false, false, 0, .none, false, 0⟩ -- CTXSYNC
  | 6, 16 => some ⟨.rr, .s, .s, 0, .s, true, false, 0, .none, false, 0⟩ -- XBIND
  | 6, 17 => some ⟨.rr, .s, .s, 0, .s, true, false, 0, .none, false, 0⟩ -- XQRY
  | 6, 18 => some ⟨.rr, .s, .s, 0, .s, true, false, 0, .none, false, 0⟩ -- XPIN
  | 6, 19 => some ⟨.r, .s, .zero, 0, .s, true, false, 0, .none, false, 0⟩ -- XMERGE
  | 6, 24 => some ⟨.rr, .s, .s, 0, .s, true, false, 0, .none, false, 0⟩ -- GPRI
  | 6, 25 => some ⟨.rr, .s, .s, 0, .s, true, false, 0, .none, false, 0⟩ -- GQRY
  | 6, 26 => some ⟨.r, .s, .zero, 0, .s, true, false, 0, .none, false, 0⟩ -- GCAN
  | 6, 32 => some ⟨.r, .s, .zero, 0, .s, true, false, 0, .none, false, 0⟩ -- TRMARK
  | 6, 33 => some ⟨.ri, .s, .absent, 0, .s, true, true, 0, .unsigned, false, 0⟩ -- EVREAD
  | 6, 34 => some ⟨.ri, .s, .gath, 0, .s, true, false, 0, .unsigned, false, 0⟩ -- EVGATHER
  | _, _ => none

/-- What decoding one chain gives: an instruction and the words it takes, the cause of ILLEGAL_OP (R34), or too few words. -/
inductive Decoded where
  | instr (i : Instr) (words : Nat)
  | illegal (cause : Nat) (words : Nat)
  | short
  deriving DecidableEq, Repr

/-- The prefixes met so far (R25, R26): each payload at its first appearance, and the causes found. -/
structure Prefixes where
  r : Option (BitVec 7) := none
  t : Option (BitVec 7) := none
  p : Option (BitVec 7) := none
  m : Option (BitVec 7) := none
  q : Option (BitVec 7) := none
  n : Nat := 0
  e : Nat := 0
  causes : List Nat := []
  deriving DecidableEq, Repr

/-- Whether a word is a prefix (R24, R25). -/
def isPrefix (w : BitVec 16) : Bool := w.extractLsb' 10 6 = 63#6

/-- The cause of a repeated prefix (R34). -/
def again {α : Type} (old : Option α) : List Nat := if old.isSome then [5] else []

/-- Whether payload bits that R25 reserves are nonzero (R34 cause 7), or the page is 0 or 7 (cause 2). -/
def payloadCauses (kind : BitVec 3) (x : BitVec 7) : List Nat :=
  if kind = 1#3 then (if x.extractLsb' 0 3 = 0#3 then [] else [7])
  else if kind = 2#3 then (if x.extractLsb' 6 1 = 0#1 then [] else [7])
  else if kind = 3#3 then
    (if x.extractLsb' 3 4 = 0#4 then [] else [7]) ++
      (if x.extractLsb' 0 3 = 0#3 ∨ x.extractLsb' 0 3 = 7#3 then [2] else [])
  else if kind = 4#3 then (if x.extractLsb' 4 2 = 0#2 then [] else [7])
  else if kind = 6#3 ∨ kind = 7#3 then [3]
  else []

/-- One more prefix (R25 to R27). Log entry 5 says which payload counts when a kind is repeated. -/
def Prefixes.add (c : Prefixes) (w : BitVec 16) : Prefixes :=
  let kind := w.extractLsb' 7 3
  let x := w.extractLsb' 0 7
  let c' : Prefixes := { c with causes := payloadCauses kind x ++ c.causes }
  if kind = 0#3 then { c' with n := c.n + 1, e := c.e * 128 + x.toNat }
  else if kind = 1#3 then { c' with r := c.r.or (some x), causes := again c.r ++ c'.causes }
  else if kind = 2#3 then { c' with t := c.t.or (some x), causes := again c.t ++ c'.causes }
  else if kind = 3#3 then { c' with p := c.p.or (some x), causes := again c.p ++ c'.causes }
  else if kind = 4#3 then { c' with m := c.m.or (some x), causes := again c.m ++ c'.causes }
  else if kind = 5#3 then { c' with q := c.q.or (some x), causes := again c.q ++ c'.causes }
  else c'

/-- The lowest cause (R34); 0 when there is none. -/
def minCause : List Nat → Nat
  | [] => 0
  | c :: cs => let r := minCause cs; if r = 0 ∨ c < r then c else r

/-- Prefix payloads and base word together. -/
def Prefixes.fields (c : Prefixes) (w : BitVec 16) : Fields :=
  { page := match c.p with | none => 0 | some x => (x.extractLsb' 0 3).toNat
    op := (w.extractLsb' 10 6).toNat
    rd := w.extractLsb' 6 4
    rs := w.extractLsb' 2 4
    stall := w.extractLsb' 0 2
    r := c.r.map fun x => (x.extractLsb' 5 2, x.extractLsb' 3 2)
    t := c.t.map fun x => x.extractLsb' 0 6
    m := c.m.map fun x => (x.extractLsb' 6 1 = 1#1, x.extractLsb' 0 4)
    q := c.q.map fun x => ⟨x.extractLsb' 4 3, x.extractLsb' 3 1 = 1#1, x.extractLsb' 0 3⟩
    n := c.n
    e := c.e }

/-! ## Reading fields -/

namespace Fields

/-- Destination and source numbers of R28. -/
def dN (f : Fields) : Nat := f.rd.toNat + 16 * ((f.r.map (·.1.toNat)).getD 0)
def sN (f : Fields) : Nat := f.rs.toNat + 16 * ((f.r.map (·.2.toNat)).getD 0)
def dS (f : Fields) : SReg := BitVec.ofNat 6 f.dN
def sS (f : Fields) : SReg := BitVec.ofNat 6 f.sN
def tS (f : Fields) : Option SReg := f.t
def tS0 (f : Fields) : SReg := f.t.getD 0
def dV (f : Fields) : VReg := BitVec.ofNat 5 f.dN
def sV (f : Fields) : VReg := BitVec.ofNat 5 f.sN
def tV (f : Fields) : Option VReg := f.t.map (·.setWidth 5)
def tV0 (f : Fields) : VReg := (f.t.getD 0).setWidth 5
def dT (f : Fields) : TReg := BitVec.ofNat 3 f.dN
def sT (f : Fields) : TReg := BitVec.ofNat 3 f.sN
def tT (f : Fields) : Option TReg := f.t.map (·.setWidth 3)
def tT0 (f : Fields) : TReg := (f.t.getD 0).setWidth 3
def dP (f : Fields) : PReg := f.dT
def sP (f : Fields) : PReg := f.sT
def tP (f : Fields) : Option PReg := f.tT

/-- Selector sub-fields (R27): the low `w` bits of E, and `w` bits from `lo`. -/
def sel (f : Fields) (w : Nat) : Nat := f.e % 2 ^ w
def selAt (f : Fields) (lo w : Nat) : Nat := f.e / 2 ^ lo % 2 ^ w

/-- Immediates (R27): the RR and R layouts above a selector of `w` bits, the RI layout, the J layout. -/
def vS (f : Fields) (w : Nat) : Word := immOf .signed (7 * f.n - w) (f.e / 2 ^ w)
def vU (f : Fields) (w : Nat) : Word := immOf .unsigned (7 * f.n - w) (f.e / 2 ^ w)
def vIs (f : Fields) : Word := immOf .signed (4 + 7 * f.n) (f.e * 16 + f.rs.toNat)
def vIu (f : Fields) : Word := immOf .unsigned (4 + 7 * f.n) (f.e * 16 + f.rs.toNat)
def vJ (f : Fields) : Word := immOf .signed (8 + 7 * f.n) (f.e * 256 + f.rd.toNat * 16 + f.rs.toNat)

/-- The prefixes an instruction keeps. -/
def mods (f : Fields) : Mods :=
  { hasR := f.r.isSome, nI := BitVec.ofNat 3 f.n, pfxM := f.m, pfxQ := f.q, stall := f.stall }

end Fields

/-! ## Reserved values, by cause -/

def tagOf (n : Nat) : Except Nat Tag :=
  match n with
  | 0 => .ok .raw | 1 => .ok .int8 | 2 => .ok .nat8 | 3 => .ok .int16 | 4 => .ok .nat16 | 5 => .ok .int32 | 6 => .ok .fp32
  | 7 => .ok .bf16 | 8 => .ok .fp16 | 9 => .ok .f8a | 10 => .ok .f8b | 11 => .ok .dy8 | 12 => .ok .int4x2 | 13 => .ok .acc20
  | _ => .error 9

/-- Target formats of a conversion and of a drain: neither RAW nor ACC20 (R209, R279). -/
def cvtFmtOf (n : Nat) : Except Nat Tag := if n = 0 ∨ n = 13 then .error 9 else tagOf n

def lfOf (n : Nat) : Except Nat (Option Tag) :=
  if n = 0 then .ok none else if n < 16 then .error 9 else (tagOf (n - 16)).map some

def txOf (n : Nat) : Except Nat Tx := match n with | 0 => .ok .none | 1 => .ok .x8 | 2 => .ok .x16 | _ => .error 9

def rndOf (fmt : Tag) (n : Nat) : Except Nat Rnd :=
  match n with
  | 0 => .ok .fctl | 1 => .ok .rne | 2 => .ok .rtz | 3 => .ok .rdn | 4 => .ok .rup
  | 5 => if fmt = .bf16 ∨ fmt = .f8a ∨ fmt = .f8b then .ok .sr else .error 9
  | _ => .error 9

def aopOf (n : Nat) : Except Nat AOp :=
  match n with
  | 0 => .ok .add | 1 => .ok .and | 2 => .ok .or | 3 => .ok .xor | 4 => .ok .min | 5 => .ok .max | 6 => .ok .minn
  | 7 => .ok .maxn | 8 => .ok .swap | _ => .error 9

def fopOf (n : Nat) : Except Nat Fop := match n with | 0 => .ok .add | 1 => .ok .min | 2 => .ok .max | _ => .error 9

def modeOf (n : Nat) : Except Nat Mode :=
  match n with
  | 0 => .ok .bf16 | 1 => .ok .f8a | 2 => .ok .f8ab | 3 => .ok .f8ba | 4 => .ok .f8b | 5 => .ok .int8 | 6 => .ok .dy8
  | 7 => .ok .int4x2 | _ => .error 9

def wideOf (n : Nat) : Except Nat Bool := match n with | 0 => .ok true | 1 => .ok false | _ => .error 9

def fenceOf (n : Nat) : Except Nat FenceKind := match n with | 0 => .ok .full | 1 => .ok .acq | 2 => .ok .rel | _ => .error 9

def itemOf (n : Nat) : Except Nat SelfItem :=
  match n with | 0 => .ok .pid | 1 => .ok .team | 2 => .ok .stage | 3 => .ok .prio | 4 => .ok .reply | _ => .error 9

def tlbiOf (n : Nat) : Except Nat TlbiKind :=
  match n with | 0 => .ok .va | 1 => .ok .vaall | 2 => .ok .asid | 3 => .ok .all | _ => .error 9

def slotOf (n : Nat) : Except Nat ASlot := if n < 4 then .ok (BitVec.ofNat 2 n) else .error 9

def Sz.of (n : Nat) : Sz := match n with | 0 => .d | 1 => .w | 2 => .h | _ => .b

def Cnd.of (n : Nat) : Cnd :=
  match n with | 0 => .eq | 1 => .ne | 2 => .lt | 3 => .ge | 4 => .ltn | 5 => .gen | _ => .un

/-- The data register of SEND and RECV: a vector number must be below 32 (R28). -/
def dataOf (dv n : Nat) : Except Nat DataReg :=
  if dv = 0 then .ok (.sc (BitVec.ofNat 6 n)) else if n < 32 then .ok (.vec (BitVec.ofNat 5 n)) else .error 8

/-- The registers of PMOV by direction: predicate numbers must be below 8 (R28, R229). -/
def pmovOf (dir d s : Nat) : Except Nat PMovOps :=
  match dir with
  | 0 => if d < 8 ∧ s < 8 then .ok (.pp (BitVec.ofNat 3 d) (BitVec.ofNat 3 s)) else .error 8
  | 1 => if d < 8 then .ok (.ps (BitVec.ofNat 3 d) (BitVec.ofNat 6 s)) else .error 8
  | _ => if s < 8 then .ok (.sp (BitVec.ofNat 6 d) (BitVec.ofNat 3 s)) else .error 8

/-! ## Fields to an instruction -/

/-- The instruction of a listed form, or the cause its selector, limits or late-classed registers give (R34 causes 8 and 9). -/
def build (page op : Nat) (f : Fields) (m : Mods) : Except Nat Instr :=
  match page, op with
  | 0, 1 => .ok (.add m f.dS f.sS f.tS)
  | 0, 2 => .ok (.sub m f.dS f.sS f.tS)
  | 0, 3 => .ok (.mul m f.dS f.sS f.tS)
  | 0, 4 => .ok (.mulh m f.dS f.sS f.tS)
  | 0, 5 => .ok (.mulhn m f.dS f.sS f.tS)
  | 0, 6 => .ok (.div m f.dS f.sS f.tS)
  | 0, 7 => .ok (.divn m f.dS f.sS f.tS)
  | 0, 8 => .ok (.rem m f.dS f.sS f.tS)
  | 0, 9 => .ok (.remn m f.dS f.sS f.tS)
  | 0, 10 => .ok (.and m f.dS f.sS f.tS)
  | 0, 11 => .ok (.or m f.dS f.sS f.tS)
  | 0, 12 => .ok (.xor m f.dS f.sS f.tS)
  | 0, 13 => .ok (.shl m f.dS f.sS f.tS)
  | 0, 14 => .ok (.shr m f.dS f.sS f.tS)
  | 0, 15 => .ok (.sar m f.dS f.sS f.tS)
  | 0, 16 => .ok (.rol m f.dS f.sS f.tS)
  | 0, 17 => .ok (.min m f.dS f.sS f.tS)
  | 0, 18 => .ok (.max m f.dS f.sS f.tS)
  | 0, 19 => .ok (.minn m f.dS f.sS f.tS)
  | 0, 20 => .ok (.maxn m f.dS f.sS f.tS)
  | 0, 21 => .ok (.sel m f.dS f.sS f.tS0)
  | 0, 22 => if f.t.isNone && f.sel 2 != 0 then .error 9 else .ok (.lea m f.dS f.sS f.tS (BitVec.ofNat 2 (f.sel 2)) (f.vS 2))
  | 0, 23 => .ok (.neg m f.dS f.sS)
  | 0, 24 => .ok (.not m f.dS f.sS)
  | 0, 25 => .ok (.clz m f.dS f.sS)
  | 0, 26 => .ok (.ctz m f.dS f.sS)
  | 0, 27 => .ok (.popc m f.dS f.sS)
  | 0, 30 => .ok (.mov m f.dS f.sS)
  | 0, 28 => if f.sel 2 = 0 then .error 9 else .ok (.sext m f.dS f.sS (Sz.of (f.sel 2)))
  | 0, 29 => if f.sel 2 = 0 then .error 9 else .ok (.zext m f.dS f.sS (Sz.of (f.sel 2)))
  | 0, 31 => .ok (.addi m f.dS f.vIs)
  | 0, 32 => .ok (.andi m f.dS f.vIs)
  | 0, 33 => .ok (.ori m f.dS f.vIs)
  | 0, 34 => .ok (.xori m f.dS f.vIs)
  | 0, 35 => .ok (.movi m f.dS f.vIs)
  | 0, 36 => .ok (.movhi m f.dS f.vIu)
  | 0, 37 => if f.sel 3 ≥ 6 then .error 9 else .ok (.cmp m f.dP f.sS f.tS (Cnd.of (f.sel 3)))
  | 0, 38 => if f.sel 3 ≥ 6 then .error 9 else .ok (.cmpi m f.dP f.sS (Cnd.of (f.sel 3)) (f.vS 3))
  | 0, 39 => .ok (.ld m f.dS f.sS (Sz.of (f.sel 2)) (f.vS 2))
  | 0, 40 => .ok (.lds m f.dS f.sS (Sz.of (f.sel 2)) (f.vS 2))
  | 0, 41 => .ok (.st m f.dS f.sS (Sz.of (f.sel 2)) (f.vS 2))
  | 0, 42 => do let lf ← lfOf (f.sel 5); .ok (.ldv m f.dV f.sS lf (f.vS 5))
  | 0, 43 => .ok (.stv m f.dV f.sS (f.vS 0))
  | 0, 44 => do let lf ← lfOf (f.sel 5); let tx ← txOf (f.selAt 5 2); .ok (.ldt m f.dT f.sS lf tx (f.vS 7))
  | 0, 45 => .ok (.stt m f.dT f.sS (f.vS 0))
  | 0, 46 => do let lf ← lfOf (f.sel 5); .ok (.ldg m f.dV f.sS f.tV0 lf)
  | 0, 47 => .ok (.stx m f.dV f.sS f.tV0)
  | 0, 48 => .ok (.lda m f.dS f.sS (Sz.of (f.sel 2)))
  | 0, 49 => .ok (.stl m f.dS f.sS (Sz.of (f.sel 2)))
  | 0, 50 => if f.sel 2 = 3 then .error 9 else .ok (.pref m f.sS (BitVec.ofNat 2 (f.sel 2)) (f.vS 2))
  | 0, 51 => .ok (.b m f.vJ)
  | 0, 52 => .ok (.bp m f.vJ)
  | 0, 56 => .ok (.jl m f.vJ)
  | 0, 53 => .ok (.bz m f.dS f.vIs)
  | 0, 54 => .ok (.bnz m f.dS f.vIs)
  | 0, 55 => .ok (.j m f.dS)
  | 0, 57 => .ok (.ret m)
  | 0, 58 => if f.vIu.toNat = 0 || f.vIu.toNat > 64 then .error 9 else .ok (.rep m f.dS (f.vIu.setWidth 7))
  | 0, 59 => .ok (.nop m)
  | 0, 60 => .ok (.tfence m)
  | 0, 61 => if f.vIu.toNat > 255 then .error 9 else .ok (.bkpt m (f.vIu.setWidth 8))
  | 1, 1 => .ok (.vadd m f.dV f.sV f.tV (f.sel 1 = 1))
  | 1, 2 => .ok (.vsub m f.dV f.sV f.tV (f.sel 1 = 1))
  | 1, 3 => .ok (.vmul m f.dV f.sV f.tV (f.sel 1 = 1))
  | 1, 4 => .ok (.vfma m f.dV f.sV f.tV0)
  | 1, 5 => .ok (.vfms m f.dV f.sV f.tV0)
  | 1, 6 => .ok (.vmin m f.dV f.sV f.tV)
  | 1, 7 => .ok (.vmax m f.dV f.sV f.tV)
  | 1, 8 => .ok (.vabs m f.dV f.sV (f.sel 1 = 1))
  | 1, 9 => .ok (.vneg m f.dV f.sV (f.sel 1 = 1))
  | 1, 10 => .ok (.vand m f.dV f.sV f.tV)
  | 1, 11 => .ok (.vor m f.dV f.sV f.tV)
  | 1, 12 => .ok (.vxor m f.dV f.sV f.tV)
  | 1, 13 => .ok (.vnot m f.dV f.sV)
  | 1, 14 => .ok (.vshl m f.dV f.sV f.tV)
  | 1, 15 => .ok (.vshr m f.dV f.sV f.tV)
  | 1, 16 => .ok (.vsar m f.dV f.sV f.tV)
  | 1, 17 => if f.sel 3 = 7 then .error 9 else .ok (.vcmp m f.dP f.sV f.tV0 (Cnd.of (f.sel 3)))
  | 1, 18 => .ok (.vsel m f.dV f.sV f.tV0)
  | 1, 19 => do let fmt ← cvtFmtOf (f.sel 4); let rnd ← rndOf fmt (f.selAt 4 3); .ok (.vcvt m f.dV f.sV fmt rnd)
  | 1, 20 => do let o ← fopOf (f.sel 2); .ok (.vred m f.dS f.sV o)
  | 1, 21 => do let o ← fopOf (f.sel 2); .ok (.vscan m f.dV f.sV o)
  | 1, 22 => .ok (.vperm m f.dV f.sV f.tV0)
  | 1, 23 => if (f.vU 0).toNat > 63 then .error 9 else .ok (.vbcast m f.dV f.sV ((f.vU 0).setWidth 6))
  | 1, 24 => do let fmt ← tagOf (f.sel 4); .ok (.vsplat m f.dV f.sS fmt)
  | 1, 25 => if (f.vU 0).toNat > 63 then .error 9 else .ok (.vext m f.dS f.sV ((f.vU 0).setWidth 6))
  | 1, 26 => if (f.vU 0).toNat > 63 then .error 9 else .ok (.vins m f.dV f.sS ((f.vU 0).setWidth 6))
  | 1, 27 => .ok (.vrcp m f.dV f.sV)
  | 1, 28 => .ok (.vrsq m f.dV f.sV)
  | 1, 29 => .ok (.vexp2 m f.dV f.sV)
  | 1, 30 => .ok (.vlog2 m f.dV f.sV)
  | 1, 31 => .ok (.vtanh m f.dV f.sV)
  | 1, 32 => .ok (.vdot4 m f.dV f.sV f.tV0 (f.sel 1 = 1))
  | 1, 33 => .ok (.vmac m f.dV f.sV f.tV0 (f.sel 1 = 1))
  | 1, 34 => .ok (.vclamp m f.dV f.sV f.tV0)
  | 1, 35 => .ok (.pand m f.dP f.sP f.tP)
  | 1, 36 => .ok (.por m f.dP f.sP f.tP)
  | 1, 37 => .ok (.pnot m f.dP f.sP)
  | 1, 38 => if f.sel 2 = 3 then .error 9 else do let o ← pmovOf (f.sel 2) f.dN f.sN; .ok (.pmov m o)
  | 2, 1 => .ok (.tzero m f.dT)
  | 2, 2 => .ok (.tmma m f.dT f.sT f.tT0)
  | 2, 3 => .ok (.tadd m f.dT f.sT f.tT (f.sel 1 = 1))
  | 2, 4 => do let fmt ← cvtFmtOf (f.sel 4); let rnd ← rndOf fmt (f.selAt 4 3); .ok (.tcvt m f.dT f.sT fmt rnd)
  | 2, 5 => .ok (.ttrn m f.dT f.sT (f.sel 1 = 1))
  | 2, 6 => .ok (.tscl m f.dT f.sS)
  | 2, 7 => do let fmt ← tagOf f.sN; if (f.vS 0).toInt < -128 ∨ (f.vS 0).toInt > 127 then .error 9 else .ok (.ttag m f.dT fmt ((f.vS 0).setWidth 8))
  | 2, 8 => .ok (.tmov m f.dT f.sT)
  | 2, 16 => if f.vIu.toNat = 0 || f.vIu.toNat > 16 then .error 9 else .ok (.mlease m (f.vIu.setWidth 5))
  | 2, 17 => .ok (.mrel m)
  | 2, 18 => do let md ← modeOf (f.selAt 2 4); .ok (.mma m f.dS f.sS f.tS0 (BitVec.ofNat 2 (f.sel 2)) md)
  | 2, 19 => do let a ← slotOf f.sN; let fmt ← cvtFmtOf (f.sel 4); .ok (.mdrain m f.dS a fmt)
  | 2, 20 => do let a ← slotOf f.sN; .ok (.mzero m a)
  | 2, 21 => do let a ← slotOf f.sN; .ok (.mstat m f.dS a)
  | 2, 22 => if f.sN ≥ 2 then .error 9 else .ok (.mcarry m (f.sN = 1))
  | 2, 23 => do let a ← slotOf f.sN; .ok (.mwait m a)
  | 2, 24 => do let md ← modeOf (f.sel 4); .ok (.mvmq m f.dS f.sS f.tS0 md)
  | 3, 1 => do let o ← aopOf (f.sel 4); let w ← wideOf (f.selAt 4 2); .ok (.amo m f.dS f.sS f.tS0 o w)
  | 3, 2 => do let w ← wideOf (f.sel 2); .ok (.cas m f.dS f.sS f.tS0 w)
  | 3, 3 => do let o ← aopOf (f.sel 4); let w ← wideOf (f.selAt 4 2); if o = .swap then .error 9 else .ok (.red m f.dS f.sS o w)
  | 3, 4 => do let o ← fopOf (f.sel 2); let x := f.selAt 2 4; if x = 6 ∨ x = 7 then .ok (.redf m f.dS f.sS o (x = 7)) else .error 9
  | 3, 5 => .ok (.waitred m)
  | 3, 6 => do let k ← fenceOf f.sN; .ok (.fence m k)
  | 4, 1 => .ok (.wset m f.dS f.sS)
  | 4, 2 => .ok (.wclr m f.dS)
  | 4, 3 => .ok (.wprobe m f.dS f.sS)
  | 4, 4 => .ok (.wwait m f.dS)
  | 4, 5 => .ok (.cpy m f.dS f.sS f.tS0)
  | 4, 6 => .ok (.cpy2 m f.dS f.sS f.tS0)
  | 4, 7 => .ok (.cpyb m f.dS)
  | 4, 8 => if f.vIu.toNat > 255 then .error 9 else .ok (.waitb m (f.vIu.setWidth 8))
  | 4, 9 => if f.tS0 = 63#6 then .error 8 else .ok (.cpys m f.dS f.sS f.tS0)
  | 4, 10 => .ok (.cpyq m f.dS f.sS)
  | 5, 1 => .ok (.chnew m f.dS f.sS)
  | 5, 2 => .ok (.chclose m f.dS (f.sel 1 = 1))
  | 5, 3 => .ok (.chbind m f.dS f.sS)
  | 5, 4 => do let x ← dataOf (f.selAt 1 1) f.sN; .ok (.send m f.dS x f.tS (f.sel 1 = 1))
  | 5, 5 => .ok (.sendt m f.dS f.sS f.tS (f.sel 1 = 1))
  | 5, 6 => do let x ← dataOf (f.selAt 1 1) f.dN; .ok (.recv m x f.sS f.tS (f.sel 1 = 1))
  | 5, 7 => .ok (.recvt m f.dS f.sS f.tS (f.sel 1 = 1))
  | 5, 8 => .ok (.alt m f.dS f.sS (BitVec.ofNat 4 (f.sel 4)) f.tS (f.selAt 4 1 = 1))
  | 5, 9 => .ok (.qbind m f.dT f.sS)
  | 5, 10 => .ok (.qunbind m f.dT)
  | 5, 11 => .ok (.spawn m f.dS f.sS f.tS)
  | 5, 12 => if f.vIu.toNat > 7 then .error 9 else .ok (.prio m (f.vIu.setWidth 3))
  | 5, 13 => if f.vIu.toNat > 15 then .error 9 else .ok (.stage m (f.vIu.setWidth 4))
  | 5, 14 => .ok (.sleep m f.dS)
  | 5, 15 => .ok (.tblk m f.dS)
  | 5, 16 => .ok (.tublk m f.dS)
  | 5, 17 => do let k ← itemOf f.sN; .ok (.self m f.dS k)
  | 5, 18 => .ok (.exit m)
  | 5, 19 => .ok (.yield m)
  | 5, 20 => .ok (.launch m f.dS f.sS (f.sel 1 = 1))
  | 5, 21 => .ok (.lstat m f.dS f.sS)
  | 5, 32 => .ok (.barjoin m f.dS f.sS)
  | 5, 33 => if f.vIu.toNat > 31 then .error 9 else .ok (.bararv m (f.vIu.setWidth 5))
  | 5, 34 => if f.vIu.toNat > 31 then .error 9 else .ok (.barwait m (f.vIu.setWidth 5))
  | 5, 35 => if f.vIu.toNat > 31 then .error 9 else .ok (.bar m (f.vIu.setWidth 5))
  | 5, 36 => if f.vIu.toNat > 31 then .error 9 else .ok (.barq m f.dS (f.vIu.setWidth 5))
  | 6, 1 => if f.vIu.toNat > 255 then .error 9 else .ok (.trap m (f.vIu.setWidth 8))
  | 6, 2 => .ok (.sret m)
  | 6, 3 => if f.vIu.toNat > 4095 then .error 9 else .ok (.mfsr m f.dS (f.vIu.setWidth 12))
  | 6, 4 => if f.vIu.toNat > 4095 then .error 9 else .ok (.mtsr m f.dS (f.vIu.setWidth 12))
  | 6, 5 => do let k ← tlbiOf f.sN; .ok (.tlbi m f.dS k)
  | 6, 6 => .ok (.tlbp m f.dS f.sS)
  | 6, 7 => .ok (.phase m f.dS f.sS)
  | 6, 8 => .ok (.ctxsync m)
  | 6, 16 => .ok (.xbind m f.dS f.sS)
  | 6, 17 => .ok (.xqry m f.dS f.sS)
  | 6, 18 => .ok (.xpin m f.dS f.sS)
  | 6, 19 => .ok (.xmerge m f.dS)
  | 6, 24 => .ok (.gpri m f.dS f.sS)
  | 6, 25 => .ok (.gqry m f.dS f.sS)
  | 6, 26 => .ok (.gcan m f.dS)
  | 6, 32 => .ok (.trmark m f.dS)
  | 6, 33 => if f.vIu.toNat > 255 then .error 9 else .ok (.evread m f.dS (f.vIu.setWidth 8))
  | 6, 34 => .ok (.evgather m f.dS (BitVec.ofNat 5 f.sN))
  | _, _ => .error 1

/-- Whether PFX.R payload bits reach a field that the form lacks or lists as zero (R28). -/
def strayHigh (sp : Spec) (f : Fields) : Bool :=
  match f.r with
  | none => false
  | some (hd, hs) =>
    ((sp.rd = .zero ∨ sp.rd = .absent) ∧ hd ≠ 0) ∨
      (sp.layout ≠ .rr ∧ (if sp.rs = .gath then hs.toNat > 1 else hs ≠ 0)) ∨ (sp.rs = .zero ∧ hs ≠ 0)

/-- Whether a composed number is beyond its class (R28). -/
def beyond (c : RClass) (n : Nat) : Bool :=
  match c with
  | .v => n > 31
  | .t | .p => n > 7
  | _ => false

/-- The causes of R34 that the form's row decides, 6 to 8, and 9 for the scope and for p0 negated (R29). -/
def formCauses (sp : Spec) (f : Fields) : List Nat :=
  (if (f.r.isSome ∧ ¬ sp.acceptR) ∨ (f.t.isSome ∧ sp.third = 0) ∨ (f.n ≠ 0 ∧ ¬ sp.acceptI) ∨ (f.t.isNone ∧ sp.third = 2) ∨
      (f.q.isNone ∧ sp.needQ) then [6] else []) ++
  (if (sp.rd = .zero ∧ f.rd ≠ 0) ∨ (sp.rs = .zero ∧ f.rs ≠ 0) ∨ strayHigh sp f ∨
      (sp.imm = .none ∧ f.e / 2 ^ sp.w ≠ 0) ∨ (sp.scp = 0 ∧ (f.q.any fun q => q.scope ≠ 0))
    then [7] else []) ++
  (if beyond sp.rd f.dN ∨ beyond sp.rs f.sN ∨ (f.t.any fun t => beyond sp.rt t.toNat)
    then [8] else []) ++
  (match f.q with
    | none => []
    | some q => if (q.pred = 0 ∧ q.neg) ∨ ¬ scopeOk sp.scp q.scope then [9] else [])

def errOf (r : Except Nat Instr) : List Nat := match r with | .ok _ => [] | .error c => [c]

/-- The instruction a complete chain is, or its lowest cause (R34). -/
def ofFields (early : List Nat) (f : Fields) : Except Nat Instr :=
  match specOf f.page f.op with
  | none => .error (minCause ((if f.page = 7 then [] else [1]) ++ early))
  | some sp =>
    let r := build f.page f.op f f.mods
    match minCause (early ++ formCauses sp f ++ errOf r) with
    | 0 => r
    | c => .error c

/-- Decodes the chain at the front of a list of words, `k` prefixes having been met (R21, R34). -/
def decodeFrom (c : Prefixes) (k : Nat) : List (BitVec 16) → Decoded
  | [] => .short
  | w :: ws =>
    if isPrefix w then
      if k = 4 then .illegal (minCause (4 :: c.causes)) 5 else decodeFrom (c.add w) (k + 1) ws
    else
      match ofFields c.causes (c.fields w) with
      | .ok i => .instr i (k + 1)
      | .error e => .illegal e (k + 1)

/-- Decodes one instruction from words in address order. -/
def decodeWords (ws : List (BitVec 16)) : Decoded := decodeFrom {} 0 ws

/-- Little-endian words of a list of bytes (R21). -/
def wordsOf : List Byte → List (BitVec 16)
  | lo :: hi :: bs => (hi ++ lo) :: wordsOf bs
  | _ => []

/-- The bytes of words in address order. -/
def bytesOf : List (BitVec 16) → List Byte
  | [] => []
  | w :: ws => w.extractLsb' 0 8 :: w.extractLsb' 8 8 :: bytesOf ws

/-- Decodes one instruction from bytes in address order. -/
def decode (bs : List Byte) : Decoded := decodeWords (wordsOf bs)

/-! ## Instructions to words -/

/-- The fields of one instruction: register numbers d and s, PFX.T, the selector of `w` bits and the immediate (R27, R28). -/
def mkFields (page op : Nat) (m : Mods) (d s : Nat) (t : Option Nat) (w sel : Nat) (v : Word) : Fields :=
  let n := m.nI.toNat
  let lay := match specOf page op with | some sp => sp.layout | none => .r
  let ri := (specOf page op).any fun sp => sp.layout = .ri && sp.rs ≠ .gath
  { page := page
    op := op
    rd := if lay = .j then v.extractLsb' 4 4 else BitVec.ofNat 4 d
    rs := if lay = .j then v.extractLsb' 0 4 else if ri then v.extractLsb' 0 4 else BitVec.ofNat 4 s
    stall := m.stall
    r := if m.hasR then some (BitVec.ofNat 2 (d / 16), BitVec.ofNat 2 (s / 16)) else none
    t := t.map (BitVec.ofNat 6)
    m := m.pfxM
    q := m.pfxQ
    n := n
    e := if lay = .j then v.toNat / 256 % 2 ^ (7 * n)
      else if ri then v.toNat / 16 % 2 ^ (7 * n)
      else (v.toNat % 2 ^ (7 * n - w) * 2 ^ w + sel) % 2 ^ (7 * n) }

/-- The fields of an encoded instruction; none for a step of an agent, which has no encoding. -/
def enc (i : Instr) : Option Fields :=
  match i with
  | .add m d s t => some (mkFields 0 1 m d.toNat s.toNat (t.map (·.toNat)) 0 0 0)
  | .sub m d s t => some (mkFields 0 2 m d.toNat s.toNat (t.map (·.toNat)) 0 0 0)
  | .mul m d s t => some (mkFields 0 3 m d.toNat s.toNat (t.map (·.toNat)) 0 0 0)
  | .mulh m d s t => some (mkFields 0 4 m d.toNat s.toNat (t.map (·.toNat)) 0 0 0)
  | .mulhn m d s t => some (mkFields 0 5 m d.toNat s.toNat (t.map (·.toNat)) 0 0 0)
  | .div m d s t => some (mkFields 0 6 m d.toNat s.toNat (t.map (·.toNat)) 0 0 0)
  | .divn m d s t => some (mkFields 0 7 m d.toNat s.toNat (t.map (·.toNat)) 0 0 0)
  | .rem m d s t => some (mkFields 0 8 m d.toNat s.toNat (t.map (·.toNat)) 0 0 0)
  | .remn m d s t => some (mkFields 0 9 m d.toNat s.toNat (t.map (·.toNat)) 0 0 0)
  | .and m d s t => some (mkFields 0 10 m d.toNat s.toNat (t.map (·.toNat)) 0 0 0)
  | .or m d s t => some (mkFields 0 11 m d.toNat s.toNat (t.map (·.toNat)) 0 0 0)
  | .xor m d s t => some (mkFields 0 12 m d.toNat s.toNat (t.map (·.toNat)) 0 0 0)
  | .shl m d s t => some (mkFields 0 13 m d.toNat s.toNat (t.map (·.toNat)) 0 0 0)
  | .shr m d s t => some (mkFields 0 14 m d.toNat s.toNat (t.map (·.toNat)) 0 0 0)
  | .sar m d s t => some (mkFields 0 15 m d.toNat s.toNat (t.map (·.toNat)) 0 0 0)
  | .rol m d s t => some (mkFields 0 16 m d.toNat s.toNat (t.map (·.toNat)) 0 0 0)
  | .min m d s t => some (mkFields 0 17 m d.toNat s.toNat (t.map (·.toNat)) 0 0 0)
  | .max m d s t => some (mkFields 0 18 m d.toNat s.toNat (t.map (·.toNat)) 0 0 0)
  | .minn m d s t => some (mkFields 0 19 m d.toNat s.toNat (t.map (·.toNat)) 0 0 0)
  | .maxn m d s t => some (mkFields 0 20 m d.toNat s.toNat (t.map (·.toNat)) 0 0 0)
  | .sel m d s t => some (mkFields 0 21 m d.toNat s.toNat (some t.toNat) 0 0 0)
  | .lea m d s t sc imm => some (mkFields 0 22 m d.toNat s.toNat (t.map (·.toNat)) 2 sc.toNat imm)
  | .neg m d s => some (mkFields 0 23 m d.toNat s.toNat none 0 0 0)
  | .not m d s => some (mkFields 0 24 m d.toNat s.toNat none 0 0 0)
  | .clz m d s => some (mkFields 0 25 m d.toNat s.toNat none 0 0 0)
  | .ctz m d s => some (mkFields 0 26 m d.toNat s.toNat none 0 0 0)
  | .popc m d s => some (mkFields 0 27 m d.toNat s.toNat none 0 0 0)
  | .mov m d s => some (mkFields 0 30 m d.toNat s.toNat none 0 0 0)
  | .sext m d s sz => some (mkFields 0 28 m d.toNat s.toNat none 2 sz.code 0)
  | .zext m d s sz => some (mkFields 0 29 m d.toNat s.toNat none 2 sz.code 0)
  | .addi m d imm => some (mkFields 0 31 m d.toNat 0 none 0 0 imm)
  | .andi m d imm => some (mkFields 0 32 m d.toNat 0 none 0 0 imm)
  | .ori m d imm => some (mkFields 0 33 m d.toNat 0 none 0 0 imm)
  | .xori m d imm => some (mkFields 0 34 m d.toNat 0 none 0 0 imm)
  | .movi m d imm => some (mkFields 0 35 m d.toNat 0 none 0 0 imm)
  | .movhi m d imm => some (mkFields 0 36 m d.toNat 0 none 0 0 imm)
  | .cmp m d s t c => some (mkFields 0 37 m d.toNat s.toNat (t.map (·.toNat)) 3 c.code 0)
  | .cmpi m d s c imm => some (mkFields 0 38 m d.toNat s.toNat none 3 c.code imm)
  | .ld m d s sz off => some (mkFields 0 39 m d.toNat s.toNat none 2 sz.code off)
  | .lds m d s sz off => some (mkFields 0 40 m d.toNat s.toNat none 2 sz.code off)
  | .st m d s sz off => some (mkFields 0 41 m d.toNat s.toNat none 2 sz.code off)
  | .ldv m d s lf off => some (mkFields 0 42 m d.toNat s.toNat none 5 (lfCode lf) off)
  | .stv m d s off => some (mkFields 0 43 m d.toNat s.toNat none 0 0 off)
  | .ldt m d s lf tx off => some (mkFields 0 44 m d.toNat s.toNat none 7 (lfCode lf + 32 * tx.code) off)
  | .stt m d s off => some (mkFields 0 45 m d.toNat s.toNat none 0 0 off)
  | .ldg m d s t lf => some (mkFields 0 46 m d.toNat s.toNat (some t.toNat) 5 (lfCode lf) 0)
  | .stx m d s t => some (mkFields 0 47 m d.toNat s.toNat (some t.toNat) 0 0 0)
  | .lda m d s sz => some (mkFields 0 48 m d.toNat s.toNat none 2 sz.code 0)
  | .stl m d s sz => some (mkFields 0 49 m d.toNat s.toNat none 2 sz.code 0)
  | .pref m s lvl off => some (mkFields 0 50 m 0 s.toNat none 2 lvl.toNat off)
  | .b m disp => some (mkFields 0 51 m 0 0 none 0 0 disp)
  | .bp m disp => some (mkFields 0 52 m 0 0 none 0 0 disp)
  | .jl m disp => some (mkFields 0 56 m 0 0 none 0 0 disp)
  | .bz m d disp => some (mkFields 0 53 m d.toNat 0 none 0 0 disp)
  | .bnz m d disp => some (mkFields 0 54 m d.toNat 0 none 0 0 disp)
  | .j m d => some (mkFields 0 55 m d.toNat 0 none 0 0 0)
  | .ret m  => some (mkFields 0 57 m 0 0 none 0 0 0)
  | .rep m d n => some (mkFields 0 58 m d.toNat 0 none 0 0 (n.setWidth 64))
  | .nop m  => some (mkFields 0 59 m 0 0 none 0 0 0)
  | .tfence m  => some (mkFields 0 60 m 0 0 none 0 0 0)
  | .bkpt m n => some (mkFields 0 61 m 0 0 none 0 0 (n.setWidth 64))
  | .vadd m d s t sat => some (mkFields 1 1 m d.toNat s.toNat (t.map (·.toNat)) 1 sat.toNat 0)
  | .vsub m d s t sat => some (mkFields 1 2 m d.toNat s.toNat (t.map (·.toNat)) 1 sat.toNat 0)
  | .vmul m d s t sat => some (mkFields 1 3 m d.toNat s.toNat (t.map (·.toNat)) 1 sat.toNat 0)
  | .vfma m d s t => some (mkFields 1 4 m d.toNat s.toNat (some t.toNat) 0 0 0)
  | .vfms m d s t => some (mkFields 1 5 m d.toNat s.toNat (some t.toNat) 0 0 0)
  | .vmin m d s t => some (mkFields 1 6 m d.toNat s.toNat (t.map (·.toNat)) 0 0 0)
  | .vmax m d s t => some (mkFields 1 7 m d.toNat s.toNat (t.map (·.toNat)) 0 0 0)
  | .vabs m d s sat => some (mkFields 1 8 m d.toNat s.toNat none 1 sat.toNat 0)
  | .vneg m d s sat => some (mkFields 1 9 m d.toNat s.toNat none 1 sat.toNat 0)
  | .vand m d s t => some (mkFields 1 10 m d.toNat s.toNat (t.map (·.toNat)) 0 0 0)
  | .vor m d s t => some (mkFields 1 11 m d.toNat s.toNat (t.map (·.toNat)) 0 0 0)
  | .vxor m d s t => some (mkFields 1 12 m d.toNat s.toNat (t.map (·.toNat)) 0 0 0)
  | .vnot m d s => some (mkFields 1 13 m d.toNat s.toNat none 0 0 0)
  | .vshl m d s t => some (mkFields 1 14 m d.toNat s.toNat (t.map (·.toNat)) 0 0 0)
  | .vshr m d s t => some (mkFields 1 15 m d.toNat s.toNat (t.map (·.toNat)) 0 0 0)
  | .vsar m d s t => some (mkFields 1 16 m d.toNat s.toNat (t.map (·.toNat)) 0 0 0)
  | .vcmp m d s t c => some (mkFields 1 17 m d.toNat s.toNat (some t.toNat) 3 c.code 0)
  | .vsel m d s t => some (mkFields 1 18 m d.toNat s.toNat (some t.toNat) 0 0 0)
  | .vcvt m d s fmt rnd => some (mkFields 1 19 m d.toNat s.toNat none 7 (fmt.code + 16 * rnd.code) 0)
  | .vred m d s fop => some (mkFields 1 20 m d.toNat s.toNat none 2 fop.code 0)
  | .vscan m d s fop => some (mkFields 1 21 m d.toNat s.toNat none 2 fop.code 0)
  | .vperm m d s t => some (mkFields 1 22 m d.toNat s.toNat (some t.toNat) 0 0 0)
  | .vbcast m d s lane => some (mkFields 1 23 m d.toNat s.toNat none 0 0 (lane.setWidth 64))
  | .vsplat m d s fmt => some (mkFields 1 24 m d.toNat s.toNat none 4 fmt.code 0)
  | .vext m d s lane => some (mkFields 1 25 m d.toNat s.toNat none 0 0 (lane.setWidth 64))
  | .vins m d s lane => some (mkFields 1 26 m d.toNat s.toNat none 0 0 (lane.setWidth 64))
  | .vrcp m d s => some (mkFields 1 27 m d.toNat s.toNat none 0 0 0)
  | .vrsq m d s => some (mkFields 1 28 m d.toNat s.toNat none 0 0 0)
  | .vexp2 m d s => some (mkFields 1 29 m d.toNat s.toNat none 0 0 0)
  | .vlog2 m d s => some (mkFields 1 30 m d.toNat s.toNat none 0 0 0)
  | .vtanh m d s => some (mkFields 1 31 m d.toNat s.toNat none 0 0 0)
  | .vdot4 m d s t sat => some (mkFields 1 32 m d.toNat s.toNat (some t.toNat) 1 sat.toNat 0)
  | .vmac m d s t sat => some (mkFields 1 33 m d.toNat s.toNat (some t.toNat) 1 sat.toNat 0)
  | .vclamp m d s t => some (mkFields 1 34 m d.toNat s.toNat (some t.toNat) 0 0 0)
  | .pand m d s t => some (mkFields 1 35 m d.toNat s.toNat (t.map (·.toNat)) 0 0 0)
  | .por m d s t => some (mkFields 1 36 m d.toNat s.toNat (t.map (·.toNat)) 0 0 0)
  | .pnot m d s => some (mkFields 1 37 m d.toNat s.toNat none 0 0 0)
  | .pmov m o => some (mkFields 1 38 m o.rd o.rs none 2 o.dir 0)
  | .tzero m d => some (mkFields 2 1 m d.toNat 0 none 0 0 0)
  | .tmma m d s t => some (mkFields 2 2 m d.toNat s.toNat (some t.toNat) 0 0 0)
  | .tadd m d s t sat => some (mkFields 2 3 m d.toNat s.toNat (t.map (·.toNat)) 1 sat.toNat 0)
  | .tcvt m d s fmt rnd => some (mkFields 2 4 m d.toNat s.toNat none 7 (fmt.code + 16 * rnd.code) 0)
  | .ttrn m d s x16 => some (mkFields 2 5 m d.toNat s.toNat none 1 x16.toNat 0)
  | .tscl m d s => some (mkFields 2 6 m d.toNat s.toNat none 0 0 0)
  | .ttag m d fmt scale => some (mkFields 2 7 m d.toNat fmt.code none 0 0 (scale.signExtend 64))
  | .tmov m d s => some (mkFields 2 8 m d.toNat s.toNat none 0 0 0)
  | .mlease m n => some (mkFields 2 16 m 0 0 none 0 0 (n.setWidth 64))
  | .mrel m  => some (mkFields 2 17 m 0 0 none 0 0 0)
  | .mma m d s t slot mode => some (mkFields 2 18 m d.toNat s.toNat (some t.toNat) 6 (slot.toNat + 4 * mode.code) 0)
  | .mdrain m d slot fmt => some (mkFields 2 19 m d.toNat slot.toNat none 4 fmt.code 0)
  | .mzero m slot => some (mkFields 2 20 m 0 slot.toNat none 0 0 0)
  | .mstat m d slot => some (mkFields 2 21 m d.toNat slot.toNat none 0 0 0)
  | .mcarry m trap => some (mkFields 2 22 m 0 trap.toNat none 0 0 0)
  | .mwait m slot => some (mkFields 2 23 m 0 slot.toNat none 0 0 0)
  | .mvmq m d s t mode => some (mkFields 2 24 m d.toNat s.toNat (some t.toNat) 4 mode.code 0)
  | .amo m d s t op wide => some (mkFields 3 1 m d.toNat s.toNat (some t.toNat) 6 (op.code + 16 * (wideCode wide)) 0)
  | .cas m d s t wide => some (mkFields 3 2 m d.toNat s.toNat (some t.toNat) 2 (wideCode wide) 0)
  | .red m d s op wide => some (mkFields 3 3 m d.toNat s.toNat none 6 (op.code + 16 * (wideCode wide)) 0)
  | .redf m d s fop bf16 => some (mkFields 3 4 m d.toNat s.toNat none 6 (fop.code + 4 * (6 + bf16.toNat)) 0)
  | .waitred m  => some (mkFields 3 5 m 0 0 none 0 0 0)
  | .fence m kind => some (mkFields 3 6 m 0 kind.code none 0 0 0)
  | .wset m d s => some (mkFields 4 1 m d.toNat s.toNat none 0 0 0)
  | .wclr m d => some (mkFields 4 2 m d.toNat 0 none 0 0 0)
  | .wprobe m d s => some (mkFields 4 3 m d.toNat s.toNat none 0 0 0)
  | .wwait m d => some (mkFields 4 4 m d.toNat 0 none 0 0 0)
  | .cpy m d s t => some (mkFields 4 5 m d.toNat s.toNat (some t.toNat) 0 0 0)
  | .cpy2 m d s t => some (mkFields 4 6 m d.toNat s.toNat (some t.toNat) 0 0 0)
  | .cpyb m d => some (mkFields 4 7 m d.toNat 0 none 0 0 0)
  | .waitb m n => some (mkFields 4 8 m 0 0 none 0 0 (n.setWidth 64))
  | .cpys m d s t => some (mkFields 4 9 m d.toNat s.toNat (some t.toNat) 0 0 0)
  | .cpyq m d s => some (mkFields 4 10 m d.toNat s.toNat none 0 0 0)
  | .chnew m d s => some (mkFields 5 1 m d.toNat s.toNat none 0 0 0)
  | .chclose m d st => some (mkFields 5 2 m d.toNat 0 none 1 st.toNat 0)
  | .chbind m d s => some (mkFields 5 3 m d.toNat s.toNat none 0 0 0)
  | .send m d x t st => some (mkFields 5 4 m d.toNat x.num (t.map (·.toNat)) 2 (st.toNat + 2 * x.dv) 0)
  | .sendt m d s t st => some (mkFields 5 5 m d.toNat s.toNat (t.map (·.toNat)) 1 st.toNat 0)
  | .recv m x s t st => some (mkFields 5 6 m x.num s.toNat (t.map (·.toNat)) 2 (st.toNat + 2 * x.dv) 0)
  | .recvt m d s t st => some (mkFields 5 7 m d.toNat s.toNat (t.map (·.toNat)) 1 st.toNat 0)
  | .alt m d s cnt t fair => some (mkFields 5 8 m d.toNat s.toNat (t.map (·.toNat)) 5 (cnt.toNat + 16 * fair.toNat) 0)
  | .qbind m d s => some (mkFields 5 9 m d.toNat s.toNat none 0 0 0)
  | .qunbind m d => some (mkFields 5 10 m d.toNat 0 none 0 0 0)
  | .spawn m d s t => some (mkFields 5 11 m d.toNat s.toNat (t.map (·.toNat)) 0 0 0)
  | .prio m n => some (mkFields 5 12 m 0 0 none 0 0 (n.setWidth 64))
  | .stage m n => some (mkFields 5 13 m 0 0 none 0 0 (n.setWidth 64))
  | .sleep m d => some (mkFields 5 14 m d.toNat 0 none 0 0 0)
  | .tblk m d => some (mkFields 5 15 m d.toNat 0 none 0 0 0)
  | .tublk m d => some (mkFields 5 16 m d.toNat 0 none 0 0 0)
  | .self m d item => some (mkFields 5 17 m d.toNat item.code none 0 0 0)
  | .exit m  => some (mkFields 5 18 m 0 0 none 0 0 0)
  | .yield m  => some (mkFields 5 19 m 0 0 none 0 0 0)
  | .launch m d s t => some (mkFields 5 20 m d.toNat s.toNat none 1 t.toNat 0)
  | .lstat m d s => some (mkFields 5 21 m d.toNat s.toNat none 0 0 0)
  | .barjoin m d s => some (mkFields 5 32 m d.toNat s.toNat none 0 0 0)
  | .bararv m n => some (mkFields 5 33 m 0 0 none 0 0 (n.setWidth 64))
  | .barwait m n => some (mkFields 5 34 m 0 0 none 0 0 (n.setWidth 64))
  | .bar m n => some (mkFields 5 35 m 0 0 none 0 0 (n.setWidth 64))
  | .barq m d n => some (mkFields 5 36 m d.toNat 0 none 0 0 (n.setWidth 64))
  | .trap m n => some (mkFields 6 1 m 0 0 none 0 0 (n.setWidth 64))
  | .sret m  => some (mkFields 6 2 m 0 0 none 0 0 0)
  | .mfsr m d n => some (mkFields 6 3 m d.toNat 0 none 0 0 (n.setWidth 64))
  | .mtsr m d n => some (mkFields 6 4 m d.toNat 0 none 0 0 (n.setWidth 64))
  | .tlbi m d kind => some (mkFields 6 5 m d.toNat kind.code none 0 0 0)
  | .tlbp m d s => some (mkFields 6 6 m d.toNat s.toNat none 0 0 0)
  | .phase m d s => some (mkFields 6 7 m d.toNat s.toNat none 0 0 0)
  | .ctxsync m  => some (mkFields 6 8 m 0 0 none 0 0 0)
  | .xbind m d s => some (mkFields 6 16 m d.toNat s.toNat none 0 0 0)
  | .xqry m d s => some (mkFields 6 17 m d.toNat s.toNat none 0 0 0)
  | .xpin m d s => some (mkFields 6 18 m d.toNat s.toNat none 0 0 0)
  | .xmerge m d => some (mkFields 6 19 m d.toNat 0 none 0 0 0)
  | .gpri m d s => some (mkFields 6 24 m d.toNat s.toNat none 0 0 0)
  | .gqry m d s => some (mkFields 6 25 m d.toNat s.toNat none 0 0 0)
  | .gcan m d => some (mkFields 6 26 m d.toNat 0 none 0 0 0)
  | .trmark m d => some (mkFields 6 32 m d.toNat 0 none 0 0 0)
  | .evread m d n => some (mkFields 6 33 m d.toNat 0 none 0 0 (n.setWidth 64))
  | .evgather m d n => some (mkFields 6 34 m d.toNat n.toNat none 0 0 0)
  | _ => none

/-- A prefix word (R25). -/
def prefixWord (kind : BitVec 3) (x : BitVec 7) : BitVec 16 := (63#6 ++ kind ++ x)

/-- The PFX.I words of E, first in address order most significant (R27). -/
def immWords : Nat → Nat → List (BitVec 16)
  | 0, _ => []
  | n + 1, e => prefixWord 0 (BitVec.ofNat 7 (e / 2 ^ (7 * n))) :: immWords n e

/-- The words of one chain, prefixes in the order zvas emits them (R41). -/
def Fields.words (f : Fields) : List (BitVec 16) :=
  (if f.page = 0 then [] else [prefixWord 3 (BitVec.ofNat 7 f.page)]) ++
  (match f.r with | none => [] | some (hd, hs) => [prefixWord 1 (hd ++ hs ++ 0#3)]) ++
  (match f.t with | none => [] | some t => [prefixWord 2 (0#1 ++ t)]) ++
  (match f.q with | none => [] | some q => [prefixWord 5 (q.pred ++ (BitVec.ofBool q.neg) ++ q.scope)]) ++
  (match f.m with | none => [] | some (nf, c) => [prefixWord 4 (BitVec.ofBool nf ++ 0#2 ++ c)]) ++
  immWords f.n f.e ++
  [BitVec.ofNat 6 f.op ++ f.rd ++ f.rs ++ f.stall]

/-- The words of an instruction in address order; empty for a step of an agent. -/
def encode (i : Instr) : List (BitVec 16) := match enc i with | none => [] | some f => f.words

/-- The instruction's length in bytes (R21). -/
def Instr.bytes (i : Instr) : Nat := 2 * (encode i).length

/-- What the decoder reads from a row's bits as spec/opcode_table.json numbers them. A row of 32 bits shows its prefix word in
bits 31:16 and its base word in bits 15:0, so bits 31:16 are the first word in address order; a row of 16 bits is a base word
alone (log entry 4). -/
def tableWords (nbits w : Nat) : List (BitVec 16) :=
  if nbits ≤ 16 then [BitVec.ofNat 16 w] else [BitVec.ofNat 16 (w / 65536), BitVec.ofNat 16 w]

def decodeTableWord (nbits w : Nat) : Option Instr :=
  match decode (bytesOf (tableWords nbits w)) with
  | .instr i _ => some i
  | _ => none

end Sys2Proof
end

