-- ==== Sys2Proof/Config.lean ====
section
/-! DEFINITION. What an implementation fixes and the values the spec leaves open. Every value here is an opaque constant: nothing
in Lean can say what it is, so a statement holds whatever it is. -/

namespace Sys2Proof.Config

/-- Free choices between two outcomes, by the model's own counter (short stalls under PCTL.SCB = 0, R32; whether a resident
cache line was dropped meanwhile, R311). Log entry 2. -/
opaque freeBool : Nat → Bool

/-- Free numbers, by the model's own counter (victims of replacement, R74; measured latencies, R64). Log entry 2. -/
opaque freeNat : Nat → Nat

/-- The header of a Marrun packet (R107 gives its place, not its fields). Log entry 68. -/
opaque packetHeader : Packet → BitVec 256

end Sys2Proof.Config
end

