-- ==== Sys2Proof/Machine/State.lean ====
section
/-! DEFINITION. The state of one Vyonben VB9 device as plain data, the ways a step can stop, and the state at power-up. Every
table is sparse: a key that is not listed holds the default its docstring names. -/

namespace Sys2Proof.Machine

/-! ## Ways a step can stop -/

/-- Named stops of the machine. -/
inductive Fault where
  /-- Raised by the meaning of an encoded instruction that is asked for while no process is issuing. Safe: `step` never asks. -/
  | noIssuer
  deriving DecidableEq, Repr

/-- Named refusals. -/
inductive Refusal where
  /-- Raised by an arm of `exec` whose instruction has no meaning yet. Safe. -/
  | notModelled (mnemonic : String)
  deriving DecidableEq, Repr

/-! ## Memory -/

/-- Every byte the device can hold, as (location, byte), locations strictly rising and no entry equal to 0, which is what an
unlisted location reads as (R454 step 4, R455). A location is: a physical address (R45) below 2^52; a byte of a cluster's SRAM
from `sramBase`; a byte of a team's allotment moved to HBM (R371) from `backBase`; a host physical address from `hostBase`; a
space-0b01 address from `remoteBase`. -/
abbrev Memory := List Host.Cell

/-! ## The context of a process (R169 to R171) -/

/-- One entry of the short-stall record (R171): a fixed-latency producer whose result is still outstanding, with the whole value
its register held before it (R32). -/
structure Outstanding where
  /-- remaining encoded distance, bits 15:10 -/
  dist : Nat
  /-- register class: 0 s, 1 v, 2 t, 3 p -/
  cls : BitVec 2
  reg : BitVec 6
  old : TileData
  oldTag : BitVec 4
  oldScale : BitVec 8
  /-- the process left its core since: the producer has completed (R32) -/
  settled : Bool
  /-- how PCTL.SCB = 0 resolves the short stall of the instruction that is issuing: it reads the old value; its own write of the
  register is lost to the producer's -/
  readOld : Bool
  keepNew : Bool
  deriving DecidableEq, Repr

/-- The context image and system block of one process. Every table's default is 0. -/
structure Ctx where
  /-- s1 to s63 (R28); s0 is not stored -/
  s : Tab Word := []
  /-- v0 to v31 -/
  v : Tab Line := []
  /-- t0 to t7 -/
  t : Tab TileData := []
  /-- p1 to p7; p0 is not stored -/
  p : Tab Word := []
  /-- format tags of v and t registers (R170, R169); 0 is RAW -/
  vtag : Tab (BitVec 4) := []
  ttag : Tab (BitVec 4) := []
  /-- scale exponents, signed (R178) -/
  vscale : Tab (BitVec 8) := []
  tscale : Tab (BitVec 8) := []
  /-- sticky flags (R213): lane L at bits 5L+4:5L, VXFL is lanes 0 to 7 and VXFH lanes 8 to 15 -/
  flags : BitVec 80 := 0
  /-- port state (R170): BOUND and OUT of q0 to q7 -/
  qbound : BitVec 8 := 0
  qout : BitVec 8 := 0
  /-- QH0 to QH7 (R171) -/
  qh : Tab Word := []
  /-- debug line: IBA0-3 then WPA0-3 (R438) -/
  dbg : Tab Word := []
  /-- continuation line: the rendezvous record (R137) -/
  rendez : Tab Word := []
  /-- PCTL (R33), FCTL (R208), SRSTATE (R212), PLAT (R64), VMCTX (R69) -/
  pctl : Word := 0
  fctl : Word := 0
  srstate : Word := 0
  plat : Word := 0
  vmctx : Word := 0
  /-- phase state (R419) -/
  phid : BitVec 32 := 0
  expect : BitVec 32 := 0
  frac : BitVec 8 := 0
  padd : BitVec 24 := 0
  elapsed : BitVec 32 := 0
  /-- short-stall record, oldest first (R171) -/
  short : List Outstanding := []
  deriving DecidableEq, Repr

/-! ## Processes (R321) -/

/-- STATE of a continuation record. -/
inductive PState where | exited | ready | running | blocked | suspended | service | halted
  deriving DecidableEq, Repr

/-- WKIND of a continuation record. -/
inductive WKind where
  | nothing | send | sendt | recv | recvt | alt | sleep | window | barrier | batch | lease | port | reply | place | other
  deriving DecidableEq, Repr

/-- The loop state of a pinned REP block (R236, R238): the REP's address, the block's first instruction, the address after the
block, the instruction count, the count register and the pinned words. -/
structure Loop where
  rep : Word
  start : Word
  stop : Word
  n : BitVec 7
  sreg : SReg
  words : Tab (BitVec 16)
  deriving DecidableEq, Repr

/-- A REDF on the cluster's own SRAM that waits for its chunk's commit (R289, R292). -/
structure BufRed where
  loc : Nat
  op : HomeOp
  /-- a later access of the chunk met it on a poisoned line: it fails at the commit (R286, R297) -/
  failed : Bool := false
  deriving DecidableEq, Repr

/-- An open chunk (R303 to R307, R177). -/
structure Chunk where
  /-- instructions executed so far -/
  count : Nat
  /-- what a squash restores: the program counter, the registers and the loop state at the chunk's start -/
  pc0 : Word
  ctx0 : Ctx
  loop0 : Option Loop
  /-- buffered store bytes by location -/
  buf : Tab Byte
  reds : List BufRed
  /-- lines of the read and the write signature (R305) -/
  rsig : List Nat
  wsig : List Nat
  /-- register lines written, which hold shadows (R177) -/
  shadow : List Nat
  /-- place in the commit order when the first instruction issued -/
  seq0 : Nat
  /-- ended and waiting for the commit arbiter -/
  ended : Bool
  /-- marker packets buffered by TRMARK (R453) -/
  marks : List Word
  deriving DecidableEq, Repr

/-- How an operation that outlives its issue stands; its process consumes the end when it executes the instruction again. -/
inductive OpRes where
  | waiting
  | ok (v : TileData)
  | status (n : Nat)
  | trap (cls kind aux : Nat)
  deriving DecidableEq, Repr

/-- The operation a process's current instruction has under way: a request, a message, an array command, a copy. `id` names the
message or the place it holds; `key` repeats the operand that identifies it. -/
structure Op where
  id : Nat
  key : Nat
  res : OpRes
  /-- lines already received for a wide access, by location, or the guards of an ALT by index: handle and enable -/
  got : Tab Line := []
  /-- scope at which the completion acquires (R315, R316) -/
  sc : Nat := 0
  deriving DecidableEq, Repr

/-- What a request held back by R115 will send. -/
inductive OutReq where
  | bytes (bs : List Byte)
  | line (data : Line) (mask : BitVec 64) (poison : Bool)
  | op (o : HomeOp)
  deriving DecidableEq, Repr

/-- An access that left the cluster and is not yet acknowledged (R115, R116): a store when `red` is false, a reduction when true.
`space` is the address space 0 to 3; `line` the location of the line it names. -/
structure OutAcc where
  id : Nat
  space : Nat
  line : Nat
  red : Bool
  scope : Nat
  /-- the cluster's own release store whose line is taken on acknowledgement (R312): its location and bytes -/
  take : Tab Byte
  /-- not yet sent, since an earlier access to the line is unanswered: address and request -/
  hold : Option (Word × OutReq)
  deriving DecidableEq, Repr

/-- A fault held until the next waiting instruction (R114, R297); `order` is its access's place in the order of issue. -/
structure HeldFault where
  order : Nat
  cls : BitVec 8
  kind : BitVec 8
  aux : Nat
  red : Bool
  space : Nat
  addr : Word
  deriving DecidableEq, Repr

/-- What an ALT has reserved (R339): an unmatched request-store entry, a buffer slot, a host mailbox's message, or the CLOSED
state. -/
inductive Reserved where
  | entry (cl k : Nat)
  | slot (cl n : Nat)
  | mail (bytes : List Byte)
  | closed
  deriving DecidableEq, Repr

/-- A barrier membership (R378): K, counted arrivals, a deferred arrival, and the EPOCH in which the member waits. -/
structure BarMem where
  k : Nat
  arr : Nat
  deferred : Bool
  waiting : Bool
  deriving DecidableEq, Repr

/-- Where a member's restart begins (R424): entry address, origin code 0 to 3, starting s1. -/
structure Origin where
  entry : Word
  code : BitVec 2
  s1 : Word
  deriving DecidableEq, Repr

/-- Status of a batch number (R152). -/
inductive BStat where
  | done | opened | running | pendFault | failed | auth | abortSec | secRefused | cancel
  deriving DecidableEq, Repr

/-- A line of a save area that a register cache holds (R173, R174): whether it differs from the save area, and the core cycle of
its last use. -/
structure RLine where
  dirty : Bool
  used : Nat
  deriving DecidableEq, Repr

/-- A translation that a process asked a walker for (R75): ASID, VA page, whether the access writes, and the answer once it is
there: none when the translation is allowed, or the kind of R72. -/
structure Asked where
  asid : BitVec 16
  page : Nat
  write : Bool
  fetch : Bool
  ans : Option (Option Nat)
  deriving DecidableEq, Repr

/-- A process: its continuation record (R321), its context, and what the cluster keeps for it. -/
structure Proc where
  state : PState := .ready
  wkind : WKind := .nothing
  pc : Word := 0
  stage : BitVec 4 := 0
  prio : BitVec 3 := 0
  altnxt : BitVec 4 := 0
  /-- the reservation that RSVD marks, with the endpoint's index -/
  resv : Option (Nat × Reserved) := none
  /-- save-area base (R172) -/
  incs : Bool := true
  base : Nat := 0
  lid : Nat := 0
  team : Nat := 0
  wait : Word := 0
  deadline : Word := 0
  dbgEn : Word := 0
  pol : BitVec 2 := 0
  rtry : BitVec 2 := 0
  /-- FINFO (R416) -/
  fcls : BitVec 8 := 0
  fkind : BitVec 8 := 0
  fpcls : BitVec 8 := 0
  fpkind : BitVec 8 := 0
  flvl : BitVec 2 := 0
  ctx : Ctx := {}
  /-- cluster, core and barrel slot; `slot` none when it holds no slot -/
  cl : Nat := 0
  core : Nat := 0
  slot : Option Nat := none
  /-- whether it has ever held a slot (R367) -/
  hasRun : Bool := false
  /-- cycle at which it took its slot (R369), and before which it may not issue (R31) -/
  slotAt : Nat := 0
  issueAt : Nat := 0
  /-- SCHCTL.SLICE when it took its slot (R370) -/
  slice : Nat := 0
  chunk : Option Chunk := none
  /-- squashes of the current chunk since it first began, solo mode, and the length a prefix re-run ends at (R306, R307) -/
  squashes : Nat := 0
  solo : Bool := false
  limit : Option Nat := none
  loop : Option Loop := none
  /-- instruction words fetched since the last CTXSYNC (R39, R430) -/
  iwords : Tab (BitVec 16) := []
  /-- count of synchronisations (`State.syncs`) at its last CTXSYNC, or at its start (R39) -/
  isync : Nat := 0
  op : Option Op := none
  outs : List OutAcc := []
  held : List HeldFault := []
  /-- pending counter of R292 -/
  pend : Nat := 0
  openBatch : BitVec 8 := 0
  batches : Tab BStat := []
  bars : Tab BarMem := []
  /-- service slot that holds it (R410) -/
  svc : Option Nat := none
  /-- what it was before a halt (R436), or before a suspension -/
  before : Option PState := none
  /-- asynchronous traps due (R409): PHASE_OVERRUN, and CHILD with launch and class -/
  phaseDue : Bool := false
  childDue : List (Nat × Nat) := []
  /-- skip the instruction-breakpoint compare of the next issue (R436) -/
  skipIbp : Bool := false
  /-- watchpoint hits of the open chunk or the current instruction (R441): owner, number and access kind -/
  hits : List (Pid × Nat × Nat) := []
  /-- one more than the cycle of its last issue (R445) -/
  issuedAt : Nat := 0
  /-- cycle at which its wait began, and whether a probe of this wait has reported (R343) -/
  since : Nat := 0
  reported : Bool := false
  /-- lines of its save area resident in a register cache (R173), the core of its cluster whose cache that is (31: the
  Lamplighter's; R176), lines on their way there, and lines that the instruction in flight uses (R174) -/
  rlines : Tab RLine := []
  rcore : Option Nat := none
  fetching : List Nat := []
  inUse : List Nat := []
  /-- the translation that holds it out of barrel rotation, or its answer (R75) -/
  asked : Option Asked := none
  /-- the next LDA or acquire of the consistency model still owed at its first instruction (R315, R318) -/
  acquireDue : Bool := false
  /-- waits to leave its core when its reductions and loop allow (R298, R238) -/
  leaving : Bool := false
  deriving DecidableEq, Repr

/-! ## Channels and transfers -/

/-- A message or transfer between its send and its end (R329, R122): from `sender` (none: an engine) to endpoint `kind`, `idx`.
Messages of SEND carry `bytes`; a SENDT names `srcCl` and `srcOff`; an engine's message carries `bytes`, and its `srcOff` is the
event counter that counts it when it is discarded. -/
structure Msg where
  sender : Option Pid
  kind : Nat
  idx : Nat
  efmt : BitVec 6
  sclass : BitVec 5
  len : Nat
  bytes : List Byte
  /-- lines of `bytes` that are poisoned -/
  bad : List Nat
  srcCl : Nat
  srcOff : Nat
  bulk : Bool
  /-- expert number and version under which it was resolved (R387) -/
  expert : Option (Nat × Nat)
  /-- where it is held: cluster and request-store entry -/
  place : Option (Nat × Nat)
  /-- the sender withdrew or was told its end -/
  ended : Bool
  /-- serials the sender dropped (R136) -/
  dropped : List (BitVec 16)
  /-- the device and the tag there of a sender on another device, and the device of a receiver on another one (R327) -/
  origin : Option (Nat × Nat) := none
  remote : Option Nat := none
  /-- panel site where it entered the mesh; none at the receiving cluster's own -/
  site : Option Nat := none
  deriving DecidableEq, Repr

/-- An outstanding token (R127). -/
structure Token where
  serial : BitVec 16
  unit : Nat
  bytes : Nat
  /-- ns at which it was issued, moved later by the length of each halt (R130), and its TEXP -/
  issued : Nat
  texp : Nat
  deriving DecidableEq, Repr

/-- What a request moves: a message, or the copy at a place of the copy engine (R122). -/
inductive GSrc where
  | msg (id : Nat)
  | copy (place : Nat)
  deriving DecidableEq, Repr

/-- A request-store entry (R125). Times are ns of TIMEBASE. -/
structure GReq where
  src : GSrc
  len : Nat
  pfx : Nat
  /-- endpoint-table entry it is addressed to; none for a copy -/
  ep : Option Nat
  cls : BitVec 2
  arrival : Nat
  matched : Bool
  /-- the receiving process, or none for a buffer slot or a copy -/
  rcvr : Option Pid
  /-- scratchpad location of the destination area -/
  dest : Nat
  /-- units received (R129), and units ever granted (R137) -/
  rcv : List Nat
  granted : List Nat
  toks : List Token
  lastAcc : Nat
  /-- place in the order of arrival: core cycle and port (R125) -/
  order : Nat := 0
  /-- GRCTL.AGE in µs and GRCTL.ORPH in ns when it arrived (R132) -/
  age : Nat := 4
  orph : Nat := 64000
  /-- new tokens have stopped: the receiver is about to be saved (R136) -/
  halted : Bool := false
  deriving DecidableEq, Repr

/-- How a buffer slot is used (R331): a transfer into it is in progress, its message is there, an ALT keeps it, or its message was
taken while an earlier slot stays. -/
inductive SlotUse where | filling | filled | kept | gone
  deriving DecidableEq, Repr

/-- A buffer slot in use: its sender's key, its arrival in ns, and for a reply endpoint the message itself (R328). -/
structure BufSlot where
  st : SlotUse
  sender : Option Nat
  arrival : Nat
  bytes : List Byte
  deriving DecidableEq, Repr

/-- An endpoint-table entry (R328): a channel's receiving end, or a reply endpoint when `reply`. -/
structure Endp where
  reply : Bool := false
  closed : Bool := false
  buffered : Bool := false
  spn : Bool := false
  blk : Bool := false
  sprio : BitVec 3 := 0
  sstage : BitVec 4 := 0
  depth : Nat := 0
  /-- slots in use from HEAD on, oldest first; COUNT is their number -/
  slots : List BufSlot := []
  head : Nat := 0
  efmt : BitVec 6 := 63
  sclass : BitVec 5 := 6
  team : Nat := 0
  idx : Nat := 0
  buf : Nat := 0
  entry : Word := 0
  lsnd : Option Nat := none
  lrcv : Option Nat := none
  /-- the process that created the channel (R342) -/
  creator : Option Nat := none
  /-- grant class (R128) -/
  gcls : BitVec 2 := 2
  /-- waiting receivers in the order they began to wait; WHEAD is the first -/
  waiters : List Pid := []
  /-- unmatched request-store entries in order of arrival -/
  unm : List Nat := []
  /-- expert and replica this end serves (R385) -/
  expert : Option (Nat × Nat) := none
  /-- stub filter in force: messages of this version or earlier are redirected (R396) -/
  filter : Option Nat := none
  deriving DecidableEq, Repr

/-! ## Windows and copies -/

/-- STATE of a window (R144). -/
inductive WState where | absent | filling | present
  deriving DecidableEq, Repr

/-- Fill status of a window (R144). -/
inductive FillStat where | ok | pendFault | failed
  deriving DecidableEq, Repr

/-- A bound region-table entry (R144). `base` is the window's first byte in the team's allotment. -/
structure Window where
  team : Nat
  num : Nat
  base : Nat
  src : Word
  rowb : Nat
  rows : Nat
  stride : Word
  fill : Bool
  nosrc : Bool
  fmt : BitVec 4
  st : WState
  ovr : Bool
  fst : FillStat
  pend : Nat
  owner : Pid
  /-- the bound fill has yet to find a place in the copy engine (R157) -/
  want : Bool
  /-- the owner has exited (R149) -/
  orphan : Bool := false
  deriving DecidableEq, Repr

/-- The secure part of a copy (R100). -/
structure Secure where
  kslot : Nat
  encrypt : Bool
  tags : Word
  ivbase : Word
  /-- aborted, and finishing the record it works on (R101) -/
  ending : Bool := false
  deriving DecidableEq, Repr

/-- A copy or bound fill in progress (R152, R157). Lines are counted in row-major order from 0. -/
structure Copy where
  pid : Pid
  team : Nat
  /-- batch number, or none for a bound fill of window `win` -/
  batch : Option Nat
  win : Option Nat
  src : Word
  dst : Word
  rows : Nat
  rowb : Nat
  sstr : Word
  dstr : Word
  /-- lines written -/
  written : List Nat
  /-- stopped at line F/64 (R154), with the fault's class, kind and address -/
  stopped : Option (Nat × Nat × Nat × Word)
  secure : Option Secure
  /-- address space it translates in -/
  vmctx : Word
  /-- issue order -/
  order : Nat
  deriving DecidableEq, Repr

/-- A copy that has ended, kept until its batch is finished (R152): batch, issue order, final status. -/
structure CopyEnd where
  pid : Pid
  batch : Nat
  order : Nat
  stat : BStat
  deriving DecidableEq, Repr

/-! ## The array (R262 to R284) -/

/-- STATE of an accumulator slot header (R264). -/
inductive SlotState where | empty | active | partialMma
  deriving DecidableEq, Repr

/-- The identity of an MMA (R274). -/
structure MmaId where
  mode : Mode
  sm : Word
  sa : Word
  sb : Word
  deriving DecidableEq, Repr

/-- An array command in progress on a slot. -/
inductive ArrCmd where
  /-- `wait`: suspended until a lease is granted (0), or until that many carry entries are free (R267, R277) -/
  | mma (id : MmaId) (wait : Option Nat)
  | drain (dst : Word) (fmt : Tag) (nf : Bool)
  /-- a drain whose lines are written: SAT, and the accesses from `lo` up to `hi` that are to be acknowledged -/
  | drained (sat : Bool) (lo hi : Nat)
  | zero
  deriving DecidableEq, Repr

/-- A claimed physical accumulator slot (R262, R264). -/
structure Slot where
  team : Nat
  tslot : ASlot
  lock : Bool := false
  sat : Bool := false
  st : SlotState := .empty
  mode : Option Mode := none
  mm1 : BitVec 9 := 0
  nm1 : BitVec 10 := 0
  pass : BitVec 2 := 0
  mprog : BitVec 24 := 0
  ident : Option MmaId := none
  cmd : Option (Pid × ArrCmd) := none
  deriving DecidableEq, Repr

/-- A carry-buffer entry (R276): physical slot, accumulator index, count from -16 to 15. -/
structure Carry where
  slot : Nat
  index : Nat
  count : Int
  deriving DecidableEq, Repr

/-- The lease of the array (R265): holder, commands left, grant time in ns, carry mode TRAP. -/
structure Lease where
  pid : Pid
  left : Nat
  start : Nat
  trapMode : Bool
  /-- command in progress -/
  busy : Bool
  deriving DecidableEq, Repr

/-- A waiting lease request (R266). -/
structure LeaseReq where
  pid : Pid
  n : Nat
  time : Nat
  deriving DecidableEq, Repr

/-! ## Caches and translation -/

/-- A line of a data cache or a cluster cache (R187): its bytes, which of them it holds, which of those are dirty, its poison bit,
and how far its check code is off (the exclusive-or, 0 when it fits). -/
structure CLine where
  data : Line
  /-- bytes that hold data: fetched or stored -/
  valid : BitVec 64
  dirty : BitVec 64
  poison : Bool
  code : BitVec 32 := 0
  /-- the process whose store made it dirty last -/
  by_ : Option Pid := none
  deriving DecidableEq, Repr

/-- A cached translation (R74): ASID unless global, VA page number at its size (0 64 KiB, 1 2 MiB, 2 1 GiB), the leaf entry and
its address. -/
structure TlbE where
  asid : BitVec 16
  va : Nat
  size : Nat
  leaf : Word
  leafPa : Nat
  deriving DecidableEq, Repr

/-- A walk under way or waiting at a walker (R75): the misses it answers, by process, and whether it has begun. -/
structure Walk where
  walker : Nat
  asid : BitVec 16
  page : Nat
  root : Nat
  procs : List Pid
  begun : Bool
  deriving DecidableEq, Repr

/-- A table entry held by a walker's cache (R74): ASID, VA prefix, level, the entry. -/
structure WalkE where
  asid : BitVec 16
  va : Nat
  level : Nat
  entry : Word
  deriving DecidableEq, Repr

/-! ## Traps in service (R410 to R413) -/

/-- The trap frame of R413. -/
structure Frame where
  tcause : Word := 0
  tpc : Word := 0
  taddr : Word := 0
  taux : Word := 0
  tloop : Word := 0
  svcst : Word := 0
  deriving DecidableEq, Repr

/-- A queued or running service context: its process and frame, and the loop state a SRET may restore. -/
structure SvcCtx where
  pid : Pid
  frame : Frame
  loop : Option Loop
  /-- second trap of a double fault (R415): class and kind -/
  second : Option (Nat × Nat)
  deriving DecidableEq, Repr

/-- A service slot of a Lamplighter (R410, R411): the context it serves, the context's own s56 to s63, and its private scalars. -/
structure SvcSlot where
  ctx : Option SvcCtx := none
  ps : Tab Word := []
  priv : Tab Word := []
  deriving DecidableEq, Repr

/-! ## Debug and trace (R432 to R447) -/

/-- Phases of a halt (R433, R434). -/
inductive HaltPhase where | running | stopping | halted
  deriving DecidableEq, Repr

/-- The debug module (R432). -/
structure DebugMod where
  spid : BitVec 32 := 0
  xgrp : BitVec 4 := 15
  att : Bool := false
  stepping : Bool := false
  stres : BitVec 2 := 0
  dbgstat : Word := 0
  dwhit0 : Word := 0
  dwhit1 : Word := 0
  dacc : Word := 0
  daddr : Word := 0
  /-- DSKID by slot number 8 core + slot -/
  dskid : Tab Word := []
  /-- DBUF words -/
  dbuf : Tab Word := []
  phase : HaltPhase := .running
  /-- cycle of the trigger, later of the last step's start; cycle at which the halt was complete -/
  trig : Nat := 0
  haltAt : Nat := 0
  /-- a watchpoint replay is due for this process (R473): instructions it still covers -/
  replay : Option (Pid × Nat) := none
  deriving DecidableEq, Repr

/-- An armed watchpoint (R440): owner, number, first location, size in bytes, type. -/
structure Armed where
  pid : Pid
  w : Nat
  loc : Nat
  size : Nat
  typ : BitVec 2
  deriving DecidableEq, Repr

/-- A 64-byte trace packet as eight words (R445). -/
abbrev Packet8 := List Word

/-- The trace unit of a cluster (R445 to R447). -/
structure Trace where
  /-- packets in the buffer, oldest first -/
  buf : List Packet8 := []
  /-- bytes already in the spill area -/
  spilled : Nat := 0
  /-- last logged state and cycle by core, and its open packet: the base instant in ns and the records -/
  last : Tab (Nat × Nat) := []
  recs : Tab (Nat × List (BitVec 16)) := []
  /-- commit records not yet in a packet -/
  commits : List Word := []
  /-- next record of the log under replay -/
  rplyPos : Nat := 0
  /-- capture is restricted to this core's packets (R448 FILT) -/
  filt : Option Nat := none
  deriving DecidableEq, Repr

/-! ## Clusters (R13) -/

/-- One cluster, numbered 8 × ordinal of its compute die + cluster within the die. -/
structure Cluster where
  /-- region-table entries by index 0 to 255 (R143) -/
  windows : Tab Window := []
  /-- lines of the scratchpad whose full bit is set (R145), by line number in the cluster -/
  full : List Nat := []
  /-- request store, sum of granted bytes, next serial, counters of R141 -/
  greqs : Tab GReq := []
  out : Nat := 0
  serial : BitVec 16 := 0
  /-- the entry whose turn it is while the cap is full (R128) -/
  turn : Option Nat := none
  gExp : Nat := 0
  gDisc : Nat := 0
  gOrph : Nat := 0
  gBusy : Nat := 0
  /-- copy engine places 0 to 63 (R157) and ended copies of unfinished batches -/
  copies : Tab Copy := []
  copyEnds : List CopyEnd := []
  copySeq : Nat := 0
  /-- endpoint table by entry number (R328) -/
  endps : Tab Endp := []
  /-- physical accumulator slots 0 to 3 that are claimed -/
  slots : Tab Slot := []
  carry : List Carry := []
  lease : Option Lease := none
  /-- core cycle from which the array passes to its next holder (R266) -/
  leaseAt : Nat := 0
  leaseQ : List LeaseReq := []
  /-- cluster cache (R187) by line location, and the data caches of the cores by core and line -/
  cache : Tab CLine := []
  /-- write-backs of host lines not yet acknowledged (R189), with the process whose store made the line dirty -/
  wbacks : Tab (Option Pid) := []
  dcache : Tab (Tab CLine) := []
  /-- cluster TLB, and core TLBs by core (R74) -/
  tlb : List TlbE := []
  ctlb : Tab (List TlbE) := []
  /-- ready queues by 8 × core + priority (R367) -/
  ready : Tab (List Pid) := []
  /-- barrel of each core (R20): one more than the cycle of its last issue, and the slot that issued -/
  rot : Tab (Nat × Nat) := []
  /-- commit order: next place, and the write sets of recent commits (R304, R305) -/
  seq : Nat := 0
  wsets : List (Nat × List Nat) := []
  /-- the first core cycle in which the arbiter commits again (R305) -/
  commitAt : Nat := 0
  /-- holder of the exclusive commit token (R306) -/
  token : Option Pid := none
  svc : Tab SvcSlot := []
  svcQ : List SvcCtx := []
  dm : DebugMod := {}
  armed : List Armed := []
  trace : Trace := {}
  /-- GRCTL, TRSPILL, TRCFG by register number; unlisted: the reset value -/
  regs : Tab Word := []
  /-- event counters by 256 × core + n; cluster counters at core 32 (R451) -/
  events : Tab Word := []
  /-- corrected single-bit errors of the cluster's arrays (R48) -/
  corrected : Nat := 0
  deriving DecidableEq, Repr

/-! ## Memory dies (R46) -/

/-- A command in a memory server's queue (R55): the message's bytes and the sender's address space. -/
structure SrvCmd where
  bytes : List Byte
  /-- lines of `bytes` that are poisoned -/
  bad : List Nat
  asid : BitVec 16
  root : Word
  sender : Option Pid
  /-- the expert whose grow this FILL serves (R392) -/
  grow : Option Nat
  deriving DecidableEq, Repr

/-- The reverse-map slot of a frame (R82). -/
structure RevMap where
  leafPa : Nat
  leaf : Word
  asid : BitVec 16
  va : Nat
  aliased : Bool
  deriving DecidableEq, Repr

/-- A request held during a page move (R83): a write of the bytes of a line that the mask names, with the cluster it came from,
the access it acknowledges and its poison; the step of an atomic; a walker's OR into a page-table entry. -/
inductive HeldReq where
  | write (cl : Option Nat) (ack : Option (Pid × Nat)) (line : Nat) (data : Line) (mask : BitVec 64)
    (poison : Bool)
  | op (i : Instr)
  | orBits (loc : Nat) (bits : Word)
  deriving DecidableEq, Repr

/-- A page move in progress (R83): step 1 to 5, frames, what the leaf read, and the held requests in order of arrival. -/
structure Move where
  step : Nat
  quad : Nat
  old : Nat
  new : Nat
  rev : RevMap
  held : List HeldReq
  deriving DecidableEq, Repr

/-- One memory die. -/
structure MemDie where
  queue : List SrvCmd := []
  /-- messages that wait unmatched while the queue is full (R55), oldest first -/
  waiting : List Nat := []
  /-- remote-access counters by 4 × frame + quadrant, frames by 64 KiB number (R79) -/
  rac : Tab (BitVec 8) := []
  rev : Tab RevMap := []
  free : List Nat := []
  /-- migration candidates: frame and quadrant (R82) -/
  cands : List (Nat × Nat) := []
  move : Option Move := none
  armed : List Armed := []
  /-- lines resident in the memory-side cache (R47) -/
  msc : List Nat := []
  /-- corrected single-bit errors counted (R48) -/
  corrected : Nat := 0
  /-- saved HBM training results, and whether their code still holds (R454, R455) -/
  training : Option Bool := none
  deriving DecidableEq, Repr

/-- A private REDF.add slot (R294). -/
structure RedSlot where
  loc : Nat
  cn : Nat
  bf16 : Bool
  val : BitVec 32
  deriving DecidableEq, Repr

/-! ## Launches and teams (R359 to R373) -/

/-- Where a team stands. A suspended team still holds its slot while its processes leave; a draining team has ended, and its
allotment stays until the transfers into its stub's buffer have ended (R398). -/
inductive TState where | queued | claimed | running | suspended | backlog | draining | ended
  deriving DecidableEq, Repr

/-- What a team holds besides its bytes while it is off every cluster (R371): lines of its allotment whose full bit is set, counted
from its first byte, its windows, unfinished copies, claimed accumulator slots and their carry entries by team slot number. -/
structure Luggage where
  full : List Nat
  windows : List Window
  copies : List Copy
  ends : List CopyEnd
  slots : List Slot
  carry : List Carry
  deriving DecidableEq, Repr

/-- A team: its entry of the launch record (R360) and where it is. -/
structure Team where
  lid : Nat
  index : Nat
  state : TState := .queued
  nproc : Nat := 0
  spmsz : Nat := 1
  entry : Word := 0
  fctl : Word := 0
  pctl : Word := 0
  dbg : Word := 0
  wlist : Word := 0
  nwin : Nat := 0
  prio : BitVec 3 := 0
  stage : BitVec 4 := 0
  tpol : BitVec 2 := 0
  ppol : BitVec 2 := 0
  /-- cluster, and offset of its allotment in that cluster's scratchpad -/
  cl : Nat := 0
  spm : Nat := 0
  /-- its allotment and slots were moved to HBM (R371), with what else it holds -/
  luggage : Option Luggage := none
  /-- window presets, as its launch's acceptance read them (R361) -/
  presets : List (List Word) := []
  /-- a claimed team's suspended victim (R371) -/
  victim : Option Nat := none
  trtry : BitVec 2 := 0
  /-- ns at which it was enqueued, dispatched, suspended -/
  enq : Nat := 0
  disp : Nat := 0
  susp : Nat := 0
  /-- ns since which it has stood at the head of its queue (R365) -/
  headAt : Option Nat := none
  firm : Bool := false
  /-- SCHCTL.FIRM when it came to the head, and SCHCTL.ADV when it entered a backlog (R370) -/
  firmIn : Nat := 0
  advIn : Nat := 0
  /-- expert and replica number when it is a replica team (R385) -/
  replica : Option (Nat × Nat) := none
  /-- origin table by member number (R424) -/
  origins : Tab Origin := []
  deriving DecidableEq, Repr

/-- A declared channel of a launch (R360): index assigned, descriptor word 0, BUF, ENTRY, owning team id. -/
structure ChanDecl where
  idx : Nat
  word0 : Word
  buf : Word
  entry : Word
  team : Nat
  deriving DecidableEq, Repr

/-- A launch (R363). -/
structure Launch where
  /-- host slot it came from: queue, slot number, TAG, IVEC, SEQ -/
  host : Option (Nat × Nat × BitVec 32 × BitVec 16 × Word)
  /-- issuing process of a LAUNCH, with its compute die's store -/
  issuer : Option Pid
  die : Nat
  cls : BitVec 2
  span : Bool
  vmctx : Word
  mbox : Word
  notify : Word
  args : List Word
  lpol : BitVec 2
  lrtry : BitVec 2
  /-- the record: a physical address, or a global address in the issuer's space -/
  record : Word
  phys : Bool
  /-- VMCTX in which a global record address is translated -/
  recVm : Word
  chans : Tab Word
  decls : List ChanDecl
  teams : List Nat
  /-- DONE or ABORTED with its cause once ended -/
  ended : Option (Nat × Nat)
  deriving DecidableEq, Repr

/-- A slot forwarded and not yet accepted, or one that waits to be forwarded (R90, R363). -/
structure LaunchReq where
  queue : Nat
  /-- the copy that was forwarded; empty while the valid slot waits in the window because the store is full (R90) -/
  slot : List Word
  deriving DecidableEq, Repr

/-- The end of a launch, until its last write is visible and it is reported (R93, R373): for a host launch its queue and slot, for
another the compute die whose store it takes a place of; and the handle to notify. -/
structure EndRecord where
  lid : Nat
  host : Option (Nat × List Word)
  die : Option Nat
  notify : Word
  status : Nat
  cause : Nat
  /-- clusters in which it ran -/
  cls : List Nat
  deriving DecidableEq, Repr

/-! ## Host link (R86 to R101) -/

/-- One launch queue (R90, R94): ESEQ and QCTL fields. -/
structure Queue where
  eseq : Word := 1
  rst : Bool := false
  cause : BitVec 8 := 0
  ien : Bool := false
  coal : BitVec 10 := 0
  deriving DecidableEq, Repr

/-- A host mailbox (R340): inbound ESEQ, messages not yet taken, outbound count. -/
structure Mailbox where
  eseq : Word := 1
  inbound : List (List Byte) := []
  outCount : Word := 0
  waiters : List Pid := []
  senders : List Pid := []
  deriving DecidableEq, Repr

/-- What the device puts out at its ports, oldest first. -/
inductive Output where
  | readData (bytes : List Byte) (poison : Bool)
  | writeDone
  | msix (vec : Nat)
  | request (pid : Pid) (id : Nat) (addr : Word) (len : Nat)
  | store (pid : Option Pid) (id : Nat) (addr : Word) (bytes : List Byte)
  | storeLine (pid : Option Pid) (id : Nat) (addr : Word) (data : Line) (mask : BitVec 64) (poison : Bool)
  | atomic (pid : Pid) (id : Nat) (addr : Word) (scope : Nat) (op : HomeOp)
  /-- lines of a copy, as runs of bytes -/
  | fetch (pid : Pid) (id : Nat) (runs : List (Word × Nat))
  | flit (link : Nat) (f : MarrunFlit)
  | ack (link : Nat) (base : BitVec 12) (map : BitVec 64) (credits : List Nat) (check : BitVec 32)
  | meshFlit (site port : Nat) (f : MeshFlit)
  | controller (code : Nat) (info : List Word)
  deriving DecidableEq, Repr

/-- States of the TDISP interface (R97). -/
inductive Tdisp where | unlocked | locked | run | error
  deriving DecidableEq, Repr

/-! ## Marrun links (R107 to R121) -/

/-- A transmitted flit not yet acknowledged (R108): its packet, resends so far, cycle of last transmission and of last resend,
whether the last MAP showed it as received. -/
structure SentFlit where
  flit : MarrunFlit
  pk : Packet
  resends : Nat
  lastTx : Nat
  again : Option Nat
  got : Bool
  deriving DecidableEq, Repr

/-- A packet in an egress queue (R118): the cycle up to which it waits for a partner, 0 when it does not. -/
structure Waiting where
  pk : Packet
  hold : Nat
  deriving DecidableEq, Repr

/-- One direction pair of a Marrun link (R108 to R111). A virtual channel's number is its index of R106, plus 5 in the reply class. -/
structure Link where
  up : Bool := true
  nextSeq : BitVec 12 := 0
  sent : List SentFlit := []
  base : BitVec 12 := 0
  held : List MarrunFlit := []
  unacked : Nat := 0
  /-- packets waiting in the egress queue, and flits of packets that have left it -/
  egress : List Waiting := []
  ready : List (Packet × MarrunFlit) := []
  /-- flits sent for which no credit has come back, and credits to return, by channel (R106, R107) -/
  used : Tab Nat := []
  owed : Tab Nat := []
  /-- flits passed on in order that wait in a channel's buffer at the ingress, by channel -/
  inq : Tab (List MarrunFlit) := []
  deriving DecidableEq, Repr

/-- An access of another device that goes on to the host for a HOST page: source and reply tag, the lines still to read and those
read (R86, R122). -/
structure Relay where
  src : Nat
  reply : Nat
  addrs : List Word
  got : List SentLine
  deriving DecidableEq, Repr

/-- A token of another device's scheduler to a sender of this device (R127, R129): the device, the sender's message, what the chunk
names, and its bytes. -/
structure FarToken where
  dev : Nat
  msg : Nat
  cl : Nat
  entry : Nat
  unit : Nat
  serial : BitVec 16
  off : Nat
  len : Nat
  deriving DecidableEq, Repr

/-- A merge record (R119): the operation with the operand of the first contributor, and source device and reply tag of the two. -/
structure MergeRec where
  op : HomeOp
  first : Nat × Nat
  second : Nat × Nat
  deriving DecidableEq, Repr

/-! ## Barriers, experts, management -/

/-- A barrier number (R377 to R380, R121). -/
structure Bar where
  epoch : BitVec 16 := 0
  owner : Option Nat := none
  /-- level of the AND line -/
  high : Bool := true
  /-- the Marrun epoch bit, and arrivals the root holds (R121) -/
  mEpoch : Bool := false
  arrivals : List Nat := []
  deriving DecidableEq, Repr

/-- Phases of a grow (R392): the weight copy waits for a place of the copy engine, or runs; the gradient buffer is filled; the new
version is published. -/
inductive GrowPhase where | waiting | copying | filling | switching
  deriving DecidableEq, Repr

/-- The switch in progress on an expert (R399): grow to a replica in a candidate team, or a retirement. -/
structure Switch where
  grow : Option GrowPhase
  rep : Nat
  team : Nat
  /-- the process whose XPIN waits for publication or rollback (R407) -/
  pin : Option Pid
  /-- resolving points that have yet to acknowledge (R394) -/
  pending : List Nat
  deriving DecidableEq, Repr

/-- An expert (R385, R388, R405). -/
structure Expert where
  ver : BitVec 32
  live : BitVec 8
  stub : BitVec 8
  pin : Bool
  maxm1 : BitVec 3
  cldc : BitVec 8
  mset : BitVec 8
  wcnt : BitVec 32
  /-- sends resolved in the current window -/
  cnt : Nat
  lid : Nat
  /-- team of replica 0 -/
  team0 : Nat
  rh : Tab Word
  wsrc : Word
  wdst : Nat
  wlen : Nat
  entry : Word
  prio : BitVec 3
  stage : BitVec 4
  spmsz : Nat
  nproc : Nat
  hot : Nat
  cold : Nat
  gbase : Word
  glen : Nat
  efmt : BitVec 6
  sclass : BitVec 5
  switch : Option Switch
  /-- waiting switch requests (R399): early-end retirements by replica, then XPIN processes with their operands -/
  retireQ : List Nat
  pinQ : List (Pid × Nat)
  /-- process whose XMERGE is in progress (R399) -/
  merging : Option Pid
  unbound : Bool
  deriving DecidableEq, Repr

/-- Parts of R2 and 00_scope.md. -/
inductive Part where | full | fullE | half
  deriving DecidableEq, Repr

/-- Facts of the silicon and its surroundings that the device reads and does not set: plain inputs. -/
structure Phys where
  part : Part := .full
  /-- failing compute-die sites (8y + x), failing memory dies at BIST, training and memory BIST -/
  badCdie : List Nat := []
  badMdie : List Nat := []
  badTrain : List Nat := []
  badMem : List Nat := []
  /-- saved training results whose code fails at a warm start (R455) -/
  badSaved : List Nat := []
  /-- fused hash of the firmware key, digest of the key, whether every image's signature holds, image digests (R457) -/
  fusedHash : BitVec 512 := 0
  keyHash : BitVec 512 := 0
  sigOk : Bool := true
  images : List (BitVec 512) := []
  /-- fused stitch figures by 8 × die + register index 0 to 4 (R66) -/
  stitch : Tab Word := []
  /-- device number and number of groups set at start-up (R102); one group unless set -/
  mdev : Word := 0x10000000000
  /-- commands that a memory server's queue holds (R55) -/
  srvDepth : Nat := 64
  /-- flits that the buffer of one virtual channel of a link holds (R106) -/
  vcFlits : Nat := 128
  /-- device numbers below 32 × NGRP that the system lacks (R114) -/
  absent : List Nat := []
  /-- fibre pairs of the other members of the group: pair, member offset, far group, by pair and then offset (R106) -/
  gmap : List (Nat × Nat × Nat) := []
  /-- first save-area place of the frames that system software set aside in HBM (R172), 11 KiB each -/
  saveArea : Nat := 0x800000000
  /-- VMCTX under which service firmware runs: the root table of ASID 0 (R68), outside the command window (R87) -/
  svcVmctx : Word := 0x200000
  /-- bits in error by line: 1 corrected, more uncorrectable (R48) -/
  flips : Tab Nat := []
  /-- twin mode chosen by firmware, and its comparison barrier (R449) -/
  twin : Option Nat := none
  /-- whether this state is the shadow partition (R450), and the other partition's H by 64 × episode + local die -/
  shadow : Bool := false
  peerH : Tab (BitVec 32) := []
  deriving DecidableEq, Repr

/-- Management state (R454 to R459, R97). -/
structure Mgmt where
  /-- step of R454 under way, 1 to 6; 0 when none -/
  step : Nat := 0
  warm : Bool := false
  preserve : Bool := false
  started : Bool := false
  /-- core cycle at which the counters of R451 were cleared -/
  startCycle : Nat := 0
  /-- step 6 has completed since power was applied (R455) -/
  reached6 : Bool := false
  safe : Bool := false
  /-- status words of R456 -/
  fstep : BitVec 8 := 0
  fcode : BitVec 8 := 0
  cmask : Word := 0
  mmask : Word := 0
  /-- compute-die sites omitted by a degraded start -/
  omitted : List Nat := []
  throttle : Bool := false
  measurements : List (BitVec 512) := []
  tdisp : Tdisp := .unlocked
  session : Bool := false
  /-- key slots 0 to 15 (R97) -/
  keys : Tab (BitVec 256 × BitVec 32) := []
  /-- host accesses to protected lines: physical address and TIMEBASE (R98) -/
  protLog : List (Nat × Nat) := []
  deriving DecidableEq, Repr

/-- The device. -/
structure State where
  phys : Phys := {}
  mgmt : Mgmt := {}
  /-- core cycles since power-up; TIMEBASE is five sixths of it (R14) -/
  cycles : Nat := 0
  /-- the model's own counter for free values -/
  free : Nat := 0
  /-- steps to come, by the cycle at which they are due; earlier ones first -/
  queue : List (Nat × Instr) := []
  /-- the process that is issuing an instruction -/
  cur : Option Pid := none
  /-- the last process that issued -/
  last : Pid := 0
  mem : Memory := []
  /-- line locations (multiples of 64) whose poison bit is set (R49) -/
  poison : List Nat := []
  /-- lines whose stored check code is off by the exclusive-or shown (R49, R51) -/
  codeErr : Tab (BitVec 32) := []
  /-- REDF.add slots (R294) -/
  redSlots : List RedSlot := []
  procs : Tab Proc := []
  clusters : Tab Cluster := []
  memdies : Tab MemDie := []
  /-- table caches of the walkers (R74): compute die d at d, memory die m at 64 + m -/
  walkers : Tab (List WalkE) := []
  /-- walks of processes' misses, oldest first (R75) -/
  walks : List Walk := []
  /-- prefetches of host lines on their way, by request: cluster, core, line and level (R197) -/
  prefetches : Tab (Nat × Nat × Nat × Nat) := []
  /-- synchronisations of instruction fetch so far, and what lines held before the first store after each of them: the count
  and the line, newest first; none for a line of the host that no cache held whole (R39) -/
  syncs : Nat := 0
  ilog : Tab (List (Nat × Option Line)) := []
  /-- replay buffers of the mesh links, by 8 × site + port: the last flits sent, latest first (R52) -/
  meshReplay : Tab (List MeshFlit) := []
  /-- leaf entries with SEC = 1 that walkers have read: physical address and size code (R98) -/
  secLeaves : List (Nat × Nat) := []
  teams : Tab Team := []
  launches : Tab Launch := []
  experts : Tab Expert := []
  msgs : Tab Msg := []
  bars : Tab Bar := []
  links : Tab Link := []
  merges : Tab MergeRec := []
  /-- accesses of other devices that went on to a HOST page, by number -/
  relays : Tab Relay := []
  /-- tokens of other devices that wait for their chunk -/
  farTokens : Tab FarToken := []
  /-- memory die through which an access that left the device went, by reply tag (R64, R86, R104) -/
  routed : Tab Nat := []
  queues : Tab Queue := []
  mailboxes : Tab Mailbox := []
  lreqs : Tab LaunchReq := []
  /-- class queues 0 to 3: team ids, oldest first (R365) -/
  classQ : Tab (List Nat) := []
  /-- backlog of each compute die: team ids (R371) -/
  backlog : Tab (List Nat) := []
  /-- writes not yet acknowledged that ended processes and teams left behind, by access number, with their launch; and the
  completion records that wait for such (R93) -/
  leftWrites : List (Nat × Nat) := []
  recs : List EndRecord := []
  /-- processes whose LAUNCH waits for a place of their die's store (R375) -/
  waitLaunch : List Pid := []
  /-- outcomes of ended launches, newest first, at most 1,024: launch, asid, STATUS, CAUSE, teams (R373) -/
  history : List (Nat × Nat × Nat × Nat × Nat) := []
  /-- coalescing windows open by vector (R95) -/
  coalesce : Tab Nat := []
  /-- device-wide registers by number (R429); unlisted: the reset value -/
  regs : Tab Word := []
  /-- die registers by 256 × compute die + number (BLAT, TOFF, SNFA, SNFB) -/
  dieRegs : Tab Word := []
  /-- routing tables by 64 × site + destination (R62); unlisted: 0 -/
  routes : Tab (BitVec 3) := []
  /-- counters handing out launch, team, endpoint, message, access and request numbers -/
  nextLid : Nat := 1
  nextTeam : Nat := 1
  nextEp : Nat := 1
  nextMsg : Nat := 1
  nextAcc : Nat := 1
  nextReq : Nat := 1
  /-- endpoint directory (R327): IDX to cluster and entry; KIND 2 endpoints at 2^32 + PID -/
  dir : Tab (Nat × Nat) := []
  /-- service endpoints by IDX: messages waiting for service firmware, oldest first (R325 KIND 6) -/
  svcMsgs : Tab (List (List Word)) := []
  /-- device event counters by number (R451) -/
  events : Tab Word := []
  /-- what has left the device -/
  outs : List Output := []
  /-- last process to retire: cycle, cluster, core, and whether its team ended with it (R372) -/
  lastExit : Option (Nat × Nat × Nat × Bool) := none
  /-- die of the last MIGFRM written (R81) -/
  migDie : Nat := 0
  /-- twin mode (R449): H of the current episode by local die, and of ended episodes e at 64 × (e + 1) + local die -/
  twinH : Tab (BitVec 32) := []
  /-- requests of the shadow that wait for their pair (R450), with the cycle of each: 4 × number, plus 0 for a read, 1 for a
  store, 2 for an atomic -/
  twinWait : Tab Nat := []
  deriving DecidableEq, Repr

/-- Right after power is applied (R454): nothing has run, and the cold start is due. Every table is empty, so every register
reads the reset value its field map gives, and 0 where the spec gives none (log entry 1). -/
def State.reset : State := { queue := [(0, .coldStart)] }

end Sys2Proof.Machine
end

