-- ==== Sys2Proof/Machine/Tab.lean ====
section
/-! DEFINITION. Operations on sparse tables, byte strings and memory, each keeping its canonical form: keys strictly rising, and
in memory no byte listed that reads as 0 anyway. -/

namespace Sys2Proof.Machine

/-! ## Tables -/

/-- The entry at a key. -/
def Tab.get? {α : Type} (k : Nat) : Tab α → Option α
  | [] => none
  | (k', a) :: t => if k' = k then some a else Tab.get? k t

/-- The entry at a key, or the table's default. -/
def Tab.getD {α : Type} (k : Nat) (t : Tab α) (d : α) : α := (Tab.get? k t).getD d

/-- Sets an entry, in key order. -/
def Tab.put {α : Type} (k : Nat) (a : α) : Tab α → Tab α
  | [] => [(k, a)]
  | (k', a') :: t =>
    if k < k' then (k, a) :: (k', a') :: t
    else if k = k' then (k, a) :: t
    else (k', a') :: Tab.put k a t

/-- Removes an entry. -/
def Tab.del {α : Type} (k : Nat) : Tab α → Tab α
  | [] => []
  | (k', a) :: t => if k' = k then t else (k', a) :: Tab.del k t

/-- Sets an entry of a table whose default is `d`: the default is not listed. -/
def Tab.set {α : Type} [DecidableEq α] (d : α) (k : Nat) (a : α) (t : Tab α) : Tab α :=
  if a = d then Tab.del k t else Tab.put k a t

/-- Changes the entry at a key that holds one. -/
def Tab.modify {α : Type} (k : Nat) (f : α → α) : Tab α → Tab α
  | [] => []
  | (k', a) :: t => if k' = k then (k', f a) :: t else (k', a) :: Tab.modify k f t

/-- The keys, rising. -/
def Tab.keys {α : Type} (t : Tab α) : List Nat := t.map (·.1)

/-- The lowest key in `lo .. lo + n - 1` that is not in the table. -/
def Tab.freeKey {α : Type} (t : Tab α) (lo : Nat) : Nat → Option Nat
  | 0 => none
  | n + 1 => if (Tab.get? lo t).isNone then some lo else Tab.freeKey t (lo + 1) n

/-- Keys strictly rising. -/
def Tab.sorted {α : Type} : Tab α → Bool
  | [] => true
  | (k, _) :: t => (match t with | [] => true | (k', _) :: _ => k < k') && Tab.sorted t

/-! ## Words and bytes -/

/-- The low `n` bytes of a value, least significant first (R4). -/
def bytesLE : Nat → Nat → List Byte
  | 0, _ => []
  | n + 1, x => BitVec.ofNat 8 x :: bytesLE n (x / 256)

/-- The value of bytes, least significant first. -/
def natLE : List Byte → Nat
  | [] => 0
  | b :: bs => b.toNat + 256 * natLE bs

/-- Bits hi:lo of a word as a number. -/
def bits (x : Word) (hi lo : Nat) : Nat := x.toNat / 2 ^ lo % 2 ^ (hi + 1 - lo)

/-- One bit of a word. -/
def bit (x : Word) (i : Nat) : Bool := x.getLsbD i

/-- A field's value at its place. -/
def field (v lo : Nat) : Word := BitVec.ofNat 64 (v * 2 ^ lo)

/-- A word of a byte string, word n at bytes 8n to 8n + 7. -/
def wordAt (bs : List Byte) (n : Nat) : Word := BitVec.ofNat 64 (natLE ((bs.drop (8 * n)).take 8))

/-- Words as bytes. -/
def wordsBytes : List Word → List Byte
  | [] => []
  | w :: ws => bytesLE 8 w.toNat ++ wordsBytes ws

/-- Whether x is a multiple of n. -/
def aligned (x n : Nat) : Bool := x % n = 0

/-- A byte string padded with zeros to a multiple of 64. -/
def pad64 (bs : List Byte) : List Byte := bs ++ List.replicate ((64 - bs.length % 64) % 64) 0

/-! ## Memory -/

/-- Byte at a location; unlisted locations read 0 (R454, R455). -/
def Memory.get (k : Nat) (m : Memory) : Byte := Tab.getD k m 0

/-- Stores one byte. -/
def Memory.put (k : Nat) (b : Byte) (m : Memory) : Memory := Tab.set 0 k b m

/-- The canonical form: locations strictly rising, no listed byte 0. -/
def Memory.wf (m : Memory) : Bool := Tab.sorted m && m.all fun c => c.2 ≠ 0

/-- `n` bytes from a location. -/
def Memory.read (m : Memory) (k : Nat) : Nat → List Byte
  | 0 => []
  | n + 1 => Memory.get k m :: Memory.read m (k + 1) n

/-- Stores bytes from a location upward. -/
def Memory.write (m : Memory) (k : Nat) : List Byte → Memory
  | [] => m
  | b :: bs => Memory.write (Memory.put k b m) (k + 1) bs

/-- A 64-bit value at a location, little-endian (R4). -/
def Memory.read64 (m : Memory) (k : Nat) : Word := BitVec.ofNat 64 (natLE (Memory.read m k 8))

/-- Stores a 64-bit value. -/
def Memory.write64 (m : Memory) (k : Nat) (w : Word) : Memory := Memory.write m k (bytesLE 8 w.toNat)

/-! ## Locations (see `Memory`) -/

def sramBase : Nat := 2 ^ 56
def backBase : Nat := 2 ^ 57
def hostBase : Nat := 2 ^ 60
def remoteBase : Nat := 2 ^ 61

/-- A byte of a cluster's SRAM: scratchpad from offset 0, accumulator slot n at 0x0200_0000 + n × 0x14_0000 (R183). -/
def sramLoc (cl off : Nat) : Nat := sramBase + cl * 2 ^ 32 + off

/-- The first byte of physical accumulator slot n of a cluster. -/
def accLoc (cl n : Nat) : Nat := sramLoc cl (0x02000000 + n * 0x140000)

/-- The line a location lies in. -/
def lineOf (loc : Nat) : Nat := loc / 64 * 64

end Sys2Proof.Machine
end

