-- ==== Sys2Proof/Machine/Num.lean ====
section
/-! DEFINITION. Number formats, rounding and flags (R199 to R219): exact values, the conversion of R210, and the float arithmetic
of R214 as exact operations rounded once. -/

namespace Sys2Proof.Machine

/-! ## Exact values -/

/-- The value of an element: a NaN (signalling or not), an infinity, or (−1)^neg × num × 2^exp; a zero keeps its sign. -/
inductive Val where
  | nan (sig : Bool)
  | inf (neg : Bool)
  | fin (neg : Bool) (num : Nat) (exp : Int)
  deriving DecidableEq, Repr

/-- Sticky flags as a 5-bit set (R213): NV 1, DZ 2, OF 4, UF 8, NX 16. -/
abbrev Flags := BitVec 5
def Flags.nv : Flags := 1
def Flags.dz : Flags := 2
def Flags.ov : Flags := 4
def Flags.uf : Flags := 8
def Flags.nx : Flags := 16

/-- 2^(a − b) as a factor when a ≥ b, and 1 otherwise. -/
def pow2Diff (a b : Int) : Nat := 2 ^ (a - b).toNat

/-- Floor of the base-2 logarithm of a positive number. -/
def lg (n : Nat) : Nat := Nat.log2 n

/-- An integer as a value. -/
def Val.ofInt (i : Int) : Val := .fin (i < 0) i.natAbs 0

/-- Signed numerator. -/
def sgn (neg : Bool) (n : Nat) : Int := if neg then -(n : Int) else n

def Val.neg : Val → Val
  | .nan g => .nan g
  | .inf n => .inf (!n)
  | .fin n a e => .fin (!n) a e

def Val.scale (k : Int) : Val → Val
  | .fin n a e => .fin n a (e + k)
  | v => v

def Val.isNan : Val → Bool | .nan _ => true | _ => false
def Val.isZero : Val → Bool | .fin _ 0 _ => true | _ => false
def Val.sign : Val → Bool | .nan _ => false | .inf n => n | .fin n _ _ => n

/-- Order of two values that are not NaN: −0 equals +0. -/
def Val.cmp (a b : Val) : Ordering :=
  match a, b with
  | .inf x, .inf y => compare y.toNat x.toNat
  | .inf x, _ => if x then .lt else .gt
  | _, .inf y => if y then .gt else .lt
  | .fin x n e, .fin y m f => compare (sgn x n * pow2Diff e f) (sgn y m * pow2Diff f e)
  | _, _ => .eq

/-- NV for a signalling NaN among operands. -/
def sigFlag : List Val → Flags
  | [] => 0
  | .nan true :: vs => Flags.nv ||| sigFlag vs
  | _ :: vs => sigFlag vs

/-! ## Exact arithmetic (R214) -/

/-- Exact sum of finite values; an exact zero from operands of both signs is +0, and −0 under RDN. -/
def Val.addFin (rdn : Bool) (a b : Val) : Val :=
  match a, b with
  | .fin x n e, .fin y m f =>
    let i := sgn x n * pow2Diff e f + sgn y m * pow2Diff f e
    if i = 0 then .fin (if x = y then x else rdn) 0 0 else .fin (i < 0) i.natAbs (min e f)
  | _, _ => .nan false

/-- a + b: NaNs, infinities, then the exact sum. -/
def Val.add (rdn : Bool) (a b : Val) : Val × Flags :=
  match a, b with
  | .nan _, _ => (.nan false, sigFlag [a, b])
  | _, .nan _ => (.nan false, sigFlag [a, b])
  | .inf x, .inf y => if x = y then (.inf x, 0) else (.nan false, Flags.nv)
  | .inf x, .fin .. => (.inf x, 0)
  | .fin .., .inf y => (.inf y, 0)
  | .fin .., .fin .. => (Val.addFin rdn a b, 0)

/-- a × b exactly. -/
def Val.mul (a b : Val) : Val × Flags :=
  match a, b with
  | .nan _, _ => (.nan false, sigFlag [a, b])
  | _, .nan _ => (.nan false, sigFlag [a, b])
  | .inf x, .inf y => (.inf (x != y), 0)
  | .inf x, .fin y m _ => if m = 0 then (.nan false, Flags.nv) else (.inf (x != y), 0)
  | .fin x n _, .inf y => if n = 0 then (.nan false, Flags.nv) else (.inf (x != y), 0)
  | .fin x n e, .fin y m f => (.fin (x != y) (n * m) (e + f), 0)

/-- d + a × b, fused: the product is exact. -/
def Val.fma (rdn : Bool) (d a b : Val) : Val × Flags :=
  let p := Val.mul a b
  let r := Val.add rdn d p.1
  (r.1, r.2 ||| p.2 ||| sigFlag [d])

/-- Float minimum (max when `big`) of R244. -/
def Val.minmax (big : Bool) (a b : Val) : Val × Flags :=
  if a.isNan || b.isNan then (.nan false, sigFlag [a, b])
  else
    let lt := match Val.cmp a b with
      | .lt => true
      | .gt => false
      | .eq => a.isZero && a.sign && !b.sign
    (if lt != big then a else b, 0)

/-! ## Binary float formats (R201, R202) -/

/-- Parameters of a float format; `noInf` is F8A, whose top code is its only NaN and whose largest fraction is one less. -/
structure Fmt where
  ebits : Nat
  fbits : Nat
  bias : Nat
  noInf : Bool
  deriving DecidableEq, Repr

def fp32 : Fmt := ⟨8, 23, 127, false⟩
def bf16 : Fmt := ⟨8, 7, 127, false⟩
def fp16 : Fmt := ⟨5, 10, 15, false⟩
def f8a : Fmt := ⟨4, 3, 8, true⟩
def f8b : Fmt := ⟨5, 2, 15, false⟩

namespace Fmt

def width (f : Fmt) : Nat := 1 + f.ebits + f.fbits
def emin (f : Fmt) : Int := 1 - (f.bias : Int)
def emaxField (f : Fmt) : Nat := 2 ^ f.ebits - 1
/-- Sign bit at its place. -/
def signBit (f : Fmt) (neg : Bool) : Nat := if neg then 2 ^ (f.ebits + f.fbits) else 0
def canonNan (f : Fmt) : Nat :=
  if f.noInf then 2 ^ (f.ebits + f.fbits) - 1 else f.emaxField * 2 ^ f.fbits + 2 ^ (f.fbits - 1)
/-- Magnitude encoding of the largest finite value. -/
def maxEnc (f : Fmt) : Nat := if f.noInf then 2 ^ (f.ebits + f.fbits) - 2 else f.emaxField * 2 ^ f.fbits - 1
def infEnc (f : Fmt) : Nat := f.emaxField * 2 ^ f.fbits

/-- The value of an encoding (R201, R202). -/
def decode (f : Fmt) (x : Nat) : Val :=
  let neg := x / 2 ^ (f.ebits + f.fbits) % 2 = 1
  let e := x / 2 ^ f.fbits % 2 ^ f.ebits
  let fr := x % 2 ^ f.fbits
  if f.noInf then
    if e = f.emaxField ∧ fr = 2 ^ f.fbits - 1 then .nan false
    else if e = 0 then .fin neg fr (f.emin - f.fbits)
    else .fin neg (fr + 2 ^ f.fbits) ((e : Int) - f.bias - f.fbits)
  else if e = f.emaxField then
    if fr = 0 then .inf neg else .nan (fr < 2 ^ (f.fbits - 1))
  else if e = 0 then .fin neg fr (f.emin - f.fbits)
  else .fin neg (fr + 2 ^ f.fbits) ((e : Int) - f.bias - f.fbits)

end Fmt

/-! ## Rounding (R209 to R211) -/

/-- Rounding modes in force; `sr w` carries the 16-bit draw. -/
inductive RMode where | rne | rtz | rdn | rup | sr (w : Nat)
  deriving DecidableEq, Repr

/-- The mode for a rounding that is no SR conversion (R209). -/
def RMode.noSr : RMode → RMode | .sr _ => .rne | m => m

/-- num × 2^exp rounded to a multiple of 2^q: the multiple, and whether it is inexact. -/
def roundAt (neg : Bool) (num : Nat) (exp q : Int) (m : RMode) : Nat × Bool :=
  if q ≤ exp then (num * pow2Diff exp q, false)
  else
    let d := (q - exp).toNat
    let t := num / 2 ^ d
    let r := num % 2 ^ d
    if r = 0 then (t, false)
    else
      let up : Bool := match m with
        | .rne => 2 * r > 2 ^ d || (2 * r = 2 ^ d && t % 2 = 1)
        | .rtz => false
        | .rdn => neg
        | .rup => !neg
        | .sr w => r * 2 ^ 16 / 2 ^ d + w ≥ 2 ^ 16
      (if up then t + 1 else t, true)

/-- The result of an overflow (R210), as a magnitude and sign; `f8ov` is FCTL.F8OV. -/
def overflowResult (f : Fmt) (f8ov neg : Bool) (m : RMode) : Nat :=
  if f.noInf then (if f8ov then f.canonNan else f.signBit neg + f.maxEnc)
  else
    let toInf : Bool := match m with
      | .rne | .sr _ => true
      | .rtz => false
      | .rdn => neg
      | .rup => !neg
    f.signBit neg + (if toInf then f.infEnc else f.maxEnc)

/-- Encodes n × 2^q, which is representable but for a carry into the next binade. -/
def Fmt.encode (f : Fmt) (neg : Bool) (n : Nat) (q : Int) : Nat :=
  let n' := if 2 ^ (f.fbits + 1) ≤ n then n / 2 else n
  let q' := if 2 ^ (f.fbits + 1) ≤ n then q + 1 else q
  if n' < 2 ^ f.fbits then f.signBit neg + n'
  else f.signBit neg + ((q' + f.fbits + f.bias).toNat * 2 ^ f.fbits + (n' - 2 ^ f.fbits))

/-- Rounds a value into a float format (R210): the encoding and the flags. A NaN gives the canonical NaN and no flag here. -/
def Fmt.round (f : Fmt) (f8ov : Bool) (m : RMode) (v : Val) : Nat × Flags :=
  match v with
  | .nan _ => (f.canonNan, 0)
  | .inf neg =>
    if f.noInf then (if f8ov then f.canonNan else f.signBit neg + f.maxEnc, Flags.nv) else (f.signBit neg + f.infEnc, 0)
  | .fin neg num exp =>
    if num = 0 then (f.signBit neg, 0)
    else
      let qU := exp + lg num - f.fbits
      let qB := max qU (f.emin - f.fbits)
      let u := roundAt neg num exp qU m
      let b := roundAt neg num exp qB m
      let mx := if f.noInf then 2 ^ (f.fbits + 1) - 2 else 2 ^ (f.fbits + 1) - 1
      let qx : Int := (if f.noInf then (f.emaxField : Int) else f.emaxField - 1) - f.bias - f.fbits
      if qx ≤ qU ∧ u.1 * pow2Diff qU qx > mx then (overflowResult f f8ov neg m, Flags.ov ||| Flags.nx)
      else
        let tiny := u.1 * pow2Diff qU f.emin < pow2Diff f.emin qU
        (f.encode neg b.1 qB, if b.2 then Flags.nx ||| (if tiny then Flags.uf else 0) else 0)

/-! ## Elements by tag (R199, R200, R204) -/

def Tag.fmt? : Tag → Option Fmt
  | .fp32 => some Machine.fp32
  | .bf16 => some Machine.bf16
  | .fp16 => some Machine.fp16
  | .f8a => some Machine.f8a
  | .f8b => some Machine.f8b
  | _ => none

/-- Element width in bits; half a byte for INT4X2 (R249). -/
def Tag.bits : Tag → Nat
  | .raw | .int8 | .nat8 | .f8a | .f8b | .dy8 => 8
  | .int16 | .nat16 | .bf16 | .fp16 => 16
  | .int32 | .fp32 | .acc20 => 32
  | .int4x2 => 4

/-- The class I of R241. -/
def Tag.isI : Tag → Bool | .int8 | .nat8 | .int16 | .nat16 | .int32 => true | _ => false
/-- The class F of R241. -/
def Tag.isF : Tag → Bool | .fp32 | .bf16 | .fp16 => true | _ => false
def Tag.isNat : Tag → Bool | .nat8 | .nat16 => true | _ => false
/-- An integer format (R200). -/
def Tag.isInt : Tag → Bool
  | .int8 | .nat8 | .int16 | .nat16 | .int32 | .int4x2 | .acc20 => true
  | _ => false

def Tag.ofCode? (c : Nat) : Option Tag :=
  match c with
  | 0 => some .raw | 1 => some .int8 | 2 => some .nat8 | 3 => some .int16 | 4 => some .nat16 | 5 => some .int32
  | 6 => some .fp32 | 7 => some .bf16 | 8 => some .fp16 | 9 => some .f8a | 10 => some .f8b | 11 => some .dy8
  | 12 => some .int4x2 | 13 => some .acc20 | _ => none

/-- The low `w` bits as a two's-complement integer. -/
def toSigned (w x : Nat) : Int := let y := x % 2 ^ w; if 2 ^ (w - 1) ≤ y then (y : Int) - 2 ^ w else y

/-- An integer modulo 2^w. -/
def wrap (w : Nat) (i : Int) : Nat := (i % (2 ^ w : Nat)).toNat

/-- The integer value of an element under an integer tag. -/
def Tag.int (t : Tag) (x : Nat) : Int :=
  match t with
  | .nat8 => (x % 2 ^ 8 : Nat)
  | .nat16 => (x % 2 ^ 16 : Nat)
  | .acc20 => toSigned 20 x
  | t => toSigned (Tag.bits t) x

/-- The range of an integer tag. -/
def Tag.lo (t : Tag) : Int :=
  match t with | .nat8 | .nat16 => 0 | .acc20 => -(2 ^ 19) | t => -(2 ^ (Tag.bits t - 1) : Nat)
def Tag.hi (t : Tag) : Int :=
  match t with | .nat8 => 255 | .nat16 => 65535 | .acc20 => 2 ^ 19 - 1 | t => (2 ^ (Tag.bits t - 1) : Nat) - 1

/-- One term of a DY8 byte in units of 2^−6 times a (R204, R205). -/
def dyTerm (neg : Bool) (k : Nat) (a : Int) : Int :=
  if k = 7 then 0 else (if neg then -1 else 1) * (a * (2 ^ (6 - k) : Nat))

/-- DY8 times an integer in units of 2^−6 (R205). -/
def dyProduct (w : Nat) (a : Int) : Int :=
  dyTerm (w / 128 % 2 = 1) (w / 16 % 8) a + dyTerm (w / 8 % 2 = 1) (w % 8) a

/-- The DY8 value of a byte in units of 2^−6. -/
def dyInt (w : Nat) : Int := dyProduct w 1

/-- The value of an element under a tag, without scale; RAW has none and reads as 0. -/
def Tag.decode (t : Tag) (x : Nat) : Val :=
  match Tag.fmt? t with
  | some f => f.decode x
  | none =>
    match t with
    | .raw => .fin false 0 0
    | .dy8 => .fin (dyInt x < 0) (dyInt x).natAbs (-6)
    | t => Val.ofInt (Tag.int t x)

/-- The rank of a DY8 byte in the tests of R206: fewest terms, equal signs, k1 ≤ k2, and the plain form of absent terms. -/
def dyRank (w : Nat) : Nat :=
  let s1 := w / 128 % 2
  let k1 := w / 16 % 8
  let s2 := w / 8 % 2
  let k2 := w % 8
  let n := (if k1 = 7 then 0 else 1) + (if k2 = 7 then 0 else 1)
  1000 * n + (if n = 2 ∧ s1 ≠ s2 then 100 else 0) + (if k2 < k1 then 10 else 0) + (if k2 = 7 then s2 else 0) +
    (if k1 = 7 then s1 else 0)

/-- The best byte of value `v` among the first `n` bytes. -/
def dyBest (v : Int) : Nat → Option Nat
  | 0 => none
  | n + 1 =>
    match dyBest v n with
    | none => if dyInt n = v then some n else none
    | some b => if dyInt n = v ∧ dyRank n < dyRank b then some n else some b

/-- The canonical encoding of a member of the DY8 value set, in units of 2^−6 (R206). -/
def dyCanon (v : Int) : Nat := (dyBest v 256).getD 0x77

/-- Whether an integer number of 2^−6 is in the DY8 value set. -/
def dyIn (v : Int) : Bool := (dyBest v 256).isSome

/-- The nearest member at or below (above when `up`) an integer, within `n` steps. -/
def dyNear (up : Bool) (v : Int) : Nat → Int
  | 0 => v
  | n + 1 => if dyIn v then v else dyNear up (if up then v + 1 else v - 1) n

/-- Rounds a finite value into DY8 (R206, R210). -/
def dyRound (m : RMode) (neg : Bool) (num : Nat) (exp : Int) : Nat × Flags :=
  let e := exp + 6
  let f := roundAt neg num e 0 .rdn
  let fl := sgn neg f.1
  let lo := fl
  let hi := if f.2 then fl + 1 else fl
  if (sgn neg num * pow2Diff e 7 > pow2Diff 7 e : Bool) then (dyCanon 128, Flags.nx)
  else if (sgn neg num * pow2Diff e 7 < -(pow2Diff 7 e : Int) : Bool) then (dyCanon (-128), Flags.nx)
  else
    let l := dyNear false lo 256
    let h := dyNear true hi 256
    if l = h then (dyCanon l, if f.2 then Flags.nx else 0)
    else
      -- twice the value against l + h, both times 2^(−e) when e is negative
      let x2 := 2 * sgn neg num * pow2Diff e 0
      let mid := (l + h) * pow2Diff 0 e
      let pickHi : Bool := match m with
        | .rne | .sr _ => if x2 = mid then h.natAbs < l.natAbs else mid < x2
        | .rtz => neg
        | .rdn => false
        | .rup => true
      (dyCanon (if pickHi then h else l), Flags.nx)

/-- Whether the format has NaNs. -/
def Tag.hasNan (t : Tag) : Bool := (Tag.fmt? t).isSome

/-- Rounds a value into an integer tag; `quiet` as R210. -/
def intRound (t : Tag) (quiet : Bool) (m : RMode) (neg : Bool) (num : Nat) (exp : Int) : Nat × Flags :=
  let r := roundAt neg num exp 0 m
  let y := sgn neg r.1
  let w := Tag.bits t
  if y > Tag.hi t then (wrap w (Tag.hi t), if quiet then 0 else Flags.nv)
  else if y < Tag.lo t then (wrap w (Tag.lo t), if quiet then 0 else Flags.nv)
  else (wrap w y, if r.2 && !quiet then Flags.nx else 0)

/-- The conversion of R210: `from` and its scale to `to`. -/
def convert (f8ov : Bool) (src : Tag) (sigma : Int) (dt : Tag) (m : RMode) (x : Nat) : Nat × Flags :=
  let m := if dt = .bf16 ∨ dt = .f8a ∨ dt = .f8b then m else m.noSr
  let quiet := Tag.isInt src && sigma = 0
  match (Tag.decode src x).scale sigma with
  | .nan sig =>
    ((match Tag.fmt? dt with | some f => f.canonNan | none => if dt = .dy8 then 0x77 else 0),
      if sig || !Tag.hasNan dt then Flags.nv else 0)
  | .inf neg =>
    match Tag.fmt? dt with
    | some f => f.round f8ov m (.inf neg)
    | none =>
      if dt = .dy8 then (dyCanon (if neg then -128 else 128), Flags.nv)
      else (wrap (Tag.bits dt) (if neg then Tag.lo dt else Tag.hi dt), Flags.nv)
  | .fin neg num exp =>
    match Tag.fmt? dt with
    | some f => f.round f8ov m (.fin neg num exp)
    | none => if dt = .dy8 then dyRound m neg num exp else intRound dt quiet m.noSr neg num exp

/-! ## Elements of a register -/

/-- Element `j` of width `w` bits of a register's contents. -/
def elt (w x j : Nat) : Nat := x / 2 ^ (j * w) % 2 ^ w

/-- Elements from index 0 packed at `w` bits each. -/
def pack (w : Nat) : List Nat → Nat
  | [] => 0
  | e :: es => e % 2 ^ w + 2 ^ w * pack w es

/-! ## Functions without a dyadic result (R252): see log entry 6 -/

/-- A positive value whose leading bits are `n` × 2^e and which is not exactly that. -/
def sticky (neg : Bool) (n : Nat) (e : Int) : Val := .fin neg (2 * n + 1) (e - 1)

/-- Integer square root by bits, `k` of them. -/
def isqrtFrom (x : Nat) : Nat → Nat → Nat
  | 0, r => r
  | k + 1, r => let r' := r + 2 ^ k; isqrtFrom x k (if r' * r' ≤ x then r' else r)

/-- Fixed-point one for the series below. -/
def fxOne : Nat := 2 ^ 320

/-- The sum of 2^320 / (k 2^k) for k from 1: ln 2. -/
def ln2Sum : Nat → Nat → Nat
  | 0, _ => 0
  | n + 1, k => fxOne / (k * 2 ^ k) + ln2Sum n (k + 1)
def fxLn2 : Nat := ln2Sum 330 1

/-- Taylor terms of exp z from term `t` with index k. -/
def expSum (z : Nat) : Nat → Nat → Nat → Nat
  | 0, _, _ => 0
  | n + 1, k, t => t + expSum z n (k + 1) (t * z / fxOne / k)

/-- Squares a fixed-point number k times. -/
def fxSquare : Nat → Nat → Nat
  | 0, x => x
  | k + 1, x => fxSquare k (x * x / fxOne)

/-- exp of a fixed-point number from 0 up to 1. -/
def fxExp (z : Nat) : Nat := fxSquare 16 (expSum (z / 2 ^ 16) 30 1 fxOne)

/-- Bits of log2 of y in [1, 2), `n` of them. -/
def log2Bits : Nat → Nat → Nat → Nat
  | 0, _, acc => acc
  | n + 1, y, acc =>
    let y2 := y * y / fxOne
    if 2 * fxOne ≤ y2 then log2Bits n (y2 / 2) (2 * acc + 1) else log2Bits n y2 (2 * acc)

/-- 1/x. -/
def Val.rcp (v : Val) : Val × Flags :=
  match v with
  | .nan g => (.nan false, if g then Flags.nv else 0)
  | .inf n => (.fin n 0 0, 0)
  | .fin n a e =>
    if a = 0 then (.inf n, Flags.dz)
    else
      let k := lg a + 64
      let q := 2 ^ k / a
      (if 2 ^ k % a = 0 then .fin n q (-e - k) else sticky n q (-e - k), 0)

/-- 1/√x. -/
def Val.rsq (v : Val) : Val × Flags :=
  match v with
  | .nan g => (.nan false, if g then Flags.nv else 0)
  | .inf n => if n then (.nan false, Flags.nv) else (.fin false 0 0, 0)
  | .fin n a e =>
    if a = 0 then (.inf n, Flags.dz)
    else if n then (.nan false, Flags.nv)
    else
      -- a × 2^e = b × 2^(2h)
      let b := if e % 2 = 0 then a else 2 * a
      let h := if e % 2 = 0 then e / 2 else (e - 1) / 2
      let k := lg b + 64
      let x := 2 ^ (2 * k) / b
      let r := isqrtFrom x (k + 1) 0
      (if r * r * b = 2 ^ (2 * k) then .fin false r (-h - k) else sticky false r (-h - k), 0)

/-- 2^x. -/
def Val.exp2 (v : Val) : Val × Flags :=
  match v with
  | .nan g => (.nan false, if g then Flags.nv else 0)
  | .inf n => (if n then .fin false 0 0 else .inf false, 0)
  | .fin n a e =>
    if a = 0 then (.fin false 1 0, 0)
    else if (lg a : Int) + e > 11 then (if n then .fin false 1 (-10000) else .fin false 1 10000, 0)
    else if (lg a : Int) + e < -64 then
      (if n then sticky false (2 ^ 64 - 1) (-64) else sticky false (2 ^ 64) (-64), 0)
    else
      -- floor and fraction of ±a × 2^e, in units of 2^−320
      let s := sgn n a * (if 0 ≤ e + 320 then (2 ^ (e + 320).toNat : Nat) else 0)
      let i := s / (fxOne : Int)
      let f := (s % (fxOne : Int)).toNat
      if f = 0 then (.fin false 1 i, 0)
      else (sticky false (fxExp (f * fxLn2 / fxOne) / 2 ^ 160) (i - 160), 0)

/-- log2 x. -/
def Val.log2 (v : Val) : Val × Flags :=
  match v with
  | .nan g => (.nan false, if g then Flags.nv else 0)
  | .inf n => if n then (.nan false, Flags.nv) else (.inf false, 0)
  | .fin n a e =>
    if a = 0 then (.inf true, Flags.dz)
    else if n then (.nan false, Flags.nv)
    else
      let i : Int := e + lg a
      if a = 2 ^ lg a then (Val.ofInt i, 0)
      else
        let s := i * (2 ^ 128 : Nat) + log2Bits 128 (a * (fxOne / 2 ^ lg a)) 0
        -- s / 2^128 is below the value by less than 2^−128
        (if 0 ≤ s then sticky false s.natAbs (-128) else sticky true (s.natAbs - 1) (-128), 0)

/-- tanh x. -/
def Val.tanh (v : Val) : Val × Flags :=
  match v with
  | .nan g => (.nan false, if g then Flags.nv else 0)
  | .inf n => (.fin n 1 0, 0)
  | .fin n a e =>
    if a = 0 then (.fin n 0 0, 0)
    else if (lg a : Int) + e < -40 then (.fin n (a * 2 ^ 64 - 1) (e - 64), 0)
    else if (lg a : Int) + e > 5 then (.fin n (2 ^ 64 - 1) (-64), 0)
    else
      -- E = exp(−2|x|) = 1 / (exp(|x| / 128))^256
      let z := a * 2 ^ (e + 320).toNat / 128
      let x256 := fxSquare 8 (fxExp z)
      let ee := fxOne * fxOne / x256
      (sticky n ((fxOne - ee) * 2 ^ 200 / (fxOne + ee)) (-200), 0)

end Sys2Proof.Machine
end

