-- ==== Sys2Proof/Machine/Ops.lean ====
section
/-! DEFINITION. The named operations over the state: reading and writing a process, its registers and its cluster; scheduling
steps; leaving a core; taking a trap (R307, R409 to R418) and returning from one (R428); completing an instruction. -/

namespace Sys2Proof.Machine

/-! ## Parts of the state -/

def State.proc? (s : State) (p : Pid) : Option Proc := Tab.get? p s.procs
def State.setProc (s : State) (p : Pid) (pr : Proc) : State := { s with procs := Tab.put p pr s.procs }
def State.modProc (s : State) (p : Pid) (f : Proc → Proc) : State := { s with procs := Tab.modify p f s.procs }
def State.cluster (s : State) (c : Nat) : Cluster := Tab.getD c s.clusters {}
def State.setCluster (s : State) (c : Nat) (k : Cluster) : State := { s with clusters := Tab.put c k s.clusters }
def State.modCluster (s : State) (c : Nat) (f : Cluster → Cluster) : State := s.setCluster c (f (s.cluster c))
def State.memDie (s : State) (d : Nat) : MemDie := Tab.getD d s.memdies {}
def State.setMemDie (s : State) (d : Nat) (m : MemDie) : State := { s with memdies := Tab.put d m s.memdies }
def State.modMemDie (s : State) (d : Nat) (f : MemDie → MemDie) : State := s.setMemDie d (f (s.memDie d))
def State.team? (s : State) (t : Nat) : Option Team := Tab.get? t s.teams
def State.modTeam (s : State) (t : Nat) (f : Team → Team) : State := { s with teams := Tab.modify t f s.teams }
def State.launch? (s : State) (l : Nat) : Option Launch := Tab.get? l s.launches
def State.modLaunch (s : State) (l : Nat) (f : Launch → Launch) : State := { s with launches := Tab.modify l f s.launches }
def State.msg? (s : State) (m : Nat) : Option Msg := Tab.get? m s.msgs
def State.modMsg (s : State) (m : Nat) (f : Msg → Msg) : State := { s with msgs := Tab.modify m f s.msgs }
def State.expert? (s : State) (x : Nat) : Option Expert := Tab.get? x s.experts
def State.modExpert (s : State) (x : Nat) (f : Expert → Expert) : State := { s with experts := Tab.modify x f s.experts }
def State.bar (s : State) (n : Nat) : Bar := Tab.getD n s.bars {}
def State.modBar (s : State) (n : Nat) (f : Bar → Bar) : State := { s with bars := Tab.put n (f (s.bar n)) s.bars }
def State.link (s : State) (l : Nat) : Link := Tab.getD l s.links {}
def State.modLink (s : State) (l : Nat) (f : Link → Link) : State := { s with links := Tab.put l (f (s.link l)) s.links }

/-! ## Time and steps to come -/

/-- TIMEBASE in ns: five sixths of the core cycles (R14). -/
def State.timebase (s : State) : Nat := s.cycles * 5 / 6

/-- Clock region of a cluster (R12, R65): 0 west, 1 east. Which four clusters each region holds is a DESIGN CHOICE, log entry 65. -/
def regionOf (cl : Nat) : Nat := cl % 8 / 4

/-- TOFF.DOFF of a compute die: region 1's reading less region 0's (R66). -/
def State.doff (s : State) (die : Nat) : Int := toSigned 16 ((Tab.getD (8 * die + 4) s.phys.stitch 0).toNat % 2 ^ 16)

/-- TIMEBASE as a cluster reads it (R14, R66). -/
def State.timeAt (s : State) (cl : Nat) : Nat :=
  if regionOf cl = 0 then s.timebase else ((s.timebase : Int) + s.doff (cl / 8)).toNat

/-- The device's TIMEBASE when a cluster reads a value. -/
def State.timeFrom (s : State) (cl t : Nat) : Nat :=
  if regionOf cl = 0 then t else ((t : Int) - s.doff (cl / 8)).toNat

/-- Core cycles of a number of ns, rounded up. -/
def nsCycles (ns : Nat) : Nat := (ns * 6 + 4) / 5

/-- Inserts a step in order of due time, after those due at the same time. -/
def enqueueStep (due : Nat) (i : Instr) : List (Nat × Instr) → List (Nat × Instr)
  | [] => [(due, i)]
  | (d, j) :: q => if d ≤ due then (d, j) :: enqueueStep due i q else (due, i) :: (d, j) :: q

/-- Schedules a step `delay` core cycles from now. -/
def State.sched (s : State) (delay : Nat) (i : Instr) : State := { s with queue := enqueueStep (s.cycles + delay) i s.queue }

/-- Schedules a step at a TIMEBASE value, or now when it has passed. -/
def State.schedNs (s : State) (t : Nat) (i : Instr) : State :=
  { s with queue := enqueueStep (max s.cycles (nsCycles t)) i s.queue }

/-- Key of a shadow's request (R450). -/
def Output.twinKey : Output → Option Nat
  | .request _ id _ _ | .fetch _ id _ => some (4 * id)
  | .store _ id _ _ | .storeLine _ id _ _ _ _ => some (4 * id + 1)
  | .atomic _ id _ _ _ => some (4 * id + 2)
  | _ => none

/-- Puts something out. In the shadow partition a request waits for its pair of the primary, for 100 µs (R450). -/
def State.putOut (s : State) (o : Output) : State :=
  let s := { s with outs := s.outs ++ [o] }
  match if s.phys.shadow then o.twinKey else none with
  | some k => ({ s with twinWait := Tab.put k s.cycles s.twinWait } : State).sched (nsCycles 100000) (.twinUnpairedTimeout k)
  | none => s

/-- A shadow's request has its pair: the primary's reply is here. -/
def State.twinPaired (s : State) (k : Nat) : State := { s with twinWait := Tab.del k s.twinWait }

/-- A free choice; the counter goes on (log entry 2). -/
def State.freeBool (s : State) : Bool × State := (Config.freeBool s.free, { s with free := s.free + 1 })
def State.freeNat (s : State) : Nat × State := (Config.freeNat s.free, { s with free := s.free + 1 })

/-! ## Device facts (R2, R9 to R12, R102) -/

def Part.rows : Part → Nat | .half => 4 | _ => 8
def Part.isE : Part → Bool | .fullE => true | _ => false
/-- In twin mode each partition reads as the half part (R450). -/
def State.rows (s : State) : Nat := if s.phys.twin.isSome then 4 else Part.rows s.phys.part
/-- Memory dies present. -/
def State.mdies (s : State) : Nat := 4 * s.rows
/-- Sites of compute dies, ascending by 8y + x: x + y even (R9). -/
def computeSites : Nat → List Nat
  | 0 => []
  | n + 1 => computeSites n ++ (if (n % 8 + n / 8) % 2 = 0 then [n] else [])
/-- Compute-die sites in service. -/
def State.cdies (s : State) : List Nat := (computeSites (8 * s.rows)).filter fun x => !s.mgmt.omitted.contains x
/-- Site of memory die m: number 4y + floor(x/2) (R10). -/
def memSite (m : Nat) : Nat := 8 * (m / 4) + (2 * (m % 4) + (if m / 4 % 2 = 0 then 1 else 0))
/-- Site of a cluster's compute die. -/
def State.clusterSite (s : State) (cl : Nat) : Nat := s.cdies.getD (cl / 8) 0
/-- Own device number. -/
def State.dev (s : State) : Nat := bits s.phys.mdev 10 0
/-- A process's key: DEV × 2^32 + PID (R343). -/
def State.key (s : State) (p : Pid) : Nat := s.dev * 2 ^ 32 + p
/-- Contributor number of a core (R294). -/
def State.contributor (s : State) (cl core : Nat) : Nat := s.dev * 2 ^ 13 + 256 * (cl / 8) + 32 * (cl % 8) + core
def hopsBetween (a b : Nat) : Nat :=
  ((a % 8 : Int) - (b % 8 : Int)).natAbs + ((a / 8 : Int) - (b / 8 : Int)).natAbs

/-- The reset value of a register of R429 that is not a process's or a slot's own. -/
def regReset (n : Nat) : Word :=
  if n = 57 then 1000 * 2 ^ 16 + 64 * 2 ^ 8
  else if 80 ≤ n ∧ n ≤ 83 then 2 ^ 62 + 4 * 2 ^ 48
  else if n = 120 then 0x0040_1F40_0404
  else if n = 121 then 100 * 2 ^ 32 + 10 * 2 ^ 16 + 20
  else if n = 122 then 50 * 2 ^ 32 + 8 * 2 ^ 24 + 1
  else if n = 124 then 1000
  else 0

/-- A device register. -/
def State.reg (s : State) (n : Nat) : Word := Tab.getD n s.regs (regReset n)
def State.setReg (s : State) (n : Nat) (v : Word) : State := { s with regs := Tab.set (regReset n) n v s.regs }
/-- A cluster register. -/
def State.clReg (s : State) (cl n : Nat) : Word := Tab.getD n (s.cluster cl).regs (regReset n)
def State.setClReg (s : State) (cl n : Nat) (v : Word) : State :=
  s.modCluster cl fun c => { c with regs := Tab.set (regReset n) n v c.regs }

/-! ## Event counters (R451) -/

/-- One more, saturating at 64 bits. -/
def satInc (w : Word) : Word := if w = BitVec.allOnes 64 then w else w + 1
def State.countCore (s : State) (cl core n : Nat) : State :=
  s.modCluster cl fun c => { c with events := Tab.put (256 * core + n) (satInc (Tab.getD (256 * core + n) c.events 0)) c.events }
def State.countCluster (s : State) (cl n : Nat) : State := s.countCore cl 32 n
def State.countDevice (s : State) (n : Nat) : State :=
  { s with events := Tab.put n (satInc (Tab.getD n s.events 0)) s.events }

/-! ## Registers (R28, R169 to R171, R178) -/

/-- The old value an instruction in a short stall reads (R32). -/
def Ctx.oldOf (c : Ctx) (cls : BitVec 2) (r : BitVec 6) : Option Outstanding :=
  c.short.find? fun o => o.readOld && o.cls = cls && o.reg = r

/-- Whether a write of the register by the instruction in a short stall is lost to the producer's (R32). -/
def Ctx.lost (c : Ctx) (cls : BitVec 2) (r : BitVec 6) : Bool :=
  c.short.any fun o => o.keepNew && o.cls = cls && o.reg = r

def Ctx.rs (c : Ctx) (r : SReg) : Word :=
  if r = 0 then 0 else match c.oldOf 0 r with
    | some o => o.old.setWidth 64
    | none => Tab.getD r.toNat c.s 0
def Ctx.rv (c : Ctx) (r : VReg) : Line :=
  match c.oldOf 1 (r.setWidth 6) with | some o => o.old.setWidth 512 | none => Tab.getD r.toNat c.v 0
def Ctx.rt (c : Ctx) (r : TReg) : TileData :=
  match c.oldOf 2 (r.setWidth 6) with | some o => o.old | none => Tab.getD r.toNat c.t 0
def Ctx.rp (c : Ctx) (r : PReg) : Word :=
  if r = 0 then BitVec.allOnes 64 else match c.oldOf 3 (r.setWidth 6) with
    | some o => o.old.setWidth 64
    | none => Tab.getD r.toNat c.p 0
def Ctx.rvtag (c : Ctx) (r : VReg) : BitVec 4 :=
  match c.oldOf 1 (r.setWidth 6) with | some o => o.oldTag | none => Tab.getD r.toNat c.vtag 0
def Ctx.rttag (c : Ctx) (r : TReg) : BitVec 4 :=
  match c.oldOf 2 (r.setWidth 6) with | some o => o.oldTag | none => Tab.getD r.toNat c.ttag 0
def Ctx.rvscale (c : Ctx) (r : VReg) : BitVec 8 :=
  match c.oldOf 1 (r.setWidth 6) with | some o => o.oldScale | none => Tab.getD r.toNat c.vscale 0
def Ctx.rtscale (c : Ctx) (r : TReg) : BitVec 8 :=
  match c.oldOf 2 (r.setWidth 6) with | some o => o.oldScale | none => Tab.getD r.toNat c.tscale 0

/-- Writes; a write to s0 or p0 is discarded (R28). -/
def Ctx.ws (c : Ctx) (r : SReg) (x : Word) : Ctx :=
  if r = 0 ∨ c.lost 0 r then c else { c with s := Tab.set 0 r.toNat x c.s }
def Ctx.wp (c : Ctx) (r : PReg) (x : Word) : Ctx :=
  if r = 0 ∨ c.lost 3 (r.setWidth 6) then c else { c with p := Tab.set 0 r.toNat x c.p }
def Ctx.wv (c : Ctx) (r : VReg) (x : Line) (tag : BitVec 4) (scale : BitVec 8) : Ctx :=
  if c.lost 1 (r.setWidth 6) then c
  else { c with v := Tab.set 0 r.toNat x c.v, vtag := Tab.set 0 r.toNat tag c.vtag, vscale := Tab.set 0 r.toNat scale c.vscale }
def Ctx.wt (c : Ctx) (r : TReg) (x : TileData) (tag : BitVec 4) (scale : BitVec 8) : Ctx :=
  if c.lost 2 (r.setWidth 6) then c
  else { c with t := Tab.set 0 r.toNat x c.t, ttag := Tab.set 0 r.toNat tag c.ttag, tscale := Tab.set 0 r.toNat scale c.tscale }

/-- Raises flags in a flag lane (R213). -/
def Ctx.raise (c : Ctx) (lane : Nat) (f : Flags) : Ctx :=
  { c with flags := c.flags ||| ((f.setWidth 80 : BitVec 80) <<< (5 * (lane % 16))) }

/-- The value, tag and scale a register holds, as the short-stall record keeps them. -/
def Ctx.snapshot (c : Ctx) (cls : BitVec 2) (r : BitVec 6) : TileData × BitVec 4 × BitVec 8 :=
  if cls = 0 then ((Tab.getD r.toNat c.s 0).setWidth 8192, 0, 0)
  else if cls = 1 then ((Tab.getD r.toNat c.v 0).setWidth 8192, Tab.getD r.toNat c.vtag 0, Tab.getD r.toNat c.vscale 0)
  else if cls = 2 then (Tab.getD r.toNat c.t 0, Tab.getD r.toNat c.ttag 0, Tab.getD r.toNat c.tscale 0)
  else ((Tab.getD r.toNat c.p 0).setWidth 8192, 0, 0)

/-! ## Prefix effects -/

/-- The stall count c (R31). -/
def stallOf (m : Mods) : Nat :=
  m.stall.toNat + (match m.pfxM with | none => 0 | some (_, x) => 4 * x.toNat)

/-- Whether nf suppresses flags (R30). -/
def nfOf (m : Mods) : Bool := match m.pfxM with | none => false | some (b, _) => b

/-- The length in bytes of an instruction on page 0 (or another page) with or without PFX.T (R21). -/
def lenOf (m : Mods) (paged third : Bool) : Nat :=
  2 * (1 + paged.toNat + third.toNat + m.hasR.toNat + m.pfxM.isSome.toNat + m.pfxQ.isSome.toNat + m.nI.toNat)

/-- The scope code of PFX.Q, 0 without one. -/
def scopeOf (m : Mods) : Nat := match m.pfxQ with | none => 0 | some q => q.scope.toNat

/-- The lane predicate of PFX.Q, inverted under negate; all ones without one (R29). -/
def maskOf (m : Mods) (c : Ctx) : Word :=
  match m.pfxQ with
  | none => BitVec.allOnes 64
  | some q => if q.neg then ~~~(c.rp q.pred) else c.rp q.pred

/-- Bit 0 of the predicate: whether a gated form takes effect (R29). -/
def onOf (m : Mods) (c : Ctx) : Bool := (maskOf m c).getLsbD 0

/-! ## Held faults -/

/-- Inserts a held fault in order of issue. -/
def insertHeld (h : HeldFault) : List HeldFault → List HeldFault
  | [] => [h]
  | g :: l => if g.order ≤ h.order then g :: insertHeld h l else h :: g :: l

/-- A fault of an acknowledged or undeliverable access is held (R114), the earliest-issued access's first (R297). -/
def State.holdFault (s : State) (p : Pid) (cls kind aux space : Nat) (red : Bool) (addr : Word) (order : Nat := s.nextAcc) : State :=
  s.modProc p fun pr => { pr with
    held := insertHeld {
      order := order
      cls := BitVec.ofNat 8 cls, kind := BitVec.ofNat 8 kind, aux := aux, red := red, space := space, addr := addr } pr.held
    fpcls := if red then BitVec.ofNat 8 cls else pr.fpcls
    fpkind := if red then BitVec.ofNat 8 kind else pr.fpkind }

/-! ## Traps as data -/

/-- A trap to take (R409): class, kind, and what TADDR, TAUX and the FORMAT fields of TCAUSE show (R413, R414). `noLen` for
the classes whose LEN is 0. -/
structure TrapInfo where
  cls : Nat
  kind : Nat := 0
  addr : Word := 0
  aux : Word := 0
  tag : Nat := 0
  opnd : Nat := 0
  prf : Bool := false
  noLen : Bool := false
  deriving DecidableEq, Repr

def trapIllegal (cause : Nat) : TrapInfo := { cls := 1, kind := cause, noLen := true }
def trapFormat (opnd tag : Nat) : TrapInfo := { cls := 9, tag := tag, opnd := opnd }
def trapPrivilege (kind : Nat) : TrapInfo := { cls := 3, kind := kind }
def trapXlate (kind : Nat) (a : Word) (write : Bool) : TrapInfo :=
  { cls := 5, kind := kind, addr := a, aux := if write then field 1 61 else 0 }
def trapChan (kind : Nat) : TrapInfo := { cls := 11, kind := kind }

/-- The core a process runs on: the Lamplighter, number 31, while it is served. -/
def Proc.unit (pr : Proc) : Nat := if pr.svc.isSome then 31 else pr.core

/-- The trap frame of R413. -/
def mkFrame (pr : Proc) (t : TrapInfo) (len : Nat) : Frame :=
  { tcause := BitVec.ofNat 64 (t.cls + t.kind * 2 ^ 8 + (if t.noLen then 0 else len) * 2 ^ 16 + t.opnd * 2 ^ 20 +
      t.tag * 2 ^ 24 + pr.loop.isSome.toNat * 2 ^ 28 + t.prf.toNat * 2 ^ 29)
    tpc := pr.pc
    taddr := t.addr
    taux := t.aux
    tloop := match pr.loop with
      | none => 0
      | some l => field 1 63 ||| field l.sreg.toNat 56 ||| field l.n.toNat 48 ||| field (bits (pr.pc - l.start) 9 0) 0
    svcst := 0 }

/-! ## Ready queues and slots (R367, R368) -/

/-- Whether a process holds the slot. -/
def Proc.holds (pr : Proc) (cl core k : Nat) : Bool := pr.cl = cl && pr.core = core && pr.slot = some k

/-- The lowest free barrel slot of a core. -/
def State.freeSlot (s : State) (cl core : Nat) : Option Nat :=
  (List.range 8).find? fun k => !(s.procs.any fun e => e.2.holds cl core k)

def State.readyAt (s : State) (cl core prio : Nat) : List Pid := Tab.getD (8 * core + prio) (s.cluster cl).ready []
def State.setReady (s : State) (cl core prio : Nat) (q : List Pid) : State :=
  s.modCluster cl fun c => { c with ready := Tab.set [] (8 * core + prio) q c.ready }

/-- READY processes in the queues of one core. -/
def State.readyCount (s : State) (cl core : Nat) : Nat :=
  ((List.range 8).map fun q => (s.readyAt cl core q).length).sum

/-- The compute core with the fewest READY processes, the lowest number on a tie. -/
def State.leastCore (s : State) (cl : Nat) : Nat → Nat
  | 0 => 0
  | n + 1 => let b := s.leastCore cl n; if s.readyCount cl n < s.readyCount cl b then n else b

/-- Takes a process out of every ready queue of its cluster. -/
def State.unready (s : State) (p : Pid) : State :=
  match s.proc? p with
  | none => s
  | some pr => s.modCluster pr.cl fun c => { c with ready := (c.ready.map fun e => (e.1, e.2.filter (· ≠ p))).filter fun e => e.2 ≠ [] }

/-- The lowest compute core with a free slot and nothing queued. -/
def State.idleCore (s : State) (cl : Nat) : Option Nat :=
  (List.range 31).find? fun k => (s.freeSlot cl k).isSome && s.readyCount cl k = 0

/-- A process becomes READY and joins the tail of the queue of its priority (R367); the core looks for a slot (R368), another
core may take it, and it may pre-empt (R369). -/
def State.makeReady (s : State) (p : Pid) : State :=
  match s.proc? p with
  | none => s
  | some pr =>
    let core := if pr.hasRun ∧ pr.core < 31 then pr.core else s.leastCore pr.cl 31
    let s := s.setProc p { pr with state := .ready, wkind := .nothing, wait := 0, deadline := 0, core := core, slot := none }
    let s := s.setReady pr.cl core pr.prio.toNat (s.readyAt pr.cl core pr.prio.toNat ++ [p])
    let s := s.sched 6 (.slotRefill pr.cl core)
    if (s.freeSlot pr.cl core).isSome then s
    else
      let s := match s.idleCore pr.cl with | none => s | some k => s.sched 6 (.workSteal pr.cl k)
      s.sched 1 (.priorityPreemption pr.cl core)

/-- A waiting process may go on: it stays in its slot when it holds one, and otherwise becomes READY. -/
def State.wake (s : State) (p : Pid) : State :=
  match s.proc? p with
  | none => s
  | some pr =>
    match pr.state with
    | .blocked =>
      if pr.slot.isSome then
        s.setProc p { pr with state := .running, wkind := .nothing, wait := 0, deadline := 0, reported := false }
      else (s.setProc p { pr with reported := false }).makeReady p
    | .service => if pr.svc.isSome then s.setProc p { pr with wkind := .nothing, wait := 0, deadline := 0 } else s
    | .halted | .suspended =>
      if pr.before = some .blocked then
        s.setProc p { pr with before := some .ready, wkind := .nothing, wait := 0, deadline := 0, reported := false }
      else s
    | _ => s

/-- A process waits (R321); its program counter stays at the instruction. A deadline is tested when it passes (R335), and a wait
without one sends probes (R343). -/
def State.block (s : State) (p : Pid) (k : WKind) (wait deadline : Word) : State :=
  match s.proc? p with
  | none => s
  | some pr =>
    let s := s.setProc p { pr with
      state := if pr.svc.isSome then .service else .blocked, wkind := k, wait := wait, deadline := deadline, since := s.cycles }
    -- a READY process of the core may take the slot (R368)
    let s := if pr.slot.isSome && s.readyCount pr.cl pr.core ≠ 0 then s.sched 6 (.slotRefill pr.cl pr.core) else s
    if k = .sleep then s.schedNs (s.timeFrom pr.cl deadline.toNat) (.sleepWake p)
    else if deadline = BitVec.allOnes 64 then s.sched 0 (.deadlineExpiry p)
    else if deadline ≠ 0 then s.schedNs (s.timeFrom pr.cl deadline.toNat) (.deadlineExpiry p)
    else
      let probe := bits (s.reg 124) 15 0
      let waits := k = .send || k = .sendt || k = .recv || k = .recvt || k = .alt || k = .port
      if waits && probe ≠ 0 then s.sched (nsCycles (1000 * probe)) (.probeTimer p) else s

/-- Wakes every process that waits for one of these kinds on a cluster. -/
def State.wakeKinds (s : State) (cl : Nat) (ks : List WKind) : State :=
  (s.procs.filter fun e => e.2.cl = cl && ks.contains e.2.wkind).foldl (fun s e => s.wake e.1) s

/-! ## Service messages (R325 KIND 6, R54) -/

/-- Posts a message to a service endpoint, for service firmware that waits there to take. -/
def State.postService (s : State) (idx : Nat) (ws : List Word) : State :=
  let s := { s with svcMsgs := Tab.put idx (Tab.getD idx s.svcMsgs [] ++ [ws]) s.svcMsgs }
  (s.procs.filter fun e => e.2.wkind = .recv && bits e.2.wait 52 50 = 6 && bits e.2.wait 31 0 = idx).foldl (fun s e => s.wake e.1) s
/-- The fault endpoint of a team. -/
def faultIdx (team : Nat) : Nat := 0x01000000 + team
/-- A machine-check message (R54). -/
def State.machineCheck (s : State) (kind point site pa : Nat) : State :=
  s.postService 0 [BitVec.ofNat 64 (kind + point * 2 ^ 8 + site * 2 ^ 16), BitVec.ofNat 64 pa,
    BitVec.ofNat 64 s.timebase, 0, 0, 0, 0, 0]

/-! ## Leases (R265, R273) -/

/-- The key of an array command's operation; one more while a line of B from outside the device is on its way. -/
def arrKey : Nat := 2 ^ 73

/-- Ends a lease held by a process, stops its MMA at its boundary with the slot PARTIAL and unlocked, and withdraws its waiting
request. A drain or zeroing whose process is killed is abandoned before it has written. -/
def State.endLease (s : State) (p : Pid) : State :=
  match s.proc? p with
  | none => s
  | some pr =>
    let c := s.cluster pr.cl
    let stop : Slot → Slot := fun k =>
      match k.cmd with
      | some (q, .mma id _) => if q = p then { k with cmd := none, lock := false, st := .partialMma, ident := some id } else k
      | some (q, _) => if q = p then { k with cmd := none, lock := false } else k
      | none => k
    let held := c.lease.any fun l => l.pid = p
    let s := s.setCluster pr.cl { c with
      slots := c.slots.map fun e => (e.1, stop e.2)
      leaseQ := c.leaseQ.filter fun r => r.pid ≠ p
      lease := if held then none else c.lease
      leaseAt := if held then s.cycles + 8 else c.leaseAt }
    let s := if held then s.sched 8 (.leaseGrant pr.cl) else s
    -- the answer of a command that has ended stays
    let s := if pr.op.any fun o => o.key = arrKey + 1 || (o.key = arrKey && o.res = .waiting) then s.setProc p { pr with op := none } else s
    s.wakeKinds pr.cl [.lease]

/-! ## Chunks (R177, R305 to R307) -/

/-- What a squash restores (R306); PLAT and the phase count stay (R306, R419, R431). -/
def Proc.squashed (pr : Proc) : Proc :=
  match pr.chunk with
  | none => pr
  | some c => { pr with
      pc := c.pc0
      ctx := { c.ctx0 with plat := pr.ctx.plat, phid := pr.ctx.phid, expect := pr.ctx.expect, elapsed := pr.ctx.elapsed }
      loop := c.loop0
      chunk := none
      hits := []
      op := none }

/-- A process gives up solo mode and the exclusive commit token (R306). -/
def State.unsolo (s : State) (p : Pid) : State :=
  match s.proc? p with
  | none => s
  | some pr =>
    (s.setProc p { pr with solo := false, limit := none, squashes := 0 }).modCluster pr.cl fun c =>
      { c with token := if c.token = some p then none else c.token }

/-- Ends the open chunk of a process after what it has executed and sends it to the commit arbiter (R303, R305). An empty chunk
is dropped. -/
def State.endChunk (s : State) (p : Pid) : State :=
  match s.proc? p with
  | none => s
  | some pr =>
    match pr.chunk with
    | none => s
    | some c =>
      if c.ended then s
      else if c.count = 0 then (s.setProc p { pr with chunk := none }).unsolo p
      else (s.setProc p { pr with chunk := some { c with ended := true } }).sched 4 (.chunkCommit p)

/-! ## Leaving a core (R417) -/

/-- The part of leaving a core that every reason shares: the lease ends, the
slot is freed and offered to the core's queue, and outstanding results are complete (R32). -/
def State.leaveCore (s : State) (p : Pid) : State :=
  let s := s.endLease p
  match s.proc? p with
  | none => s
  | some pr =>
    let s := s.setProc p { pr with
      slot := none
      leaving := false
      inUse := []
      fetching := []
      ctx := { pr.ctx with short := pr.ctx.short.map fun o => { o with settled := true, readOld := false, keepNew := false } } }
    if pr.slot.isSome then s.sched 6 (.slotRefill pr.cl pr.core) else s

/-- Pre-emption or slice expiry has taken effect: the chunk ends, the slot is given up, and the process goes to the tail of its
queue (R369). -/
def State.preempt (s : State) (p : Pid) : State := ((s.endChunk p).leaveCore p).makeReady p

/-! ## Triggers of a debug halt (R433, R435) -/

/-- DBGSTAT (R432). -/
def dbgWord (cause idx : Nat) (pid : Option Pid) (slot : Nat) (inrep inch : Bool) : Word :=
  field (pid.getD 0) 32 ||| field inrep.toNat 19 ||| field inch.toNat 18 ||| field (idx % 4) 16 ||| field slot 8 ||| field cause 0

/-- DSKID of every slot at a trigger (R437): the cluster issues nothing more, so no instruction follows the trigger. -/
def State.skids (s : State) (cl : Nat) : Tab Word :=
  s.procs.foldl (fun t e => match e.2.slot with
    | some k => if e.2.cl = cl then Tab.put (8 * e.2.core + k) (field 1 63) t else t
    | none => t) []

/-- A trigger at one cluster: it stops issuing. -/
def State.triggerAt (s : State) (cl : Nat) (dbg : Word) : State :=
  if (s.cluster cl).dm.phase ≠ .running then s
  else
    (s.modCluster cl fun c => { c with dm := { c.dm with
      phase := .stopping, trig := s.cycles, dbgstat := dbg, dskid := s.skids cl } }).sched 12 (.haltComplete cl)

/-- The slot number DBGSTAT shows for a process. -/
def State.slotNum (s : State) (p : Pid) : Nat :=
  match s.proc? p with
  | some pr => match pr.slot with | some k => 8 * pr.core + k | none => 255
  | none => 255

/-- A trigger and its cross-triggers (R435). -/
def State.trigger (s : State) (cl cause idx : Nat) (pid : Option Pid) (inch : Bool) : State :=
  let slot := match pid with | some p => s.slotNum p | none => 255
  let inrep := match pid with | some p => (s.proc? p).any fun pr => pr.loop.isSome | none => false
  let g := (s.cluster cl).dm.xgrp
  let s := s.triggerAt cl (dbgWord cause idx pid slot inrep inch)
  if 8 ≤ g.toNat then s
  else (s.clusters.filter fun e => e.1 ≠ cl && e.2.dm.xgrp = g).foldl
    (fun s e => s.triggerAt e.1 (dbgWord 2 0 none 255 false false)) s

/-! ## Taking a trap (R307, R410) -/

/-- Steps 2 to 5 of R410: the process leaves its core, FINFO is written (R416), STATE becomes SERVICE, and the context is queued
for the Lamplighter with its frame. -/
def State.enterService (s : State) (p : Pid) (len : Nat) (t : TrapInfo) : State :=
  match s.proc? p with
  | none => s
  | some pr0 =>
    let frame := mkFrame pr0 t len
    let s := s.leaveCore p
    match s.proc? p with
    | none => s
    | some pr =>
      let s := s.setProc p { pr with
        state := .service
        wkind := .nothing
        wait := 0
        deadline := 0
        loop := none
        solo := false
        limit := none
        squashes := 0
        fcls := BitVec.ofNat 8 t.cls
        fkind := BitVec.ofNat 8 t.kind
        fpcls := if t.prf then BitVec.ofNat 8 t.cls else pr.fpcls
        fpkind := if t.prf then BitVec.ofNat 8 t.kind else pr.fpkind }
      let s := s.modCluster pr.cl fun c => { c with svcQ := c.svcQ ++ [{ pid := p, frame := frame, loop := pr0.loop, second := none }] }
      (s.countCore pr.cl pr0.core 13).sched 60 (.serviceSlotStart pr.cl)

/-- The numbers s56 to s63. -/
def bankedRegs : List Nat := [56, 57, 58, 59, 60, 61, 62, 63]

/-- Copies s56 to s63 from one table of scalars to another. -/
def bankCopy (src dst : Tab Word) : Tab Word := bankedRegs.foldl (fun d r => Tab.set 0 r (Tab.getD r src 0) d) dst

/-- A precise trap in service mode (R415): the context leaves its service slot for containment with the frame of its first trap
and the second trap recorded. -/
def State.doubleFault (s : State) (p : Pid) (k : Nat) (t : TrapInfo) : State :=
  match s.proc? p with
  | none => s
  | some pr =>
    let c := s.cluster pr.cl
    let slot := Tab.getD k c.svc {}
    match slot.ctx with
    | none => s
    | some x =>
      let s := s.setProc p { pr with
        svc := none, chunk := none, op := none, loop := none, state := .service, wkind := .nothing
        ctx := { pr.ctx with s := bankCopy slot.ps pr.ctx.s } }
      let s := s.modCluster pr.cl fun c => { c with
        svc := Tab.put k { ctx := none, ps := [], priv := bankCopy pr.ctx.s slot.priv } c.svc
        svcQ := c.svcQ ++ [{ x with second := some (t.cls, t.kind) }] }
      s.sched 1 (.serviceSlotStart pr.cl)

/-- Takes a precise trap at the process's current instruction of `len` bytes. Inside a chunk that holds earlier instructions,
the chunk is squashed and its prefix runs again alone, and the trap is met again after it (R307). A process with reductions
pending first waits for them (R298). -/
def State.takeTrap (s : State) (p : Pid) (len : Nat) (t : TrapInfo) : State :=
  match s.proc? p with
  | none => s
  | some pr =>
    match pr.chunk with
    | some c =>
      if c.count ≠ 0 then
        (s.setProc p { pr.squashed with solo := true, limit := some c.count }).countCore pr.cl pr.core 3
      else
        let s := (s.setProc p { pr with chunk := none, op := none }).unsolo p
        match pr.svc with
        | some k => s.doubleFault p k t
        | none => if pr.pend ≠ 0 then s.block p .reply 0 0 else s.enterService p len t
    | none =>
      match pr.svc with
      | some k => s.doubleFault p k t
      | none => if pr.pend ≠ 0 then (s.setProc p { pr with op := none }).block p .reply 0 0 else s.enterService p len t

/-! ## Returning from a trap (R411, R428) -/

/-- Gives a context its own s56 to s63 back and takes it off its service slot, keeping the slot's private scalars. -/
def State.unbank (s : State) (p : Pid) (k : Nat) : State :=
  match s.proc? p with
  | none => s
  | some pr =>
    let c := s.cluster pr.cl
    let slot := Tab.getD k c.svc {}
    let s := s.setProc p { pr with svc := none, op := none, chunk := none, ctx := { pr.ctx with s := bankCopy slot.ps pr.ctx.s } }
    s.setCluster pr.cl { c with svc := Tab.put k { ctx := none, ps := [], priv := bankCopy pr.ctx.s slot.priv } c.svc }

/-- SRET with DISP 0: the context resumes at TPC, its loop state restored when TPC lies where the trap fell, and joins its
cluster's ready queue (R428). -/
def State.resumeFrom (s : State) (p : Pid) (x : SvcCtx) : State :=
  match s.proc? p with
  | none => s
  | some pr =>
    let loop := match x.loop with
      | none => none
      | some l => if bit x.frame.tloop 63 ∧ x.frame.tpc = l.start + BitVec.ofNat 64 (bits x.frame.tloop 9 0) then some l else none
    (s.setProc p { pr with pc := x.frame.tpc, loop := loop }).makeReady p

/-! ## Completing an instruction -/

/-- What an instruction leaves for its completion: where it transfers, and its fixed-latency results with their latencies (R32). -/
structure Done where
  tgt : Option Word := none
  outs : List (BitVec 2 × BitVec 6 × Nat) := []
  /-- the chunk ends after this instruction -/
  endChunk : Bool := false
  /-- the process, past the instruction, is left waiting -/
  wait : Option (WKind × Word) := none
  /-- core cycles that the instruction itself takes before the next may issue (R236) -/
  busy : Nat := 0
  /-- bytes and stall count of the next instruction, when its store was merged with this one's and it completes with it (R320) -/
  merged : Option (Nat × Nat) := none
  deriving DecidableEq, Repr

/-- Outstanding results after `c` more cycles of encoded distance (R32). -/
def ageShort (c : Nat) (l : List Outstanding) : List Outstanding :=
  l.filterMap fun o => if o.dist ≤ c then none else some { o with dist := o.dist - c, readOld := false, keepNew := false }

/-- New entries of the short-stall record. -/
def newShort (before : Ctx) (c : Nat) (outs : List (BitVec 2 × BitVec 6 × Nat)) : List Outstanding :=
  outs.filterMap fun (cls, r, lat) =>
    if lat ≤ c ∨ before.lost cls r ∨ ((cls = 0 ∨ cls = 3) ∧ r = 0) then none
    else
      let v := before.snapshot cls r
      some { dist := lat - c, cls := cls, reg := r, old := v.1, oldTag := v.2.1, oldScale := v.2.2, settled := false,
             readOld := false, keepNew := false }

/-- Where the process goes on (R236): at the end of a pinned iteration the count register steps down and the block runs again,
or the loop ends. `leaving` ends it there, with the program counter at the REP (R238). -/
def Proc.advance (pr : Proc) (len : Nat) (tgt : Option Word) : Proc :=
  match tgt with
  | some a => { pr with pc := a }
  | none =>
    let next := pr.pc + BitVec.ofNat 64 len
    match pr.loop with
    | none => { pr with pc := next }
    | some l =>
      if next ≠ l.stop then { pr with pc := next }
      else
        let v := Tab.getD l.sreg.toNat pr.ctx.s 0
        let w : Word := if v.toNat ≤ 1 then 0 else v - 1
        let ctx := if l.sreg = 0 then pr.ctx else { pr.ctx with s := Tab.set 0 l.sreg.toNat w pr.ctx.s }
        if v.toNat ≤ 1 then { pr with pc := next, ctx := ctx, loop := none }
        else if pr.leaving then { pr with pc := l.rep, ctx := ctx, loop := none }
        else { pr with pc := l.start, ctx := ctx }

/-- At the end of a pinned iteration the count register is interlocked (R236): no producer of it stays outstanding. -/
def loopClean (pr : Proc) (len : Nat) (tgt : Option Word) (l : List Outstanding) : List Outstanding :=
  match pr.loop with
  | some k => if tgt.isNone && pr.pc + BitVec.ofNat 64 len = k.stop then l.filter fun o => !(o.cls = 0 && o.reg = k.sreg) else l
  | none => l

/-- Completion (R31, R32, R234, R303): the program counter moves on, encoded distances age, the next issue is delayed by the
stall count, and the open chunk counts one instruction and ends when it is full or has reached the length a prefix re-run ends
at. -/
def State.complete (s : State) (p : Pid) (before : Ctx) (m : Mods) (len : Nat) (d : Done) : State :=
  match s.proc? p with
  | none => s
  | some pr =>
    let more := d.merged.getD (0, 0)
    let c := max (stallOf m) 1 + more.2
    let short := loopClean pr len d.tgt (ageShort c pr.ctx.short ++ newShort before c d.outs)
    let pr := pr.advance (len + more.1) d.tgt
    let pr := { pr with
      ctx := { pr.ctx with short := short }
      issueAt := s.cycles + max (stallOf m) (if d.tgt.isSome then 2 else 1 + d.busy) + more.2
      inUse := []
      op := none
      skipIbp := false
      chunk := pr.chunk.map fun k => { k with count := k.count + 1 } }
    let full := d.endChunk || pr.chunk.any fun k => 512 ≤ k.count || pr.limit = some k.count
    let s := s.setProc p pr
    let s := if pr.chunk.isNone then s.countCore pr.cl pr.unit 1 else s
    let s := if pr.chunk.isNone && d.merged.isSome then s.countCore pr.cl pr.unit 1 else s
    let s := if full then s.endChunk p else s
    let leaves := pr.leaving ∧ pr.loop.isNone ∧ pr.pend = 0
    match d.wait with
    | some (k, w) => (if leaves then s.leaveCore p else s).block p k w 0
    | none => if leaves then s.preempt p else s

/-! ## Running an instruction -/

/-- How an instruction stops short: it traps, it waits in the given state, or it issues again later, its process out of barrel
rotation until then. -/
inductive Stop where
  | trap (t : TrapInfo) (s : State)
  | wait (k : WKind) (obj deadline : Word) (s : State)
  | stall (s : State)

/-- The work of one instruction over the state. -/
abbrev Exec (α : Type) := StateT State (Except Stop) α

def raiseTrap {α : Type} (t : TrapInfo) : Exec α := fun s => .error (.trap t s)
def waitOn {α : Type} (k : WKind) (obj deadline : Word) : Exec α := fun s => .error (.wait k obj deadline s)
def stall {α : Type} : Exec α := fun s => .error (.stall s)
def guardTrap (b : Bool) (t : TrapInfo) : Exec Unit := if b then raiseTrap t else pure ()

/-- Gated off (R29): nothing happens but the stall count. -/
def State.skip (s : State) (p : Pid) (pr : Proc) (m : Mods) (len : Nat) : State := s.complete p pr.ctx m len {}

/-- Runs an instruction that acts on its own process alone. `gate` says whether PFX.Q gates the whole form (R29). -/
def runReg (m : Mods) (len : Nat) (gate : Bool) (s : State) (f : Proc → Except TrapInfo (Proc × Done)) :
    Host.Outcome State Fault Refusal :=
  match s.cur with
  | none => .fault .noIssuer
  | some p =>
    match s.proc? p with
    | none => .fault .noIssuer
    | some pr =>
      if gate && !onOf m pr.ctx then .next (s.skip p pr m len)
      else match f pr with
        | .error t => .next (s.takeTrap p len t)
        | .ok (pr', d) => .next ((s.setProc p pr').complete p pr.ctx m len d)

/-- Runs any other instruction. -/
def runExec (m : Mods) (len : Nat) (gate : Bool) (s : State) (f : Pid → Proc → Exec Done) :
    Host.Outcome State Fault Refusal :=
  match s.cur with
  | none => .fault .noIssuer
  | some p =>
    match s.proc? p with
    | none => .fault .noIssuer
    | some pr =>
      if gate && !onOf m pr.ctx then .next (s.skip p pr m len)
      else match f p pr s with
        | .error (.trap t s') => .next (s'.takeTrap p len t)
        | .error (.wait k obj deadline s') => .next (s'.block p k obj deadline)
        | .error (.stall s') => .next s'
        | .ok (d, s') => .next (s'.complete p pr.ctx m len d)

/-- Runs an instruction that neither completes nor traps in the common way. -/
def runRaw (m : Mods) (len : Nat) (s : State) (f : Pid → Proc → State) : Host.Outcome State Fault Refusal :=
  match s.cur with
  | none => .fault .noIssuer
  | some p =>
    match s.proc? p with
    | none => .fault .noIssuer
    | some pr => if onOf m pr.ctx then .next (f p pr) else .next (s.skip p pr m len)

/-- Fixed-latency scalar result. -/
def outS (r : SReg) (lat : Nat) : BitVec 2 × BitVec 6 × Nat := (0, r, lat)
def outV (r : VReg) (lat : Nat) : BitVec 2 × BitVec 6 × Nat := (1, r.setWidth 6, lat)
def outT (r : TReg) (lat : Nat) : BitVec 2 × BitVec 6 × Nat := (2, r.setWidth 6, lat)
def outP (r : PReg) (lat : Nat) : BitVec 2 × BitVec 6 × Nat := (3, r.setWidth 6, lat)

/-! ## Working on the current process inside `Exec` -/

def getProc (p : Pid) : Exec Proc := fun s =>
  match s.proc? p with | some pr => .ok (pr, s) | none => .ok ({}, s)
def modProcE (p : Pid) (f : Proc → Proc) : Exec Unit := fun s => .ok ((), s.modProc p f)
def modCtx (p : Pid) (f : Ctx → Ctx) : Exec Unit := modProcE p fun pr => { pr with ctx := f pr.ctx }
def modS (f : State → State) : Exec Unit := fun s => .ok ((), f s)
def setS (p : Pid) (r : SReg) (x : Word) : Exec Unit := modCtx p fun c => c.ws r x

end Sys2Proof.Machine
end

