-- ==== Sys2Proof/Machine/Home.lean ====
section
/-! DEFINITION. The homes of memory: line check codes and poison (R48 to R53), the memory-side cache (R47), remote-access counters
(R79, R82), atomics and reductions at a home (R285 to R296), and routes over the panel mesh (R60 to R64). -/

namespace Sys2Proof.Machine

/-! ## Check codes (R49) -/

/-- One shift of the reflected CRC-32C register. -/
def crcShift (c : Nat) : Nat := if c % 2 = 1 then Nat.xor (c / 2) 0x82F63B78 else c / 2

/-- Eight shifts. -/
def crcByte (c : Nat) (b : Byte) : Nat :=
  crcShift (crcShift (crcShift (crcShift (crcShift (crcShift (crcShift (crcShift (Nat.xor c b.toNat))))))))

/-- CRC-32C with the parameters of R49. -/
def crc32c (bs : List Byte) : BitVec 32 := BitVec.ofNat 32 (Nat.xor (bs.foldl crcByte 0xFFFFFFFF) 0xFFFFFFFF)

/-- The check code of a line's bytes. -/
def lineCode (l : Line) : BitVec 32 := crc32c (bytesLE 64 l.toNat)

/-! ## Where a line is -/

/-- Home memory die of a physical address (R45). -/
def dieOf (pa : Nat) : Nat := pa / 2 ^ 47 % 32
/-- Cluster of a location in SRAM. -/
def sramCluster (loc : Nat) : Nat := (loc - sramBase) / 2 ^ 32
def isDev (loc : Nat) : Bool := loc < 2 ^ 52
def isSram (loc : Nat) : Bool := sramBase ≤ loc && loc < backBase
/-- 64 KiB frame number within a die's stack. -/
def frameOf (pa : Nat) : Nat := pa % 2 ^ 36 / 2 ^ 16
/-- Site of detection, 8y + x. -/
def State.siteOf (s : State) (loc : Nat) : Nat :=
  if isDev loc then memSite (dieOf loc) else if isSram loc then s.clusterSite (sramCluster loc) else 0
/-- Physical address in a machine-check message: 0 when none applies. -/
def paOf (loc : Nat) : Nat := if isDev loc then loc else 0

/-! ## Poison and verification (R48, R51) -/

def State.isPoison (s : State) (line : Nat) : Bool := s.poison.contains line

/-- Inserts into a rising list. -/
def insertNat (n : Nat) : List Nat → List Nat
  | [] => [n]
  | m :: l => if n < m then n :: m :: l else if n = m then m :: l else m :: insertNat n l

def State.poisonLine (s : State) (line : Nat) : State := { s with poison := insertNat line s.poison }

/-- Verifies a line's code at a point of R51. A line already poisoned raises no further message (log entry 8). -/
def State.verifyAt (s : State) (point line : Nat) : State :=
  if Tab.getD line s.codeErr 0 = 0 ∨ s.isPoison line then s
  else (s.poisonLine line).machineCheck 1 point (s.siteOf line) (paOf line)

/-- ECC of the array that holds a line (R48): one bit is corrected and counted, and in SRAM corrected in place; more poison the
line. -/
def State.eccAt (s : State) (point line : Nat) : State :=
  let n := Tab.getD line s.phys.flips 0
  if n = 0 then s
  else if n = 1 then
    if isDev line then s.modMemDie (dieOf line) fun m => { m with corrected := m.corrected + 1 }
    else
      let s := { s with phys := { s.phys with flips := Tab.del line s.phys.flips } }
      s.modCluster (sramCluster line) fun c => { c with corrected := c.corrected + 1 }
  else if s.isPoison line then s
  else (s.poisonLine line).machineCheck 2 point (s.siteOf line) (paOf line)

/-- Where the errors of the other arrays of R48 are listed: a line of a cluster cache, of a core's data cache, and of the save area
of a process in a register cache. -/
def cacheArray (cl line : Nat) : Nat := 2 ^ 64 * (1 + cl) + line
def dcacheArray (cl core line : Nat) : Nat := 2 ^ 64 * (1024 + 32 * cl + core) + line
def regArray (p : Pid) (line : Nat) : Nat := 2 ^ 80 + 256 * p + line

/-- SECDED of a cluster's array where a line is read (R48): one bit is corrected in place and counted, more poison the line, which
is answered. -/
def State.eccArray (s : State) (cl key point pa : Nat) : Bool × State :=
  let n := Tab.getD key s.phys.flips 0
  if n = 0 then (false, s)
  else
    let s := { s with phys := { s.phys with flips := Tab.del key s.phys.flips } }
    if n = 1 then (false, s.modCluster cl fun c => { c with corrected := c.corrected + 1 })
    else (true, s.machineCheck 2 point (s.clusterSite cl) pa)

/-! ## The memory-side cache (R47) -/

/-- Lines it holds: 64 MiB. -/
def mscLines : Nat := 2 ^ 20

/-- Looks a line up and allocates it; a full cache gives up a line of free choice. -/
def State.mscTouch (s : State) (line : Nat) : Bool × State :=
  let d := dieOf line
  let l := (s.memDie d).msc
  if l.contains line then (true, s)
  else if l.length < mscLines then (false, s.modMemDie d fun m => { m with msc := insertNat line l })
  else
    let (k, s) := s.freeNat
    (false, s.modMemDie d fun m => { m with msc := insertNat line (l.eraseIdx (k % mscLines)) })

/-! ## Line contents -/

/-- A line's bytes as they stand. -/
def State.lineData (s : State) (line : Nat) : Line := BitVec.ofNat 512 (natLE (Memory.read s.mem line 64))

/-- Stores the bytes of `data` that `mask` names, from byte n downward. -/
def Memory.writeMask (m : Memory) (k : Nat) (data : Line) (mask : BitVec 64) : Nat → Memory
  | 0 => m
  | n + 1 =>
    let m := if mask.getLsbD n then Memory.put (k + n) (data.extractLsb' (8 * n) 8) m else m
    Memory.writeMask m k data mask n

def fullMask : BitVec 64 := BitVec.allOnes 64

/-- Twin mode: the line's new contents enter H of its local die (R449). -/
def State.twinNote (s : State) (line : Nat) (data : Line) : State :=
  if s.phys.twin.isNone ∨ ¬ isDev line then s
  else
    let h := crc32c (bytesLE 8 (line % 2 ^ 36) ++ bytesLE 64 data.toNat)
    { s with twinH := Tab.put (dieOf line) (Tab.getD (dieOf line) s.twinH 0 ^^^ h) s.twinH }

/-- Writes bytes of one line at its home (R50, R53): a whole line gets a fresh code and loses its poison; a partial write
verifies the old line at point 9 and leaves poison. -/
def State.storeLine (s : State) (line : Nat) (data : Line) (mask : BitVec 64) : State :=
  if mask = 0 then s
  else
    let whole := mask = fullMask
    let s := if whole then { s with poison := s.poison.erase line } else s.verifyAt 9 (line := line)
    let s := { s with
      mem := Memory.writeMask s.mem line data mask 64
      codeErr := Tab.del line s.codeErr
      phys := if whole then { s.phys with flips := Tab.del line s.phys.flips } else s.phys }
    s.twinNote line (s.lineData line)

/-! ## REDF.add slots (R294 to R296) -/

/-- A float operand's format. -/
def fmtOf (b : Bool) : Fmt := if b then bf16 else fp32

/-- a + b in a format, rounded RNE, NaN canonical, no flags (R219, R294). -/
def redfAdd (b : Bool) (x y : Nat) : Nat :=
  let f := fmtOf b
  (f.round false .rne (Val.add false (f.decode x) (f.decode y)).1).1

def redBytes (b : Bool) : Nat := if b then 2 else 4

/-- The value of `n` bytes at a location. -/
def State.natAt (s : State) (loc n : Nat) : Nat := natLE (Memory.read s.mem loc n)

/-- Writes an element at a home, whatever its slots. -/
def State.storeElt (s : State) (loc n v : Nat) : State :=
  let off := loc % 64
  s.storeLine (lineOf loc) (BitVec.ofNat 512 (v % 2 ^ (8 * n) * 2 ^ (8 * off))) (BitVec.ofNat 64 ((2 ^ n - 1) * 2 ^ off))

/-- Insertion of a slot in ascending contributor number. -/
def insertSlot (r : RedSlot) : List RedSlot → List RedSlot
  | [] => [r]
  | q :: l => if r.cn < q.cn then r :: q :: l else q :: insertSlot r l

/-- Slots in ascending contributor number. -/
def sortSlots : List RedSlot → List RedSlot
  | [] => []
  | r :: l => insertSlot r (sortSlots l)

/-- Folds one location (R295). -/
def State.foldLoc (s : State) (loc : Nat) : State :=
  match sortSlots (s.redSlots.filter fun r => r.loc = loc) with
  | [] => s
  | r :: l =>
    let v := (r :: l).foldl (fun v q => redfAdd r.bf16 v q.val.toNat) (s.natAt loc (redBytes r.bf16))
    ({ s with redSlots := s.redSlots.filter fun q => q.loc ≠ loc }).storeElt loc (redBytes r.bf16) v

/-- Folds every location of a line. -/
def State.foldLine (s : State) (line : Nat) : State :=
  ((s.redSlots.filter fun r => lineOf r.loc = line).map (·.loc)).foldl State.foldLoc s

/-! ## Reading and writing lines at home -/

/-- Brings a line of memory out of its array: the memory-side cache is looked up, ECC and code are checked. Answers whether the
cache held it. -/
def State.bringIn (s : State) (line : Nat) : Bool × State :=
  if isDev line then
    let (hit, s) := s.mscTouch line
    (hit, if hit then s.verifyAt 2 line else (s.eccAt 1 line).verifyAt 1 line)
  else (true, (s.eccAt 5 line).verifyAt 5 line)

/-- Brings a line of memory to its reader at the home, its slots folded. -/
def State.touchHome (s : State) (line : Nat) : Bool × State := (s.foldLine line).bringIn line

/-- A device page's move in progress at its old home. -/
def State.moveOf (s : State) (pa : Nat) : Option Move :=
  match (s.memDie (dieOf pa)).move with
  | some m => if isDev pa && m.old / 2 ^ 16 = pa / 2 ^ 16 then some m else none
  | none => none

/-- Whether a physical address lies in the new frame of a move whose leaf is already rewritten: its held requests are not yet
performed there (R84). -/
def State.moveLands (s : State) (pa : Nat) : Bool :=
  s.memdies.any fun e => match e.2.move with
    | some m => 4 ≤ m.step && m.new / 2 ^ 16 = pa / 2 ^ 16
    | none => false

/-- A request joins those that a move holds at the old home (R83). -/
def State.hold (s : State) (loc : Nat) (m : Move) (r : HeldReq) : State :=
  s.modMemDie (dieOf loc) fun d => { d with move := some { m with held := m.held ++ [r] } }

/-- A write is performed at its home: a partial one brings the old line in first (R47, R48, R50). -/
def State.performWrite (s : State) (line : Nat) (data : Line) (mask : BitVec 64) (poison : Bool := false) : State :=
  let s := s.foldLine line
  let s := if mask ≠ fullMask then (s.bringIn line).2 else if isDev line then (s.mscTouch line).2 else s
  let s := s.storeLine line data mask
  if poison then s.poisonLine line else s

/-- A write that reaches a line's home, from a cluster and for an access to acknowledge, if any: held while the line's page moves
(R83), and performed otherwise. -/
def State.homeWriteFor (s : State) (cl : Option Nat) (ack : Option (Pid × Nat)) (line : Nat) (data : Line) (mask : BitVec 64)
    (poison : Bool := false) : State :=
  match s.moveOf line with
  | some m => s.hold line m (.write cl ack line data mask poison)
  | none => s.performWrite line data mask poison

/-- A write that no process waits for. -/
def State.homeWrite (s : State) (line : Nat) (data : Line) (mask : BitVec 64) (poison : Bool := false) : State :=
  s.homeWriteFor none none line data mask poison

/-- Whether a move holds a write that came from a cluster (R84), of a line or of any. -/
def HeldReq.ofCluster (cl : Nat) (line : Option Nat) : HeldReq → Bool
  | .write c _ l _ _ _ => c = some cl && line.all fun k => k = l
  | _ => false
def State.heldOf (s : State) (cl : Nat) (line : Option Nat) : Bool :=
  s.memdies.any fun e => e.2.move.any fun m => m.held.any (HeldReq.ofCluster cl line)

/-- A walker's OR into a page-table entry at its home (R71). -/
def State.orEntry (s : State) (loc : Nat) (b : Word) : State :=
  match s.moveOf loc with
  | some m => s.hold loc m (.orBits loc b)
  | none =>
    let s := (s.touchHome (lineOf loc)).2
    s.storeElt loc 8 (Memory.read64 s.mem loc ||| b).toNat

/-- A byte string at an address as line pieces: line, bytes in place, mask. Fuel counts lines. -/
def pieces (a : Nat) (bs : List Byte) : Nat → List (Nat × Line × BitVec 64)
  | 0 => []
  | n + 1 =>
    if bs = [] then []
    else
      let off := a % 64
      let k := min bs.length (64 - off)
      (a - off, BitVec.ofNat 512 (natLE (bs.take k) * 2 ^ (8 * off)), BitVec.ofNat 64 ((2 ^ k - 1) * 2 ^ off)) ::
        pieces (a + k) (bs.drop k) n

/-- Writes bytes at home, line by line in address order. -/
def State.homeWriteBytes (s : State) (a : Nat) (bs : List Byte) : State :=
  (pieces a bs (bs.length / 64 + 2)).foldl (fun s p => s.homeWrite p.1 p.2.1 p.2.2) s

/-- Lines that a byte range touches; fuel counts lines. -/
def linesOf (a len : Nat) : List Nat :=
  if len = 0 then [] else (List.range ((a % 64 + len + 63) / 64)).map fun i => lineOf a + 64 * i

/-- Touches every line of a range at home; answers whether any is poisoned. -/
def State.touchRange (s : State) (a len : Nat) : Bool × State :=
  (linesOf a len).foldl (fun r l => let t := (r.2.touchHome l).2; (r.1 || t.isPoison l, t)) (false, s)

/-- Reads bytes at home: the bytes and whether a line is poisoned. -/
def State.homeRead (s : State) (a len : Nat) : List Byte × Bool × State :=
  let (p, s) := s.touchRange a len
  (Memory.read s.mem a len, p, s)

/-! ## Remote-access counters and candidates (R79, R82) -/

/-- Panel quadrant of a site. -/
def State.quadrant (s : State) (site : Nat) : Nat :=
  (if s.rows / 2 ≤ site / 8 then 2 else 0) + (if 4 ≤ site % 8 then 1 else 0)

/-- TGTq of MIGCTL. -/
def migTarget (ctl : Word) (q : Nat) : Nat := bits ctl (36 + 5 * q) (32 + 5 * q)

/-- Whether the leaf that a reverse-map slot names maps the frame now, without NOMIG and without HOST (R82). -/
def State.movable (s : State) (r : RevMap) (frame : Nat) : Bool :=
  let e := Memory.read64 s.mem r.leafPa
  bit e 0 && bit e 1 && bits e 51 16 * 65536 = frame && !bit e 9 && !bit e 11

/-- A request of a core or engine of this device arrives at a line's home. A frame that is queued already, or that is moving, is not
queued again: DESIGN CHOICE, log entry 64. -/
def State.racHit (s : State) (who : Requester) (pa : Nat) : State :=
  match who with
  | .site site =>
    let d := dieOf pa
    let q := s.quadrant site
    let k := 4 * frameOf pa + q
    let m := s.memDie d
    let c := Tab.getD k m.rac 0
    let c' := if c = 255 then c else c + 1
    let s := s.setMemDie d { m with rac := Tab.put k c' m.rac }
    let ctl := s.reg 57
    let home := Tab.getD (4 * frameOf pa + s.quadrant (memSite d)) (s.memDie d).rac 0
    let frame := pa / 2 ^ 16 * 2 ^ 16
    match Tab.get? (frameOf pa) m.rev with
    | some r =>
      if bit ctl 0 ∧ bits ctl 15 8 ≤ c'.toNat ∧ home < c' ∧ migTarget ctl q ≠ d ∧ ¬ r.aliased ∧ s.movable r frame ∧
          m.cands.length < 16 ∧ ¬ (m.cands.any fun e => e.1 = frame) ∧ ¬ (m.move.any fun v => v.old = frame) then
        let s := s.modMemDie d fun m => { m with cands := m.cands ++ [(frame, q)] }
        if m.move.isNone then s.sched 1 (.pageMoveStart d) else s
      else s
    | none => s
  | _ => s

/-! ## Atomics and reductions at their home (R286 to R296) -/

/-- The integer operations of R288 on w-bit values. -/
def aopApply (op : AOp) (w old x : Nat) : Nat :=
  match op with
  | .add => (old + x) % 2 ^ w
  | .and => Nat.land old x
  | .or => Nat.lor old x
  | .xor => Nat.xor old x
  | .min => if toSigned w x < toSigned w old then x else old
  | .max => if toSigned w old < toSigned w x then x else old
  | .minn => Nat.min old x
  | .maxn => Nat.max old x
  | .swap => x

/-- REDF.min and REDF.max on a location (R293). -/
def redfMinMax (b : Bool) (fop : Fop) (old x : Nat) : Nat :=
  let f := fmtOf b
  let u := f.decode old
  let v := f.decode x
  if u.isNan || v.isNan then f.canonNan
  else
    let lt := match Val.cmp v u with
      | .lt => true
      | .gt => false
      | .eq => v.isZero && v.sign && !u.sign
    let gt := match Val.cmp v u with
      | .gt => true
      | .lt => false
      | .eq => v.isZero && !v.sign && u.sign
    match fop with
    | .min => if lt then x else old
    | .max => if gt then x else old
    | .add => old

/-- Bytes an operation covers. -/
def opBytes : HomeOp → Nat
  | .amo _ w _ | .cas w _ _ | .red _ w _ => if w then 8 else 4
  | .redf _ b _ _ => redBytes b

/-- Slots a home may hold (R296). -/
def slotLimit (loc : Nat) : Nat := if isDev loc then 262144 else 4096
/-- Slots in use at a location's home. -/
def State.slotsUsed (s : State) (loc : Nat) : Nat :=
  (s.redSlots.filter fun r => if isDev loc then isDev r.loc && dieOf r.loc = dieOf loc
    else isSram r.loc && sramCluster r.loc = sramCluster loc).length

/-- A REDF.add arrives at its home (R294, R296). -/
def State.redfArrive (s : State) (loc : Nat) (b : Bool) (x cn : Nat) : State :=
  let s := if s.redSlots.any fun r => r.loc = loc && r.bf16 != b then s.foldLoc loc else s
  if s.redSlots.any fun r => r.loc = loc && r.cn = cn then
    { s with redSlots := s.redSlots.map fun r =>
        if r.loc = loc ∧ r.cn = cn then { r with val := BitVec.ofNat 32 (redfAdd b r.val.toNat x) } else r }
  else if s.slotsUsed loc < slotLimit loc then
    { s with redSlots := s.redSlots ++ [{ loc := loc, cn := cn, bf16 := b, val := BitVec.ofNat 32 x }] }
  else
    let s := s.foldLoc loc
    let s := s.storeElt loc (redBytes b) (redfAdd b (s.natAt loc (redBytes b)) x)
    if isDev loc then s.countDevice 192 else s.countCluster (sramCluster loc) 128

/-- Performs an operation at its home: the old value, or none when its line is poisoned and stays unchanged (R290, R297). -/
def State.homeAtomic (s : State) (loc : Nat) (op : HomeOp) : Option Word × State :=
  let line := lineOf loc
  match op with
  | .redf .add b x cn =>
    let s := (s.bringIn line).2
    if s.isPoison line then (none, s) else (some 0, s.redfArrive loc b (x.toNat % 2 ^ (8 * redBytes b)) cn)
  | _ =>
    let s := (s.touchHome line).2
    if s.isPoison line then (none, s)
    else
      let n := opBytes op
      let old := s.natAt loc n
      let new := match op with
        | .amo a _ x | .red a _ x => aopApply a (8 * n) old (x.toNat % 2 ^ (8 * n))
        | .cas _ e v => if old = e.toNat % 2 ^ (8 * n) then v.toNat % 2 ^ (8 * n) else old
        | .redf f b x _ => redfMinMax b f old (x.toNat % 2 ^ (8 * n))
      let wrote : Bool := match op with | .cas _ e _ => old = e.toNat % 2 ^ (8 * n) | _ => true
      (some (BitVec.ofNat 64 old), if wrote then s.storeElt loc n new else s)

/-! ## Routes (R60 to R62) -/

/-- The port a router uses toward a site: the table's, or dimension order. 1 north, 2 east, 3 south, 4 west, 0 arrived. -/
def State.portToward (s : State) (site dst : Nat) : Nat :=
  if site = dst then 0
  else
    let e := (Tab.getD (64 * site + dst) s.routes 0).toNat
    if e ≠ 0 then e
    else if site % 8 < dst % 8 then 2
    else if dst % 8 < site % 8 then 4
    else if site / 8 < dst / 8 then 1
    else 3

/-- The site beyond a port, if the panel has one. -/
def State.beyond (s : State) (site port : Nat) : Option Nat :=
  if port = 1 then (if site / 8 + 1 < s.rows then some (site + 8) else none)
  else if port = 2 then (if site % 8 < 7 then some (site + 1) else none)
  else if port = 3 then (if 8 ≤ site then some (site - 8) else none)
  else if port = 4 then (if 0 < site % 8 then some (site - 1) else none)
  else none

/-- Whether network `vn1` allows a hop through a port after the hops so far; `turned` as in `MeshFlit`. -/
def turnOk (vn1 turned : Bool) (port : Nat) : Bool := if vn1 then !(port = 2 && turned) else !(port = 4 && turned)
/-- Whether a hop sets `turned`: any but west on VN0, any but east on VN1. -/
def turnsAt (vn1 : Bool) (port : Nat) : Bool := if vn1 then port ≠ 2 else port ≠ 4

/-- Hops a packet takes, or none when it is returned undeliverable. -/
def State.hopsFrom (s : State) (vn1 : Bool) (dst : Nat) : Nat → Nat → Bool → Nat → Option Nat
  | 0, site, _, n => if site = dst then some n else none
  | k + 1, site, turned, n =>
    if site = dst then some n
    else
      let port := s.portToward site dst
      if !turnOk vn1 turned port then none
      else match s.beyond site port with
        | none => none
        | some next => s.hopsFrom vn1 dst k next (turned || turnsAt vn1 port) (n + 1)

/-- The site whose router refuses a packet, or where it arrives. -/
def State.stopFrom (s : State) (vn1 : Bool) (dst : Nat) : Nat → Nat → Bool → Nat
  | 0, site, _ => site
  | k + 1, site, turned =>
    if site = dst then site
    else
      let port := s.portToward site dst
      if !turnOk vn1 turned port then site
      else match s.beyond site port with
        | none => site
        | some next => s.stopFrom vn1 dst k next (turned || turnsAt vn1 port)

/-- Hops of a packet from one site to another, at most thirty (R62). -/
def State.routeHops (s : State) (src dst : Nat) : Option Nat := s.hopsFrom (decide (dst % 8 < src % 8)) dst 30 src false 0

/-- The port that faces a port. -/
def opposite (port : Nat) : Nat := if port = 1 then 3 else if port = 2 then 4 else if port = 3 then 1 else if port = 4 then 2 else 0

/-- The port by which a packet enters the die it is for (R125): 0 local, 1 north, 2 east, 3 south, 4 west. Fuel counts hops. -/
def State.enterPort (s : State) (dst : Nat) : Nat → Nat → Nat → Nat
  | 0, _, port => port
  | k + 1, site, port =>
    if site = dst then port
    else match s.beyond site (s.portToward site dst) with
      | none => port
      | some next => s.enterPort dst k next (opposite (s.portToward site dst))

/-- The site whose router refuses a packet between two sites, when one does (R54, R62). -/
def State.refusedAt (s : State) (src dst : Nat) : Option Nat :=
  if (s.routeHops src dst).isSome then none else some (s.stopFrom (decide (dst % 8 < src % 8)) dst 30 src false)

/-- The site whose router refuses a request to a home or its reply. -/
def State.tripRefused (s : State) (src dst : Nat) : Option Nat :=
  match s.refusedAt src dst with | some x => some x | none => s.refusedAt dst src

/-! ## PLAT (R64) -/

/-- Saturation to 32 bits. -/
def sat32 (n : Nat) : Nat := min n (2 ^ 32 - 1)

/-- PLAT without its reserved bits. -/
def platMask : Word := 0x83FFFFFCFFFFFFFF

/-- The value PLAT takes from a reply. -/
def platWord (p : PlatInfo) : Word :=
  field 1 63 ||| field (p.die % 32) 53 ||| field (p.minh % 32) 48 ||| field (p.reqh % 64) 42 ||| field (p.rsph % 64) 36 |||
    field (p.src % 4) 34 ||| field (sat32 p.lat) 0

def State.setPlat (s : State) (p : Pid) (i : PlatInfo) : State :=
  s.modProc p fun pr => { pr with ctx := { pr.ctx with plat := platWord i } }

/-- What a reply from a memory die records: the latency is the unloaded one and a free load (log entry 9). -/
def State.homePlat (s : State) (site die : Nat) (req rsp : Nat) (hit : Bool) : PlatInfo × State :=
  let (load, s) := s.freeNat
  ({ die := die, minh := hopsBetween site (memSite die), reqh := req, rsph := rsp, src := if hit then 0 else 1
     lat := 20 + 15 * (req + rsp) + (if hit then 40 else 110) + load }, s)

end Sys2Proof.Machine
end

