-- ==== Sys2Proof/Machine/Links.lean ====
section
/-! DEFINITION. Leaving the device: Marrun links, routes and flits (R104 to R111), egress queues and merging (R117 to R119), and the
ports through which requests to other devices and to the host go. -/

namespace Sys2Proof.Machine

/-- Space of a global address (R43). -/
def spaceOf (a : Word) : Nat := bits a 63 62

/-! ## Links (R103 to R106)

A local link has its member offset 1 to 31 as its number; fibre pair j has 32 + j. -/

/-- Border memory dies, and those of the south and north rows. -/
def State.borders (s : State) : List Nat :=
  if s.phys.part = .half then [0, 1, 2, 3, 4, 11, 12, 13, 14, 15] else [0, 1, 2, 3, 4, 11, 12, 19, 20, 27, 28, 29, 30, 31]
def State.fibreDies (s : State) : List Nat :=
  if s.phys.part = .half then [0, 1, 2, 3, 12, 13, 14, 15] else [0, 1, 2, 3, 28, 29, 30, 31]

/-- The memory die on which a link terminates. -/
def State.linkDie (s : State) (l : Nat) : Nat :=
  if l < 32 then s.borders.getD ((l - 1) % s.borders.length) 0 else s.fibreDies.getD ((l - 32) / 4) 0

/-- Whether a link is up; a fibre pair is also connected (R105) and its part has optics (R3). -/
def State.usable (s : State) (l : Nat) : Bool :=
  (s.link l).up && (l < 32 || (bit (s.reg (96 + l)) 63 && !Part.isE s.phys.part))

end Sys2Proof.Machine

namespace Sys2Proof

open Machine

/-! ## Flits (R107) -/

/-- Flits of a packet: three lines each, and one for a packet without lines. -/
def Packet.flits (pk : Packet) : Nat := max 1 ((pk.lines.length + 2) / 3)

/-- A virtual channel's number: the index of the hop, plus 5 in the reply class (R106). -/
def channel (rep : Bool) (hop : Nat) : Nat := hop % 5 + 5 * rep.toNat
def Packet.chan (pk : Packet) : Nat := channel pk.rep pk.hop
def MarrunFlit.chan (f : MarrunFlit) : Nat := channel f.rep f.vc.toNat

/-- Bytes 0 to 251 of a flit's layout: link word with KIND, bytes 8 to 39, bytes 40 to 55, three lines, four zero bytes. -/
def flitLayout (linkWord : Nat) (mid codes : List Byte) (ls : List Line) : List Byte :=
  bytesLE 8 linkWord ++ mid ++ codes ++ ((List.range 3).flatMap fun i => bytesLE 64 (ls.getD i 0).toNat) ++ bytesLE 4 0

/-- Bytes 40 to 55: the codes, the valid lines and the poison bits. -/
def codeBytes (ls : List SentLine) : List Byte :=
  ((List.range 3).flatMap fun i => bytesLE 4 (match ls[i]? with | some l => l.2.1.toNat | none => 0)) ++
    bytesLE 4 ((List.range 3).foldl (fun n i => match ls[i]? with
      | some l => n + 2 ^ i + (if l.2.2 then 2 ^ (3 + i) else 0)
      | none => n) 0)

/-- A data flit's bytes 0 to 251. -/
def MarrunFlit.bytes (f : MarrunFlit) : List Byte :=
  flitLayout (f.seq.toNat + 2 ^ 12 * f.vc.toNat + 2 ^ 15 * f.rep.toNat + 2 ^ 18 * f.head.toNat + 2 ^ 19 * f.tail.toNat)
    (bytesLE 32 (if f.head then f.hdr.toNat else 0)) (codeBytes f.lines) (f.lines.map fun l => l.1)

/-- An acknowledgement flit's bytes 0 to 251: KIND 1, BASE, MAP and ten credit returns. -/
def ackBytes (base : BitVec 12) (map : BitVec 64) (credits : List Nat) : List Byte :=
  flitLayout (2 ^ 16) (bytesLE 8 base.toNat ++ bytesLE 8 map.toNat ++ ((List.range 10).flatMap fun i => bytesLE 1 (credits.getD i 0)) ++
    bytesLE 6 0) (bytesLE 16 0) []

/-- The flit check holds. -/
def MarrunFlit.ok (f : MarrunFlit) : Bool := crc32c f.bytes = f.check

/-- The flits of a packet, not yet numbered. Flit `i` is the first; fuel counts flits. -/
def Packet.split (pk : Packet) : Nat → Nat → List SentLine → List MarrunFlit
  | 0, _, _ => []
  | n + 1, i, ls =>
    { seq := 0, vc := BitVec.ofNat 3 (pk.hop % 5), rep := pk.rep, head := decide (i = 0), tail := decide (n = 0)
      hdr := if i = 0 then Config.packetHeader { pk with lines := [] } else 0, lines := ls.take 3, check := 0
      packet := if i = 0 then some { pk with lines := [] } else none } :: Packet.split pk n (i + 1) (ls.drop 3)

/-- A line that is made here is sent with a fresh code. -/
def madeLine (l : Line) (poison : Bool) : SentLine := (l, lineCode l, poison)

/-- The lines that travel with a request. -/
def RemoteReq.lines : RemoteReq → List SentLine
  | .storeLine d _ x => [madeLine d x]
  | _ => []

end Sys2Proof

namespace Sys2Proof.Machine

/-- A line of memory as it is sent: with the code it carries and its poison. -/
def State.lineOut (s : State) (line : Nat) : SentLine :=
  (s.lineData line, lineCode (s.lineData line) ^^^ Tab.getD line s.codeErr 0, s.isPoison line)

/-! ## Routes (R106) -/

/-- Occupancy of a link's queue, in flits. -/
def State.occ (s : State) (l : Nat) : Nat := ((s.link l).egress.map fun e => e.pk.flits).sum + (s.link l).ready.length

/-- First links toward a group, in the order that settles a tie: own pairs, then members that hold a pair. -/
def State.ownPairs (s : State) (g : Nat) : List Nat :=
  (List.range 32).filterMap fun j => if s.usable (32 + j) && bits (s.reg (128 + j)) 5 0 = g then some (32 + j) else none
def State.toward (s : State) (g : Nat) : List Nat :=
  s.ownPairs g ++ s.phys.gmap.filterMap fun e => if e.2.2 = g && s.usable e.2.1 then some e.2.1 else none

/-- The least occupied link, with what goes with it, the earlier on a tie. -/
def State.leastOcc {α : Type} (s : State) : List (Nat × α) → Option (Nat × α)
  | [] => none
  | l :: ls => match s.leastOcc ls with
    | some k => if s.occ k.1 < s.occ l.1 then some k else some l
    | none => some l

/-- The least occupied link toward a group. -/
def State.linkTo (s : State) (g : Nat) : Option Nat := (s.leastOcc ((s.toward g).map fun l => (l, ()))).map fun e => e.1

/-- The local link to a member of the own group. -/
def State.localLink (s : State) (dst : Nat) : Option Nat :=
  let d := (dst % 32 + 32 - s.dev % 32) % 32
  if s.usable d then some d else none

/-- The route of a packet injected here: its first link, and the intermediate group of a non-minimal one. -/
def State.chooseRoute (s : State) (dst : Nat) : Option (Nat × Option Nat) :=
  let g := dst / 32
  let own := s.dev / 32
  if g = own then (s.localLink dst).map fun l => (l, none)
  else
    let others := ((List.range 64).filter fun h => h ≠ own && h ≠ g).filterMap fun h => (s.linkTo h).map fun l => (l, some h)
    match s.linkTo g, s.leastOcc others with
    | some a, some b => if s.occ a ≤ 2 * s.occ b.1 then some (a, none) else some b
    | some a, none => some (a, none)
    | none, b => b

/-- The next link of a packet in transit: a local link in the group it is for, else a pair toward the next group of its route, this
device's own where it has one. The spec gives the source no map of other groups: DESIGN CHOICE, log entry 67. -/
def State.onward (s : State) (pk : Packet) : Option (Nat × Option Nat) :=
  let own := s.dev / 32
  let via := pk.via.filter fun h => h ≠ own
  let g := via.getD (pk.dst / 32)
  if 4 ≤ pk.hop then none
  else if g = own then (s.localLink pk.dst).map fun l => (l, none)
  else
    let l := match s.leastOcc ((s.ownPairs g).map fun l => (l, ())) with
      | some e => some e.1
      | none => s.linkTo g
    l.map fun l => (l, via)

/-! ## Merging (R117, R118) -/

/-- Merge records of a device (R118). -/
def mergeRecords : Nat := 256

/-- The tag under which a reply comes back: what the access was (0 load or copy, 1 store, 2 AMO or CAS, 3 reduction, 4 a merge record
in the process's place, 5 a write-back), its process and its number. -/
def replyTag (kind pid id : Nat) : Nat := kind + 8 * (pid + 2 ^ 32 * id)

/-- Whether an operation of R286 answers with a value. -/
def answers : HomeOp → Bool | .amo _ _ _ | .cas _ _ _ => true | _ => false

/-- The merged operation of two, the first of them arrived first, when their forms allow it. -/
def mergeOps (det : Bool) : HomeOp → HomeOp → Option HomeOp
  | .amo a w x, .amo b v y =>
    let n := if w then 64 else 32
    if a = b ∧ w = v ∧ a ≠ .swap then some (.amo a w (BitVec.ofNat 64 (aopApply a n (x.toNat % 2 ^ n) (y.toNat % 2 ^ n)))) else none
  | .red a w x, .red b v y =>
    let n := if w then 64 else 32
    if a = b ∧ w = v then some (.red a w (BitVec.ofNat 64 (aopApply a n (x.toNat % 2 ^ n) (y.toNat % 2 ^ n)))) else none
  | .redf f b x cn, .redf g c y _ =>
    let n := 8 * redBytes b
    let u := x.toNat % 2 ^ n
    let v := y.toNat % 2 ^ n
    if f = g ∧ b = c ∧ (f ≠ .add ∨ !det) then
      some (.redf f b (BitVec.ofNat 64 (if f = .add then redfAdd b u v else redfMinMax b f u v)) cn)
    else none
  | _, _ => none

/-- The enabled reduction window that holds an address. -/
def State.redWindow (s : State) (addr : Word) : Option Word :=
  ((List.range 4).map fun n => s.reg (80 + n)).find? fun w =>
    bit w 63 && spaceOf addr = 1 && bits addr 61 21 / 2 ^ bits w 47 44 = bits w 40 0 / 2 ^ bits w 47 44

/-- How long a packet may wait for a partner, in cycles, and DET of its window; none when it cannot merge. -/
def State.mergeWait (s : State) (pk : Packet) : Option (Nat × Bool) :=
  match pk.body with
  | .access addr _ _ (.atomic op) =>
    match s.redWindow addr with
    | some w => if (mergeOps (bit w 62) op op).isSome then some (nsCycles (16 * bits w 51 48), bit w 62) else none
    | none => none
  | _ => none

/-- Whether a packet of the queue still waits for a partner. -/
def State.holding (s : State) (e : Waiting) : Bool := s.cycles < e.hold

/-! ## Sending (R106, R108) -/

/-- LNKRTO in cycles: 2 µs of TIMEBASE (R110). -/
def lnkrto : Nat := 2400

/-- A credit for a channel is at hand. -/
def State.credit (s : State) (l c : Nat) : Bool := Tab.getD c (s.link l).used 0 < s.phys.vcFlits

/-- Transmits a flit of a packet under the next number of its link, and starts the retry timer when it does not run. -/
def State.transmit (s : State) (l : Nat) (pk : Packet) (f : MarrunFlit) : State :=
  let k := s.link l
  let f := { f with seq := k.nextSeq }
  let f := { f with check := crc32c f.bytes }
  let s := s.modLink l fun k => { k with
    nextSeq := k.nextSeq + 1
    used := Tab.put f.chan (Tab.getD f.chan k.used 0 + 1) k.used
    sent := k.sent ++ [{ flit := f, pk := pk, resends := 0, lastTx := s.cycles, again := none, got := false }] }
  let s := if s.queue.any fun q => q.2 = .lnkrtoExpiry l then s else s.sched lnkrto (.lnkrtoExpiry l)
  s.putOut (.flit l f)

/-- One step of a link's sender while fewer than 128 flits lie unacknowledged: a flit whose channel has a credit goes, or the next
packet of the queue breaks up. A packet stays in the queue, where it may merge, until its channel is free. -/
def State.pumpOnce (s : State) (l : Nat) : Option State :=
  let k := s.link l
  if !k.up || 128 ≤ k.sent.length then none
  else match k.ready.find? fun e => s.credit l e.2.chan with
    | some e => some ((s.modLink l fun k => { k with ready := k.ready.erase e }).transmit l e.1 e.2)
    | none =>
      match k.egress.find? fun e => !s.holding e && s.credit l e.pk.chan && !(k.ready.any fun r => r.2.chan = e.pk.chan) with
      | some e => some (s.modLink l fun k => { k with
          egress := k.egress.erase e, ready := k.ready ++ (e.pk.split e.pk.flits 0 e.pk.lines).map fun f => (e.pk, f) })
      | none => none

/-- Sends what a link may send. Fuel counts flits and packets. -/
def State.pump (l : Nat) : Nat → State → State
  | 0, s => s
  | n + 1, s => match s.pumpOnce l with | some t => State.pump l n t | none => s

def State.sendLink (s : State) (l : Nat) : State := State.pump l (s.occ l + (s.link l).egress.length) s

/-- The waiting packet that a mergeable one meets, with the merged operation. -/
def State.partner (s : State) (l : Nat) (det : Bool) (addr : Word) (scope : Nat) (op : HomeOp) : Option (Waiting × HomeOp) :=
  (s.link l).egress.findSome? fun e =>
    match e.pk.body with
    | .access a sc _ (.atomic o) => if a = addr ∧ sc = scope then (mergeOps det o op).map fun m => (e, m) else none
    | _ => none

/-- A packet enters the egress queue of a link, and merges there with one that waits (R118). The merged packet keeps the place and
the time of the first, and its reply comes to the record; with every record in use it passes without merging. -/
def State.enqueueLink (s : State) (l : Nat) (pk : Packet) : State :=
  let alone : Nat → State := fun wait =>
    let s := s.modLink l fun k => { k with egress := k.egress ++ [{ pk := pk, hold := if wait = 0 then 0 else s.cycles + wait }] }
    if wait = 0 then s.sendLink l else s.sched wait (.mergeHoldExpiry l)
  match pk.body, s.mergeWait pk with
  | .access addr scope reply (.atomic op), some (w, det) =>
    match s.partner l det addr scope op, Tab.freeKey s.merges 0 mergeRecords with
    | some (e, o), some r =>
      let reply0 := match e.pk.body with | .access _ _ t _ => t | _ => 0
      let s : State := { s with merges := Tab.put r { op := (match e.pk.body with | .access _ _ _ (.atomic o) => o | _ => op), first := (e.pk.src, reply0), second := (pk.src, reply) } s.merges }
      let pk' : Packet := { e.pk with src := s.dev, body := .access addr scope (replyTag 4 r 0) (.atomic o) }
      s.modLink l fun k => { k with egress := k.egress.map fun x => if x = e then { e with pk := pk' } else x }
    | _, some _ => alone w
    | _, none => alone 0
  | _, _ => alone 0

/-! ## Packets that this device injects -/

/-- The packet crosses the mesh from a site to the die of its first link and enters its queue: none when no route is left, a refusing
router when the mesh does not lead there (R54, R62). -/
def State.inject (s : State) (site dst : Nat) (rep : Bool) (body : Body) (lines : List SentLine) : Except (Option Nat) State :=
  match s.chooseRoute dst with
  | none => .error none
  | some (l, via) =>
    match s.refusedAt site (memSite (s.linkDie l)) with
    | some x => .error (some x)
    | none => .ok (s.enqueueLink l { via := via, hop := 0, rep := rep, src := s.dev, dst := dst, body := body, lines := lines })

/-- Sends a packet whose loss no one here is told of; one that the mesh refuses raises its machine check. -/
def State.sendBody (s : State) (site dst : Nat) (rep : Bool) (body : Body) (lines : List SentLine) : State :=
  match s.inject site dst rep body lines with
  | .ok s => s
  | .error (some x) => s.machineCheck 4 0 x 0
  | .error none => s

/-- The site at which the links toward a device begin: where a unit that the spec gives no site puts its packets in. -/
def State.linkSite (s : State) (dst : Nat) : Nat := match s.chooseRoute dst with | some (l, _) => memSite (s.linkDie l) | none => 0

/-- Answers an access of another device. -/
def State.answerAt (s : State) (site src reply : Nat) (r : Reply) (lines : List SentLine) : State :=
  s.sendBody site src true (.answer reply r) lines

/-- No reply came: nothing for PLAT. -/
def noPlat : PlatInfo := { die := 0, minh := 0, reqh := 0, rsph := 0, src := 2, lat := 0 }

/-- A requester of this device is told of a fabric fault (R114). -/
def State.tellFault (s : State) (kind pid id k : Nat) : State :=
  if kind = 0 then s.sched 0 (.loadReply pid id (.fault 8 k 0) noPlat)
  else if kind = 1 ∨ kind = 5 then s.sched 0 (.storeAck pid id (some (k, 0)) noPlat)
  else if kind = 2 then s.sched 0 (.amoReply pid id (.fault 8 k 0) none)
  else if kind = 3 then s.sched 0 (.reductionAck pid id (some (k, 0)))
  else s

/-- Answers a contributor or requester with a fault; a merge record answers both of its own (R119). Fuel: a record's contributors
may be records. -/
def State.failTag (k : Nat) : Nat → Nat → Nat → State → State
  | 0, _, _, s => s
  | n + 1, src, tag, s =>
    if src ≠ s.dev then s.answerAt (s.linkSite src) src tag (.fault 8 k 0) []
    else if tag % 8 = 4 then
      let r := tag / 8 % 2 ^ 32
      match Tab.get? r s.merges with
      | some m =>
        let s : State := { s with merges := Tab.del r s.merges }
        State.failTag k n m.second.1 m.second.2 (State.failTag k n m.first.1 m.first.2 s)
      | none => s
    else s.tellFault (tag % 8) (tag / 8 % 2 ^ 32) (tag / 8 / 2 ^ 32) k

/-! ## Accesses that leave the device -/

/-- The port nearer a site (R11, R86); a site equally near both takes that of memory die 0: DESIGN CHOICE, log entry 66. -/
def State.cxlDie (s : State) (site : Nat) : Nat :=
  let last := if s.phys.part = .half then 15 else 31
  if hopsBetween site (memSite last) < hopsBetween site (memSite 0) then last else 0

/-- A run of bytes within a line as the masked line, and the line's address. -/
def lineReqOf (a : Word) (bs : List Byte) : Word × RemoteReq :=
  let off := a.toNat % 64
  (a - BitVec.ofNat 64 off, .storeLine (BitVec.ofNat 512 (natLE bs * 2 ^ (8 * off))) (BitVec.ofNat 64 ((2 ^ bs.length - 1) * 2 ^ off)) false)

/-- The address, the kind, process and number of its tag, scope and request, for an access that leaves the device. -/
def Output.access : Output → Option (Word × (Nat × Nat × Nat) × Nat × RemoteReq)
  | .request p id a len => some (a, (0, p, id), 0, .load len)
  | .fetch p id runs => some ((runs.headD (0, 0)).1, (0, p, id), 0,
      .fetch (runs.flatMap fun r => (List.range (r.2 / 64)).map fun i => r.1 + BitVec.ofNat 64 (64 * i)))
  | .store (some p) id a bs => some ((lineReqOf a bs).1, (1, p, id), 0, (lineReqOf a bs).2)
  | .store none id a bs => some ((lineReqOf a bs).1, (5, 0, id), 0, (lineReqOf a bs).2)
  | .storeLine (some p) id a d m x => some (a, (1, p, id), 0, .storeLine d m x)
  | .storeLine none id a d m x => some (a, (5, 0, id), 0, .storeLine d m x)
  | .atomic p id a sc op => some (a, (if answers op then 2 else 3, p, id), sc, .atomic op)
  | _ => none

/-- The access crosses the mesh from its cluster to the die of its port, which PLAT will name (R64); a mesh that does not lead there
and back returns it, and the router that refused it is named (R54, R62). -/
def State.toPort (s : State) (site kind pid id die : Nat) : Bool × State :=
  match s.tripRefused site (memSite die) with
  | none =>
    (true, if kind ≠ 5 ∧ (s.proc? pid).isSome then { s with routed := Tab.put (replyTag kind pid id) die s.routed } else s)
  | some at_ =>
    let (k, s) := s.freeNat
    (false, (s.machineCheck 4 0 at_ 0).tellFault kind pid id (k % 256))

/-- PLAT's fields that this device fixes, for the reply to an access that left it: the die, the hops to it and back (R64), and in LAT
the device's own part of the time, whatever the rest took (R476). -/
def State.portPlat (s : State) (kind pid id : Nat) (i : PlatInfo) : PlatInfo :=
  match Tab.get? (replyTag kind pid id) s.routed, s.proc? pid with
  | some die, some pr =>
    let site := s.clusterSite pr.cl
    let a := (s.routeHops site (memSite die)).getD 0
    let b := (s.routeHops (memSite die) site).getD 0
    { i with
      die := die, minh := hopsBetween site (memSite die), reqh := a, rsph := b, src := 2
      lat := max i.lat (20 + 15 * (a + b) + 60) }
  | _, _ => i

def State.unrouted (s : State) (kind pid id : Nat) : State := { s with routed := Tab.del (replyTag kind pid id) s.routed }

/-- The process number under which an access of another device goes on to the host: no process has it. -/
def relayPid : Nat := 2 ^ 32

/-- The host's answer to such an access: it goes back, with the line it brings; or the next line of a copy is looked up. A line that
the host sent poisoned is a poisoned line of this device (R114). -/
def State.relay (s : State) (pid id : Nat) (r : Reply) : State :=
  match if pid = relayPid then Tab.get? id s.relays else none with
  | none => s
  | some k =>
    let reads := decide (k.reply % 8 = 0)
    let got := match r with | .value v => if reads then k.got ++ [madeLine (v.setWidth 512) false] else [] | _ => []
    match r, k.addrs with
    | .value _, a :: as =>
      ({ s with relays := Tab.put id { k with got := got } s.relays } : State).sched 0 (.remoteAccessArrival k.src a k.reply (.fetch (a :: as)))
    | _, _ =>
      let r : Reply := match r with
        | .value v => .value (if reads then 0 else v)
        | .fault 7 _ _ => .fault 8 5 0
        | .fault c x y => .fault c x y
      ({ s with relays := Tab.del id s.relays } : State).answerAt (s.linkSite k.src) k.src k.reply r got

/-- Records a reply in PLAT (R64), unless none came. -/
def State.replyPlat (s : State) (kind pid id : Nat) (i : PlatInfo) : State :=
  let j := s.portPlat kind pid id i
  let s := s.unrouted kind pid id
  if i = noPlat then s else s.setPlat pid j

/-- Puts something out for a cluster's site: an access to another device enters a Marrun link, one to the host its CXL port. With no
route left the fabric fault is LINK. -/
def State.emitAt (s : State) (site : Nat) (o : Output) : State :=
  match o.access with
  | none => s.putOut o
  | some (a, (kind, pid, id), scope, req) =>
    if spaceOf a = 1 then
      match s.chooseRoute (bits a 61 51) with
      | none => s.tellFault kind pid id 2
      | some (l, via) =>
        match s.toPort site kind pid id (s.linkDie l) with
        | (false, s) => s
        | (true, s) => s.enqueueLink l {
            via := via, hop := 0, rep := false, src := s.dev, dst := bits a 61 51
            body := .access a scope (replyTag kind pid id) req, lines := req.lines }
    else
      match s.toPort site kind pid id (s.cxlDie site) with
      | (false, s) => s
      | (true, s) => s.putOut o

/-- Puts something out for the process it names. -/
def State.emit (s : State) (o : Output) : State :=
  let pid := match o.access with | some (_, (_, p, _), _, _) => p | none => 0
  s.emitAt (match s.proc? pid with | some pr => s.clusterSite pr.cl | none => 0) o

/-- Whether a device number is absent from the system as far as this device can tell (R114 kind 1). -/
def State.noDev (s : State) (dev : Nat) : Bool := 32 * bits s.phys.mdev 46 40 ≤ dev || s.phys.absent.contains dev

/-- Whether a device number lies outside this device's group on a part without optics (R3). -/
def State.noOptics (s : State) (dev : Nat) : Bool := Part.isE s.phys.part && dev / 32 ≠ s.dev / 32

end Sys2Proof.Machine
end

