-- ==== Sys2Proof/Machine/Xlate.lean ====
section
/-! DEFINITION. Translation (R68 to R78): page-table walks, accessed and dirty bits, the reverse map, TLBs and table caches. -/

namespace Sys2Proof.Machine

/-- What an access asks of a page: `both` is an atomic (R72). -/
inductive Acc where | read | write | fetch | both
  deriving DecidableEq, Repr

def Acc.isWrite : Acc → Bool | .write | .both => true | _ => false

/-- Kinds of R72. -/
def xForm : Nat := 1
def xNomap : Nat := 2
def xPerm : Nat := 3
def xBadpa : Nat := 4
def xPtpoison : Nat := 5

/-- Who translates: its cluster and core for the TLBs (`cl` none: no TLB), its walker, ASID and root table. -/
structure XCtx where
  cl : Option Nat
  core : Nat
  walker : Nat
  asid : BitVec 16
  root : Nat
  deriving DecidableEq, Repr

/-- Root-table address of a VMCTX value (R69). -/
def rootOf (v : Word) : Nat := bits v 42 38 * 2 ^ 47 + bits v 35 12 * 2 ^ 12
def asidOf (v : Word) : BitVec 16 := BitVec.ofNat 16 (bits v 63 48)

/-- CAPS.STKGB × 0x4000_0000 (R45). -/
def stackBytes : Nat := 48 * 2 ^ 30

/-- The rule of R45 for a physical address. -/
def State.paOk (s : State) (pa : Nat) : Bool := pa < 2 ^ 52 && dieOf pa < s.mdies && pa % 2 ^ 47 < stackBytes

/-- Index of a level in a VA, and the lowest VA bit a level's entry covers (R70). -/
def vaShift (level : Nat) : Nat := if level = 0 then 16 else 12 + 9 * level
def vaIndex (level va : Nat) : Nat := va / 2 ^ vaShift level % (if level = 0 then 32 else 512)

/-- Page size code and shift of a leaf by level. -/
def sizeShift (size : Nat) : Nat := if size = 0 then 16 else if size = 1 then 21 else 30

/-- The checks of R71 on a leaf entry. -/
def State.leafOk (s : State) (level : Nat) (e : Word) : Bool :=
  level ≤ 2 && bits e 63 52 = 0 && bits e 15 12 = 0 && !bit e 10 &&
    (let pa := bits e 51 16 * 2 ^ 16
     pa % 2 ^ vaShift level = 0 && (bit e 11 || s.paOk pa))

/-- The checks of R71 on a table entry. -/
def State.tableOk (s : State) (level : Nat) (e : Word) : Bool :=
  level ≠ 0 && bits e 63 52 = 0 && bits e 7 2 = 0 &&
    (let pa := bits e 51 8 * 2 ^ 8
     pa % (if level = 1 then 256 else 4096) = 0 && s.paOk pa)

def State.tableCache (s : State) (w : Nat) : List WalkE := Tab.getD w s.walkers []

/-- Adds to a walker's table cache of 256 entries; the victim of a full cache is free. -/
def State.fillTable (s : State) (w : Nat) (e : WalkE) : State :=
  let l := s.tableCache w
  if l.length < 256 then { s with walkers := Tab.put w (e :: l) s.walkers }
  else
    let (k, s) := s.freeNat
    { s with walkers := Tab.put w (e :: l.eraseIdx (k % 256)) s.walkers }

/-- A usable entry met by a walk: a leaf, or a table entry. -/
inductive WalkStep where
  | leaf (e : Word) (pa : Nat)
  | table (next : Nat)

/-- Reads and checks the entry of one level (R71), in the walker's table cache or at its home. -/
def State.walkEntry (s : State) (x : XCtx) (va lv tbl : Nat) : Except Nat WalkStep × State :=
  let pa := tbl + 8 * vaIndex lv va
  match (s.tableCache x.walker).find? fun e => e.asid = x.asid && e.level = lv && e.va = va / 2 ^ vaShift lv with
  | some e => (.ok (.table (bits e.entry 51 8 * 2 ^ 8)), s)
  | none =>
    if !s.paOk tbl then (.error xBadpa, s)
    else
      let s := (s.touchHome (lineOf pa)).2
      if s.isPoison (lineOf pa) then (.error xPtpoison, s)
      else
        let e := Memory.read64 s.mem pa
        if !bit e 0 then (.error xNomap, s)
        else if bit e 1 then (if s.leafOk lv e then .ok (.leaf e pa) else .error xBadpa, s)
        else if !s.tableOk lv e then (.error xBadpa, s)
        else (.ok (.table (bits e 51 8 * 2 ^ 8)),
          s.fillTable x.walker { asid := x.asid, va := va / 2 ^ vaShift lv, level := lv, entry := e })

/-- A walk from a level down: the leaf with its size code, or the kind of R72. -/
def State.walkFrom (x : XCtx) (va : Nat) : Nat → Nat → State → Except Nat TlbE × State
  | 0, tbl, s =>
    match s.walkEntry x va 0 tbl with
    | (.error k, s) => (.error k, s)
    | (.ok (.table _), s) => (.error xBadpa, s)
    | (.ok (.leaf e pa), s) => (.ok { asid := x.asid, va := va / 2 ^ 16, size := 0, leaf := e, leafPa := pa }, s)
  | n + 1, tbl, s =>
    match s.walkEntry x va (n + 1) tbl with
    | (.error k, s) => (.error k, s)
    | (.ok (.table next), s) => State.walkFrom x va n next s
    | (.ok (.leaf e pa), s) =>
      (.ok { asid := x.asid, va := va / 2 ^ sizeShift (n + 1), size := n + 1, leaf := e, leafPa := pa }, s)

/-- The whole walk from the root. -/
def State.walk (s : State) (x : XCtx) (va : Nat) : Except Nat TlbE × State := State.walkFrom x va 4 x.root s

/-- Physical address of a VA under a leaf; a host page's address lies from `hostBase`. -/
def leafAddr (e : TlbE) (va : Nat) : Nat :=
  (if bit e.leaf 11 then hostBase else 0) + bits e.leaf 51 16 * 2 ^ 16 + va % 2 ^ sizeShift e.size

/-- Permission of R72 kind 3. -/
def permOk (a : Acc) (leaf : Word) : Bool :=
  match a with
  | .read => bit leaf 2
  | .write => bit leaf 3
  | .fetch => bit leaf 4
  | .both => bit leaf 2 && bit leaf 3

/-- Fills a frame's reverse-map slot; a second, different leaf marks the frame (R82). -/
def revFill (frame : Nat) (new : RevMap) (t : Tab RevMap) : Tab RevMap :=
  match Tab.get? frame t with
  | none => Tab.put frame new t
  | some r =>
    if r.leafPa = new.leafPa then Tab.put frame { new with aliased := r.aliased || new.aliased } t
    else Tab.put frame { r with aliased := true } t

/-- A second, different leaf entry reaches a frame: its slot is marked (R82). -/
def revMark (frame leafPa : Nat) (t : Tab RevMap) : Tab RevMap :=
  Tab.modify frame (fun (r : RevMap) => if r.leafPa = leafPa then r else { r with aliased := true }) t

/-- The walker sets A, and D on a write, with an OR at the entry's home (R71), and fills the reverse-map slot when it sets A
(R82). A frame of a larger page never moves, so its slot is marked as though shared (log entry 10). -/
def State.setAD (s : State) (e : TlbE) (va : Nat) (a : Acc) : TlbE × State :=
  let want : Word := field 1 6 ||| (if a.isWrite then field 1 7 else 0)
  let leaf := e.leaf ||| want
  let s := if leaf = e.leaf then s else s.orEntry e.leafPa want
  let e' := { e with leaf := leaf }
  if bit e.leaf 11 then (e', s)
  else
    let pa := leafAddr e va
    let d := dieOf pa
    if bit e.leaf 6 then
      (e', if (Tab.get? (frameOf pa) (s.memDie d).rev).any fun r => r.leafPa ≠ e.leafPa && !r.aliased then
        s.modMemDie d fun m => { m with rev := revMark (frameOf pa) e.leafPa m.rev } else s)
    else
      let new : RevMap := { leafPa := e.leafPa, leaf := leaf, asid := e.asid, va := va / 2 ^ 16 * 2 ^ 16, aliased := e.size ≠ 0 }
      (e', s.modMemDie d fun m => { m with rev := revFill (frameOf pa) new m.rev })

/-- A walker has read a leaf with SEC = 1: its page is protected against the host (R98). -/
def State.noteSec (s : State) (e : TlbE) : State :=
  if bit e.leaf 8 && !bit e.leaf 11 && !s.secLeaves.contains (e.leafPa, e.size) then
    { s with secLeaves := (e.leafPa, e.size) :: s.secLeaves }
  else s

/-- Words of a page table that memory lists. -/
def State.tableEntries (s : State) (level tbl : Nat) : List Nat :=
  ((s.mem.filter fun c => tbl ≤ c.1 && c.1 < tbl + (if level = 0 then 256 else 4096)).map fun c => c.1 / 8 * 8).eraseDups

/-- The protected leaves under a table of a level, with their size codes (R71). -/
def State.secUnder (s : State) : Nat → Nat → List (Nat × Nat)
  | level, tbl => (s.tableEntries level tbl).flatMap fun pa =>
    let e := Memory.read64 s.mem pa
    if !bit e 0 then []
    else if bit e 1 then (if s.leafOk level e && bit e 8 && !bit e 11 then [(pa, level)] else [])
    else match level with
      | 0 => []
      | n + 1 => if s.tableOk (n + 1) e then State.secUnder s n (bits e 51 8 * 2 ^ 8) else []

/-- The roots of the address spaces in use (R68, R69). -/
def State.roots (s : State) : List Nat :=
  ((s.phys.svcVmctx :: s.launches.map fun e => e.2.vmctx) ++ s.procs.map fun e => e.2.ctx.vmctx).map rootOf |>.eraseDups

/-- Leaves that may protect a page: those that the page tables in use reach, and those that walkers have met. -/
def State.secAll (s : State) : List (Nat × Nat) := s.secLeaves ++ s.roots.flatMap fun r => s.secUnder 4 r

/-- Whether a leaf with SEC = 1 protects a physical address now (R98). -/
def State.protectedAt (s : State) (pa : Nat) : Bool :=
  s.secAll.any fun x =>
    let e := Memory.read64 s.mem x.1
    bits e 1 0 = 3 && bit e 8 && !bit e 11 && bits e 51 16 * 2 ^ 16 ≤ pa && pa < bits e 51 16 * 2 ^ 16 + 2 ^ sizeShift x.2

/-! ## TLBs (R74) -/

def tlbMatch (asid : BitVec 16) (va : Nat) (e : TlbE) : Bool :=
  (bit e.leaf 5 || e.asid = asid) && e.va = va / 2 ^ sizeShift e.size

/-- Adds an entry, replacing one of the same page; the victim of a full TLB is free. -/
def State.fillTlb (s : State) (limit : Nat) (l : List TlbE) (e : TlbE) : List TlbE × State :=
  let l := l.filter fun o => !(o.size = e.size && o.va = e.va && (o.asid = e.asid || bit o.leaf 5))
  if l.length < limit then (e :: l, s)
  else
    let (k, s) := s.freeNat
    (e :: l.eraseIdx (k % limit), s)

def State.fillCore (s : State) (cl core : Nat) (e : TlbE) : State :=
  let (l, s) := s.fillTlb 64 (Tab.getD core (s.cluster cl).ctlb []) e
  s.modCluster cl fun c => { c with ctlb := Tab.put core l c.ctlb }

def State.fillCluster (s : State) (cl : Nat) (e : TlbE) : State :=
  let (l, s) := s.fillTlb 2048 (s.cluster cl).tlb e
  s.modCluster cl fun c => { c with tlb := l }

/-- A TLB hit of the core or its cluster. -/
def State.tlbHit (s : State) (x : XCtx) (va : Nat) : Option TlbE × State :=
  match x.cl with
  | none => (none, s)
  | some cl =>
    match (Tab.getD x.core (s.cluster cl).ctlb []).find? (tlbMatch x.asid va) with
    | some e => (some e, s)
    | none =>
      match (s.cluster cl).tlb.find? (tlbMatch x.asid va) with
      | some e => (some e, s.fillCore cl x.core e)
      | none => (none, s)

/-- What a walk's leaf comes to for an access: A and D are set and the TLBs filled when it is allowed. -/
def State.walkEnd (s : State) (x : XCtx) (va : Nat) (a : Acc) (e : TlbE) : Except Nat TlbE × State :=
  let s := s.noteSec e
  if !permOk a e.leaf then (.error xPerm, s)
  else
    let (e, s) := s.setAD e va a
    match x.cl with
    | none => (.ok e, s)
    | some cl => (.ok e, (s.fillCluster cl e).fillCore cl x.core e)

/-- A walk for an access, with A and D set and the TLBs filled when it is allowed. -/
def State.walkFor (s : State) (x : XCtx) (va : Nat) (a : Acc) : Except Nat TlbE × State :=
  match s.walk x va with
  | (.error k, s) => (.error k, s)
  | (.ok e, s) => s.walkEnd x va a e

/-- What the TLBs answer for an access: none when a walk has to, which a write through an entry whose D is 0 needs too (R71). -/
def State.tlbAnswer (s : State) (x : XCtx) (va : Nat) (a : Acc) : Option (Except Nat TlbE) × State :=
  match s.tlbHit x va with
  | (some e, s) =>
    if !permOk a e.leaf then (some (.error xPerm), s)
    else if a.isWrite && !bit e.leaf 7 then (none, s)
    else (some (.ok e), s)
  | (none, s) => (none, s)

/-- Translates a VA for an access. A write through an entry whose D is 0 walks again (R71). -/
def State.translate (s : State) (x : XCtx) (va : Nat) (a : Acc) : Except Nat TlbE × State :=
  match s.tlbAnswer x va a with
  | (some r, s) => (r, s)
  | (none, s) => s.walkFor x va a

/-! ## Contexts (R68, R69, R411) -/

/-- Whether a context in service reaches data in its own ASID (SVCST.UAS). -/
def State.svcUas (s : State) (pr : Proc) : Bool :=
  match pr.svc with
  | none => true
  | some k => (Tab.getD k (s.cluster pr.cl).svc {}).ctx.any fun c => bit c.frame.svcst 0

/-- A process's translation context for data, or for instruction fetch. -/
def State.xctx (s : State) (pr : Proc) (fetch : Bool) : XCtx :=
  let v := if pr.svc.isNone || (!fetch && s.svcUas pr) then pr.ctx.vmctx else s.phys.svcVmctx
  let asid := if pr.svc.isNone || (!fetch && s.svcUas pr) then asidOf v else 0
  { cl := some pr.cl, core := pr.unit, walker := pr.cl / 8, asid := asid, root := rootOf v }

/-- The context in which a unit of a memory die translates for an address space. -/
def dieXctx (die : Nat) (asid : BitVec 16) (root : Word) : XCtx :=
  { cl := none, core := 0, walker := 64 + die, asid := asid, root := rootOf root }

/-- The root of an ASID: that of the launch that uses it, and firmware's for ASID 0 (R68, R69). -/
def State.rootOfAsid (s : State) (asid : BitVec 16) : Word :=
  if asid = 0 then s.phys.svcVmctx
  else match s.launches.find? fun e => asidOf e.2.vmctx = asid with
    | some e => e.2.vmctx
    | none => (((s.procs.find? fun e => asidOf e.2.ctx.vmctx = asid).map fun e => e.2.ctx.vmctx).getD 0)

/-! ## Walks of processes' misses (R75) -/

/-- Walks a walker runs at once. -/
def walksAtOnce : Nat := 64

/-- ns of one memory read of a walker at a site: the mesh both ways and the die (R61, R47). -/
def State.readNs (s : State) (site pa : Nat) : Nat :=
  30 * hopsBetween site (memSite (dieOf pa)) + (if (s.memDie (dieOf pa)).msc.contains (lineOf pa) then 40 else 110)

/-- ns of the memory reads of a walk from a level down: one for each level that misses the table cache (R74). -/
def State.walkNsFrom (x : XCtx) (va site : Nat) : Nat → Nat → State → Nat
  | 0, tbl, s => s.readNs site (tbl + 8 * vaIndex 0 va)
  | n + 1, tbl, s =>
    let miss := ((s.tableCache x.walker).find? fun e => e.asid = x.asid && e.level = n + 1 && e.va = va / 2 ^ vaShift (n + 1)).isNone
    let ns := if miss then s.readNs site (tbl + 8 * vaIndex (n + 1) va) else 0
    match s.walkEntry x va (n + 1) tbl with
    | (.ok (.table next), s) => ns + State.walkNsFrom x va site n next s
    | _ => ns

/-- Unloaded time of a walk (R74). -/
def State.walkNs (s : State) (x : XCtx) (va : Nat) : Nat := 25 + State.walkNsFrom x va (s.cdies.getD x.walker 0) 4 x.root s

/-- Whether a request or its answer is for this access. -/
def Asked.covers (q : Asked) (x : XCtx) (va : Nat) (a : Acc) : Bool :=
  q.asid = x.asid && q.page = va / 2 ^ 16 && q.write = a.isWrite && q.fetch = (a = .fetch)

/-- The step that ends a walk. -/
def walkStep (w : Walk) (cl core : Nat) (write : Bool) : Instr :=
  .walkComplete cl core w.asid.toNat (BitVec.ofNat 64 (w.page * 2 ^ 16)) write

/-- Begins a walk for the first process that waits for it. -/
def State.beginWalk (s : State) (w : Walk) : State :=
  match w.procs.findSome? s.proc? with
  | none => { s with walks := s.walks.filter fun v => v ≠ w }
  | some pr =>
    let x : XCtx := { cl := some pr.cl, core := pr.unit, walker := w.walker, asid := w.asid, root := w.root }
    let s : State := { s with walks := s.walks.map fun v => if v = w then { w with begun := true } else v }
    s.sched (nsCycles (s.walkNs x (w.page * 2 ^ 16))) (walkStep w pr.cl pr.unit (pr.asked.any fun q => q.write))

/-- A process's miss joins the walk for its ASID and page, or a new one begins; beyond 64 it waits in the walker's queue. -/
def State.askWalk (s : State) (p : Pid) (x : XCtx) (va : Nat) (a : Acc) : State :=
  let page := va / 2 ^ 16
  let s := s.modProc p fun pr => { pr with
    asked := some { asid := x.asid, page := page, write := a.isWrite, fetch := a = .fetch, ans := none } }
  let same : Walk → Bool := fun w => w.walker = x.walker && w.asid = x.asid && w.page = page
  if s.walks.any same then
    { s with walks := s.walks.map fun w => if same w && !w.procs.contains p then { w with procs := w.procs ++ [p] } else w }
  else
    let w : Walk := { walker := x.walker, asid := x.asid, page := page, root := x.root, procs := [p], begun := false }
    let busy := (s.walks.filter fun v => v.walker = x.walker && v.begun).length
    let s : State := { s with walks := s.walks ++ [w] }
    if busy < walksAtOnce then s.beginWalk w else s

/-! ## Invalidation (R76, R77) -/

/-- What a TLBI removes. -/
inductive Inval where
  | va (asid : BitVec 16) (va : Nat)
  | vaall (va : Nat)
  | asid (asid : BitVec 16)
  | all
  deriving DecidableEq, Repr

def Inval.hits (i : Inval) (e : TlbE) : Bool :=
  match i with
  | .va a v => (bit e.leaf 5 || e.asid = a) && e.va = v / 2 ^ sizeShift e.size
  | .vaall v => e.va = v / 2 ^ sizeShift e.size
  | .asid a => e.asid = a && !bit e.leaf 5
  | .all => true

def Inval.hitsWalk (i : Inval) (e : WalkE) : Bool :=
  match i with
  | .va a v => e.asid = a && e.va = v / 2 ^ vaShift e.level
  | .vaall v => e.va = v / 2 ^ vaShift e.level
  | .asid a => e.asid = a
  | .all => true

/-- Whether an invalidation covers the page of a walk, as far as its size is known. -/
def Inval.hitsPage (i : Inval) (asid : BitVec 16) (page : Nat) : Bool :=
  match i with
  | .va a v => asid = a && page / 2 ^ 14 = v / 2 ^ 30
  | .vaall v => page / 2 ^ 14 = v / 2 ^ 30
  | .asid a => asid = a
  | .all => true

/-- Walks under way for a page that an invalidation covers begin again, and answers that no TLB holds any more are dropped (R76). -/
def State.restartWalks (s : State) (i : Inval) (die : Option Nat) : State :=
  let reach : Nat → Bool := fun w => die.all fun d => d = w
  let hit : Walk → Bool := fun w => w.begun && reach w.walker && i.hitsPage w.asid w.page
  let ends : Instr → Bool := fun j => match j with
    | .walkComplete cl _ asid va _ => reach (cl / 8) && i.hitsPage (BitVec.ofNat 16 asid) (bits va 56 16)
    | _ => false
  let s : State := { s with
    queue := s.queue.filter fun e => !ends e.2
    procs := s.procs.map fun (e : Nat × Proc) => (e.1, { e.2 with asked := match e.2.asked with
      | some q => if q.ans.isSome && reach (e.2.cl / 8) && i.hitsPage q.asid q.page then none else some q
      | none => none }) }
  (s.walks.filter hit).foldl State.beginWalk s

def dropTlb (i : Inval) (l : List TlbE) : List TlbE := l.filter fun e => !i.hits e

/-- Removes matching entries from the TLBs of one core. -/
def State.invalCore (s : State) (i : Inval) (cl core : Nat) : State :=
  s.modCluster cl fun c => { c with ctlb := Tab.modify core (dropTlb i) c.ctlb }
/-- Removes them from a cluster and its cores. -/
def Cluster.inval (i : Inval) (c : Cluster) : Cluster :=
  { c with tlb := dropTlb i c.tlb, ctlb := c.ctlb.map fun e => (e.1, dropTlb i e.2) }
/-- Removes them from one walker's table cache. -/
def State.invalWalker (s : State) (i : Inval) (w : Nat) : State :=
  { s with walkers := Tab.modify w (fun l => l.filter fun t => !i.hitsWalk t) s.walkers }
/-- Removes them from a compute die. -/
def State.invalDie (s : State) (i : Inval) (die : Nat) : State :=
  (({ s with clusters := s.clusters.map fun (k, c) => (k, if k / 8 = die then Cluster.inval i c else c) } : State).invalWalker i die).restartWalks
    i (some die)
/-- Removes them everywhere. -/
def State.invalDevice (s : State) (i : Inval) : State :=
  ({ s with
    clusters := s.clusters.map fun e => (e.1, Cluster.inval i e.2)
    walkers := s.walkers.map fun e => (e.1, e.2.filter fun t => !i.hitsWalk t) } : State).restartWalks i none

end Sys2Proof.Machine
end

