-- ==== Sys2Proof/Machine/Grant.lean ====
section
/-! DEFINITION. Grant-scheduled transfers (R122 to R138), windows (R143 to R150) and the copy engine (R151 to R157): the shared
operations behind the instructions and the engine's steps. -/

namespace Sys2Proof.Machine

/-! ## Halted clusters (R434) -/

def State.isHalted (s : State) (cl : Nat) : Bool := (s.cluster cl).dm.phase = .halted

/-- Wakes every process that waits for something with no kind of its own, anywhere. -/
def State.wakeOthers (s : State) : State :=
  (s.procs.filter fun e => e.2.wkind = .other).foldl (fun s e => s.wake e.1) s

/-- Wakes one process when it waits with the given kind. -/
def State.wakeIf (s : State) (p : Pid) (k : WKind) : State :=
  match s.proc? p with
  | some pr => if pr.wkind = k then s.wake p else s
  | none => s

/-! ## Windows (R143 to R150) -/

/-- Absolute scratchpad offset of a team-relative one. -/
def State.spmOf (s : State) (team : Nat) : Nat := ((s.team? team).map fun t => t.spm).getD 0

/-- Bytes of a window. -/
def Window.bytes (w : Window) : Nat := w.rows * w.rowb

/-- The bound window whose range holds an absolute scratchpad offset. -/
def State.windowAt (s : State) (cl off : Nat) : Option (Nat × Window) :=
  (s.cluster cl).windows.find? fun e =>
    let b := s.spmOf e.2.team + e.2.base
    b ≤ off && off < b + e.2.bytes

/-- The entry of a team's window number. -/
def State.windowNum (s : State) (cl team num : Nat) : Option (Nat × Window) :=
  (s.cluster cl).windows.find? fun e => e.2.team = team && e.2.num = num

def State.setWindow (s : State) (cl k : Nat) (w : Window) : State :=
  s.modCluster cl fun c => { c with windows := Tab.put k w c.windows }

def State.isFull (s : State) (cl line : Nat) : Bool := (s.cluster cl).full.contains line

/-! ## Requests and tokens (R125 to R130) -/

/-- Units of a transfer (R124). -/
def unitsOf (len : Nat) : Nat := (len + 4095) / 4096

/-- Bytes a token for a unit grants (R124). -/
def unitBytes (r : GReq) (u : Nat) : Nat :=
  let all := min (4096 * (u + 1)) r.len - 4096 * u
  if u = 0 then all - min r.pfx all else all

/-- Units that need a token. -/
def neededUnits (r : GReq) : List Nat := (List.range (unitsOf r.len)).filter fun u => unitBytes r u ≠ 0

/-- Every unit is received. -/
def GReq.complete (r : GReq) : Bool := (neededUnits r).all fun u => r.rcv.contains u

/-- GRCTL.RMAX, TEXP and ORPH as they act (R132). -/
def State.rmax (s : State) (cl : Nat) : Nat :=
  let v := bits (s.clReg cl 120) 2 0
  if v = 0 ∨ 5 ≤ v then 4 else v
def State.texp (s : State) (cl : Nat) : Nat := max 1000 (bits (s.clReg cl 120) 31 16)
def State.orph (s : State) (cl : Nat) : Nat := max 16 (bits (s.clReg cl 120) 47 32) * 1000

/-- The lowest unit with neither a received bit nor an outstanding token. -/
def missingUnit (r : GReq) : Option Nat :=
  (neededUnits r).find? fun u => !r.rcv.contains u && !(r.toks.any fun t => t.unit = u)

/-- The effective class (R128), with the ageing step that was in force when the request arrived (R132). -/
def State.effClass (s : State) (r : GReq) : Nat :=
  if r.age = 0 then r.cls.toNat else r.cls.toNat - (s.timebase - r.arrival) / (1000 * r.age)

/-- Whether a request waits for a token (R128). -/
def State.wantsToken (s : State) (cl : Nat) (r : GReq) : Bool :=
  r.matched && !r.halted && r.toks.length < s.rmax cl && (missingUnit r).isSome

/-- The request that is granted next (R128): the one whose turn it is, or the best by class and order of arrival. -/
def State.grantBest (s : State) (cl : Nat) : Option (Nat × GReq) :=
  let kept := (s.cluster cl).turn.bind fun k =>
    (Tab.get? k (s.cluster cl).greqs).bind fun r => if s.wantsToken cl r then some (k, r) else none
  if kept.isSome then kept
  else ((s.cluster cl).greqs.filter fun e => s.wantsToken cl e.2).foldl
    (fun best e =>
      match best with
      | none => some e
      | some b =>
        let x := s.effClass e.2
        let y := s.effClass b.2
        if x < y ∨ (x = y ∧ e.2.order < b.2.order) then some e else best) none

def State.setReq (s : State) (cl k : Nat) (r : GReq) : State :=
  s.modCluster cl fun c => { c with greqs := Tab.put k r c.greqs }

/-- The scheduler looks again for something to grant. -/
def State.kickGrant (s : State) (cl : Nat) : State :=
  if (s.grantBest cl).isSome && !(s.queue.any fun q => q.2 = .grantNext cl) then s.sched 1 (.grantNext cl) else s

/-- Bytes of a request's outstanding tokens. -/
def tokBytes (r : GReq) : Nat := (r.toks.map fun t => t.bytes).sum

/-- Removes a request: its tokens are no longer outstanding. -/
def State.dropReq (s : State) (cl k : Nat) : State :=
  match Tab.get? k (s.cluster cl).greqs with
  | none => s
  | some r =>
    (s.modCluster cl fun c => { c with
      greqs := Tab.del k c.greqs
      turn := if c.turn = some k then none else c.turn
      out := c.out - tokBytes r
      endps := match r.ep with
        | none => c.endps
        | some e => Tab.modify e (fun (n : Endp) => { n with unm := n.unm.filter (· ≠ k) }) c.endps }).kickGrant cl

/-- Takes a request-store entry (R125): the request comes from a site, and takes its place among those of its core cycle by the port
it enters through. With the store full it is refused BUSY, which is counted. -/
def State.addReq (s : State) (cl : Nat) (site : Option Nat) (r : GReq) : State × Option Nat :=
  match Tab.freeKey (s.cluster cl).greqs 0 512 with
  | none => (s.modCluster cl fun c => { c with gBusy := c.gBusy + 1 }, none)
  | some k =>
    let here := s.clusterSite cl
    let port := s.enterPort here 30 (site.getD here) 0
    (s.setReq cl k { r with
      order := 8 * s.cycles + port, age := bits (s.clReg cl 120) 15 8, orph := s.orph cl }, some k)

/-! ## Copies (R151 to R157) -/

def Copy.perRow (c : Copy) : Nat := c.rowb / 64
def Copy.lines (c : Copy) : Nat := c.rows * c.perRow
/-- Source and destination address of a line by its row-major index. -/
def lineAddr (base str : Word) (perRow i : Nat) : Word :=
  base + BitVec.ofNat 64 (i / perRow) * str + BitVec.ofNat 64 (64 * (i % perRow))
def Copy.srcAt (c : Copy) (i : Nat) : Word := lineAddr c.src c.sstr c.perRow i
def Copy.dstAt (c : Copy) (i : Nat) : Word := lineAddr c.dst c.dstr c.perRow i

/-- Lines of one transfer of at most 1 MiB (R123). -/
def transferLines : Nat := 16384

/-- The first line not yet written. -/
def firstUnwritten (w : List Nat) (n : Nat) : Nat := ((List.range n).find? fun i => !w.contains i).getD n

/-- Number of the transfer a copy is in. -/
def Copy.transfer (c : Copy) : Nat := firstUnwritten c.written c.lines / transferLines

/-- Grant class of a process's reply endpoint (R128). -/
def State.replyClass (s : State) (p : Pid) : BitVec 2 :=
  match Tab.get? (2 ^ 32 + p) s.dir with
  | none => 2
  | some (cl, e) => ((Tab.get? e (s.cluster cl).endps).map fun n => n.gcls).getD 2

/-- Whether a copy's source lies on another device. -/
def State.copyFar (s : State) (c : Copy) : Bool := spaceOf c.src = 1 && bits c.src 61 51 ≠ s.dev

/-- Lines of the transfer a copy is in, and the first of them. -/
def Copy.span (c : Copy) : Nat := min transferLines (c.lines - transferLines * c.transfer)
def Copy.first (c : Copy) : Nat := transferLines * c.transfer

/-- Lines of the unscheduled prefix (R124): the copies of R122's last row have none. -/
def State.copyPfx (s : State) (c : Copy) : Nat := if s.copyFar c then min 16 c.span else 0

/-- Lines of the prefix that are still to come. -/
def State.prefixLines (s : State) (c : Copy) : List Nat :=
  ((List.range (s.copyPfx c)).map fun i => c.first + i).filter fun i => !c.written.contains i

/-- The number under which a copy's reads outside the device go: cluster, request-store entry and token. The prefix's is that of an
entry from 1024 on, by the copy's place. -/
def copyId (cl k : Nat) (serial : BitVec 16) : Nat := 2 ^ 48 + serial.toNat + 2 ^ 16 * k + 2 ^ 32 * cl

/-- Addresses of lines as runs of bytes. -/
def runsOf : List Word → List (Word × Nat)
  | [] => []
  | a :: as => match runsOf as with
    | (b, n) :: rs => if a + 64 = b then (a, n + 64) :: rs else (a, 64) :: (b, n) :: rs
    | [] => [(a, 64)]

/-- The request of a copy's transfer enters the store (R125), matched at once (R126). -/
def State.enterCopy (s : State) (cl place : Nat) (c : Copy) : State × Bool :=
  let n := c.span
  let have_ := fun u => (List.range (min 64 (n - 64 * u))).all fun j => c.written.contains (c.first + 64 * u + j)
  let r : GReq := {
    src := .copy place, len := 64 * n, pfx := 64 * s.copyPfx c, ep := none, cls := s.replyClass c.pid, arrival := s.timebase,
    matched := true, rcvr := none, dest := 0, rcv := (List.range ((n + 63) / 64)).filter have_, granted := [], toks := [],
    lastAcc := s.timebase }
  match s.addReq cl (if s.copyFar c then some (s.linkSite (bits c.src 61 51)) else none) r with
  | (s, some _) => (s.kickGrant cl, true)
  | (s, none) => (s.sched (nsCycles 2000) (.busyResend cl (2 ^ 32 + place)), false)

/-- Asks for the transfer a copy is in: the home of a copy from another device is asked for the request, which brings its prefix
(R122, R124). -/
def State.requestCopy (s : State) (cl place : Nat) (c : Copy) : State :=
  match s.prefixLines c with
  | [] => (s.enterCopy cl place c).1
  | ls => s.emitAt (s.clusterSite cl) (.fetch c.pid (copyId cl (1024 + place) 0) (runsOf (ls.map c.srcAt)))

/-- The request of a place of the copy engine. -/
def State.copyReq? (s : State) (cl place : Nat) : Option (Nat × GReq) :=
  (s.cluster cl).greqs.find? fun e => e.2.src = .copy place

/-- The status a finished batch gets (R152): the first non-DONE status in issue order. -/
def finalStat (l : List CopyEnd) : BStat :=
  let bad := l.filter fun e => e.stat ≠ .done
  match bad with
  | [] => .done
  | e :: es => (es.foldl (fun (b : CopyEnd) x => if x.order < b.order then x else b) e).stat

/-- A sealed batch whose copies have all ended is finished (R152), and its waiters look again. -/
def State.settleBatch (s : State) (cl : Nat) (p : Pid) (b : Nat) : State :=
  match s.proc? p with
  | none => s
  | some pr =>
    let c := s.cluster cl
    if Tab.get? b pr.batches ≠ some .running ∨ c.copies.any (fun e => e.2.pid = p && e.2.batch = some b) then s
    else
      let st := finalStat (c.copyEnds.filter fun e => e.pid = p && e.batch = b)
      let s := s.setProc p { pr with batches := Tab.put b st pr.batches }
      let s := s.setCluster cl { c with copyEnds := c.copyEnds.filter fun e => !(e.pid = p && e.batch = b) }
      s.wakeIf p .batch

/-- Starts fills that wait for a place (R157), and lets waiting commands try again. -/
def State.offerPlace (s : State) (cl : Nat) : State :=
  match (s.cluster cl).windows.find? fun e => e.2.want with
  | none => s.wakeKinds cl [.place]
  | some (k, w) =>
    match Tab.freeKey (s.cluster cl).copies 0 64 with
    | none => s
    | some place =>
      let vm := ((s.proc? w.owner).map fun pr => pr.ctx.vmctx).getD
        (((s.team? w.team).bind fun t => (s.launch? t.lid).map fun l => l.vmctx).getD 0)
      let c : Copy := {
        pid := w.owner, team := w.team, batch := none, win := some k, src := w.src,
        dst := field 3 62 ||| BitVec.ofNat 64 w.base, rows := w.rows, rowb := w.rowb, sstr := w.stride,
        dstr := BitVec.ofNat 64 w.rowb, written := [], stopped := none, secure := none, vmctx := vm,
        order := (s.cluster cl).copySeq }
      let s := s.modCluster cl fun d => { d with
        copies := Tab.put place c d.copies, copySeq := d.copySeq + 1, windows := Tab.put k { w with want := false } d.windows }
      (s.requestCopy cl place c).wakeKinds cl [.place]

/-- The bound fill of an ABSENT window starts (R146). -/
def State.startFill (s : State) (cl k : Nat) : State :=
  match Tab.get? k (s.cluster cl).windows with
  | some w => if w.st = .absent then (s.setWindow cl k { w with st := .filling, want := true }).offerPlace cl else s
  | none => s

/-- The Chandler hears of the end of a replica's weight copy, which belongs to no batch and no window (R392). -/
def State.growCopyEnd (s : State) (c : Copy) (fault : Option (Nat × Nat × Word)) : State :=
  if c.batch.isNone && c.win.isNone then
    match s.experts.find? fun e => e.2.switch.any fun w => w.team = c.team && w.grow = some .copying with
    | some (x, _) => s.sched 6 (.growCopyComplete x fault)
    | none => s
  else s

/-- A copy has reached a final status: it leaves its place. -/
def State.endCopy (s : State) (cl place : Nat) (st : BStat) : State :=
  match Tab.get? place (s.cluster cl).copies with
  | none => s
  | some c =>
    let s := match s.copyReq? cl place with | some (k, _) => s.dropReq cl k | none => s
    let s := s.modCluster cl fun d => { d with
      copies := Tab.del place d.copies
      copyEnds := match c.batch with
        | some b => d.copyEnds ++ [{ pid := c.pid, batch := b, order := c.order, stat := st }]
        | none => d.copyEnds }
    let s := match c.batch with | some b => s.settleBatch cl c.pid b | none => s
    let s := if st = .done then s.growCopyEnd c none else s
    s.offerPlace cl

/-- Appends a copy to the open batch and starts it (R152). The caller has found a free place. -/
def State.startCopy (s : State) (cl place : Nat) (c : Copy) : State :=
  let c := { c with order := (s.cluster cl).copySeq }
  let s := s.modCluster cl fun d => { d with copies := Tab.put place c d.copies, copySeq := d.copySeq + 1 }
  if c.lines = 0 then s.endCopy cl place .done else s.requestCopy cl place c

/-! ## Engine line writes (R148) -/

/-- Writes a whole line into a scratchpad and counts it for the window that holds it. -/
def State.engineWrite (s : State) (cl off : Nat) (data : Line) (poison : Bool) : State :=
  let line := off / 64
  let win := s.windowAt cl off
  let s := match win with | some (k, _) => s.startFill cl k | none => s
  let loc := sramLoc cl (64 * line)
  let s := (s.foldLine loc).storeLine loc data fullMask
  let s := if poison then s.poisonLine loc else s
  match win with
  | none => s
  | some (k, _) =>
    match Tab.get? k (s.cluster cl).windows with
    | none => s
    | some w =>
      let s := s.modCluster cl fun c => { c with full := insertNat line c.full }
      let w' := if w.pend = 0 then { w with ovr := true }
        else if w.pend ≤ 64 then { w with pend := 0, st := .present }
        else { w with pend := w.pend - 64 }
      (s.setWindow cl k w').wakeKinds cl [.window]

/-! ## Writing back and cluster caches (R187 to R189) -/

/-- Host physical address in the form of a space-0b10 global address. -/
def hostAddr (loc : Nat) : Word := field 2 62 ||| BitVec.ofNat 64 (loc - hostBase)

/-- What a store puts out. -/
def storeOut (p : Option Pid) (id : Nat) (addr : Word) : OutReq → Output
  | .bytes bs => .store p id addr bs
  | .line d m x => .storeLine p id addr d m x
  | .op op => .atomic (p.getD 0) id addr 0 op

/-- Whether an access of a cluster's processes to a line of space 0b01 is not yet acknowledged. -/
def State.lineTaken (s : State) (cl line : Nat) : Bool :=
  s.procs.any fun e => e.2.cl = cl && e.2.outs.any fun o => o.space = 1 && o.line = line

/-- A write leaves the device toward the host or another device; it is acknowledged to the process later. One to space 0b01 waits
for earlier accesses to the line, those of the process (R115) and those of its cluster, which come before it in commit order
(R304). -/
def State.sendStoreReq (s : State) (cl : Nat) (p : Option Pid) (space line : Nat) (addr : Word) (r : OutReq) : State :=
  let id := s.nextAcc
  let s := { s with nextAcc := id + 1 }
  match p with
  | none => s.emitAt (s.clusterSite cl) (storeOut none id addr r)
  | some p =>
    let wait := space = 1 && s.lineTaken cl line
    let s := if wait then s else s.emitAt (s.clusterSite cl) (storeOut (some p) id addr r)
    s.modProc p fun pr => { pr with
      outs := pr.outs ++ [{
        id := id, space := space, line := line, red := false, scope := 0, take := []
        hold := if wait then some (addr, r) else none }] }

/-- A write of bytes leaves the device. -/
def State.sendStore (s : State) (cl : Nat) (p : Option Pid) (space line : Nat) (addr : Word) (bytes : List Byte) : State :=
  s.sendStoreReq cl p space line addr (.bytes bytes)

/-- Runs of masked bytes of a line, from byte n on: offset and bytes. -/
def maskRuns (data : Line) (mask : BitVec 64) : Nat → Nat → List Byte → List (Nat × List Byte)
  | 0, n, acc => if acc = [] then [] else [(n - acc.length, acc)]
  | k + 1, n, acc =>
    if mask.getLsbD n then maskRuns data mask k (n + 1) (acc ++ [data.extractLsb' (8 * n) 8])
    else if acc = [] then maskRuns data mask k (n + 1) []
    else (n - acc.length, acc) :: maskRuns data mask k (n + 1) []

/-- The masked bytes of a line as one request, and its offset in the line: a run of bytes where they are one, the line with its
mask where not. -/
def lineReq (data : Line) (mask : BitVec 64) : Nat × OutReq :=
  match maskRuns data mask 64 0 [] with
  | [(off, bs)] => (off, .bytes bs)
  | _ => (0, .line data mask false)

/-- A packet that no process waits for at its instruction cannot be delivered (R62): the machine check names the router that refused
it (R54), and the access's process is told at its next release, with a kind that the spec leaves open (log entry 11). -/
def State.lostStore (s : State) (site line : Nat) (p : Option Pid) (space : Nat) : State :=
  let s := s.machineCheck 4 0 site (paOf line)
  match p with
  | none => s
  | some p => let (k, s) := s.freeNat; s.holdFault p 8 (k % 256) 0 space false 0

/-- A write of a cluster crosses the mesh to its home and its acknowledgement comes back (R62); PLAT of the process whose store it
carries takes the reply (R64). -/
def State.writeAcross (s : State) (cl : Nat) (p : Option Pid) (line : Nat) (perform : State → State) : State :=
  let src := s.clusterSite cl
  let dst := memSite (dieOf line)
  match s.refusedAt src dst with
  | some site => s.lostStore site line p 0
  | none =>
    let s := s.racHit (.site src) line
    let hit := (s.memDie (dieOf line)).msc.contains line
    let s := perform s
    match s.refusedAt dst src, p with
    | some site, _ => s.lostStore site line p 0
    | none, some p =>
      let (i, s) := s.homePlat src (dieOf line) ((s.routeHops src dst).getD 0) ((s.routeHops dst src).getD 0) hit
      s.setPlat p i
    | none, none => s

/-- Writes the dirty bytes of one cached line back to its home; the line stays, clean. A copy that its array has spoilt leaves the
home line poisoned. -/
def State.writeBack (s : State) (cl line : Nat) : State :=
  match Tab.get? line (s.cluster cl).cache with
  | none => s
  | some c =>
    if c.dirty = 0 then s
    else
      let s := s.modCluster cl fun d => { d with cache := Tab.put line { c with dirty := 0, by_ := none } d.cache }
      let p := c.by_.bind fun p => if (s.proc? p).isSome then some p else none
      if isDev line then
        s.writeAcross cl p line fun s => s.homeWriteFor (some cl) none line c.data c.dirty (c.poison && c.code ≠ 0)
      else
        let r := lineReq c.data c.dirty
        let id := s.nextAcc
        ((s.modCluster cl fun d => { d with wbacks := Tab.put id p d.wbacks }).sendStoreReq cl none 2 line (hostAddr (line + r.1)) r.2)

/-- Lines of a cluster cache with dirty bytes. -/
def dirtyLines (c : Cluster) : List Nat := (c.cache.filter fun e => e.2.dirty ≠ 0).map fun e => e.1

/-- Writes every dirty line of a cluster back (R189). -/
def State.writeBackAll (s : State) (cl : Nat) : State :=
  (dirtyLines (s.cluster cl)).foldl (fun s l => s.writeBack cl l) s

/-- Drops a line from the data caches of a cluster's cores, but for one core. -/
def Cluster.dropData (c : Cluster) (keep : Option Nat) (line : Nat) : Cluster :=
  { c with dcache := c.dcache.map fun e => if some e.1 = keep then e else (e.1, Tab.del line e.2) }

/-- Drops a line from every cache of a cluster, its dirty bytes written back first. -/
def State.dropLine (s : State) (cl line : Nat) : State :=
  (s.writeBack cl line).modCluster cl fun c => { c with cache := Tab.del line c.cache }.dropData none line

/-- The cache action of an acquire (R189): every line of the core's data cache, and every clean line of the cluster cache. The
stores of the open chunk stand in its buffer. -/
def State.invalClean (s : State) (cl core : Nat) : State :=
  s.modCluster cl fun c => { c with
    cache := c.cache.filter fun e => e.2.dirty ≠ 0
    dcache := Tab.del core c.dcache }

/-- A reader at a line's home may or may not find that other clusters' dirty copies were written back meanwhile: free, for
each cluster that holds one. -/
def State.maySpill (s : State) (reader : Option Nat) (line : Nat) : State :=
  ((s.clusters.filter fun e => some e.1 ≠ reader && ((Tab.get? line e.2.cache).any fun c => c.dirty ≠ 0)).map (·.1)).foldl
    (fun s cl => let (b, s) := s.freeBool; if b then s.writeBack cl line else s) s

/-! ## Sources and destinations of copies -/

/-- What reading a line of a copy's source, or reaching a line of its destination, finds. -/
inductive Reach where
  | data (l : Line) (poison : Bool)
  /-- the bytes come from outside the device, by their address there -/
  | outside (a : Word)
  | notYet
  | fault (cls kind : Nat)
  deriving DecidableEq, Repr

/-- Engine's translation context for a copy. -/
def copyXctx (cl : Nat) (vm : Word) : XCtx := { cl := some cl, core := 32, walker := cl / 8, asid := asidOf vm, root := rootOf vm }

/-- The export check and translation of R112 for an access of this device's or another's to space 0b01: the physical location,
or a fabric fault's kind and detail. R112 does not say what a window is whose BASE and offset pass 57 bits: DESIGN CHOICE, the sum
wraps modulo 2^57 (log entry 85). -/
def State.exportAt (s : State) (addr : Word) (a : Acc) (isAtomic : Bool) : Except (Nat × Nat) Nat × State :=
  let n := bits addr 50 48
  let off := bits addr 47 0
  let ea := s.reg (64 + 2 * n)
  let eb := s.reg (65 + 2 * n)
  let allowed := if isAtomic then bit eb 60 else match a with | .read | .fetch => bit eb 58 | .write => bit eb 59 | .both => bit eb 60
  if !bit eb 63 || bits eb 47 16 * 65536 ≤ off || !allowed then (.error (3, 0), s)
  else
    let va := (bits ea 56 16 * 65536 + off) % 2 ^ 57
    let asid := BitVec.ofNat 16 (bits eb 15 0)
    match s.translate (dieXctx 0 asid (s.rootOfAsid asid)) va a with
    | (.error k, s) => (.error (4, k), s)
    | (.ok e, s) => (.ok (leafAddr e va), s)

/-- Where a line of a copy's source lies. -/
inductive SrcPlace where
  | spad (off : Nat)
  | dev (loc : Nat)
  | outside (a : Word)
  deriving DecidableEq, Repr

/-- The place of a line of a copy's source, or the class and kind of the fault it meets (R151, R154). -/
def State.copySrcAt (s : State) (cl : Nat) (c : Copy) (i : Nat) : Except (Nat × Nat) SrcPlace × State :=
  let a := c.srcAt i
  let sp := spaceOf a
  if sp = 3 then (.ok (.spad (s.spmOf c.team + bits a 31 0)), s)
  else if sp = 0 then
    if bits a 61 57 ≠ 0 then (.error (5, xForm), s)
    else
      match s.translate (copyXctx cl c.vmctx) (bits a 56 0) .read with
      | (.error k, s) => (.error (5, k), s)
      | (.ok e, s) =>
        if c.secure.isSome && !bit e.leaf 8 then (.error (5, xPerm), s)
        else
          let loc := leafAddr e (bits a 56 0)
          (.ok (if hostBase ≤ loc then .outside (hostAddr loc) else .dev loc), s)
  else if sp = 1 && bits a 61 51 = s.dev then
    match s.exportAt a .read false with
    | (.error (k, _), s) => (.error (8, k), s)
    | (.ok loc, s) => (.ok (if hostBase ≤ loc then .outside (hostAddr loc) else .dev loc), s)
  else if sp = 1 then
    (if s.noOptics (bits a 61 51) then .error (2, 0) else if s.noDev (bits a 61 51) then .error (8, 1) else .ok (.outside a), s)
  else (if bits a 61 52 ≠ 0 then .error (5, xForm) else .ok (.outside a), s)

/-- Reads one line of a copy's source (R147). -/
def State.copySrc (s : State) (cl : Nat) (c : Copy) (i : Nat) : Reach × State :=
  match s.copySrcAt cl c i with
  | (.error (x, k), s) => (.fault x k, s)
  | (.ok (.outside a), s) => (.outside a, s)
  | (.ok (.spad off), s) =>
    let s := match s.windowAt cl off with | some (k, _) => s.startFill cl k | none => s
    if (s.windowAt cl off).isSome && !s.isFull cl (off / 64) then (.notYet, s)
    else
      let loc := sramLoc cl off
      let s := (s.touchHome loc).2
      (.data (s.lineData loc) (s.isPoison loc), s)
  | (.ok (.dev loc), s) =>
    let s := s.maySpill none loc
    let s := if spaceOf (c.srcAt i) = 0 then s.racHit (.site (s.clusterSite cl)) loc else s
    let s := (s.touchHome loc).2
    (.data (s.lineData loc) (s.isPoison loc), s)

/-- Where a line of a copy's destination lies (R151, R165): `data` answers the location in its line value's place. -/
def State.copyDst (s : State) (cl : Nat) (c : Copy) (i : Nat) : Except (Nat × Nat) (Option Nat) × State :=
  let a := c.dstAt i
  let sp := spaceOf a
  if sp = 3 then (.ok (some (sramLoc cl (s.spmOf c.team + bits a 31 0))), s)
  else if sp = 2 then (if bits a 61 52 ≠ 0 then .error (5, xForm) else .ok none, s)
  else if bits a 61 57 ≠ 0 then (.error (5, xForm), s)
  else
    match s.translate (copyXctx cl c.vmctx) (bits a 56 0) .write with
    | (.error k, s) => (.error (5, k), s)
    | (.ok e, s) =>
      if c.secure.isSome && !bit e.leaf 8 then (.error (5, xPerm), s)
      else (.ok (some (leafAddr e (bits a 56 0))), s)

/-- Writes one line of a copy at its destination. -/
def State.copyWrite (s : State) (cl : Nat) (c : Copy) (i : Nat) (data : Line) (poison : Bool) : State :=
  match s.copyDst cl c i with
  | (.error _, s) => s
  | (.ok none, s) => s.sendStoreReq cl none 2 0 (c.dstAt i) (.line data fullMask poison)
  | (.ok (some loc), s) =>
    if isSram loc then s.engineWrite cl (loc - sramLoc cl 0) data poison
    else if hostBase ≤ loc then s.sendStoreReq cl none 2 0 (hostAddr loc) (.line data fullMask poison)
    else
      s.writeAcross cl (if (s.proc? c.pid).isSome then some c.pid else none) loc fun s => s.homeWrite loc data fullMask poison

/-! ## Stopped copies (R154, R425) -/

/-- The copy-fault message of R425. -/
def copyFaultMsg (s : State) (place : Nat) (c : Copy) (cls kind f : Nat) (addr : Word) : List Word :=
  let num := match c.win with
    | some _ => ((s.clusters.findSome? fun e => (e.2.windows.find? fun w => some w.1 = c.win && w.2.team = c.team).map fun w => w.2.num)).getD 0
    | none => c.batch.getD 0
  [BitVec.ofNat 64 (0x21 + cls * 2 ^ 8 + kind * 2 ^ 16 + c.win.isSome.toNat * 2 ^ 24 + num * 2 ^ 32 + place * 2 ^ 40),
   BitVec.ofNat 64 (s.key c.pid), addr, BitVec.ofNat 64 f, BitVec.ofNat 64 s.timebase, BitVec.ofNat 64 c.team, 0, 0]

/-- A copy meets a fault at line i and stops there; no one serves the fault of a replica's weight copy (R392). -/
def State.stopCopy (s : State) (cl place : Nat) (c : Copy) (i cls kind : Nat) (addr : Word) : State :=
  if c.batch.isNone && c.win.isNone then (s.endCopy cl place .failed).growCopyEnd c (some (cls, kind, addr))
  else
  let s := match s.copyReq? cl place with | some (k, _) => s.dropReq cl k | none => s
  let s := s.modCluster cl fun d => { d with
    copies := Tab.put place { c with stopped := some (64 * i, cls, kind, addr) } d.copies
    windows := match c.win with
      | some k => Tab.modify k (fun (w : Window) => { w with fst := .pendFault }) d.windows
      | none => d.windows }
  s.postService (faultIdx c.team) (copyFaultMsg s place c cls kind (64 * i) addr)

end Sys2Proof.Machine
end

