-- ==== Sys2Proof/Machine/Access.lean ====
section
/-! DEFINITION. Accesses of processes to memory (R43, R44, R183 to R197): where an address leads, the checks of R191 in their
order, loads through the cluster cache, stores buffered in a chunk and performed at its commit, release and acquire. -/

namespace Sys2Proof.Machine

/-! ## Where an address leads (R43, R183) -/

/-- A checked address: a location, a byte of a claimed accumulator slot, a port cell, or TIMEBASE. -/
inductive Place where
  | mem (loc : Nat)
  | acc (slot loc : Nat)
  | port (n : Nat)
  | timebase
  deriving DecidableEq, Repr

/-- Bytes of one accumulator slot. -/
def accBytes : Nat := 0x140000

/-- Address of a team's slot in the local window. -/
def slotAddr (a : ASlot) : Word := field 3 62 ||| BitVec.ofNat 64 (0x02000000 + a.toNat * accBytes)

/-- The physical slot a team's slot number names (R262). -/
def Cluster.slotOf (c : Cluster) (team : Nat) (a : ASlot) : Option Nat :=
  (c.slots.find? fun e => e.2.team = team && e.2.tslot = a).map (·.1)

/-- Allotment of a team in bytes (R184). -/
def State.spmBytes (s : State) (team : Nat) : Nat := ((s.team? team).map fun t => t.spmsz * 65536).getD 0

/-- The read-only row of the local window (R183): TIMEBASE. -/
def readOnlyRow (off : Nat) : Bool := 0x04000000 ≤ off && off < 0x04000008

/-- check_space of R191 for `len` bytes, in the row that holds the first; space 0 is left to translation and answers its VA. -/
def State.checkSpace (s : State) (pr : Proc) (ea : Word) (len : Nat) (write ports : Bool) : Except TrapInfo (Place ⊕ Nat) :=
  let bad := trapXlate xForm ea write
  match spaceOf ea with
  | 0 => if bits ea 61 57 ≠ 0 then .error bad else .ok (.inr (bits ea 56 0))
  | 1 => if s.noOptics (bits ea 61 51) then .error { cls := 2 } else .ok (.inl (.mem (remoteBase + bits ea 61 0)))
  | 2 => if bits ea 61 52 ≠ 0 then .error bad else .ok (.inl (.mem (hostBase + bits ea 51 0)))
  | _ =>
    if bits ea 61 32 ≠ 0 then .error bad
    else
      let off := bits ea 31 0
      if off + len ≤ s.spmBytes pr.team then .ok (.inl (.mem (sramLoc pr.cl (s.spmOf pr.team + off))))
      else if 0x02000000 ≤ off ∧ off + len ≤ 0x02500000 then
        let o := off - 0x02000000
        match (s.cluster pr.cl).slotOf pr.team (BitVec.ofNat 2 (o / accBytes)) with
        | some k => .ok (.inl (.acc k (accLoc pr.cl k + o % accBytes)))
        | none => .error bad
      else if 0x03000000 ≤ off ∧ off < 0x03000200 then
        if ports ∧ off % 64 = 0 then .ok (.inl (.port ((off - 0x03000000) / 64))) else .error bad
      else if readOnlyRow off ∧ write then .error (trapXlate xPerm ea true)
      else if 0x04000000 ≤ off ∧ off + len ≤ 0x04000008 then .ok (.inl .timebase)
      else .error bad

/-- Whether a device page is being moved in a way the access must wait for (R83, R84). -/
def State.moveBlocks (s : State) (loc : Nat) : Bool := isDev loc && s.moveLands loc

/-- Whether a global address has a set bit where its space has zeros (R43). -/
def badForm (a : Word) : Bool :=
  match spaceOf a with
  | 0 => bits a 61 57 ≠ 0
  | 1 => false
  | 2 => bits a 61 52 ≠ 0
  | _ => bits a 61 32 ≠ 0

/-- Translates for an access of a process. A miss asks a walker, and the process leaves barrel rotation until the answer is there
(R75); the instruction then issues again. -/
def xlate (p : Pid) (x : XCtx) (va : Nat) (a : Acc) : Exec (Except Nat TlbE) := do
  let s ← get
  match s.tlbAnswer x va a with
  | (some r, s) => do set s; pure r
  | (none, s) => do
    set s
    let pr ← getProc p
    match pr.asked.bind fun q => if q.covers x va a then q.ans else none with
    | some (some k) => do
      modProcE p fun pr => { pr with asked := none }
      pure (.error k)
    | some none => do
      -- the entry was replaced before the process came back: it walks within the instruction
      modProcE p fun pr => { pr with asked := none }
      let (r, s) := (← get).walkFor x va a
      set s
      pure r
    | none => do
      modS fun s => s.askWalk p x va a
      stall

/-- check_space and translation of one line or less. -/
def resolve (p : Pid) (ea : Word) (len : Nat) (a : Acc) (ports : Bool) : Exec Place := do
  let s ← get
  let pr ← getProc p
  match s.checkSpace pr ea len a.isWrite ports with
  | .error t => raiseTrap t
  | .ok (.inl pl) => pure pl
  | .ok (.inr va) =>
    match ← xlate p (s.xctx pr false) va a with
    | .error k => raiseTrap (trapXlate k ea a.isWrite)
    | .ok e => do
      let s ← get
      let loc := leafAddr e va
      if s.moveBlocks loc then waitOn .reply 0 0
      pure (.mem loc)

def trapAlign (ea : Word) (write : Bool) : TrapInfo := { cls := 6, addr := ea, aux := if write then field 1 61 else 0 }
def trapPoison (ea : Word) (write : Bool) : TrapInfo := { cls := 7, addr := ea, aux := if write then field 1 61 else 0 }
def trapFabric (kind aux : Nat) (ea : Word) (write : Bool) : TrapInfo :=
  { cls := 8, kind := kind, addr := ea, aux := (if write then field 1 61 else 0) ||| BitVec.ofNat 64 aux }
def trapWindow (kind : Nat) : TrapInfo := { cls := 13, kind := kind }

/-- check_space, alignment to `al` bytes and translation of one line or less, in the order of R191. -/
def resolveAl (p : Pid) (ea : Word) (len al : Nat) (a : Acc) (ports : Bool) : Exec Place := do
  let s ← get
  let pr ← getProc p
  match s.checkSpace pr ea 1 a.isWrite ports with
  | .error t => raiseTrap t
  | .ok _ => do
    guardTrap (!aligned ea.toNat al) (trapAlign ea a.isWrite)
    resolve p ea len a ports

/-- Addresses of the lines of a wide access. -/
def lineAddrs (ea : Word) (n : Nat) : List Word := (List.range n).map fun i => ea + BitVec.ofNat 64 (64 * i)

/-- Every line of a wide access: the space of its address, alignment, the spaces of its lines, then translations, in address order
(R73, R191). -/
def resolveLines (p : Pid) (eas : List Word) (a : Acc) : Exec (List (Word × Place)) := do
  let s ← get
  let pr ← getProc p
  let bad : Nat → Word → Option TrapInfo := fun n ea => match s.checkSpace pr ea n a.isWrite false with | .error t => some t | .ok _ => none
  match bad 1 (eas.headD 0) with
  | some t => raiseTrap t
  | none => do
    guardTrap (!aligned (eas.headD 0).toNat 64) (trapAlign (eas.headD 0) a.isWrite)
    match eas.findSome? (bad 64) with | some t => raiseTrap t | none => pure ()
    eas.mapM fun ea => do pure (ea, ← resolve p ea 64 a false)

/-! ## Waiting for lines and slots (R147, R186) -/

/-- Touches the window that holds a location and waits for its line; waits for a locked slot. -/
def waitPlace (p : Pid) (pl : Place) : Exec Unit := do
  let s ← get
  let pr ← getProc p
  match pl with
  | .acc k _ => match Tab.get? k (s.cluster pr.cl).slots with
    | some x => if x.lock then waitOn .lease (slotAddr x.tslot) 0 else pure ()
    | none => pure ()
  | .mem loc =>
    if isSram loc then
      let off := loc - sramLoc pr.cl 0
      match s.windowAt pr.cl off with
      | none => pure ()
      | some (k, w) => do
        modS fun s => s.startFill pr.cl k
        if s.isFull pr.cl (off / 64) then pure ()
        else if w.fst = .failed then raiseTrap (trapWindow 6)
        else waitOn .window (BitVec.ofNat 64 w.num) 0
    else pure ()
  | _ => pure ()

def waitPlaces (p : Pid) (pls : List Place) : Exec Unit := pls.forM (waitPlace p)

/-! ## Watchpoints (R440, R441) -/

/-- Where a watchpoint of a process is armed (R440): none when it can never match, some none when it cannot be armed. -/
def State.watchPlace (s : State) (p : Pid) (pr : Proc) (w : Nat) : Option (Option Armed) × State :=
  let x := Tab.getD (4 + w) pr.ctx.dbg 0
  let a := bits x 56 0
  let size := 2 ^ bits x 59 57
  let e : Armed := { pid := p, w := w, loc := 0, size := size, typ := BitVec.ofNat 2 (bits x 61 60) }
  if bits x 61 60 = 0 ∨ bits x 59 57 = 7 then (none, s)
  else if spaceOf x = 3 then
    let off := if a < s.spmBytes pr.team then s.spmOf pr.team + a else a
    let loc := if a < s.spmBytes pr.team then sramLoc pr.cl off
      else match (s.cluster pr.cl).slotOf pr.team (BitVec.ofNat 2 ((a - 0x02000000) / accBytes)) with
        | some k => accLoc pr.cl k + (a - 0x02000000) % accBytes
        | none => sramLoc pr.cl a
    (some (some { e with loc := loc }), s)
  else if spaceOf x = 0 then
    match s.translate (s.xctx { pr with svc := none } false) a .read with
    | (.ok t, s) => if bit t.leaf 11 then (some none, s) else (some (some { e with loc := leafAddr t a }), s)
    | (.error _, s) => (some none, s)
  else (none, s)

/-- Arms the enabled watchpoints of a process anew (R440): one that finds no place loses its WPE bit. -/
def State.rearm (s : State) (p : Pid) : State :=
  let drop : List Armed → List Armed := fun l => l.filter fun a => a.pid ≠ p
  let s : State := { s with
    clusters := s.clusters.map fun (e : Nat × Cluster) => (e.1, { e.2 with armed := drop e.2.armed })
    memdies := s.memdies.map fun (e : Nat × MemDie) => (e.1, { e.2 with armed := drop e.2.armed }) }
  (List.range 4).foldl (fun s w =>
    match s.proc? p with
    | none => s
    | some pr =>
      if !bit pr.dbgEn (5 + w) then s
      else
        let off : State → State := fun s => s.modProc p fun pr => { pr with dbgEn := pr.dbgEn &&& ~~~(field 1 (5 + w)) }
        match s.watchPlace p pr w with
        | (none, s) => s
        | (some none, s) => off s
        | (some (some e), s) =>
          if isDev e.loc then
            if 64 ≤ (s.memDie (dieOf e.loc)).armed.length then off s
            else s.modMemDie (dieOf e.loc) fun m => { m with armed := m.armed ++ [e] }
          else if 64 ≤ (s.cluster pr.cl).armed.length then off s
          else s.modCluster pr.cl fun c => { c with armed := c.armed ++ [e] }) s

/-- Armed entries that an access of `n` bytes at a location touches. -/
def State.watchers (s : State) (cl loc n : Nat) : List Armed :=
  (if isDev loc then (s.memDie (dieOf loc)).armed else (s.cluster cl).armed).filter fun a => loc < a.loc + a.size && a.loc < loc + n

/-- Whether an entry's TYPE takes an access: 1 read, 2 write, 3 both, as AMO and CAS are. -/
def Armed.takes (a : Armed) (rw : Nat) : Bool := a.typ.toNat &&& rw ≠ 0

/-- Notes the armed watchpoints that an access of the process hits: its own, and on an atomic inside a chunk every one. `rw` as
in `Armed.takes`; `kind` as DWHIT0 shows it. -/
def noteHit (p : Pid) (rw kind loc n : Nat) (others : Bool) : Exec Unit := do
  let s ← get
  let pr ← getProc p
  if (s.cluster pr.cl).dm.att then
    match (s.watchers pr.cl loc n).filter fun a => (others || a.pid = p) && a.takes rw with
    | [] => pure ()
    | hit => modProcE p fun pr => { pr with hits := pr.hits ++ hit.map fun a => (a.pid, a.w, kind) }
  else pure ()

/-- A plain access: kind 1 read, 2 write. -/
def noteWatch (p : Pid) (kind loc len : Nat) : Exec Unit := noteHit p kind kind loc len false

/-- A watchpoint hit is reported: DWHIT0 and DWHIT1, and the trigger at the owner's cluster. -/
def State.watchHit (s : State) (cl w kind : Nat) (owner : Pid) (accessor : Nat) (stopped : Option Pid) : State :=
  (s.modCluster cl fun c => { c with dm := { c.dm with
    dwhit0 := field kind 62 ||| field (owner % 2 ^ 32) 30, dwhit1 := BitVec.ofNat 64 accessor } }).trigger cl 5 w stopped false

/-- An atomic performed at a home reports the armed entries of others than its issuer to their clusters (R441). -/
def State.watchAtomic (s : State) (loc n rw : Nat) (accessor : Nat) : State :=
  let cl := if isSram loc then (loc - sramBase) / 2 ^ 32 else 0
  ((s.watchers cl loc n).filter fun a => s.key a.pid ≠ accessor && a.takes rw).foldl (fun s a =>
    match s.proc? a.pid with
    | some pr => if (s.cluster pr.cl).dm.att then s.watchHit pr.cl a.w 3 a.pid accessor none else s
    | none => s) s

/-! ## The store buffer of a chunk (R185, R188) -/

/-- Adds a line to a signature. -/
def insertSig (l : Nat) (sig : List Nat) : List Nat := insertNat (lineOf l) sig

def readSig (p : Pid) (loc : Nat) : Exec Unit :=
  modProcE p fun pr => { pr with chunk := pr.chunk.map fun c => { c with rsig := insertSig loc c.rsig } }
def writeSig (p : Pid) (loc : Nat) : Exec Unit :=
  modProcE p fun pr => { pr with chunk := pr.chunk.map fun c => { c with wsig := insertSig loc c.wsig } }

/-- Buffered bytes of a process. -/
def Proc.buf (pr : Proc) : Tab Byte := match pr.chunk with | some c => c.buf | none => []

/-- Bytes from a location as the process's own buffered stores leave them. -/
def overlay (buf : Tab Byte) : Nat → List Byte → List Byte
  | _, [] => []
  | loc, b :: bs => Tab.getD loc buf b :: overlay buf (loc + 1) bs

/-- Whether `n` bytes from a location are all buffered. -/
def covered (buf : Tab Byte) (loc n : Nat) : Bool := (List.range n).all fun i => (Tab.get? (loc + i) buf).isSome

/-- Adds bytes to a buffer. -/
def bufBytes (buf : Tab Byte) : Nat → List Byte → Tab Byte
  | _, [] => buf
  | loc, b :: bs => bufBytes (Tab.put loc b buf) (loc + 1) bs

/-- The buffered bytes of one line as data and mask. -/
def bufLine (buf : Tab Byte) (line : Nat) : Line × BitVec 64 :=
  (List.range 64).foldl (fun r i => match Tab.get? (line + i) buf with
    | some b => (r.1 ||| (BitVec.setWidth 512 b <<< (8 * i)), r.2 ||| ((1 : BitVec 64) <<< i))
    | none => r) (0, 0)

/-- Lines a buffer names, rising. -/
def bufLines (buf : Tab Byte) : List Nat := buf.foldl (fun l e => insertNat (lineOf e.1) l) []

/-! ## Performing stores (R188, R304) -/

/-- Lines of a cluster cache, 4 MiB, and of a core's data cache, 64 KiB (R187). -/
def cacheLines : Nat := 65536
def dataLines : Nat := 1024

/-- The bits of the bytes that a mask names. -/
def byteBits (mask : BitVec 64) : Line :=
  (List.range 64).foldl (fun m i => if mask.getLsbD i then m ||| ((255 : Line) <<< (8 * i)) else m) 0

/-- A line that a cache does not hold. -/
def noLine : CLine := { data := 0, valid := 0, dirty := 0, poison := false }

/-- Bytes enter a cached line. A whole line takes a fresh code and no poison (R53). -/
def CLine.merge (c : CLine) (data : Line) (mask : BitVec 64) : CLine :=
  let m := byteBits mask
  { c with
    data := (c.data &&& ~~~m) ||| (data &&& m)
    valid := c.valid ||| mask
    poison := c.poison && mask ≠ fullMask
    code := if mask = fullMask then 0 else c.code }

/-- A full cluster cache gives up a line of free choice, its dirty bytes written back. -/
def State.makeRoom (s : State) (cl line : Nat) : State :=
  let c := (s.cluster cl).cache
  if c.length < cacheLines ∨ (Tab.get? line c).isSome then s
  else
    let (k, s) := s.freeNat
    match (c)[k % cacheLines]? with | some e => s.dropLine cl e.1 | none => s

/-- Puts bytes into the cluster cache; `by_` is the process whose store they are, which makes them dirty. -/
def State.cachePut (s : State) (cl line : Nat) (data : Line) (mask : BitVec 64) (by_ : Option Pid) : State :=
  let s := s.makeRoom cl line
  let c := ((Tab.get? line (s.cluster cl).cache).getD noLine).merge data mask
  let c := if by_.isSome then { c with dirty := c.dirty ||| mask, by_ := by_ } else c
  s.modCluster cl fun d => { d with cache := Tab.put line c d.cache }

/-- The data caches of a cluster when a core stores bytes of a line (R188): the core's own copy takes them, every other core's is
invalidated. -/
def State.coherent (s : State) (cl core line : Nat) (data : Line) (mask : BitVec 64) : State :=
  s.modCluster cl fun d =>
    let d := d.dropData (some core) line
    { d with dcache := Tab.modify core (Tab.modify line fun c => c.merge data mask) d.dcache }

/-- Fills a line into a core's data cache; a full one gives up a line of free choice. -/
def State.dataPut (s : State) (cl core line : Nat) (c : CLine) : State :=
  let l := Tab.getD core (s.cluster cl).dcache []
  let (l, s) := if l.length < dataLines ∨ (Tab.get? line l).isSome then (l, s)
    else let (k, s) := s.freeNat; (l.eraseIdx (k % dataLines), s)
  s.modCluster cl fun d => { d with dcache := Tab.put core (Tab.put line c l) d.dcache }

/-- A cached copy is checked where it is read, at a point of R51: the ECC of its array, and the code it carries. -/
def State.checkCopy (s : State) (cl array point line : Nat) (c : CLine) : CLine × State :=
  let (bad, s) := s.eccArray cl array point (paOf line)
  if bad then ({ c with poison := true, code := c.code ||| 1 }, s)
  else if c.code ≠ 0 ∧ ¬ c.poison then ({ c with poison := true }, s.machineCheck 1 point (s.clusterSite cl) (paOf line))
  else (c, s)

/-- Global address of a remote location. -/
def remoteAddr (loc : Nat) : Word := field 1 62 ||| BitVec.ofNat 64 (bits (BitVec.ofNat 64 (loc - remoteBase)) 61 0)

/-- A line of device memory as the cluster's cache and its home show it together. -/
def State.seenLine (s : State) (cl line : Nat) : Line :=
  match Tab.get? line (s.cluster cl).cache with
  | none => s.lineData line
  | some c =>
    let m := byteBits c.valid
    (s.lineData line &&& ~~~m) ||| (c.data &&& m)

/-- Keeps what a line held before a store to it, for every process that has not synchronised its fetch since (R39). -/
def State.keepOld (s : State) (cl loc : Nat) : State :=
  let line := lineOf loc
  let log := Tab.getD line s.ilog []
  if !(isDev line || (hostBase ≤ line && line < remoteBase)) || (log.head?.any fun e => e.1 = s.syncs) then s
  else
    let whole := isDev line || (Tab.get? line (s.cluster cl).cache).any fun c => c.valid = fullMask
    let keep := log.filter fun e => s.procs.any fun x => x.2.isync ≤ e.1
    { s with ilog := Tab.put line ((s.syncs, if whole then some (s.seenLine cl line) else none) :: keep) s.ilog }

/-- What a process's fetch sees of a line instead of its present bytes, when a store has changed it since the process last
synchronised: the line as it was, or none inside for a line of the host that is to be asked for. -/
def State.fetchOld (s : State) (pr : Proc) (line : Nat) : Option (Option Line) :=
  ((Tab.getD line s.ilog []).filter fun e => pr.isync ≤ e.1).getLast?.map (·.2)

/-- A process's next fetch sees every store so far. -/
def State.syncFetch (s : State) (p : Pid) : State :=
  ({ s with syncs := s.syncs + 1 } : State).modProc p fun pr => { pr with iwords := [], isync := s.syncs + 1 }

/-- A store of bytes of one line to space 0b01 is performed or sent (R113). One that this device's own window serves is outstanding
while a move holds it. -/
def State.remoteStore (s : State) (p : Pid) (cl line : Nat) (data : Line) (mask : BitVec 64) : State :=
  let (off, req) := lineReq data mask
  let a := remoteAddr (line + off)
  let dev := bits a 61 51
  if s.noDev dev then s.holdFault p 8 1 0 1 false a
  else if dev ≠ s.dev then s.sendStoreReq cl (some p) 1 line a req
  else match s.exportAt a .write false with
    | (.error (k, x), s) => s.holdFault p 8 k x 1 false a
    | (.ok h, s) =>
      let s := s.keepOld cl h
      if hostBase ≤ h then s.sendStoreReq cl (some p) 1 line (hostAddr h) req
      else match s.moveOf h with
        | none => s.writeAcross cl (some p) (lineOf h) fun s => s.performWrite (lineOf h) data mask
        | some m =>
          let id := s.nextAcc
          (({ s with nextAcc := id + 1 } : State).hold h m (.write (some cl) (some (p, id)) (lineOf h) data mask false)).modProc p fun pr =>
            { pr with outs := pr.outs ++ [{
                id := id, space := 1, line := line, red := false, scope := 0, take := [], hold := none }] }

/-- Whether a byte is the high byte of a cell of an accumulator slot in a float mode, which a process store does not change (R263). -/
def State.accFixed (s : State) (cl loc : Nat) : Bool :=
  let off := loc - sramLoc cl 0x02000000
  decide (sramLoc cl 0x02000000 ≤ loc) && isSram loc && off % accBytes % 5 = 4 &&
    (Tab.get? (off / accBytes) (s.cluster cl).slots).any fun k =>
      k.mode.any fun m => match m with | .bf16 | .f8a | .f8ab | .f8ba | .f8b => true | _ => false

/-- The bytes of a line's mask that a process store changes. -/
def State.accMask (s : State) (cl line : Nat) (mask : BitVec 64) : BitVec 64 :=
  (List.range 64).foldl (fun m i => if s.accFixed cl (line + i) then m &&& ~~~((1 : BitVec 64) <<< i) else m) mask

/-- Performs stored bytes of one line for the cluster (R188): SRAM directly, spaces 0b00 and 0b10 in the cluster cache, space
0b01 at its home. -/
def State.performLine (s : State) (p : Pid) (cl line : Nat) (data : Line) (mask : BitVec 64) : State :=
  if isSram line then
    let mask := if sramLoc cl 0x02000000 ≤ line then s.accMask cl line mask else mask
    (s.foldLine line).storeLine line data mask
  else if remoteBase ≤ line then s.remoteStore p cl line data mask
  else
    let core := ((s.proc? p).map Proc.unit).getD 0
    ((s.keepOld cl line).cachePut cl line data mask (some p)).coherent cl core line data mask

/-- Performs a buffer of stores. -/
def State.performBuf (s : State) (p : Pid) (cl : Nat) (buf : Tab Byte) : State :=
  (bufLines buf).foldl (fun s l => let r := bufLine buf l; s.performLine p cl l r.1 r.2) s

/-- A write of a cluster's process outside every chunk takes a place in the commit order, so that a chunk that read the line before
it runs again (R304; DEDUCED, log entry 14). -/
def State.noteWrite (s : State) (cl loc : Nat) : State :=
  s.modCluster cl fun c => { c with wsets := c.wsets ++ [(c.seq, [lineOf loc])], seq := c.seq + 1 }

/-- Turns the chunk's pending reductions on a line into buffered bytes, so that a later access of the chunk sees them (R295,
R304). On a poisoned line they fail, whatever the later access stores (R286, R297). -/
def settleReds (p : Pid) (line : Nat) : Exec Unit := do
  let s ← get
  let pr ← getProc p
  match pr.chunk with
  | none => pure ()
  | some c =>
    let mine := c.reds.filter fun r => lineOf r.loc = line && !r.failed
    if mine = [] then pure ()
    else
      let d := bufLine c.buf line
      let t := (s.foldLine line).storeLine line d.1 d.2
      if t.isPoison line then
        modProcE p fun pr => { pr with chunk := some { c with
          reds := c.reds.map fun r => if lineOf r.loc = line then { r with failed := true } else r, rsig := insertSig line c.rsig } }
      else do
        let t := mine.foldl (fun (t : State) r => (t.homeAtomic r.loc r.op).2) t
        let t := t.foldLine line
        let buf := mine.foldl (fun b r => bufBytes b r.loc (Memory.read t.mem r.loc (opBytes r.op))) c.buf
        modProcE p fun pr => { pr with chunk := some { c with
          buf := buf, reds := c.reds.filter fun r => lineOf r.loc ≠ line || r.failed, rsig := insertSig line c.rsig } }

/-- The accesses of a process to one line are performed in program order (R286): a later one waits for a reduction on its way. -/
def waitLine (p : Pid) (loc : Nat) : Exec Unit := do
  let pr ← getProc p
  if pr.outs.any fun o => o.red && o.line = lineOf loc then waitOn .reply 0 0

/-- Stores bytes at a location: into the chunk, or at once outside every chunk. -/
def storeLoc (p : Pid) (loc : Nat) (bs : List Byte) : Exec Unit := do
  waitLine p loc
  settleReds p (lineOf loc)
  writeSig p loc
  noteWatch p 2 loc bs.length
  let pr ← getProc p
  let s ← get
  let kept := (bufBytes [] loc bs).filter fun e => !s.accFixed pr.cl e.1
  match pr.chunk with
  | some _ => modProcE p fun pr => { pr with chunk := pr.chunk.map fun c => { c with
      buf := kept.foldl (fun b e => Tab.put e.1 e.2 b) c.buf } }
  | none => modS fun s => (s.performBuf p pr.cl (bufBytes [] loc bs)).noteWrite pr.cl loc

/-! ## Loads -/

/-- A request goes out for a line that comes from outside the device; the process waits for its reply. The second component of
the answer is the line once it has come. -/
def outsideLine (p : Pid) (ea : Word) (key : Nat) (addr : Word) : Exec Line := do
  let pr ← getProc p
  let s ← get
  match pr.op with
  | some o =>
    match Tab.get? key o.got with
    | some l => pure l
    | none =>
      match o.res with
      | .ok v =>
        if o.key = key then do
          modProcE p fun pr => { pr with op := some { o with res := .waiting, key := 0, got := Tab.put key (v.setWidth 512) o.got } }
          pure (v.setWidth 512)
        else do
          -- the answer to another line of the access is kept, and this line is asked for
          set ({ s with nextReq := s.nextReq + 1 }.emit (.request p s.nextReq addr 64))
          modProcE p fun pr => { pr with op := some {
            id := s.nextReq, key := key, res := .waiting, got := Tab.put o.key (v.setWidth 512) o.got } }
          waitOn .reply addr 0
      | .trap cls kind aux => do
        modProcE p fun pr => { pr with op := none }
        raiseTrap { cls := cls, kind := kind, addr := ea, aux := BitVec.ofNat 64 aux }
      | _ =>
        if o.key = key then waitOn .reply addr 0
        else do
          set ({ s with nextReq := s.nextReq + 1 }.emit (.request p s.nextReq addr 64))
          modProcE p fun pr => { pr with op := some { o with id := s.nextReq, key := key, res := .waiting } }
          waitOn .reply addr 0
  | none => do
    set ({ s with nextReq := s.nextReq + 1 }.emit (.request p s.nextReq addr 64))
    modProcE p fun pr => { pr with op := some { id := s.nextReq, key := key, res := .waiting, got := [] } }
    waitOn .reply addr 0

/-- A packet cannot be delivered (R62): the requester's access faults, with a kind that the spec leaves open (log entry 11). -/
def undeliverable (site pa : Nat) (ea : Word) (write : Bool) : Exec Unit := do
  modS fun s => s.machineCheck 4 0 site pa
  let s ← get
  let (k, s) := s.freeNat
  set s
  raiseTrap (trapFabric (k % 256) 0 ea write)

/-- A request of a process crosses the mesh to a home die (R60 to R62). -/
def crossOut (p : Pid) (loc : Nat) (ea : Word) (write : Bool) : Exec Unit := do
  let s ← get
  let pr ← getProc p
  match s.refusedAt (s.clusterSite pr.cl) (memSite (dieOf loc)) with
  | some site => undeliverable site (lineOf loc) ea write
  | none => pure ()

/-- Its reply comes back, and PLAT records it (R64); `src2` for an access through this device's own export window. -/
def crossBack (p : Pid) (loc : Nat) (hit src2 : Bool) (ea : Word) (write : Bool) : Exec Unit := do
  let s ← get
  let pr ← getProc p
  let src := s.clusterSite pr.cl
  let dst := memSite (dieOf loc)
  match s.refusedAt dst src with
  | some site => undeliverable site (lineOf loc) ea write
  | none => do
    let (i, s) := s.homePlat src (dieOf loc) ((s.routeHops src dst).getD 0) ((s.routeHops dst src).getD 0) hit
    set (s.setPlat p (if src2 then { i with src := 2 } else i))

/-- Fetches a line of device memory into the cluster cache; dirty bytes stay. A write of the cluster to the line that a move holds
comes first (R84). -/
def fetchLine (p : Pid) (line : Nat) (ea : Word) : Exec CLine := do
  let pr ← getProc p
  if (← get).heldOf pr.cl (some line) then waitOn .reply 0 0
  crossOut p line ea false
  let s ← get
  let s := s.maySpill (some pr.cl) line
  let s := s.racHit (.site (s.clusterSite pr.cl)) line
  let (hit, s) := s.touchHome line
  set s
  crossBack p line hit false ea false
  let s ← get
  let old := (Tab.get? line (s.cluster pr.cl).cache).getD noLine
  let s := s.cachePut pr.cl line (s.lineData line) (~~~old.dirty) none
  let s := s.modCluster pr.cl fun d => { d with
    cache := Tab.modify line (fun (c : CLine) => { c with poison := s.isPoison line, code := Tab.getD line s.codeErr 0 }) d.cache }
  set s
  pure ((Tab.get? line (s.cluster pr.cl).cache).getD old)

/-- Whether a resident line shows what its home holds. -/
def State.fresh (s : State) (c : CLine) (line : Nat) : Bool :=
  let keep := c.valid &&& ~~~c.dirty
  (s.redSlots.all fun r => lineOf r.loc ≠ line) &&
    (List.range 64).all fun i => !keep.getLsbD i || c.data.extractLsb' (8 * i) 8 = Memory.get (line + i) s.mem

/-- A line of space 0b00 or 0b10 as the cluster cache gives it, with the bytes in `need` (R187, R311). A resident line that its home
no longer agrees with may or may not have been dropped meanwhile. -/
def clusterLine (p : Pid) (line : Nat) (need : BitVec 64) (ea : Word) : Exec CLine := do
  let pr ← getProc p
  let s ← get
  let here := Tab.get? line (s.cluster pr.cl).cache
  match here.filter fun c => c.valid &&& need = need with
  | some c => do
    let (c, s) := s.checkCopy pr.cl (cacheArray pr.cl line) 4 line c
    set (s.modCluster pr.cl fun d => { d with cache := Tab.put line c d.cache })
    if !isDev line || s.fresh c line || (s.moveOf line).isSome then pure c
    else do
      let (drop, s) := (← get).freeBool
      set s
      if drop then do
        modS fun s => s.dropLine pr.cl line
        fetchLine p line ea
      else pure c
  | none =>
    if isDev line then fetchLine p line ea
    else do
      let l ← outsideLine p ea line (hostAddr line)
      let old := here.getD noLine
      modS fun s => s.cachePut pr.cl line l (~~~old.dirty) none
      modProcE p fun pr => { pr with op := none }
      let s ← get
      pure ((Tab.get? line (s.cluster pr.cl).cache).getD old)

/-- Whether a line of a core's data cache shows what the cluster cache, and the home behind it, hold. -/
def State.dataFresh (s : State) (cl : Nat) (c : CLine) (line : Nat) : Bool :=
  match Tab.get? line (s.cluster cl).cache with
  | none => s.fresh { c with dirty := 0 } line
  | some k =>
    (!isDev line || s.fresh k line) &&
      (let seen := if k.valid = fullMask then k.data else s.seenLine cl line
       c.data &&& byteBits c.valid = seen &&& byteBits c.valid)

/-- A line of space 0b00 or 0b10 as a process's core sees it, with the bytes in `need` (R187). A line of its data cache that the
caches behind it no longer agree with may or may not have been dropped meanwhile. -/
def cacheLine (p : Pid) (line : Nat) (need : BitVec 64) (ea : Word) : Exec CLine := do
  let pr ← getProc p
  let s ← get
  if pr.outs.any fun o => o.line = line && o.take ≠ [] then waitOn .reply 0 0
  let fill : Exec CLine := do
    let c ← clusterLine p line need ea
    modS fun s => s.dataPut pr.cl pr.unit line { c with dirty := 0, by_ := none }
    pure c
  match (Tab.get? line (Tab.getD pr.unit (s.cluster pr.cl).dcache [])).filter fun c => c.valid &&& need = need with
  | none => fill
  | some c => do
    let (c, s) := s.checkCopy pr.cl (dcacheArray pr.cl pr.unit line) 5 line c
    let s := if c.poison then s.dataPut pr.cl pr.unit line c else s
    if s.dataFresh pr.cl c line || (s.moveOf line).isSome then do set s; pure c
    else do
      let (drop, s) := s.freeBool
      set s
      if drop then fill else pure c

/-- Whether a line that a cache holds may not serve as data: its own poison, or that of a home whose other bytes the cache does not
hold (R53). -/
def State.badCopy (s : State) (line : Nat) (c : CLine) : Bool := c.poison || (c.valid ≠ fullMask && isDev line && s.isPoison line)

/-- Bytes of a 64-byte value. -/
def lineBytes (l : Line) (off n : Nat) : List Byte := bytesLE n (l.toNat / 2 ^ (8 * off))

def maskOfRange (off n : Nat) : BitVec 64 := BitVec.ofNat 64 ((2 ^ n - 1) * 2 ^ off)

/-- Loads `n` bytes within one line. -/
def loadLoc (p : Pid) (loc n : Nat) (ea : Word) : Exec (List Byte) := do
  waitLine p loc
  readSig p loc
  noteWatch p 1 loc n
  settleReds p (lineOf loc)
  let pr ← getProc p
  let line := lineOf loc
  let whole := covered pr.buf line 64
  if isSram loc then do
    let s ← get
    let (_, s) := s.touchHome line
    set s
    if s.isPoison line && !whole then raiseTrap (trapPoison ea false)
    pure (overlay pr.buf loc (Memory.read s.mem loc n))
  else if covered pr.buf loc n && (whole || remoteBase ≤ loc) then pure (overlay pr.buf loc (List.replicate n 0))
  else if remoteBase ≤ loc then do
    let s ← get
    let a := remoteAddr loc
    let dev := bits a 61 51
    if s.lineTaken pr.cl line then waitOn .reply a 0
    if s.noDev dev then raiseTrap (trapFabric 1 0 ea false)
    if dev = s.dev then
      match s.exportAt a .read false with
      | (.error (k, x), s) => do set s; raiseTrap (trapFabric k x ea false)
      | (.ok h, s) => do
        set s
        if hostBase ≤ h then do
          let l ← outsideLine p ea line (hostAddr (lineOf h))
          pure (overlay pr.buf loc (lineBytes l (h % 64) n))
        else do
          if s.moveBlocks h then waitOn .reply 0 0
          crossOut p h ea false
          let s := s.maySpill none (lineOf h)
          let (hit, s) := s.touchHome (lineOf h)
          set s
          crossBack p h hit true ea false
          let s ← get
          if s.isPoison (lineOf h) then raiseTrap (trapFabric 5 0 ea false)
          pure (overlay pr.buf loc (Memory.read s.mem h n))
    else do
      let l ← outsideLine p ea line (remoteAddr line)
      pure (overlay pr.buf loc (lineBytes l (loc % 64) n))
  else do
    let c ← cacheLine p line (maskOfRange (loc % 64) n) ea
    if (← get).badCopy line c && !whole then raiseTrap (trapPoison ea false)
    pure (overlay pr.buf loc (lineBytes c.data (loc % 64) n))

/-! ## Release and acquire (R189, R299, R300) -/

/-- Scope codes of R301. -/
def scProc : Nat := 1
def scCluster : Nat := 3
def scDie : Nat := 4
def scDevice : Nat := 5
def scSystem : Nat := 6

/-- Whether a release of a scope waits for accesses of a space (the table of R299). -/
def waitsFor (scope : Nat) (fence : Bool) (space : Nat) : Bool :=
  if scDevice ≤ scope then true
  else if scope = scDie then fence || space ≠ 1
  else space = 3 || (fence && space = 1)

/-- Takes the earliest held fault that satisfies a test, as a precise trap (R114, R297). -/
def takeHeld (p : Pid) (f : HeldFault → Bool) : Exec Unit := do
  let pr ← getProc p
  match pr.held.find? f with
  | none => pure ()
  | some h => do
    modProcE p fun pr => { pr with held := pr.held.erase h }
    raiseTrap {
      cls := h.cls.toNat, kind := h.kind.toNat, addr := if h.red then 0 else h.addr
      aux := BitVec.ofNat 64 (h.aux % 256) ||| (if h.red then 0 else field 1 61), prf := h.red }

/-- The waiting part of a release: at DIE and wider the cluster's dirty lines are written back, and every write-back is acknowledged,
those that a move holds at the new home (R84, R189); acknowledgements and held faults follow R299 and R297. -/
def release (p : Pid) (scope : Nat) (fence : Bool) : Exec Unit := do
  let pr ← getProc p
  let s ← get
  if scDie ≤ scope then do
    set (s.writeBackAll pr.cl)
    let s ← get
    if (s.cluster pr.cl).wbacks ≠ [] || s.heldOf pr.cl none then waitOn .reply 0 0
  let pr ← getProc p
  if pr.outs.any fun o => waitsFor scope fence o.space then waitOn .reply 0 0
  takeHeld p fun h => h.red || waitsFor scope fence h.space

/-- The acquire's cache action. -/
def acquire (p : Pid) (scope : Nat) : Exec Unit := do
  let pr ← getProc p
  if scDie ≤ scope then modS fun s => s.invalClean pr.cl pr.unit

/-- A location whose page is moving holds writes and atomics (R83): the process waits. -/
def waitMove (loc : Nat) : Exec Unit := do
  let s ← get
  if (s.moveOf loc).isSome then waitOn .reply 0 0

end Sys2Proof.Machine
end

