-- ==== Sys2Proof/Machine/Operands.lean ====
section
/-! DEFINITION. Operand forms: the two-source mould (R221, R241), immediates, lanes and byte masks of vector and tile registers
(R241), tag and scale checks (R179, R242), and instruction fetch (R21, R39). -/

namespace Sys2Proof.Machine

/-! ## Scalar operands -/

/-- The sources of a "T opt" scalar form (R221). -/
def src2 (c : Ctx) (d s : SReg) (t : Option SReg) : Word × Word :=
  match t with
  | none => (c.rs d, c.rs s)
  | some t => (c.rs s, c.rs t)

/-- A two-source scalar form of page 0. -/
def runAlu2 (m : Mods) (d s : SReg) (t : Option SReg) (lat : Nat) (f : Word → Word → Word) (st : State) :
    Host.Outcome State Fault Refusal :=
  runReg m (lenOf m false t.isSome) true st fun pr =>
    let ab := src2 pr.ctx d s t
    .ok ({ pr with ctx := pr.ctx.ws d (f ab.1 ab.2) }, { outs := [outS d lat] })

/-- A scalar form of page 0 whose result depends on registers through `f`. -/
def runAlu1 (m : Mods) (d : SReg) (lat : Nat) (third : Bool) (f : Ctx → Word) (st : State) : Host.Outcome State Fault Refusal :=
  runReg m (lenOf m false third) true st fun pr =>
    .ok ({ pr with ctx := pr.ctx.ws d (f pr.ctx) }, { outs := [outS d lat] })

/-- A form that writes a predicate. -/
def runPred (m : Mods) (paged third : Bool) (d : PReg) (lat : Nat) (f : Ctx → Word) (st : State) :
    Host.Outcome State Fault Refusal :=
  runReg m (lenOf m paged third) true st fun pr =>
    .ok ({ pr with ctx := pr.ctx.wp d (f pr.ctx) }, { outs := [outP d lat] })

/-! ## Byte masks (R241) -/

/-- Predicate bit of byte b of a v register, or of a t register (bit b mod 32). -/
def laneBit (tile : Bool) (mask : Word) (b : Nat) : Bool := mask.getLsbD (if tile then b % 32 else b)

/-- The 32 mask bytes of one row, or the 64 of a vector, as bits. -/
def spread (mask : Word) : Nat → Nat
  | 0 => 0
  | n + 1 => spread mask n + (if mask.getLsbD n then 255 * 2 ^ (8 * n) else 0)

/-- n copies of a 256-bit row. -/
def rowsMask (row : Nat) : Nat → Nat
  | 0 => 0
  | n + 1 => row + 2 ^ 256 * rowsMask row n

def vecMask (mask : Word) : Line := BitVec.ofNat 512 (spread mask 64)
def tileMask (mask : Word) : TileData := BitVec.ofNat 8192 (rowsMask (spread mask 32) 32)

/-- New bytes where the mask has ones. -/
def blend {n : Nat} (mask old new : BitVec n) : BitVec n := (old &&& ~~~mask) ||| (new &&& mask)

/-- An element is written when any of its bytes is (R241). -/
def eltOn (tile : Bool) (mask : Word) (w i : Nat) : Bool :=
  if w < 8 then laneBit tile mask (i * w / 8)
  else (List.range (w / 8)).any fun k => laneBit tile mask (i * (w / 8) + k)

/-- Elements of a register's contents: `n` of width w. -/
def elts (w n x : Nat) : List Nat := (List.range n).map fun j => elt w x j

/-! ## Tag and scale checks (R179, R242) -/

/-- An operand of a vector or tile form: position, tag code, scale. -/
structure Opnd where
  pos : Nat
  tag : BitVec 4
  scale : BitVec 8

def vOp (c : Ctx) (pos : Nat) (r : VReg) : Opnd := ⟨pos, c.rvtag r, c.rvscale r⟩
def tOp (c : Ctx) (pos : Nat) (r : TReg) : Opnd := ⟨pos, c.rttag r, c.rtscale r⟩

/-- The tag of an operand; codes above 13 stand for none. -/
def Opnd.tag? (o : Opnd) : Option Tag := Tag.ofCode? o.tag.toNat
def Opnd.sigma (o : Opnd) : Int := o.scale.toInt
def Opnd.trap (o : Opnd) : TrapInfo := trapFormat o.pos o.tag.toNat

/-- A tag from a class, at one operand. -/
def needTag (o : Opnd) (ok : Tag → Bool) : Except TrapInfo Tag :=
  match o.tag? with
  | some t => if ok t then .ok t else .error o.trap
  | none => .error o.trap

/-- One tag, from a class, at every operand; the first operand in position order that breaks it is named. -/
def sameTag (ok : Tag → Bool) : List Opnd → Except TrapInfo Tag
  | [] => .ok .raw
  | o :: os => do
    let t ← needTag o ok
    match os.find? fun q => q.tag ≠ o.tag with
    | some q => .error q.trap
    | none => .ok t

/-- One scale at every operand. -/
def sameScale : List Opnd → Except TrapInfo Unit
  | [] => .ok ()
  | o :: os => match os.find? fun q => q.scale ≠ o.scale with | some q => .error q.trap | none => .ok ()

/-- The destination's scale is the sum of the multiplicands' (R242). -/
def sumScale (d a b : Opnd) : Except TrapInfo Unit := if d.sigma = a.sigma + b.sigma then .ok () else .error d.trap

/-- A result scale in range, or the trap at the last source whose scale enters it. -/
def fitScale (x : Int) (o : Opnd) : Except TrapInfo (BitVec 8) :=
  if -128 ≤ x ∧ x ≤ 127 then .ok (BitVec.ofInt 8 x) else .error o.trap

/-- Sources of a "T opt" vector or tile form with their positions. -/
def pos2 (three : Bool) : Nat × Nat := if three then (2, 3) else (1, 2)

def tagCode (t : Tag) : BitVec 4 := BitVec.ofNat 4 t.code

/-! ## Instruction fetch -/

def trapFetch (cls kind : Nat) (a : Word) : TrapInfo :=
  { cls := cls, kind := kind, addr := a, aux := field 1 62, noLen := true }

/-- The line of an instruction word as it stands: device memory at its home, counted there (R79) and seen with what the cluster
cache holds; a line of the host through the cluster cache. -/
def fetchLineWord (p : Pid) (line : Nat) (loc : Nat) (a : Word) : Exec Line := do
  let pr ← getProc p
  if isDev line then do
    if (← get).heldOf pr.cl (some line) then waitOn .reply 0 0
    crossOut p line a false
    let s ← get
    let s := (s.maySpill (some pr.cl) line).racHit (.site (s.clusterSite pr.cl)) line
    let s := (s.touchHome line).2
    set s
    match s.refusedAt (memSite (dieOf line)) (s.clusterSite pr.cl) with
    | some site => undeliverable site line a false
    | none => pure ()
    let s ← get
    if s.isPoison line then raiseTrap (trapFetch 7 0 a)
    pure (s.seenLine pr.cl line)
  else do
    let c ← clusterLine p line (maskOfRange (loc % 64) 2) a
    if c.poison then raiseTrap (trapFetch 7 0 a)
    pure c.data

/-- One instruction word. A word fetched since the last CTXSYNC, or pinned in the loop buffer, is used as it was fetched; a store
shows only after the process's CTXSYNC (R39). -/
def fetchWord (p : Pid) (a : Word) : Exec (BitVec 16) := do
  let s ← get
  let pr ← getProc p
  match pr.loop.bind fun l => Tab.get? a.toNat l.words with
  | some w => pure w
  | none =>
    if bits a 63 57 ≠ 0 then raiseTrap (trapFetch 5 xForm a)
    match ← xlate p (s.xctx pr true) (bits a 56 0) .fetch with
    | .error k => raiseTrap (trapFetch 5 k a)
    | .ok e => do
      let s ← get
      let loc := leafAddr e (bits a 56 0)
      match Tab.get? (loc / 2) pr.iwords with
      | some w => pure w
      | none =>
        if s.moveBlocks loc then waitOn .reply 0 0
        let line := lineOf loc
        let l ← (match s.fetchOld pr line with
          | some (some l) => pure l
          | some none => do
            let l ← outsideLine p a line (hostAddr line)
            modProcE p fun pr => { pr with op := none }
            pure l
          | none => fetchLineWord p line loc a : Exec Line)
        let w := BitVec.ofNat 16 (l.toNat / 2 ^ (8 * (loc % 64)))
        modProcE p fun pr => { pr with iwords := Tab.put (loc / 2) w pr.iwords }
        pure w

/-- The words of a chain from an address: at most five, ending at the first that is no prefix (R34). -/
def fetchChain (p : Pid) : Nat → Word → Exec (List (BitVec 16))
  | 0, _ => pure []
  | n + 1, a => do
    let w ← fetchWord p a
    if isPrefix w then do
      let ws ← fetchChain p n (a + 2)
      pure (w :: ws)
    else pure [w]

end Sys2Proof.Machine
end

