-- ==== Sys2Proof/Machine/Uses.lean ====
section
/-! DEFINITION. What an instruction reads and writes among the registers (R28, R32), which register lines it writes (R169, R177),
and where chunks end (R303). -/

namespace Sys2Proof.Machine

/-- A register as the short-stall record names it (R171): class 0 s, 1 v, 2 t, 3 p, and number. -/
abbrev RegName := BitVec 2 × BitVec 6

/-- Registers read and written. -/
structure Uses where
  reads : List RegName
  writes : List RegName
  deriving DecidableEq, Repr

/-- A register of a field's class. -/
def regName (c : RClass) (n : Nat) : List RegName :=
  match c with
  | .s => [(0, BitVec.ofNat 6 n)]
  | .v => [(1, BitVec.ofNat 6 n)]
  | .t => [(2, BitVec.ofNat 6 n)]
  | .p => [(3, BitVec.ofNat 6 n)]
  | _ => []

/-- Whether a form reads, and whether it writes, the register of its rd field. -/
def rdRole (page op : Nat) : Bool × Bool :=
  match page, op with
  | 0, 31 | 0, 32 | 0, 33 | 0, 34 | 0, 36 => (true, true)
  | 0, 41 | 0, 43 | 0, 45 | 0, 47 | 0, 49 => (true, false)
  | 0, 53 | 0, 54 | 0, 55 | 0, 58 => (true, false)
  | 1, 4 | 1, 5 | 1, 26 | 1, 32 | 1, 33 | 1, 34 | 2, 2 | 2, 6 | 2, 7 => (true, true)
  | 2, 18 | 2, 19 | 2, 24 | 3, 3 | 3, 4 => (true, false)
  | 3, 2 => (true, true)
  | 4, 1 | 4, 2 | 4, 4 | 4, 5 | 4, 6 | 4, 9 => (true, false)
  | 5, 2 | 5, 3 | 5, 4 | 5, 5 | 5, 7 | 5, 14 | 5, 15 | 5, 16 | 5, 32 => (true, false)
  | 5, 9 | 5, 10 => (false, false)
  | 6, 4 | 6, 5 | 6, 7 | 6, 18 | 6, 19 | 6, 24 | 6, 26 | 6, 32 | 6, 34 => (true, false)
  | _, _ => (false, true)

/-- Registers that the form's row does not show. -/
def moreUses (i : Instr) : Uses :=
  match i with
  | .jl _ _ => ⟨[], [(0, 63)]⟩
  | .ret _ => ⟨[(0, 63)], []⟩
  | .pmov _ (.pp d s) => ⟨[(3, s.setWidth 6)], [(3, d.setWidth 6)]⟩
  | .pmov _ (.ps d s) => ⟨[(0, s)], [(3, d.setWidth 6)]⟩
  | .pmov _ (.sp d s) => ⟨[(3, s.setWidth 6)], [(0, d)]⟩
  | .send _ d x _ st => ⟨match x with | .sc r => [(0, r)] | .vec r => [(1, r.setWidth 6)], if st then [(0, d)] else []⟩
  | .sendt _ d _ _ st => ⟨[], if st then [(0, d)] else []⟩
  | .chclose _ d st => ⟨[], if st then [(0, d)] else []⟩
  | .recv _ x s _ st => ⟨[], (match x with | .sc r => [(0, r)] | .vec r => [(1, r.setWidth 6)]) ++ (if st then [(0, s)] else [])⟩
  | .recvt _ _ s _ st => ⟨[], if st then [(0, s)] else []⟩
  | _ => ⟨[], []⟩

/-- The registers an instruction reads and writes. A form that takes two sources from rd and rs reads rd (R221), and a form whose
result PFX.Q merges byte by byte reads its destination (R241). -/
def usesOf (i : Instr) : Uses :=
  match enc i with
  | none => ⟨[], []⟩
  | some f =>
    match specOf f.page f.op with
    | none => ⟨[], []⟩
    | some sp =>
      let role := rdRole f.page f.op
      let d := regName sp.rd f.dN
      let q := match f.q with | some q => [((3 : BitVec 2), q.pred.setWidth 6)] | none => []
      let two := sp.third = 1 && f.t.isNone && f.page ≤ 2 && sp.rd = sp.rs
      let merges := f.q.isSome && (sp.rd = .v || sp.rd = .t) && role.2
      let t := match f.t with | some t => regName sp.rt t.toNat | none => []
      let more := moreUses i
      ⟨(if role.1 || two || merges then d else []) ++ regName sp.rs f.sN ++ t ++ q ++ more.reads,
       (if role.2 then d else []) ++ more.writes⟩

/-- The context-image lines of a register (R169). -/
def regLines (r : RegName) : List Nat :=
  let n := r.2.toNat
  if r.1 = 0 then (if n = 0 then [] else [n / 8])
  else if r.1 = 1 then [8 + n]
  else if r.1 = 2 then (List.range 16).map fun k => 40 + 16 * n + k
  else if n = 0 then [] else [168]

/-- Register lines an instruction writes. -/
def writeLines (i : Instr) : List Nat := ((usesOf i).writes.flatMap regLines).foldl (fun l n => insertNat n l) []

/-- Register lines an instruction reads or writes. -/
def useLines (i : Instr) : List Nat :=
  (((usesOf i).reads ++ (usesOf i).writes).flatMap regLines).foldl (fun l n => insertNat n l) []

/-- Whether an address lies in space 0b11. -/
def local11 (a : Word) : Bool := spaceOf a = 3

/-- Whether a load or store of the port forms reaches a port cell (R182). -/
def portCell (a : Word) : Bool := local11 a && 0x03000000 ≤ bits a 31 0 && bits a 31 0 < 0x03000200

/-- Whether a chunk ends before the instruction (R303). -/
def endsBefore (c : Ctx) (i : Instr) : Bool :=
  match i with
  | .ld _ _ s _ off | .lds _ _ s _ off | .st _ _ s _ off | .ldv _ _ s _ off | .stv _ _ s off => portCell (c.rs s + off)
  | .stl m _ _ _ => scCluster < scopeOf m
  | .amo m _ s _ _ _ | .cas m _ s _ _ => scCluster < scopeOf m || !local11 (c.rs s)
  | .red m d _ _ _ | .redf m d _ _ _ => scCluster < scopeOf m || !local11 (c.rs d)
  | .waitred _ | .fence _ _ => true
  | .mlease _ _ | .mrel _ | .mma _ _ _ _ _ _ | .mdrain _ _ _ _ | .mzero _ _ | .mwait _ _ | .mvmq _ _ _ _ _ => true
  | .wprobe _ _ _ | .cpyq _ _ _ | .self _ _ _ => false
  | .tlbi _ _ _ | .mtsr _ _ _ | .ctxsync _ | .trap _ _ => true
  | .gpri _ _ _ | .gqry _ _ _ | .gcan _ _ => true
  | .xbind _ _ _ | .xpin _ _ _ | .xmerge _ _ => true
  | i => match enc i with | some f => f.page = 4 || f.page = 5 | none => false

end Sys2Proof.Machine
end

