-- ==== Sys2Proof/Machine/RegCache.lean ====
section
/-! DEFINITION. The context image (R169 to R171) and the register caches: residency, fetches, victims and write-backs (R172 to
R176). A process's registers have one home in `Proc.ctx`; a register cache's line differs from its save area while it is dirty. -/

namespace Sys2Proof.Machine

/-! ## The image of a context (R169 to R171) -/

/-- Little-endian words of a number. -/
def natWords (n x : Nat) : List Word := (List.range n).map fun i => BitVec.ofNat 64 (x / 2 ^ (64 * i))

/-- A table of numbers packed w bits apart. -/
def packTab (w n : Nat) (f : Nat → Nat) : Nat := ((List.range n).map fun k => f k * 2 ^ (w * k)).sum

/-- The 16 bits of a short-stall entry. -/
def Outstanding.bits16 (o : Outstanding) : Nat := o.dist % 64 * 2 ^ 10 + o.cls.toNat * 2 ^ 8 + o.reg.toNat

/-- The 176 lines of a save area. -/
def Ctx.image (c : Ctx) : List Word :=
  let at8 := fun (t : Tab (BitVec 8)) k => (Tab.getD k t 0).toNat
  let at4 := fun (t : Tab (BitVec 4)) k => (Tab.getD k t 0).toNat
  let short := fun k => (c.short[k]?.map fun o => o.bits16).getD 0
  let l169 := packTab 4 32 (at4 c.vtag) + packTab 8 32 (at8 c.vscale) * 2 ^ 128 + c.flags.toNat * 2 ^ 384 +
    packTab 6 8 (fun q => (c.qbound.getLsbD q).toNat + 2 * (c.qout.getLsbD q).toNat) * 2 ^ 464
  BitVec.ofNat 64 (packTab 8 8 (at8 c.tscale)) :: ((List.range 63).map fun n => Tab.getD (n + 1) c.s 0) ++
    ((List.range 32).flatMap fun n => natWords 8 (Tab.getD n c.v 0).toNat) ++
    ((List.range 8).flatMap fun n => natWords 128 (Tab.getD n c.t 0).toNat) ++
    (BitVec.ofNat 64 (packTab 4 8 (at4 c.ttag)) :: (List.range 7).map fun n => Tab.getD (n + 1) c.p 0) ++
    natWords 8 l169 ++
    ((List.range 8).map fun i => Tab.getD i c.dbg 0) ++ ((List.range 8).map fun i => Tab.getD i c.rendez 0) ++
    [c.pctl, c.fctl, c.srstate, c.plat, c.vmctx, field c.phid.toNat 32 ||| field c.expect.toNat 0,
     field c.frac.toNat 56 ||| field c.padd.toNat 32 ||| field c.elapsed.toNat 0, BitVec.ofNat 64 (packTab 16 4 short)] ++
    ((List.range 8).map fun q => Tab.getD q c.qh 0) ++
    ((List.range 8).map fun i => BitVec.ofNat 64 (packTab 16 4 fun k => short (4 + 4 * i + k))) ++ List.replicate 8 0

/-- One line of the save area. -/
def Ctx.imageLine (c : Ctx) (l : Nat) : Line := BitVec.ofNat 512 (natLE (wordsBytes ((c.image.drop (8 * l)).take 8)))

/-! ## Save areas (R172) -/

/-- Where a line of a process's save area lies: in its cluster's context store, or in HBM. -/
def Proc.saveLine (pr : Proc) (l : Nat) : Nat := (if pr.incs then sramLoc pr.cl (0x80000000 + pr.base) else pr.base) + 64 * l

/-- Writes a line of the image to the save area when the cached copy is dirty; the copy stays, clean. -/
def State.saveRegLine (s : State) (p : Pid) (l : Nat) : State :=
  match s.proc? p with
  | none => s
  | some pr =>
    match Tab.get? l pr.rlines with
    | none => s
    | some r =>
      if !r.dirty then s
      else (s.setProc p { pr with rlines := Tab.put l { r with dirty := false } pr.rlines }).homeWrite (pr.saveLine l) (pr.ctx.imageLine l) fullMask

/-- Writes every dirty line of a process back and invalidates all of them (R176). -/
def State.flushRegs (s : State) (p : Pid) : State :=
  match s.proc? p with
  | none => s
  | some pr => ((Tab.keys pr.rlines).foldl (fun s l => s.saveRegLine p l) s).modProc p fun pr => { pr with rlines := [], rcore := none, fetching := [] }

/-- The lowest save area in HBM that no process has. -/
def State.freeArea (s : State) (p : Pid) : Nat :=
  ((List.range (s.procs.length + 1)).find? fun k =>
    !(s.procs.any fun e => e.1 ≠ p && !e.2.incs && e.2.base = s.phys.saveArea + 11264 * k)).getD 0 * 11264 + s.phys.saveArea

/-- The place of the context store that the cluster scheduler chooses, the lowest of 186, for a process or a new one. -/
def State.savePlace (s : State) (cl : Nat) (p : Pid) : Option Nat :=
  (List.range 186).find? fun k => !(s.procs.any fun e => e.1 ≠ p && e.2.cl = cl && e.2.incs && e.2.base = 11264 * k)

/-- The save area of a process on a cluster: in the context store while it has room, and in HBM otherwise. -/
def State.saveBase (s : State) (cl : Nat) (p : Pid) : Bool × Nat :=
  match s.savePlace cl p with
  | some k => (true, 11264 * k)
  | none => (false, s.freeArea p)

/-- A process has moved to another cluster: its lines were written back, and its save area travels there (R176). -/
def State.resave (s : State) (p : Pid) (old : Proc) : State :=
  match s.proc? p with
  | none => s
  | some pr =>
    let b := s.saveBase pr.cl p
    let pr' := { pr with incs := b.1, base := b.2 }
    let s := s.setProc p pr'
    if !old.incs && !b.1 && old.base = b.2 then s
    else (List.range 176).foldl (fun s l => s.homeWrite (pr'.saveLine l) (s.lineData (old.saveLine l)) fullMask) s

/-! ## Residency (R173) -/

/-- The lines of the image that an instruction's registers stand in, with those of the tags and scales of its vector and tile
registers. -/
def regLinesOf (i : Instr) : List Nat :=
  let u := usesOf i
  let rs := u.reads ++ u.writes
  let l := if rs.any fun r => r.1 = 1 then [169] else []
  let l := if rs.any fun r => r.1 = 2 then [0, 168] ++ l else l
  l.foldl (fun l n => insertNat n l) (useLines i)

/-- Lines of an instruction that are not resident in the cache of the core that is to issue it. -/
def Proc.missing (pr : Proc) (i : Instr) : List Nat :=
  if pr.rcore = some pr.unit then (regLinesOf i).filter fun l => (Tab.get? l pr.rlines).isNone else regLinesOf i

/-- Core cycles that a fetch of a line takes, unloaded: 20 from the context store; from HBM those of an ordinary load. -/
def State.fetchCycles (s : State) (pr : Proc) : Nat × State :=
  if pr.incs then (20, s)
  else
    let site := s.clusterSite pr.cl
    let die := dieOf pr.base
    let hops := fun a b => (s.routeHops a b).getD (hopsBetween a b)
    let (i, s) := s.homePlat site die (hops site (memSite die)) (hops (memSite die) site) ((s.memDie die).msc.contains (lineOf pr.base))
    (nsCycles i.lat, s)

/-- Takes a process out of rotation until lines of it are resident. The cache that held its lines before writes them back first
(R176): DESIGN CHOICE, in 20 core cycles (log entry 72). -/
def State.fetchRegs (s : State) (p : Pid) (pr : Proc) (ls : List Nat) : State :=
  let away := pr.rcore ≠ some pr.unit && pr.rlines.any fun e => e.2.dirty
  let s := if pr.rcore = some pr.unit then s else s.flushRegs p
  let (n, s) := s.fetchCycles pr
  let s := s.modProc p fun pr => { pr with rcore := some pr.unit, fetching := ls }
  ls.foldl (fun s l => s.sched (n + (if away then 20 else 0)) (.registerLineFetch p l)) s

/-- An instruction issues: its lines are in use, and those it writes are dirty. -/
def Proc.useRegs (pr : Proc) (i : Instr) (now : Nat) : Proc :=
  let w := writeLines i
  let ls := regLinesOf i
  { pr with
    inUse := ls
    rlines := pr.rlines.map fun (e : Nat × RLine) =>
      if ls.contains e.1 then (e.1, { dirty := e.2.dirty || w.contains e.1, used := now }) else e }

/-! ## Victims (R174) -/

/-- A process is resident on a core while it holds a barrel slot there, or a service slot of the Lamplighter. -/
def Proc.residentOn (pr : Proc) (unit : Nat) : Bool := pr.unit = unit && (pr.slot.isSome || pr.svc.isSome)

/-- A line is pinned while an instruction in flight reads or writes it, and while it holds a chunk shadow. -/
def Proc.pinned (pr : Proc) (l : Nat) : Bool :=
  (pr.op.isSome && pr.inUse.contains l) || (pr.ctx.short.any fun o => !o.settled && (regLines (o.cls, o.reg)).contains l) ||
    (pr.chunk.any fun c => c.shadow.contains l)

/-- The lines of a register cache: process, line, and the copy. -/
def State.regLinesOn (s : State) (cl unit : Nat) : List (Pid × Nat × RLine) :=
  (s.procs.filter fun e => e.2.cl = cl && e.2.rcore = some unit).flatMap fun e => e.2.rlines.map fun r => (e.1, r.1, r.2)

/-- The least recently used of some lines. -/
def leastUsed : List (Pid × Nat × RLine) → Option (Pid × Nat)
  | [] => none
  | e :: es => some (let b := es.foldl (fun b x => if x.2.2.used < b.2.2.used then x else b) e; (b.1, b.2.1))

/-- The victim of a fetch. Among evictable lines the rule names no order: DESIGN CHOICE, the least recently used (log entry 72). -/
def State.regVictim (s : State) (cl unit : Nat) : Option (Pid × Nat) :=
  let ls := s.regLinesOn cl unit
  let pr := fun (p : Pid) => (s.proc? p).getD {}
  let out := ls.filter fun e => !(pr e.1).residentOn unit && !(pr e.1).pinned e.2.1
  ((leastUsed (out.filter fun e => !e.2.2.dirty)).orElse fun _ => leastUsed out).orElse fun _ =>
    leastUsed (ls.filter fun e => (pr e.1).residentOn unit && !(pr e.1).pinned e.2.1)

/-- Makes room for one line in a register cache of 1,024 lines; whether there is room now. -/
def State.regRoom (s : State) (cl unit : Nat) : Bool × State :=
  if (s.regLinesOn cl unit).length < 1024 then (true, s)
  else
    match s.regVictim cl unit with
    | none => (false, s)
    | some (p, l) => (true, (s.saveRegLine p l).modProc p fun pr => { pr with rlines := Tab.del l pr.rlines })

/-- A register line arrives in a register cache (R173). A line that is not awaited any more is dropped. -/
def execRegisterLineFetch (pid : Pid) (line : Nat) (s : State) : Host.Outcome State Fault Refusal :=
  match s.proc? pid with
  | none => .next s
  | some pr =>
    if !pr.fetching.contains line then .next s
    else
      let s := (s.touchHome (lineOf (pr.saveLine line))).2
      match s.regRoom pr.cl pr.unit with
      | (false, s) => .next (s.sched 20 (.registerLineFetch pid line))
      | (true, s) => .next ((s.modProc pid fun pr => { pr with
          fetching := pr.fetching.filter (· ≠ line)
          rlines := Tab.put line { dirty := false, used := s.cycles } pr.rlines }).countCore pr.cl pr.unit 5)

end Sys2Proof.Machine
end

