-- ==== Sys2Proof/Machine/Chan.lean ====
section
/-! DEFINITION. Processes and channels (R321 to R345): handles and what they name, new processes, request-store entries of
messages, matching, buffers, reservations, closing, and the ends of channel operations. -/

namespace Sys2Proof.Machine

/-! ## Handles (R324 to R326) -/

def hEfmt (h : Word) : Nat := bits h 63 58
def hSclass (h : Word) : Nat := bits h 57 53
def hKind (h : Word) : Nat := bits h 52 50
def hDir (h : Word) : Bool := bit h 49
def hDev (h : Word) : Nat := bits h 48 38
def hIdx (h : Word) : Nat := bits h 31 0

/-- A handle from its fields. -/
def mkHandle (efmt sclass kind : Nat) (dir : Bool) (dev idx : Nat) : Word :=
  field efmt 58 ||| field sclass 53 ||| field kind 50 ||| field dir.toNat 49 ||| field dev 38 ||| field idx 0

/-- Whether no field is reserved or wrongly nonzero (R324). -/
def handleOk (h : Word) : Bool :=
  (hEfmt h ≤ 13 || hEfmt h = 63) && hSclass h ≤ 20 && bits h 37 32 = 0 && !(hKind h = 0 && hIdx h = 0)

/-- What a handle names. -/
inductive Target where
  /-- a channel end or a reply endpoint of this device: cluster and endpoint-table entry -/
  | ep (cl e : Nat)
  /-- a channel whose owning team is not dispatched yet (R363) -/
  | pending
  /-- a freed endpoint: the directory answers CLOSED (R336) -/
  | gone
  | server (die : Nat)
  | mail (m : Nat)
  | controller
  | expert (x : Nat)
  | service (idx : Nat)
  | remote (dev : Nat)
  deriving DecidableEq, Repr

/-- Directory key of a KIND 2 endpoint. -/
def replyKey (p : Pid) : Nat := 2 ^ 32 + p

/-- What the directory shows for a freed endpoint. -/
def closedMark : Nat × Nat := (4096, 0)

/-- Directory key of a handle of KIND 0 or 2. -/
def dirKey (h : Word) : Nat := if hKind h = 2 then replyKey (hIdx h) else hIdx h

/-- A channel declared by a launch whose owning team waits for dispatch. -/
def State.awaited (s : State) (idx : Nat) : Bool :=
  s.launches.any fun e => e.2.decls.any fun d => d.idx = idx &&
    (match s.team? d.team with | some t => t.state = .queued || t.state = .claimed | none => false)

/-- The endpoint a directory key leads to. -/
def State.lookup (s : State) (key : Nat) : Option Target :=
  match Tab.get? key s.dir with
  | some x => if x = closedMark then some .gone else some (.ep x.1 x.2)
  | none => if s.awaited key then some .pending else none

/-- An endpoint-table entry. -/
def State.endp? (s : State) (cl e : Nat) : Option Endp := Tab.get? e (s.cluster cl).endps
def State.setEndp (s : State) (cl e : Nat) (n : Endp) : State := s.modCluster cl fun c => { c with endps := Tab.put e n c.endps }
def State.modEndp (s : State) (cl e : Nat) (f : Endp → Endp) : State :=
  s.modCluster cl fun c => { c with endps := Tab.modify e f c.endps }

/-- A team's launch. -/
def State.launchOf (s : State) (pr : Proc) : Option Launch := s.launch? pr.lid

/-- Replaces a launch-relative handle by its channel-list entry (R326). -/
def State.unrelative (s : State) (pr : Proc) (h : Word) : Except TrapInfo Word :=
  if !handleOk h then .error (trapChan 2)
  else if hKind h ≠ 7 then .ok h
  else
    let e := ((s.launchOf pr).map fun l => Tab.getD (hIdx h) l.chans 0).getD 0
    if 255 < hIdx h ∨ e = 0 then .error (trapChan 2)
    else if hEfmt e ≠ hEfmt h ∨ hSclass e ≠ hSclass h then .error { cls := 12 }
    else .ok ((e &&& ~~~(field 1 49)) ||| field (hDir h).toNat 49)

/-- A slot of a host mailbox, as an address on memory die 0 (R340). -/
def mailSlot (m : Nat) (out : Bool) (k : Nat) : Nat := 0x190000 + 0x2000 * m + (if out then 0x1000 else 0) + 64 * (k % 64)

/-- A message has left a mailbox: one whose slot waited for its place is taken in (R90, R340). -/
def State.mailTook (s : State) (m : Nat) (b : Mailbox) : State :=
  let a := mailSlot m false b.eseq.toNat
  let s := (s.touchHome a).2
  if Memory.read64 s.mem (a + 56) ≠ b.eseq then { s with mailboxes := Tab.put m b s.mailboxes }
  else
    let b' := { b with eseq := b.eseq + 1, inbound := b.inbound ++ [Memory.read s.mem a 32] }
    ({ s with mailboxes := Tab.put m b' s.mailboxes } : State).homeWriteBytes (a + 56) (bytesLE 8 0)

/-- A launch owns a host mailbox (R340). -/
def State.ownsMail (s : State) (pr : Proc) (m : Nat) : Bool := m < 56 && ((s.launchOf pr).any fun l => bit l.mbox m)

/-- An expert belongs to the process's launch. -/
def State.ownsExpert (s : State) (pr : Proc) (x : Nat) : Bool := (s.expert? x).any fun e => e.lid = pr.lid

/-- Resolves a handle for a send or a receive (R325, R334, R350): the resolved handle and what it names. -/
def State.resolveEnd (s : State) (pr : Proc) (h0 : Word) (sending : Bool) : Except TrapInfo (Word × Target) :=
  match s.unrelative pr h0 with
  | .error t => .error t
  | .ok h =>
    let bad : Except TrapInfo (Word × Target) := .error (trapChan 2)
    let idx := hIdx h
    let typed := hEfmt h = 63 && 6 ≤ hSclass h
    if hKind h = 7 || !handleOk h then bad
    else if hDev h ≠ s.dev then
      if s.noOptics (hDev h) then .error { cls := 2 }
      else if hKind h = 1 || hKind h = 3 || hKind h = 4 || hKind h = 6 then bad
      else if hKind h = 2 && !typed then .error { cls := 12 }
      else if !sending || (hKind h ≠ 2 && !hDir h) then bad
      else .ok (h, .remote (hDev h))
    else
      match hKind h with
      | 0 =>
        if hDir h ≠ sending then bad
        else match s.lookup idx with
          | none => bad
          | some (.ep cl e) => if sending || ((s.endp? cl e).any fun n => n.team = pr.team) then .ok (h, .ep cl e) else bad
          -- a process of a team that is not dispatched cannot be the one that asks (R325)
          | some .pending => if sending then .ok (h, .pending) else bad
          | some t => .ok (h, t)
      | 1 => if !typed then .error { cls := 12 } else if !sending || s.mdies ≤ idx then bad else .ok (h, .server idx)
      | 2 =>
        if !typed then .error { cls := 12 }
        else match s.lookup (replyKey idx) with
          | none => bad
          | some t => if sending || ((s.procs.any fun e => e.1 = idx) && pr.team = idx / 256 && t ≠ .gone &&
              (match t with | .ep cl e => (s.endp? cl e).any fun n => n.idx = idx | _ => false)) then .ok (h, t) else bad
      | 3 => if hDir h ≠ sending || !s.ownsMail pr idx then bad else if 5 < hSclass h then .error { cls := 12 } else .ok (h, .mail idx)
      | 4 => if idx ≠ 0 || !sending then bad else .ok (h, .controller)
      | 5 => if !sending || !hDir h || !s.ownsExpert pr idx then bad else .ok (h, .expert idx)
      | _ =>
        if pr.svc.isNone then bad
        else if idx ≤ 2 || (s.teams.any fun e => faultIdx e.1 = idx) then .ok (h, .service idx) else bad

/-- A receive on a reply endpoint is for its own process alone (R325). -/
def ownReply (p : Pid) (h : Word) : Bool := hKind h ≠ 2 || hIdx h = p

/-- Scope of a channel operation (R315): CLUSTER, DEVICE or SYSTEM. -/
def scopeTo (pr : Proc) (t : Target) : Nat :=
  match t with
  | .ep cl _ => if cl = pr.cl then scCluster else scDevice
  | .mail _ | .remote _ => scSystem
  | _ => scDevice

/-! ## New processes (R322, R328, R337, R352, R362) -/

/-- The PID with the lowest free member number of a team. -/
def State.freeMember (s : State) (t : Nat) : Option Nat := Tab.freeKey s.procs (256 * t) 256

/-- Creates the reply endpoint of a process. With no free entry of the 4,096, it takes a number beyond them: DESIGN CHOICE, log entry 87. -/
def State.addReply (s : State) (cl t : Nat) (p : Pid) : State :=
  match Tab.freeKey (s.cluster cl).endps 0 8192 with
  | none => s
  | some e =>
    let n : Endp := { reply := true, buffered := true, depth := 16, team := t, idx := p, creator := some (s.key p) }
    ({ s with dir := Tab.put (replyKey p) (cl, e) s.dir }).setEndp cl e n

/-- A new process of a team: its registers zero but for what `f` sets, its controls the team's defaults, its save area
chosen by the cluster scheduler (R172). It is not yet in any queue. Its fetch sees every store so far: DESIGN CHOICE, log entry 73. -/
def State.addProc (s : State) (p : Pid) (t : Nat) (o : Origin) (f : Proc → Proc) : State :=
  match s.team? t with
  | none => s
  | some team =>
    let vm := ((s.launch? team.lid).map fun l => l.vmctx).getD 0
    let b := s.saveBase team.cl p
    let c : Ctx := { fctl := team.fctl, pctl := team.pctl, vmctx := vm }
    let pr : Proc := {
      pc := o.entry, incs := b.1, base := b.2, lid := team.lid, team := t, dbgEn := team.dbg, pol := team.ppol
      ctx := c.ws 1 o.s1, cl := team.cl, isync := s.syncs + 1 }
    let s := (({ s with syncs := s.syncs + 1 } : State).setProc p (f pr)).modTeam t fun k => { k with origins := Tab.put (p % 256) o k.origins }
    s.addReply team.cl t p

/-! ## Ends of operations -/

/-- Ends the channel operation a process waits in; a saved receive is over (R138). -/
def State.endOp (s : State) (p : Pid) (r : OpRes) (sc : Nat) : State :=
  match s.proc? p with
  | none => s
  | some pr =>
    match pr.op with
    | none => s
    | some o =>
      (s.setProc p { pr with op := some { o with res := r, sc := max sc o.sc }, ctx := { pr.ctx with rendez := [] } }).wake p

/-- CHAN kind of a status without .s (R334). -/
def chanKind (n : Nat) : Nat := match n with | 1 => 6 | 2 => 7 | 3 => 8 | n => n

/-- The end of an operation as a packet carries it, and back: a status is the CHAN kind that it has without .s. -/
def OpRes.reply : OpRes → Reply
  | .status n => .fault 11 (chanKind n) 0
  | .trap c k a => .fault c k a
  | .ok v => .value v
  | .waiting => .value 0
def replyRes : Reply → OpRes
  | .value v => .ok v
  | .fault 11 k a => if 4 ≤ k then .status (if k = 4 ∨ k = 5 then k else k - 5) else .trap 11 k a
  | .fault c k a => .trap c k a

/-- Ends a message: its sender is told, on whichever device it is, unless it was told before; an engine's message that is refused is
discarded and counted (R59, R373). -/
def State.sendDone (s : State) (id : Nat) (r : OpRes) (sc : Nat) : State :=
  match s.msg? id with
  | none => s
  | some m =>
    let s := { s with msgs := Tab.del id s.msgs }
    match m.origin with
    | some (dev, tag) => if m.ended then s else s.sendBody (s.linkSite dev) dev true (.msgEnd tag r.reply) []
    | none =>
    match m.sender with
    | none => match r with | .ok _ => s | _ => if m.srcOff = 0 then s else s.countDevice m.srcOff
    | some p =>
      match s.proc? p with
      | some pr => if !m.ended && (pr.op.any fun o => o.id = id) then s.endOp p r sc else s
      | none => s

/-- The message behind a request-store entry. -/
def State.reqMsg (s : State) (r : GReq) : Option (Nat × Msg) :=
  match r.src with
  | .msg id => (s.msg? id).map fun m => (id, m)
  | .copy _ => none

/-- The tag of a message to another device: its sender's PID and its number here. -/
def msgTag (p : Option Pid) (id : Nat) : Nat := p.getD 0 + 2 ^ 32 * id

/-- Key of a message's sender. -/
def State.senderKey (s : State) (m : Msg) : Option Nat :=
  match m.origin with
  | some (dev, tag) => some (2 ^ 32 * dev + tag % 2 ^ 32)
  | none => m.sender.map s.key

/-- Bytes as lines, with those that are poisoned. -/
def asLines : Nat → List Byte → List Nat → Nat → List (Line × Bool)
  | 0, _, _, _ => []
  | n + 1, bs, bad, i =>
    if bs = [] then [] else (BitVec.ofNat 512 (natLE (bs.take 64)), bad.contains i) :: asLines n (bs.drop 64) bad (i + 1)

/-- Bytes of lines, and the numbers of the poisoned ones. -/
def lineList (ls : List (Line × Bool)) : List Byte := ls.flatMap fun e => bytesLE 64 e.1.toNat
def badOf (ls : List (Line × Bool)) : List Nat := (List.range ls.length).filter fun i => (ls[i]?).any fun e => e.2

/-- A message to an endpoint of another device goes out with its prefix (R122, R341); a fabric fault ends its send. -/
def State.postRemote (s : State) (site id : Nat) (h : Word) : State :=
  match s.msg? id with
  | none => s
  | some m =>
    let pre := asLines 17 (m.bytes.take (min m.len 1024)) m.bad 0
    if s.noDev (hDev h) then s.sendDone id (.trap 8 1 0) 0
    else match s.inject site (hDev h) false (.message h (msgTag m.sender id) m.len m.bulk) (pre.map fun l => madeLine l.1 l.2) with
      | .ok s => s
      | .error none => s.sendDone id (.trap 8 2 0) 0
      | .error (some x) => let (k, s) := s.freeNat; (s.machineCheck 4 0 x 0).sendDone id (.trap 8 (k % 256) 0) 0

/-! ## Writing a message at its receiver -/

/-- Writes the bytes of a message at a scratchpad location as an engine does, whole lines, poison and all; `i` counts lines. -/
def State.areaWrite (s : State) (cl off : Nat) (bad : List Nat) : Nat → Nat → List Byte → State
  | _, 0, _ => s
  | i, n + 1, bs =>
    if bs = [] then s
    else (s.engineWrite cl (off + 64 * i) (BitVec.ofNat 512 (natLE (bs.take 64))) (bad.contains i)).areaWrite cl off bad (i + 1) n (bs.drop 64)

/-- Writes a message's bytes at a place: whole lines as an engine does, and a shorter message as bytes. -/
def State.putBytes (s : State) (cl off : Nat) (bad : List Nat) (bs : List Byte) : State :=
  if bs.length % 64 = 0 then s.areaWrite cl off bad 0 (bs.length / 64) bs
  else s.homeWriteBytes (sramLoc cl off) bs

/-- Bytes of one buffer slot (R331). -/
def slotSize (n : Endp) : Nat := max (2 ^ n.sclass.toNat) 64

/-- Absolute scratchpad offset of the i-th slot in use. -/
def State.slotOff (s : State) (n : Endp) (i : Nat) : Nat := s.spmOf n.team + n.buf + (n.head + i) % max n.depth 1 * slotSize n

/-- Slots whose message is gone leave from the front: HEAD moves on. -/
def trimSlots (n : Endp) : Endp :=
  match n.slots with
  | [] => n
  | b :: bs =>
    if b.st = .gone then
      let k := ((b :: bs).takeWhile fun x => x.st = .gone).length
      { n with slots := n.slots.drop k, head := (n.head + k) % max n.depth 1 }
    else n

/-- The slots with one changed. -/
def setSlot (n : Endp) (i : Nat) (st : SlotUse) : Endp :=
  { n with slots := (List.range n.slots.length).zip n.slots |>.map fun e => if e.1 = i then { e.2 with st := st } else e.2 }

/-! ## Grant requests of messages (R126, R131) -/

/-- A transfer has every unit (R131): the receiver completes, or the slot holds the message; the sender completes. -/
def State.finishReq (s : State) (cl k : Nat) : State :=
  match Tab.get? k (s.cluster cl).greqs with
  | none => s
  | some r =>
    match r.src with
    | .copy _ => s
    | .msg id =>
      let same := (s.msg? id).any fun m => m.srcCl = cl && m.sender.isSome
      let s := s.dropReq cl k
      let s := match r.rcvr, r.ep with
        | some p, _ => s.endOp p (.ok 0) (if same then scCluster else scDevice)
        | none, some e => s.modEndp cl e fun n =>
            match (List.range n.slots.length).find? fun i => sramLoc cl (s.slotOff n i) = r.dest with
            | some i => setSlot n i .filled
            | none => n
        | none, none => s
      s.sendDone id (.ok 0) (if r.rcvr.isSome then scDevice else 0)

/-- Matches a request (R126): the destination is known, and the prefix is copied there. -/
def State.matchReq (s : State) (cl k : Nat) (rcvr : Option Pid) (off : Nat) : State :=
  match Tab.get? k (s.cluster cl).greqs with
  | none => s
  | some r =>
    let pre := (s.reqMsg r).map fun e => (e.2.bytes.take r.pfx, e.2.bad)
    let s := s.setReq cl k { r with matched := true, rcvr := rcvr, dest := sramLoc cl off }
    let s := match r.ep with
      | some e => s.modEndp cl e fun n => { n with unm := n.unm.filter (· ≠ k) }
      | none => s
    let s := match pre with | some (bs, bad) => s.putBytes cl off bad bs | none => s
    if r.len ≤ 1024 then s.finishReq cl k else s.kickGrant cl

/-! ## What a receiver can take (R330, R331) -/

/-- What a receiver would take first. -/
inductive Avail where
  /-- the i-th slot in use -/
  | slot (i : Nat)
  /-- an unmatched request-store entry -/
  | entry (k : Nat)
  deriving DecidableEq, Repr

/-- The first slot that is neither kept nor gone, when its message is there. -/
def firstSlot (n : Endp) : Option Nat :=
  match (List.range n.slots.length).find? fun i => (n.slots[i]?).any fun b => b.st ≠ .kept && b.st ≠ .gone with
  | some i => if (n.slots[i]?).any fun b => b.st = .filled then some i else none
  | none => none

/-- The message at the front of an endpoint: the oldest slot, or on a rendezvous the oldest unmatched message; a reply endpoint
holds both, in order of arrival (R328). -/
def State.avail (s : State) (cl : Nat) (n : Endp) : Option Avail :=
  let bulk := n.unm.find? fun k => ((Tab.get? k (s.cluster cl).greqs).bind fun r => (s.reqMsg r).map fun e => e.2.bulk).getD false
  if !n.buffered then n.unm.head?.map .entry
  else if !n.reply then (firstSlot n).map .slot
  else
    match firstSlot n, bulk with
    | some i, some k =>
      let a : Nat := match n.slots[i]? with | some b => b.arrival | none => 0
      let b : Nat := match Tab.get? k (s.cluster cl).greqs with | some r => r.arrival | none => 0
      if b < a then some (.entry k) else some (.slot i)
    | some i, none => some (.slot i)
    | none, some k => some (.entry k)
    | none, none => none

/-- The matched parties are noted (R330). -/
def State.noteMatch (s : State) (cl e : Nat) (p : Pid) (sender : Option Nat) : State :=
  s.modEndp cl e fun n => { n with lrcv := some (s.key p), lsnd := match sender with | some k => some k | none => n.lsnd }

/-- What a receive wants: a register's worth, or an area of a size at a scratchpad offset. -/
inductive Want where
  | value
  | area (off len : Nat)
  deriving DecidableEq, Repr

/-- Length of the message that would be taken. -/
def State.availLen (s : State) (cl : Nat) (n : Endp) (a : Avail) : Nat :=
  match a with
  | .slot i => if n.reply then ((n.slots[i]?).map fun b => b.bytes.length).getD 0 else 2 ^ n.sclass.toNat
  | .entry k => ((Tab.get? k (s.cluster cl).greqs).map fun r => r.len).getD 0

/-- Process p takes what is available, `w` saying where it goes: its operation ends, or a granted transfer begins. -/
def State.take (s : State) (cl e : Nat) (p : Pid) (w : Want) (a : Avail) : State :=
  match s.endp? cl e with
  | none => s
  | some n =>
    match a with
    | .slot i =>
      match n.slots[i]? with
      | none => s
      | some b =>
        let len := s.availLen cl n a
        let off := s.slotOff n i
        let lines := linesOf (sramLoc cl off) len
        let s := if n.reply then s else lines.foldl (fun s l => (s.touchHome l).2) s
        let bad := if n.reply then [] else (List.range lines.length).filter fun j => s.isPoison (sramLoc cl (off + 64 * j))
        let bs := if n.reply then b.bytes else Memory.read s.mem (sramLoc cl off) len
        let s := s.modEndp cl e fun n => trimSlots (setSlot n i .gone)
        let s := s.noteMatch cl e p b.sender
        match w with
        | .value => s.endOp p (if bad = [] then .ok (BitVec.ofNat 8192 (natLE bs)) else .trap 7 0 0) scDevice
        | .area o _ => (s.putBytes cl o bad bs).endOp p (.ok 0) scDevice
    | .entry k =>
      match (Tab.get? k (s.cluster cl).greqs).bind s.reqMsg with
      | none => s
      | some (id, m) =>
        let s := s.noteMatch cl e p (s.senderKey m)
        match w with
        | .value =>
          let s := s.dropReq cl k
          let s := s.endOp p (if m.bad = [] then .ok (BitVec.ofNat 8192 (natLE m.bytes)) else .trap 7 0 0)
            (if m.srcCl = cl && m.sender.isSome then scCluster else scDevice)
          s.sendDone id (.ok 0) scDevice
        | .area o _ => s.matchReq cl k (some p) o

/-- Whether a waiting receive may take it: a register receive takes at most 64 bytes; a bulk reply longer than the area ends it
with CHAN_TYPE and stays (R332). -/
def State.fits (s : State) (cl : Nat) (n : Endp) (w : Want) (a : Avail) : Bool :=
  match w with
  | .value => s.availLen cl n a ≤ 64
  | .area _ len => s.availLen cl n a ≤ len

/-- What a process in RECV, RECVT or a port pop waits for. -/
def Proc.want (pr : Proc) : Want :=
  match pr.op with
  | some o => match Tab.get? 0 o.got with | some l => .area (l.toNat / 2 ^ 64) (l.toNat % 2 ^ 64) | none => .value
  | none => .value

/-- How a RECVT's area is kept in its operation. -/
def wantTab : Want → Tab Line
  | .value => []
  | .area off len => [(0, BitVec.ofNat 512 (off * 2 ^ 64 + len))]

/-! ## Leaving wait lists -/

/-- Takes a process off the wait list of every endpoint of its cluster and of every host mailbox. -/
def State.unlist (s : State) (cl : Nat) (p : Pid) : State :=
  let boxes := s.mailboxes.map fun (e : Nat × Mailbox) => (e.1, { e.2 with waiters := e.2.waiters.filter (· ≠ p) })
  ({ s with mailboxes := boxes } : State).modCluster cl fun c =>
    { c with endps := c.endps.map fun (e : Nat × Endp) => (e.1, { e.2 with waiters := e.2.waiters.filter (· ≠ p) }) }

/-- Whether a reservation names something at an endpoint. -/
def State.keptAt (s : State) (key : Nat) : Bool :=
  s.procs.any fun e => match e.2.resv with
    | some (k, .entry _ _) | some (k, .slot _ _) => k = key
    | _ => false

def endpKey (n : Endp) : Nat := if n.reply then replyKey n.idx else n.idx

/-! ## ALT (R338, R339) -/

/-- The guards an ALT keeps: handle and enable by index. -/
def guardTab : Nat → List (Word × Word) → Tab Line
  | _, [] => []
  | i, (h, en) :: gs => (i, BitVec.ofNat 512 (h.toNat + en.toNat % 2 * 2 ^ 64)) :: guardTab (i + 1) gs
def guardOf (l : Line) : Word × Bool := (l.setWidth 64, l.getLsbD 64)

/-- A guard's endpoint. -/
def State.guardEnd (s : State) (h : Word) : Option Target :=
  match hKind h with
  | 0 | 2 => s.lookup (dirKey h)
  | 3 => some (.mail (hIdx h))
  | _ => none

/-- Whether a guard is ready (R338). -/
def State.guardReady (s : State) (h : Word) : Bool :=
  match s.guardEnd h with
  | some (.ep cl e) => match s.endp? cl e with
    | some n => (s.avail cl n).isSome || (n.closed && (n.slots.all fun b => b.st = .gone))
    | none => true
  | some (.mail m) => (Tab.getD m s.mailboxes {}).inbound ≠ []
  | some .gone => true
  | _ => false

/-- Reserves a ready guard's message for the process alone (R339). -/
def State.reserve (s : State) (p : Pid) (h : Word) : State :=
  let key := if hKind h = 3 then 2 ^ 33 + hIdx h else dirKey h
  let hold : Reserved → State → State := fun r s => s.modProc p fun pr => { pr with resv := some (key, r) }
  match s.guardEnd h with
  | some (.ep cl e) =>
    match s.endp? cl e with
    | none => hold .closed s
    | some n =>
      match s.avail cl n with
      | some (.entry k) => hold (.entry cl k) (s.setEndp cl e { n with unm := n.unm.filter (· ≠ k) })
      | some (.slot i) => hold (.slot cl ((n.head + i) % max n.depth 1)) (s.setEndp cl e (setSlot n i .kept))
      | none => hold .closed s
  | some (.mail m) =>
    let b := Tab.getD m s.mailboxes {}
    match b.inbound with
    | bs :: rest => hold (.mail bs) (s.mailTook m { b with inbound := rest })
    | [] => s
  | _ => hold .closed s

/-- The first ready enabled guard at or after `start`, wrapping; guards by index (R338). -/
def State.altPick (s : State) (gs : Tab Line) (n start : Nat) : Option Nat :=
  ((List.range n).map fun i => (start + i) % n).find? fun i =>
    match Tab.get? i gs with
    | some l => (guardOf l).2 && s.guardReady (guardOf l).1
    | none => false

/-- Evaluates an ALT of n guards once: the index, with the message reserved and ALTNXT moved on under .f. -/
def State.altTry (s : State) (p : Pid) (gs : Tab Line) (n : Nat) (fair : Bool) : Option Nat × State :=
  match s.proc? p with
  | none => (none, s)
  | some pr =>
    let start := if fair && pr.altnxt.toNat < n then pr.altnxt.toNat else 0
    match s.altPick gs n start with
    | none => (none, s)
    | some i =>
      let h := match Tab.get? i gs with | some l => (guardOf l).1 | none => 0
      let s := s.reserve p h
      (some i, if fair then s.modProc p fun pr => { pr with altnxt := BitVec.ofNat 4 (i + 1) } else s)

/-- A waiting ALT looks again. -/
def State.altWake (s : State) (p : Pid) : State :=
  match s.proc? p with
  | none => s
  | some pr =>
    match pr.op with
    | none => s
    | some o =>
      match s.altTry p o.got (o.key % 32) (32 ≤ o.key) with
      | (some i, s) => (s.unlist pr.cl p).endOp p (.status i) 0
      | (none, s) => s

/-! ## An endpoint at work (R330, R331, R336, R337) -/

/-- A spawn entry starts a process for its oldest unmatched message (R337). -/
def State.spawnFor (s : State) (cl e k : Nat) : State :=
  match s.endp? cl e with
  | none => s
  | some n =>
    match s.freeMember n.team with
    | none => s
    | some p =>
      let h := mkHandle n.efmt.toNat n.sclass.toNat 0 false s.dev n.idx
      let s := s.setEndp cl e { n with unm := n.unm.filter (· ≠ k) }
      let s := s.addProc p n.team { entry := n.entry, code := 2, s1 := h } fun pr =>
        { pr with prio := n.sprio, stage := n.sstage, resv := some (endpKey n, .entry cl k) }
      s.makeReady p

/-- A message enters the next free slot (R331): a small one is written, and its sender completes; a larger one is matched. -/
def State.slotIn (s : State) (cl e k : Nat) : State :=
  match s.endp? cl e, Tab.get? k (s.cluster cl).greqs with
  | some n, some r =>
    match s.reqMsg r with
    | none => s.dropReq cl k
    | some (id, m) =>
      let off := s.slotOff n n.slots.length
      let slot : BufSlot := { st := .filled, sender := s.senderKey m, arrival := r.arrival, bytes := if n.reply then m.bytes else [] }
      if m.bulk && !n.reply then
        (s.setEndp cl e { n with slots := n.slots ++ [{ slot with st := .filling }], unm := n.unm.filter (· ≠ k) }).matchReq cl k none off
      else
        let s := s.setEndp cl e { n with slots := n.slots ++ [slot], unm := n.unm.filter (· ≠ k) }
        let s := if n.reply then s else s.putBytes cl off m.bad m.bytes
        (s.dropReq cl k).sendDone id (.ok 0) 0
  | _, _ => s

/-- A retiring replica's end holds nothing more, and its switch is over: the Chandler closes it (R397 step 3). -/
def State.retired (s : State) (n : Endp) : Bool :=
  match n.expert with
  | some (x, r) => (s.expert? x).any fun e =>
      e.stub.getLsbD r && (e.switch.all fun w => w.rep ≠ r) && !n.closed && (n.slots.all fun b => b.st = .gone) && n.unm = [] && !s.keptAt (endpKey n)
  | none => false

/-- One step of an endpoint: its oldest receiver takes a message, or a process is spawned, or a message enters a free slot, or a
receiver ends with CLOSED, or the closed entry is freed. None when there is nothing to do. -/
def State.settleOnce (s : State) (cl e : Nat) : Option State :=
  match s.endp? cl e with
  | none => none
  | some n =>
    let empty := n.slots.all fun b => b.st = .gone
    let smalls := n.unm.filter fun k => !n.reply ||
      !(((Tab.get? k (s.cluster cl).greqs).bind fun r => (s.reqMsg r).map fun e => e.2.bulk).getD false)
    let direct := if n.buffered && empty then smalls.head? else none
    if s.retired n then some (s.setEndp cl e { n with closed := true })
    else match n.waiters with
    | p :: _ =>
      match s.proc? p with
      | none => some (s.unlist cl p)
      | some pr =>
        if pr.wkind = .alt then
          if (s.avail cl n).isSome || (n.closed && empty) then
            let t := s.altWake p
            if ((t.endp? cl e).any fun n => n.waiters.contains p) then none else some t
          else
            match direct with
            | some k => some (s.slotIn cl e k)
            | none => none
        else
          match s.avail cl n with
          | some a =>
            if s.fits cl n pr.want a then some ((s.unlist cl p).take cl e p pr.want a)
            else if n.reply && pr.want ≠ .value then some ((s.unlist cl p).endOp p (.trap 12 0 0) 0)
            else none
          | none =>
            match direct with
            | some k => some ((s.unlist cl p).take cl e p pr.want (.entry k))
            | none => if n.closed && empty then some ((s.unlist cl p).endOp p (.status 4) scDevice) else none
    | [] =>
      match smalls with
      | k :: _ =>
        if n.spn && !n.blk && empty && !n.closed && (s.freeMember n.team).isSome then some (s.spawnFor cl e k)
        else if n.buffered && n.slots.length < n.depth && !n.closed then some (s.slotIn cl e k)
        else none
      | [] =>
        if n.closed && empty && n.unm = [] && !s.keptAt (endpKey n) then
          some { (s.modCluster cl fun c => { c with endps := Tab.del e c.endps }) with dir := Tab.put (endpKey n) closedMark s.dir }
        else none

/-- A halted cluster, unless the debugger steps a process there (R442). -/
def State.frozen (s : State) (cl : Nat) : Bool := s.isHalted cl && !(s.cluster cl).dm.stepping

/-- A suspended team's ends do no work until it is resumed (R371). -/
def State.endAway (s : State) (cl e : Nat) : Bool :=
  (s.endp? cl e).any fun n => (s.team? n.team).any fun t => t.state = .suspended || t.state = .backlog

/-- Works an endpoint until nothing more can happen; a halted cluster matches nothing (R434). -/
def State.settleFuel (cl e : Nat) : Nat → State → State
  | 0, s => s
  | k + 1, s => if s.frozen cl || s.endAway cl e then s else match s.settleOnce cl e with | some t => State.settleFuel cl e k t | none => s

def State.settle (s : State) (cl e : Nat) : State :=
  State.settleFuel cl e (4 + 3 * (((s.endp? cl e).map fun n => n.unm.length + n.waiters.length + n.slots.length).getD 0)) s

end Sys2Proof.Machine
end

