-- ==== Sys2Proof/Machine/Channels.lean ====
section
/-! DEFINITION. Channel instructions (R346 to R351, R355), port cells (R181, R182), and the steps by which messages arrive, time
out and are probed for deadlock (R125, R330, R335, R340, R343). -/

namespace Sys2Proof.Machine

/-! ## Statuses (R334) -/

/-- A channel operation ends with a status: in the handle's register under .s, as a trap otherwise. -/
def chanEnd (p : Pid) (reg : Option SReg) (n : Nat) : Exec Unit :=
  match reg with
  | some r => setS p r (BitVec.ofNat 64 n)
  | none => if n = 0 then pure () else raiseTrap (trapChan (chanKind n))

/-! ## Descriptors and areas -/

/-- Reads a 64-byte block as eight words, with the checks of a line access (R191). -/
def loadBlock (p : Pid) (ea : Word) : Exec (List Word) := do
  let pl ← resolveAl p ea 64 64 .read false
  waitPlace p pl
  match pl with
  | .mem loc | .acc _ loc => do
    let bs ← loadLoc p loc 64 ea
    pure ((List.range 8).map fun i => wordAt bs i)
  | _ => raiseTrap (trapXlate xForm ea false)

/-- The scratchpad offset of a SENDT or RECVT area (R350): 64-aligned and inside the allotment, else CHAN ARG. -/
def areaOff (p : Pid) (ea : Word) (len : Nat) : Exec Nat := do
  let s ← get
  let pr ← getProc p
  let off := bits ea 31 0
  guardTrap (!(spaceOf ea = 3 && bits ea 61 32 = 0 && off % 64 = 0 && off + len ≤ s.spmBytes pr.team)) (trapChan 1)
  pure (s.spmOf pr.team + off)

/-! ## Sending (R350) -/

/-- What a send carries, given the element size's code. -/
inductive Cargo where
  | reg (v : TileData) (tag : Option (BitVec 4))
  | area (ea : Word)

/-- Cycles a message or a withdrawal takes between clusters. -/
def tripCycles : Nat := 60

/-- Reads `n` bytes of an area for its message once their lines are full (R463): bytes and poisoned lines. -/
def readArea (p : Pid) (off n : Nat) : Exec (List Byte × List Nat) := do
  let pr ← getProc p
  let base := sramLoc pr.cl off
  (linesOf base n).forM fun l => waitPlace p (.mem l)
  let s ← get
  let s := (linesOf base n).foldl (fun s l => (s.touchHome l).2) s
  set s
  let bad := (List.range ((n + 63) / 64)).filter fun i => s.isPoison (base + 64 * i)
  pure (Memory.read s.mem base n, bad)

/-- The live replica a token resolves to (R387). -/
def replicaOf (live : BitVec 8) (tok : Nat) : Option Nat :=
  let l := (List.range 8).filter fun r => live.getLsbD r
  l[tok * 0x9E3779B1 % 2 ^ 32 * l.length / 2 ^ 32]?

/-- The token of a message: bits 31:0 of its first bytes. -/
def tokenOf (bs : List Byte) : Nat := natLE (bs.take 4)

/-- Adds a message and starts it on its way; the process waits for its end. -/
def launchMsg (p : Pid) (wk : WKind) (h : Word) (deadline : Word) (m : Msg) (step : Option (Nat → State → State)) : Exec Nat := do
  let s ← get
  let id := s.nextMsg
  set ({ s with nextMsg := id + 1, msgs := Tab.put id m s.msgs } : State)
  modProcE p fun pr => { pr with op := some { id := id, key := h.toNat, res := .waiting } }
  match step with
  | some f => modS (f id)
  | none => pure ()
  waitOn wk h deadline

/-- A send to a host mailbox: it waits until the next slot's word 7 reads 0, writes the message and then SEQ. -/
def mailSend (p : Pid) (wk : WKind) (h deadline : Word) (m : Nat) (bs : List Byte) : Exec Nat := do
  let s ← get
  let b := Tab.getD m s.mailboxes {}
  let k := b.outCount.toNat + 1
  let a := mailSlot m true k
  let s := (s.touchHome a).2
  if Memory.read64 s.mem (a + 56) = 0 then do
    let s := { s with mailboxes := Tab.put m { b with outCount := BitVec.ofNat 64 k } s.mailboxes }
    let s := (s.homeWriteBytes a (bs ++ List.replicate (56 - bs.length) 0)).homeWriteBytes (a + 56) (bytesLE 8 k)
    set s
    pure 0
  else do
    set { s with mailboxes := Tab.put m { b with senders := b.senders.filter (· ≠ p) ++ [p] } s.mailboxes }
    modProcE p fun pr => { pr with op := some { id := 0, key := h.toNat, res := .waiting } }
    waitOn wk h deadline

/-- Starts a send: resolution, type and area checks, release, delivery. Answers a status when it ends at once. -/
def sendStart (p : Pid) (h0 : Word) (wk : WKind) (deadline : Word) (shape : Nat → Bool) (cargo : Cargo) : Exec Nat := do
  let s ← get
  let pr ← getProc p
  match s.resolveEnd pr h0 true with
  | .error t => raiseTrap t
  | .ok (h, t) => do
    let len := 2 ^ hSclass h
    guardTrap (!shape (hSclass h)) { cls := 12 }
    let badTag := match cargo with | .reg _ (some g) => decide (hEfmt h ≤ 13) && g.toNat ≠ hEfmt h | _ => false
    guardTrap badTag { cls := 12 }
    let off ← match cargo with | .area ea => areaOff p ea len | .reg _ _ => pure 0
    release p (scopeTo pr t) false
    let bulk := match cargo with | .area _ => true | .reg _ _ => false
    let whole := match t with | .server _ | .mail _ | .controller | .service _ => true | _ => false
    let data ← match cargo with
      | .area _ => readArea p off (if whole then len else min len 1024)
      | .reg v _ => pure (bytesLE len v.toNat, [])
    let m : Msg := {
      sender := some p, kind := hKind h, idx := hIdx h, efmt := BitVec.ofNat 6 (hEfmt h), sclass := BitVec.ofNat 5 (hSclass h)
      len := len, bytes := data.1, bad := data.2, srcCl := pr.cl, srcOff := off, bulk := bulk, expert := none, place := none
      ended := false, dropped := [], site := some (s.clusterSite pr.cl) }
    let s ← get
    match t with
    | .gone => pure 4
    | .pending => launchMsg p wk h0 deadline m none
    | .ep cl _ => launchMsg p wk h0 deadline m (some fun id s => s.sched tripCycles (.grantRequestArrival cl id))
    | .server d => launchMsg p wk h0 deadline m (some fun id s => s.sched tripCycles (.serverCommandAccept d id))
    | .mail b => mailSend p wk h0 deadline b data.1
    | .controller => do set (s.emit (.controller 0x100 (BitVec.ofNat 64 (s.key p) :: (List.range ((len + 7) / 8)).map fun i => wordAt data.1 i))); pure 0
    | .service i => do set (s.postService i ((List.range 8).map fun j => wordAt data.1 j)); pure 0
    | .remote d => launchMsg p wk h0 deadline { m with remote := some d } (some fun id s => s.postRemote (s.clusterSite pr.cl) id h)
    | .expert x =>
      match s.expert? x with
      | none => raiseTrap (trapChan 2)
      | some e =>
        match if e.unbound then none else replicaOf e.live (tokenOf data.1) with
        | none => pure 4
        | some r => do
          let rh := Tab.getD r e.rh 0
          guardTrap (hEfmt rh ≠ hEfmt h || hSclass rh ≠ hSclass h) { cls := 12 }
          set (s.modExpert x fun e => { e with cnt := e.cnt + 1 })
          let m := { m with kind := 0, idx := hIdx rh, expert := some (x, e.ver.toNat) }
          match s.lookup (hIdx rh) with
          | some (.ep cl _) => launchMsg p wk h0 deadline m (some fun id s => s.sched tripCycles (.grantRequestArrival cl id))
          | _ => pure 4

/-- A send, or its end when it was under way: the status. -/
def sendOp (p : Pid) (h0 : Word) (wk : WKind) (deadline : Word) (shape : Nat → Bool) (cargo : Cargo) : Exec Nat := do
  let pr ← getProc p
  match pr.op with
  | none => sendStart p h0 wk deadline shape cargo
  | some o =>
    match o.res with
    | .waiting =>
      if o.id = 0 then do
        modProcE p fun pr => { pr with op := none }
        sendStart p h0 wk deadline shape cargo
      else waitOn wk h0 deadline
    | .ok _ => do acquire p o.sc; pure 0
    | .status n => pure n
    | .trap c k a => raiseTrap { cls := c, kind := k, aux := BitVec.ofNat 64 a }

/-! ## Receiving (R350) -/

/-- A deadline is a poll or lies in the past, as the process's cluster reads TIMEBASE (R335). -/
def State.passed (s : State) (pr : Proc) (deadline : Word) : Bool :=
  deadline ≠ 0 && (deadline = BitVec.allOnes 64 || deadline.toNat ≤ s.timeAt pr.cl)

/-- A matched transfer runs to a process. -/
def State.matchedFor (s : State) (p : Pid) : Bool := s.clusters.any fun c => c.2.greqs.any fun r => r.2.matched && r.2.rcvr = some p

/-- Waits for or takes what its operation has come to: a status and the value. -/
def recvEnd (p : Pid) (h0 : Word) (wk : WKind) (deadline : Word) (giveUp : State → State) : Exec (Nat × TileData) := do
  let s ← get
  let pr ← getProc p
  match pr.op with
  | none => pure (0, 0)
  | some o =>
    match o.res with
    | .waiting =>
      -- a deadline bounds only the wait for a match (R126)
      if s.passed pr deadline && !s.matchedFor p then do
        modS giveUp
        pure (5, 0)
      else waitOn wk h0 deadline
    | .ok v => do acquire p o.sc; pure (0, v)
    | .status n => do acquire p o.sc; pure (n, 0)
    | .trap c k a => raiseTrap { cls := c, kind := k, aux := BitVec.ofNat 64 a }

/-- A process joins the wait list of an endpoint, which then works. -/
def State.joinWait (s : State) (cl e : Nat) (p : Pid) : State :=
  (s.modEndp cl e fun n => { n with waiters := n.waiters ++ [p] }).settle cl e

/-- Takes what the process's reservation at an endpoint keeps (R339). -/
def State.takeReserved (s : State) (p : Pid) (r : Reserved) (cl e : Nat) (w : Want) : State :=
  let s := s.modProc p fun pr => { pr with resv := none }
  match r with
  | .closed => s.endOp p (.status 4) scDevice
  | .mail bs => s.endOp p (.ok (BitVec.ofNat 8192 (natLE bs))) scSystem
  | .entry _ k =>
    if (Tab.get? k (s.cluster cl).greqs).isSome then (s.take cl e p w (.entry k)).settle cl e else s.joinWait cl e p
  | .slot _ n =>
    match s.endp? cl e with
    | none => s
    | some ep =>
      match (List.range ep.slots.length).find? fun i => (ep.head + i) % max ep.depth 1 = n with
      | some i => (s.take cl e p w (.slot i)).settle cl e
      | none => s

/-- Starts a receive: resolution, type and area checks, then the reservation, the endpoint, or a wait. -/
def recvStart (p : Pid) (h0 : Word) (wk : WKind) (deadline : Word) (shape : Nat → Bool) (area : Option Word) :
    Exec (Nat × TileData) := do
  let s ← get
  let pr ← getProc p
  match s.resolveEnd pr h0 false with
  | .error t => raiseTrap t
  | .ok (h, t) => do
    guardTrap (!ownReply p h) (trapChan 2)
    guardTrap (!shape (hSclass h)) { cls := 12 }
    let len := 2 ^ hSclass h
    let w ← match area with
      | some ea => do pure (Want.area (← areaOff p ea len) len)
      | none => pure Want.value
    let start : Exec Unit := modProcE p fun pr => { pr with op := some { id := 0, key := h0.toNat, res := .waiting, got := wantTab w } }
    match t with
    | .ep cl e => do
      let ok := match s.endp? cl e with
        | some n => n.reply || (n.efmt.toNat = hEfmt h && n.sclass.toNat = hSclass h)
        | none => true
      guardTrap (!ok) { cls := 12 }
      start
      match pr.resv with
      | some (key, r) => if key = dirKey h then modS fun s => s.takeReserved p r cl e w else modS fun s => s.joinWait cl e p
      | none => modS fun s => s.joinWait cl e p
      recvEnd p h0 wk deadline fun s => s.unlist cl p
    | .gone =>
      match pr.resv with
      | some (key, .closed) => do
        if key = dirKey h then modProcE p fun pr => { pr with resv := none }
        pure (4, 0)
      | _ => pure (4, 0)
    | .mail m => do
      start
      let b := Tab.getD m s.mailboxes {}
      match pr.resv, b.inbound with
      | some (key, r), _ =>
        if key = 2 ^ 33 + m then modS fun s => s.takeReserved p r 0 0 w
        else match b.inbound with
          | bs :: rest => do
            modS fun s => s.mailTook m { b with inbound := rest }
            start
            modS fun s => s.endOp p (.ok (BitVec.ofNat 8192 (natLE (bs.take len)))) scSystem
          | [] => modS fun s => { s with mailboxes := Tab.put m { b with waiters := b.waiters ++ [p] } s.mailboxes }
      | none, bs :: rest => do
        modS fun s => s.mailTook m { b with inbound := rest }
        modS fun s => s.endOp p (.ok (BitVec.ofNat 8192 (natLE (bs.take len)))) scSystem
      | none, [] => modS fun s => { s with mailboxes := Tab.put m { b with waiters := b.waiters ++ [p] } s.mailboxes }
      recvEnd p h0 wk deadline fun s => s.unlist pr.cl p
    | .service i =>
      match Tab.getD i s.svcMsgs [] with
      | ws :: rest => do
        set { s with svcMsgs := Tab.set [] i rest s.svcMsgs }
        match w with
        | .area off n => modS fun s => s.putBytes pr.cl off [] ((wordsBytes ws).take n)
        | .value => pure ()
        acquire p scDevice
        pure (0, BitVec.ofNat 8192 (natLE (wordsBytes ws)))
      | [] => if s.passed pr deadline then pure (5, 0) else waitOn wk h deadline
    | _ => waitOn wk h0 deadline

/-- A receive, or its end when it was under way. -/
def recvOp (p : Pid) (h0 : Word) (wk : WKind) (deadline : Word) (shape : Nat → Bool) (area : Option Word) :
    Exec (Nat × TileData) := do
  let pr ← getProc p
  if pr.op.isNone then recvStart p h0 wk deadline shape area
  else recvEnd p h0 wk deadline fun s => s.unlist pr.cl p

/-! ## Port cells (R181, R182) -/

/-- The bound handle of a port for an access of `n` bytes in a direction, with the checks of R181. -/
def portHandle (p : Pid) (q : Nat) (push : Bool) (n : Nat) : Exec Word := do
  let pr ← getProc p
  guardTrap (!(pr.ctx.qbound.getLsbD q)) { cls := 10, kind := 1 }
  guardTrap (pr.ctx.qout.getLsbD q != push) { cls := 10, kind := 2 }
  let h := Tab.getD q pr.ctx.qh 0
  guardTrap (2 ^ hSclass h ≠ n) { cls := 12 }
  pure h

/-- Pops one element of `n` bytes. -/
def portPop (p : Pid) (q n : Nat) : Exec TileData := do
  let h ← portHandle p q false n
  let r ← recvOp p h .port 0 (fun c => 2 ^ c = n) none
  chanEnd p none r.1
  pure r.2

/-- Pushes one element of `n` bytes. -/
def portPush (p : Pid) (q n : Nat) (v : TileData) (tag : Option (BitVec 4)) : Exec Unit := do
  let h ← portHandle p q true n
  let r ← sendOp p h .port 0 (fun c => 2 ^ c = n) (.reg v tag)
  chanEnd p none r

/-- The tag and scale a popped or received vector takes (R332). -/
def recvTag (h : Word) : BitVec 4 := if hEfmt h ≤ 13 then BitVec.ofNat 4 (hEfmt h) else 0

/-! ## SEND, SENDT, RECV, RECVT -/

def deadlineOf (c : Ctx) (t : Option SReg) : Word := match t with | some t => c.rs t | none => 0

def execSend (m : Mods) (d : SReg) (x : DataReg) (t : Option SReg) (st : Bool) (s : State) : Host.Outcome State Fault Refusal :=
  runExec m (lenOf m true t.isSome) true s fun p pr => do
    let c := pr.ctx
    let r ← match x with
      | .sc r => sendOp p (c.rs d) .send (deadlineOf c t) (fun k => k ≤ 3) (.reg ((c.rs r).setWidth 8192) none)
      | .vec v => sendOp p (c.rs d) .send (deadlineOf c t) (fun k => k = 6) (.reg ((c.rv v).setWidth 8192) (some (c.rvtag v)))
    chanEnd p (if st then some d else none) r
    pure {}

def execSendt (m : Mods) (d rs : SReg) (t : Option SReg) (st : Bool) (s : State) : Host.Outcome State Fault Refusal :=
  runExec m (lenOf m true t.isSome) true s fun p pr => do
    let c := pr.ctx
    let r ← sendOp p (c.rs d) .sendt (deadlineOf c t) (fun k => 6 ≤ k) (.area (c.rs rs))
    chanEnd p (if st then some d else none) r
    pure {}

def execRecv (m : Mods) (x : DataReg) (rs : SReg) (t : Option SReg) (st : Bool) (s : State) : Host.Outcome State Fault Refusal :=
  runExec m (lenOf m true t.isSome) true s fun p pr => do
    let c := pr.ctx
    let h := c.rs rs
    let hr := match s.unrelative pr h with | .ok h => h | .error _ => h
    let r ← match x with
      | .sc _ => recvOp p h .recv (deadlineOf c t) (fun k => k ≤ 3) none
      | .vec _ => recvOp p h .recv (deadlineOf c t) (fun k => k = 6) none
    if r.1 = 0 then
      match x with
      | .sc d => setS p d (BitVec.ofNat 64 (r.2.toNat % 2 ^ (8 * 2 ^ min (hSclass hr) 3)))
      | .vec d => modCtx p fun c => c.wv d (r.2.setWidth 512) (recvTag hr) 0
    chanEnd p (if st then some rs else none) r.1
    pure {}

def execRecvt (m : Mods) (d rs : SReg) (t : Option SReg) (st : Bool) (s : State) : Host.Outcome State Fault Refusal :=
  runExec m (lenOf m true t.isSome) true s fun p pr => do
    let c := pr.ctx
    let r ← recvOp p (c.rs rs) .recvt (deadlineOf c t) (fun k => 6 ≤ k) (some (c.rs d))
    chanEnd p (if st then some rs else none) r.1
    pure {}

/-! ## CHNEW, CHCLOSE, CHBIND (R347 to R349) -/

/-- Whether the words of a channel descriptor break R347 for an allotment of `spm` bytes. -/
def badChan (w0 buf entry : Word) (spm : Nat) : Bool :=
  let depth := bits w0 30 23
  let buffered := bit w0 31
  bits w0 63 32 ≠ 0 || bits w0 2 0 ≠ 0 || (buffered != (depth ≠ 0)) || !(bits w0 22 17 ≤ 13 || bits w0 22 17 = 63) ||
    20 < bits w0 16 12 ||
    (if buffered then buf.toNat % 64 ≠ 0 || spm < buf.toNat + depth * max (2 ^ bits w0 16 12) 64 else buf ≠ 0) ||
    (if bit w0 11 then bit entry 0 else entry ≠ 0)

/-- The endpoint-table entry of a channel descriptor. -/
def chanEndp (w0 buf entry : Word) (team idx : Nat) (creator : Option Nat) : Endp :=
  { buffered := bit w0 31, spn := bit w0 11, blk := bit w0 10, sprio := BitVec.ofNat 3 (bits w0 9 7)
    sstage := BitVec.ofNat 4 (bits w0 6 3), depth := bits w0 30 23, efmt := BitVec.ofNat 6 (bits w0 22 17)
    sclass := BitVec.ofNat 5 (bits w0 16 12), team := team, idx := idx, buf := buf.toNat, entry := entry
    lrcv := creator, creator := creator }

/-- The next endpoint index of the device's 32-bit counter, which skips 0 (R336). -/
def nextIdx (n : Nat) : Nat := if (n + 1) % 2 ^ 32 = 0 then 1 else (n + 1) % 2 ^ 32

/-- Receiving-end handle of an entry. -/
def endpHandle (s : State) (n : Endp) : Word := mkHandle n.efmt.toNat n.sclass.toNat 0 false s.dev n.idx

def execChnew (m : Mods) (d rs : SReg) (s : State) : Host.Outcome State Fault Refusal :=
  runExec m (lenOf m true false) true s fun p pr => do
    let ws ← loadBlock p (pr.ctx.rs rs)
    let s ← get
    let w0 := ws.getD 0 0
    guardTrap (badChan w0 (ws.getD 1 0) (ws.getD 2 0) (s.spmBytes pr.team) || (ws.drop 3).any (· ≠ 0)) (trapChan 1)
    match Tab.freeKey (s.cluster pr.cl).endps 0 4096 with
    | none => raiseTrap (trapChan 3)
    | some e => do
      let n := chanEndp w0 (ws.getD 1 0) (ws.getD 2 0) pr.team s.nextEp (some (s.key p))
      set ({ s with nextEp := nextIdx s.nextEp, dir := Tab.put s.nextEp (pr.cl, e) s.dir }.setEndp pr.cl e n)
      setS p d (endpHandle s n)
      pure {}

/-- An operation on an endpoint of another device is asked for there, and the process waits for the answer (R341). -/
def askRemote (p : Pid) (h : Word) (req : RemoteReq) : Exec Nat := do
  let s ← get
  let pr ← getProc p
  match pr.op with
  | some o =>
    match o.res with
    | .waiting => waitOn .other 0 0
    | .ok _ => pure 0
    | .status n => pure n
    | .trap c k a => raiseTrap { cls := c, kind := k, aux := BitVec.ofNat 64 a }
  | none => do
    guardTrap (s.noDev (hDev h)) { cls := 8, kind := 1 }
    modProcE p fun pr => { pr with op := some { id := s.nextReq, key := h.toNat, res := .waiting } }
    let s : State := { ← get with nextReq := s.nextReq + 1 }
    match s.inject (s.clusterSite pr.cl) (hDev h) false (.access h 0 (replyTag 0 p (s.nextReq - 1)) req) [] with
    | .ok s => set s
    | .error none => raiseTrap { cls := 8, kind := 2 }
    | .error (some x) => do
      let (k, s) := s.freeNat
      set (s.machineCheck 4 0 x 0)
      raiseTrap { cls := 8, kind := k % 256 }
    waitOn .other 0 0

/-- Closes an endpoint (R336): every unmatched message ends CLOSED. -/
def State.closeEnd (s : State) (cl e : Nat) : State :=
  match s.endp? cl e with
  | none => s
  | some n =>
    let s := s.setEndp cl e { n with closed := true }
    let s := n.unm.foldl (fun s k =>
      match (Tab.get? k (s.cluster cl).greqs).bind s.reqMsg with
      | some (id, _) => (s.dropReq cl k).sendDone id (.status 4) 0
      | none => s.dropReq cl k) s
    s.settle cl e

def execChclose (m : Mods) (d : SReg) (st : Bool) (s : State) : Host.Outcome State Fault Refusal :=
  runExec m (lenOf m true false) true s fun p pr => do
    let s ← get
    let h0 := pr.ctx.rs d
    let r := match s.unrelative pr h0 with
      | .error t => Except.error t
      | .ok h => if hKind h ≠ 0 then .error (trapChan 2) else s.resolveEnd pr (h ||| field 1 49) true
    match r with
    | .error t => raiseTrap t
    | .ok (h, t) => do
      release p (scopeTo pr t) false
      let reg := if st then some d else none
      match t with
      | .ep cl e => do
        let ok := match s.endp? cl e with | some n => n.efmt.toNat = hEfmt h && n.sclass.toNat = hSclass h | none => true
        guardTrap (!ok) { cls := 12 }
        if (s.endp? cl e).any fun n => n.closed then chanEnd p reg 4
        else do
          modS fun s => s.closeEnd cl e
          chanEnd p reg 0
      | .pending => waitOn .other 0 0
      | .remote _ => chanEnd p reg (← askRemote p h .close)
      | _ => chanEnd p reg 4
      pure {}

/-- Whether an endpoint a handle names exists (R324). -/
def State.handleExists (s : State) (pr : Proc) (h : Word) : Bool :=
  handleOk h && (hDev h ≠ s.dev ||
    (match hKind h with
     | 0 => (s.lookup (hIdx h)).isSome
     | 1 => hIdx h < s.mdies
     | 2 => (s.lookup (replyKey (hIdx h))).isSome
     | 3 => hIdx h < 56
     | 4 => hIdx h = 0
     | 5 => s.ownsExpert pr (hIdx h) || (s.expert? (hIdx h)).isSome
     | 6 => hIdx h ≤ 2 || s.teams.any fun e => faultIdx e.1 = hIdx h
     | _ => hIdx h ≤ 255))

def execChbind (m : Mods) (d rs : SReg) (s : State) : Host.Outcome State Fault Refusal :=
  runExec m (lenOf m true false) true s fun _ pr => do
    let s ← get
    let h := pr.ctx.rs d
    let n := pr.ctx.rs rs
    guardTrap (!s.handleExists pr h || hKind h = 7) (trapChan 2)
    guardTrap (bits n 63 8 ≠ 0) (trapChan 1)
    set (s.modLaunch pr.lid fun l => { l with chans := Tab.set 0 (bits n 7 0) (h &&& ~~~(field 1 49)) l.chans })
    pure {}

/-! ## ALT (R338) -/

/-- Reads the guards of an ALT: handle and word 1. -/
def loadGuards (p : Pid) (loc : Nat) (ea : Word) : Nat → Nat → Exec (List (Word × Word))
  | _, 0 => pure []
  | i, n + 1 => do
    waitPlace p (.mem (lineOf (loc + 16 * i)))
    let bs ← loadLoc p (loc + 16 * i) 16 (ea + BitVec.ofNat 64 (16 * i))
    let rest ← loadGuards p loc ea (i + 1) n
    pure ((wordAt bs 0, wordAt bs 1) :: rest)

/-- A mailbox hands its oldest message to its first waiting receiver (R340). -/
def State.mailServe (s : State) (m : Nat) : State :=
  let b := Tab.getD m s.mailboxes {}
  match b.inbound, b.waiters with
  | bs :: rest, p :: ps =>
    if (s.proc? p).any fun pr => pr.wkind = .alt then
      ({ s with mailboxes := Tab.put m { b with waiters := ps } s.mailboxes } : State).altWake p
    else ({ s with mailboxes := Tab.put m { b with inbound := rest, waiters := ps } s.mailboxes } : State).endOp p
      (.ok (BitVec.ofNat 8192 (natLE bs))) scSystem
  | _, _ => s

/-- Returns a process's reservation to the front of its endpoint (R339). -/
def State.unreserve (s : State) (p : Pid) : State :=
  match s.proc? p with
  | none => s
  | some pr =>
    let s := s.setProc p { pr with resv := none }
    match pr.resv with
    | none => s
    | some (key, r) =>
      let at_ := match Tab.get? key s.dir with | some x => x | none => closedMark
      match r with
      | .entry cl k =>
        if (Tab.get? k (s.cluster cl).greqs).isNone then s
        else ((s.modEndp at_.1 at_.2 fun n => { n with unm := k :: n.unm }).settle at_.1 at_.2)
      | .slot _ n =>
        (s.modEndp at_.1 at_.2 fun ep =>
          match (List.range ep.slots.length).find? fun i => (ep.head + i) % max ep.depth 1 = n with
          | some i => setSlot ep i .filled
          | none => ep).settle at_.1 at_.2
      | .mail bs =>
        let m := key - 2 ^ 33
        let b := Tab.getD m s.mailboxes {}
        ({ s with mailboxes := Tab.put m { b with inbound := bs :: b.inbound } s.mailboxes } : State).mailServe m
      | .closed => if at_ = closedMark then s else s.settle at_.1 at_.2

/-- Puts a process on the wait list of every enabled guard. -/
def State.listGuards (s : State) (p : Pid) (gs : Tab Line) : State :=
  gs.foldl (fun s g =>
    if !(guardOf g.2).2 then s
    else match s.guardEnd (guardOf g.2).1 with
      | some (.ep cl e) => s.modEndp cl e fun n => if n.waiters.contains p then n else { n with waiters := n.waiters ++ [p] }
      | some (.mail m) =>
        let b := Tab.getD m s.mailboxes {}
        { s with mailboxes := Tab.put m { b with waiters := b.waiters.filter (· ≠ p) ++ [p] } s.mailboxes }
      | _ => s) s

/-- Checks of the enabled guards: the handles with launch-relative ones replaced. -/
def checkGuards (p : Pid) : List (Word × Word) → Exec (List (Word × Word))
  | [] => pure []
  | (h, en) :: gs => do
    let s ← get
    let pr ← getProc p
    let h' ← (if bit en 0 then
      match s.resolveEnd pr h false with
      | .ok (h, .ep _ _) | .ok (h, .gone) | .ok (h, .mail _) => do guardTrap (!ownReply p h) (trapChan 2); pure h
      | .ok (h, .pending) => pure h
      | .ok _ => raiseTrap (trapChan 2)
      | .error t => raiseTrap t
      else pure h : Exec Word)
    let rest ← checkGuards p gs
    pure ((h', en) :: rest)

def execAlt (m : Mods) (d rs : SReg) (cnt : BitVec 4) (t : Option SReg) (fair : Bool) (s : State) :
    Host.Outcome State Fault Refusal :=
  runExec m (lenOf m true t.isSome) true s fun p pr => do
    let n := cnt.toNat + 1
    let st := deadlineOf pr.ctx t
    let a := pr.ctx.rs rs
    match pr.op with
    | some o =>
      match o.res with
      | .status i => setS p d (BitVec.ofNat 64 i)
      | _ => waitOn .alt a st
    | none => do
      let off := bits a 31 0
      guardTrap (!(spaceOf a = 3 && bits a 61 32 = 0 && off % 16 = 0 && off + 16 * n ≤ s.spmBytes pr.team)) (trapChan 1)
      let loc := sramLoc pr.cl (s.spmOf pr.team + off)
      let gs ← loadGuards p loc a 0 n
      guardTrap (gs.any fun g => bits g.2 63 1 ≠ 0) (trapChan 1)
      let gs ← checkGuards p gs
      guardTrap ((gs.all fun g => !bit g.2 0) && st = 0) (trapChan 1)
      modS fun s => s.unreserve p
      let s ← get
      match s.altTry p (guardTab 0 gs) n fair with
      | (some i, s) => do set s; setS p d (BitVec.ofNat 64 i)
      | (none, s) => do
        set s
        if s.passed pr st then setS p d (BitVec.ofNat 64 n)
        else do
          let tab := guardTab 0 gs
          modProcE p fun pr => { pr with op := some { id := 0, key := n + (if fair then 32 else 0), res := .waiting, got := tab } }
          modS fun s => s.listGuards p tab
          waitOn .alt a st
    pure {}

/-! ## QBIND, QUNBIND (R351), TBLK, TUBLK (R355) -/

def execQbind (m : Mods) (d : QReg) (rs : SReg) (s : State) : Host.Outcome State Fault Refusal :=
  runExec m (lenOf m true false) true s fun p pr => do
    let s ← get
    let h0 := pr.ctx.rs rs
    guardTrap (pr.ctx.qbound.getLsbD d.toNat) { cls := 10, kind := 3 }
    match s.unrelative pr h0 with
    | .error t => raiseTrap t
    | .ok h => do
      let out := if hKind h = 1 || hKind h = 4 then true else if hKind h = 2 then hIdx h ≠ p || hDev h ≠ s.dev else hDir h
      guardTrap (hKind h = 5) (trapChan 2)
      match s.resolveEnd pr h out with
      | .error t => raiseTrap t
      | .ok (h, t) => do
        let ok := match t with
          | .ep cl e => (s.endp? cl e).all fun n => n.reply || (n.efmt.toNat = hEfmt h && n.sclass.toNat = hSclass h)
          | _ => true
        guardTrap (!ok || !(hSclass h ≤ 3 || hSclass h = 6)) { cls := 12 }
        let one : BitVec 8 := 1 <<< d.toNat
        modCtx p fun c => { c with
          qbound := c.qbound ||| one, qout := if out then c.qout ||| one else c.qout &&& ~~~one, qh := Tab.set 0 d.toNat h c.qh }
        pure {}

def execQunbind (m : Mods) (d : QReg) (s : State) : Host.Outcome State Fault Refusal :=
  runExec m (lenOf m true false) true s fun p _ => do
    let one : BitVec 8 := 1 <<< d.toNat
    modCtx p fun c => { c with qbound := c.qbound &&& ~~~one, qout := c.qout &&& ~~~one, qh := Tab.set 0 d.toNat 0 c.qh }
    pure {}

/-- BLK of an entry is set or cleared, and its rule of R337 applied; one with SPN 0 stays as it is. -/
def State.setBlk (s : State) (cl e : Nat) (blk : Bool) : State :=
  if (s.endp? cl e).any fun n => n.spn then (s.modEndp cl e fun n => { n with blk := blk }).settle cl e else s

/-- TBLK and TUBLK: BLK of the entry, then R337. -/
def blockEntry (m : Mods) (d : SReg) (blk : Bool) (s : State) : Host.Outcome State Fault Refusal :=
  runExec m (lenOf m true false) true s fun p pr => do
    let s ← get
    match s.unrelative pr (pr.ctx.rs d) with
    | .error t => raiseTrap t
    | .ok h => do
      guardTrap (hKind h ≠ 0) (trapChan 2)
      match s.resolveEnd pr (h ||| field 1 49) true with
      | .error t => raiseTrap t
      | .ok (_, .ep cl e) => set (s.setBlk cl e blk)
      | .ok (_, .pending) => waitOn .other 0 0
      | .ok (h, .remote _) => do let _ ← askRemote p h (.block blk)
      | .ok _ => pure ()
      pure {}

def execTblk (m : Mods) (d : SReg) (s : State) : Host.Outcome State Fault Refusal := blockEntry m d true s
def execTublk (m : Mods) (d : SReg) (s : State) : Host.Outcome State Fault Refusal := blockEntry m d false s

/-! ## Messages on their way (R125, R327, R330) -/

/-- Where a message's endpoint is now. -/
def State.msgTarget (s : State) (m : Msg) : Option Target := s.lookup (if m.kind = 2 then replyKey m.idx else m.idx)

/-- The stub filter (R396): an old-version message that another replica now resolves is redirected there. -/
def State.redirect (s : State) (n : Endp) (m : Msg) : Option Msg :=
  match n.filter, n.expert, m.expert with
  | some v, some (x, r), some (y, w) =>
    if x = y ∧ w ≤ v then
      match s.expert? x with
      | some e =>
        match replicaOf e.live (tokenOf m.bytes) with
        | some r' => if r' = r then none else some { m with idx := hIdx (Tab.getD r' e.rh 0), expert := some (x, e.ver.toNat), place := none }
        | none => none
      | none => none
    else none
  | _, _, _ => none

/-- An unmatched message takes its place at its endpoint, in order of arrival (R125, R329). -/
def State.unmatched (s : State) (cl e k : Nat) : State :=
  let order : Nat → Nat := fun j => match Tab.get? j (s.cluster cl).greqs with | some r => r.order | none => 0
  s.modEndp cl e fun n =>
    let l := n.unm.filter (· ≠ k)
    { n with unm := (l.filter fun j => order j ≤ order k) ++ k :: l.filter fun j => order k < order j }

/-- A message reaches a cluster (R125): its request takes an entry of the request store, or is refused BUSY. A message for an
endpoint that moved is sent on (R327). -/
def State.requestArrives (s : State) (cl id : Nat) : State :=
  match s.msg? id with
  | none => s
  | some m =>
    match s.msgTarget m with
    | none => s.sendDone id (.trap 11 2 0) 0
    | some (.ep c e) =>
      if c ≠ cl then s.sched tripCycles (.grantRequestArrival c id)
      else
        match s.endp? cl e with
        | none => s.sendDone id (.status 4) 0
        | some n =>
          if !n.reply && (n.efmt ≠ m.efmt || n.sclass ≠ m.sclass) then s.sendDone id (.trap 12 0 0) 0
          else if n.closed then s.sendDone id (.status 4) 0
          else
            match s.redirect n m with
            | some m' =>
              let s := { s with msgs := Tab.put id m' s.msgs }
              match s.msgTarget m' with
              | some (.ep c' _) => s.sched tripCycles (.grantRequestArrival c' id)
              | _ => s.sendDone id (.status 4) 0
            | none =>
              let r : GReq := {
                src := .msg id, len := m.len, pfx := min m.len 1024, ep := some e, cls := n.gcls, arrival := s.timebase
                matched := false, rcvr := none, dest := 0, rcv := [], granted := [], toks := [], lastAcc := s.timebase }
              match s.addReq cl m.site r with
              | (s, none) => s.sched (nsCycles 2000) (.busyResend cl id)
              | (s, some k) => ((s.modMsg id fun m => { m with place := some (cl, k) }).unmatched cl e k).sched 0 (.messageArrival cl k)
    | some _ => s.sendDone id (.status 4) 0

def execGrantRequestArrival (cl msg : Nat) (s : State) : Host.Outcome State Fault Refusal := .next (s.requestArrives cl msg)

/-- A BUSY-refused request is resent (R125); numbers from 2^32 name a copy's place. -/
def execBusyResend (cl msg : Nat) (s : State) : Host.Outcome State Fault Refusal :=
  if msg < 2 ^ 32 then .next (s.requestArrives cl msg)
  else
    let place := msg - 2 ^ 32
    match Tab.get? place (s.cluster cl).copies with
    | some c => .next (if (s.copyReq? cl place).isSome || c.stopped.isSome then s else s.requestCopy cl place c)
    | none => .next s

/-- A message that holds a request-store entry arrives at its endpoint (R330): it waits unmatched and the endpoint works. -/
def execMessageArrival (cl entry : Nat) (s : State) : Host.Outcome State Fault Refusal :=
  match Tab.get? entry (s.cluster cl).greqs with
  | none => .next s
  | some r =>
    match r.ep with
    | none => .next s
    | some e =>
      if (s.endp? cl e).all fun n => n.closed then
        match s.reqMsg r with
        | some (id, _) => .next ((s.dropReq cl entry).sendDone id (.status 4) 0)
        | none => .next (s.dropReq cl entry)
      else .next ((s.unmatched cl e entry).settle cl e)

/-! ## Deadlines (R335, R354) -/

/-- A process waits and its deadline has passed; a halted cluster's deadlines are not tested (R434). -/
def State.deadlinePast (s : State) (p : Pid) : Option Proc :=
  match s.proc? p with
  | some pr =>
    if pr.wkind ≠ .nothing && s.passed pr pr.deadline && !s.frozen pr.cl then some pr else none
  | none => none

/-- A deadline passes: the withdrawal of a message travels behind it; a receiver's is made at once. -/
def execDeadlineExpiry (pid : Pid) (s : State) : Host.Outcome State Fault Refusal :=
  match s.deadlinePast pid with
  | none => .next s
  | some pr =>
    if pr.wkind = .send || pr.wkind = .sendt then .next (s.sched (tripCycles + 1) (.withdrawalArrival pid))
    else .next (s.sched 0 (.withdrawalArrival pid))

/-- Takes an unmatched message back from its endpoint. -/
def State.withdrawMsg (s : State) (id : Nat) : Option State :=
  match s.msg? id with
  | none => none
  | some m =>
    match m.place with
    | none => some { s with msgs := Tab.del id s.msgs }
    | some (cl, k) =>
      match Tab.get? k (s.cluster cl).greqs with
      | none => none
      | some r =>
        let kept := s.procs.any fun e => match e.2.resv with | some (_, .entry c j) => c = cl && j = k | _ => false
        if r.matched || kept then none
        else
          let s := s.dropReq cl k
          let s := { s with msgs := Tab.del id s.msgs }
          some (match r.ep with | some e => s.settle cl e | none => s)

/-- A withdrawal arrives (R335): the operation ends TIMEOUT unless it was matched before; an ALT answers n. -/
def execWithdrawalArrival (pid : Pid) (s : State) : Host.Outcome State Fault Refusal :=
  match s.deadlinePast pid with
  | none => .next s
  | some pr =>
    match pr.op with
    | none => .next s
    | some o =>
      match o.res with
      | .waiting =>
        match pr.wkind with
        | .send | .sendt =>
          if (s.msg? o.id).any fun m => m.sender = some pid then
            match (s.msg? o.id).bind fun m => m.remote with
            | some dev => .next (s.sendBody (s.clusterSite pr.cl) dev false (.withdraw (msgTag (some pid) o.id) false) [])
            | none => match s.withdrawMsg o.id with
            | some s => .next (s.endOp pid (.status 5) 0)
            | none => .next s
          else .next (s.endOp pid (.status 5) 0)
        | .recv | .recvt =>
          if s.matchedFor pid then .next s
          else .next ((s.unlist pr.cl pid).endOp pid (.status 5) 0)
        | .alt => .next ((s.unlist pr.cl pid).endOp pid (.status (o.key % 32)) 0)
        | _ => .next s
      | _ => .next s

/-- TIMEBASE reaches a sleeper's time (R354). -/
def execSleepWake (pid : Pid) (s : State) : Host.Outcome State Fault Refusal :=
  match s.deadlinePast pid with
  | some pr => .next (if pr.wkind = .sleep then s.wake pid else s)
  | none => .next s

/-! ## Host mailboxes (R340) -/

/-- Memory die 0 looks at a mailbox's next inbound slot: a message with the expected SEQ is delivered, the slot's word 7 becomes 0. -/
def State.mailIn (s : State) (mb : Nat) : State :=
  let b := Tab.getD mb s.mailboxes {}
  let a := mailSlot mb false b.eseq.toNat
  let s := if mb < 56 then (s.touchHome a).2 else s
  if 56 ≤ mb ∨ Memory.read64 s.mem (a + 56) ≠ b.eseq ∨ 64 ≤ b.inbound.length then s
  else
    let bs := Memory.read s.mem a 32
    let s := s.homeWriteBytes (a + 56) (bytesLE 8 0)
    let b' := { b with eseq := b.eseq + 1 }
    ({ s with mailboxes := Tab.put mb { b' with inbound := b.inbound ++ [bs] } s.mailboxes } : State).mailServe mb

def execHostMailboxInbound (mb : Nat) (s : State) : Host.Outcome State Fault Refusal := .next (s.mailIn mb)

/-! ## Deadlock probes (R342 to R345) -/

/-- The endpoint a handle reaches for a wait-for edge. -/
def State.edgeEnd (s : State) (pr : Proc) (h : Word) : Option Endp :=
  match s.unrelative pr h with
  | .error _ => none
  | .ok h =>
    let key := if hKind h = 5 then
        (pr.op.bind fun o => (s.msg? o.id).map fun m => m.idx)
      else if hKind h = 0 || hKind h = 2 then some (dirKey h) else none
    match key.bind s.lookup with
    | some (.ep cl e) => s.endp? cl e
    | _ => none

/-- An edge to whoever receives at an endpoint of another device: that device, whose cluster holds LRCV, finds the process. DESIGN
CHOICE, log entry 69. -/
def farEdge (h : Word) : Nat := 2 ^ 50 + 2 ^ 34 * hDev h + dirKey h

/-- Where an endpoint's receiver is (R342): LRCV, or the channel's creator. -/
def Endp.receiver (n : Endp) : List Nat := match n.lrcv with | some k => [k] | none => n.creator.toList

/-- Wait-for edges of a process (R342): keys. -/
def State.edges (s : State) (p : Pid) : List Nat :=
  match s.proc? p with
  | none => []
  | some pr =>
    if pr.deadline ≠ 0 then []
    else
      let toRcv := match s.unrelative pr pr.wait with
        | .ok h => if hDev h ≠ s.dev then [farEdge h] else (s.edgeEnd pr pr.wait).toList.flatMap Endp.receiver
        | .error _ => []
      let toSnd := fun h => match s.edgeEnd pr h with | some n => n.lsnd.toList | none => []
      match pr.wkind with
      | .send | .sendt => toRcv
      | .recv | .recvt => toSnd pr.wait
      | .port => if hDir pr.wait || hKind pr.wait = 1 then toRcv else toSnd pr.wait
      | .alt =>
        match pr.op with
        | some o => o.got.flatMap fun g => if (guardOf g.2).2 then toSnd (guardOf g.2).1 else []
        | none => []
      | _ => []

/-- The number of a wait kind (R321). -/
def WKind.code : WKind → Nat
  | .nothing => 0 | .send => 1 | .sendt => 2 | .recv => 3 | .recvt => 4 | .alt => 5 | .sleep => 6 | .window => 7 | .barrier => 8
  | .batch => 9 | .lease => 10 | .port => 11 | .reply => 12 | .place => 13 | .other => 14

/-- A member of a probe's path: wait kind above the key. -/
def State.pathWord (s : State) (p : Pid) : Nat :=
  s.key p + 2 ^ 60 * (((s.proc? p).map fun pr => pr.wkind.code).getD 0)

/-- Sends a probe to a process by its key, here or over Marrun (R343). -/
def State.probeTo (s : State) (site k origin : Nat) (path : List Nat) (hops : Nat) : State :=
  if k / 2 ^ 32 = s.dev then s.sched tripCycles (.probeArrival (k % 2 ^ 32) origin path hops)
  else s.sendBody site (k / 2 ^ 32) false (.probe (k % 2 ^ 32) origin path hops) []

/-- Sends a probe along each edge of a process; an edge to another device leaves the device. -/
def State.sendProbes (s : State) (p : Pid) (origin : Nat) (path : List Nat) (hops : Nat) : State :=
  let site := match s.proc? p with | some pr => s.clusterSite pr.cl | none => 0
  (s.edges p).foldl (fun s k =>
    if 2 ^ 50 ≤ k then s.sendBody site (k / 2 ^ 34 % 2 ^ 16) false (.probe (2 ^ 33 + k % 2 ^ 34) origin path hops) []
    else s.probeTo site k origin path hops) s

/-- A probe of another device has come for a process, or for the receiver of an endpoint (from 2^33 on). -/
def State.probeIn (s : State) (x origin : Nat) (path : List Nat) (hops : Nat) : State :=
  if x < 2 ^ 33 then s.sched 0 (.probeArrival x origin path hops)
  else match s.lookup (x - 2 ^ 33) with
    | some (.ep cl e) => ((s.endp? cl e).toList.flatMap Endp.receiver).foldl (fun s k => s.probeTo (s.clusterSite cl) k origin path hops) s
    | _ => s

/-- A process blocked without a deadline for the probe interval sends probes, until it has reported (R343). -/
def execProbeTimer (pid : Pid) (s : State) : Host.Outcome State Fault Refusal :=
  let every := nsCycles (1000 * bits (s.reg 124) 15 0)
  match s.proc? pid with
  | none => .next s
  | some pr =>
    if pr.wkind = .nothing ∨ pr.deadline ≠ 0 ∨ pr.reported ∨ every = 0 ∨ s.cycles < pr.since + every then .next s
    else .next ((s.sendProbes pid (s.key pid) [s.pathWord pid] 1).sched every (.probeTimer pid))

/-- A deadlock record of 24 words (R345). -/
def deadlockRecord (s : State) (pr : Proc) (path : List Nat) (hops : Nat) : List Word :=
  let n := min path.length 16
  [BitVec.ofNat 64 (0x40 + n * 2 ^ 8 + (if 16 < hops then 2 ^ 16 else 0)), BitVec.ofNat 64 s.timebase, pr.wait, pr.pc, 0, 0, 0, 0] ++
    (List.range 16).map fun i => BitVec.ofNat 64 (path.getD i 0)

/-- A probe is reported, dropped or forwarded. -/
def execProbeArrival (x : Pid) (origin : Nat) (path : List Nat) (hops : Nat) (s : State) : Host.Outcome State Fault Refusal :=
  match s.proc? x with
  | none => .next s
  | some pr =>
    if s.edges x = [] then .next s
    else if s.key x = origin then
      if pr.reported then .next s
      else .next ((s.setProc x { pr with reported := true }).postService (faultIdx pr.team) (deadlockRecord s pr path hops))
    else if s.key x < origin ∨ 256 ≤ hops then .next s
    else .next (s.sendProbes x origin (if path.length < 16 then path ++ [s.pathWord x] else path) (hops + 1))

end Sys2Proof.Machine
end

