-- ==== Sys2Proof/Machine/Flags.lean ====
section
/-! DEFINITION. Sticky flags (R213 to R216): the flag lane of an element, raising, the enabled set of TFENCE; rounding modes and
draws (R208 to R212). -/

namespace Sys2Proof.Machine

/-- The flag lane of an element at byte offset b (R213). -/
def flagLane (b : Nat) : Nat := b / 4 % 16

/-- Flags of one lane. -/
def laneFlags (c : Ctx) (lane : Nat) : Flags := (c.flags >>> (5 * lane)).setWidth 5

/-- FCTL.EN (R208). -/
def enabledOf (c : Ctx) : Flags := BitVec.ofNat 5 (bits c.fctl 12 8)

/-- The enabled set of R215: the flags of all lanes, masked. -/
def enabledSet (c : Ctx) : Flags :=
  ((List.range 16).foldl (fun a l => a ||| laneFlags c l) (0 : Flags)) &&& enabledOf c

/-- Lanes in which an enabled flag is set. -/
def enabledLanes (c : Ctx) : Nat :=
  ((List.range 16).map fun l => if laneFlags c l &&& enabledOf c ≠ 0 then 2 ^ l else 0).sum

/-- Flags raised by elements of one width: element i records in the lane of its byte offset. -/
def raiseElts (c : Ctx) (w : Nat) : Nat → List Flags → Ctx
  | _, [] => c
  | i, f :: fs => raiseElts (if f = 0 then c else c.raise (flagLane (i * w / 8)) f) w (i + 1) fs

/-- Raises flags unless nf suppresses them (R30). -/
def raiseIf (m : Mods) (c : Ctx) (w : Nat) (fs : List Flags) : Ctx := if nfOf m then c else raiseElts c w 0 fs

/-- FCTL.RM and FCTL.F8OV (R208). -/
def fctlRm (c : Ctx) : Rnd :=
  match bits c.fctl 2 0 with | 0 => .rne | 1 => .rtz | 2 => .rdn | 3 => .rup | _ => .sr
def f8ovOf (c : Ctx) : Bool := bit c.fctl 4

/-- The selector in force (R209). -/
def rndOr (c : Ctx) (r : Rnd) : Rnd := match r with | .fctl => fctlRm c | r => r

/-- The rounding mode of arithmetic: SR acts as RNE. -/
def arithRm (c : Ctx) : RMode :=
  match fctlRm c with | .rtz => .rtz | .rdn => .rdn | .rup => .rup | _ => .rne

/-- One draw (R212): the new SRSTATE and the 16-bit word. -/
def draw (x : Word) : Word × Nat :=
  let y := x * 0x5851F42D4C957F2D + 0x14057B7EF767814F
  (y, bits y 63 48)

/-- Whether a conversion to a tag under a selector draws (R209, R212). -/
def draws (r : Rnd) (dt : Tag) : Bool := r = .sr && (dt = .bf16 || dt = .f8a || dt = .f8b)

/-- The mode of one conversion; a draw advances SRSTATE. -/
def roundMode (r : Rnd) (dt : Tag) (sr : Word) : RMode × Word :=
  match r with
  | .rtz => (.rtz, sr)
  | .rdn => (.rdn, sr)
  | .rup => (.rup, sr)
  | .sr => if draws r dt then let d := draw sr; (.sr d.2, d.1) else (.rne, sr)
  | _ => (.rne, sr)

/-- Converts elements in ascending order (R210 to R212); `on` says which are written, and only those draw. -/
def convertAll (c : Ctx) (src : Tag) (sigma : Int) (dt : Tag) (r : Rnd) (on : Nat → Bool) :
    Nat → Word → List Nat → List (Nat × Flags) × Word
  | _, sr, [] => ([], sr)
  | i, sr, x :: xs =>
    if on i then
      let md := roundMode r dt sr
      let y := convert (f8ovOf c) src sigma dt md.1 x
      let rest := convertAll c src sigma dt r on (i + 1) md.2 xs
      (y :: rest.1, rest.2)
    else
      let rest := convertAll c src sigma dt r on (i + 1) sr xs
      ((0, 0) :: rest.1, rest.2)

end Sys2Proof.Machine
end

