-- ==== Sys2Proof/Machine/Scalar.lean ====
section
/-! DEFINITION. Scalar, immediate, compare and predicate-register instructions (R220 to R230). -/

namespace Sys2Proof.Machine

/-! ## Results -/

/-- The signed 128-bit product's high word (R221). -/
def mulhS (a b : Word) : Word := BitVec.ofInt 64 (a.toInt * b.toInt / 2 ^ 64)
/-- The unsigned 128-bit product's high word. -/
def mulhU (a b : Word) : Word := BitVec.ofNat 64 (a.toNat * b.toNat / 2 ^ 64)

/-- Division by R222: toward zero; by zero all ones. -/
def divS (a b : Word) : Word := if b = 0 then BitVec.allOnes 64 else BitVec.ofInt 64 (Int.tdiv a.toInt b.toInt)
def divU (a b : Word) : Word := if b = 0 then BitVec.allOnes 64 else BitVec.ofNat 64 (a.toNat / b.toNat)
def remS (a b : Word) : Word := if b = 0 then a else BitVec.ofInt 64 (Int.tmod a.toInt b.toInt)
def remU (a b : Word) : Word := if b = 0 then a else BitVec.ofNat 64 (a.toNat % b.toNat)

/-- Bits 5:0 of a shift amount. -/
def shAmt (b : Word) : Nat := b.toNat % 64

def minS (a b : Word) : Word := if b.toInt < a.toInt then b else a
def maxS (a b : Word) : Word := if a.toInt < b.toInt then b else a
def minU (a b : Word) : Word := if b.toNat < a.toNat then b else a
def maxU (a b : Word) : Word := if a.toNat < b.toNat then b else a

/-- Leading zero bits; 64 for 0 (R223). -/
def clz64 (a : Word) : Word := if a = 0 then 64 else BitVec.ofNat 64 (63 - Nat.log2 a.toNat)
/-- Trailing zero bits; 64 for 0. -/
def ctz64 (a : Word) : Word := BitVec.ofNat 64 (((List.range 64).find? fun i => a.getLsbD i).getD 64)
/-- One bits. -/
def popc64 (a : Word) : Word := BitVec.ofNat 64 ((List.range 64).map fun i => (a.getLsbD i).toNat).sum

/-- Width in bits of an access size. -/
def szBits : Sz → Nat | .d => 64 | .w => 32 | .h => 16 | .b => 8
def szBytes (z : Sz) : Nat := szBits z / 8
def signExt (z : Sz) (a : Word) : Word := BitVec.ofInt 64 (toSigned (szBits z) a.toNat)
def zeroExt (z : Sz) (a : Word) : Word := BitVec.ofNat 64 (a.toNat % 2 ^ szBits z)

/-- The conditions of R228. -/
def cndHolds (c : Cnd) (a b : Word) : Bool :=
  match c with
  | .eq => a = b
  | .ne => a ≠ b
  | .lt => a.toInt < b.toInt
  | .ge => b.toInt ≤ a.toInt
  | .ltn => a.toNat < b.toNat
  | .gen => b.toNat ≤ a.toNat
  | .un => false

/-- All ones or all zeros. -/
def allIf (b : Bool) : Word := if b then BitVec.allOnes 64 else 0

/-! ## Two-source group (R221, R222) -/

def execAdd (m : Mods) (d s : SReg) (t : Option SReg) (st : State) := runAlu2 m d s t 1 (fun a b => a + b) st
def execSub (m : Mods) (d s : SReg) (t : Option SReg) (st : State) := runAlu2 m d s t 1 (fun a b => a - b) st
def execMul (m : Mods) (d s : SReg) (t : Option SReg) (st : State) := runAlu2 m d s t 3 (fun a b => a * b) st
def execMulh (m : Mods) (d s : SReg) (t : Option SReg) (st : State) := runAlu2 m d s t 4 mulhS st
def execMulhn (m : Mods) (d s : SReg) (t : Option SReg) (st : State) := runAlu2 m d s t 4 mulhU st
def execDiv (m : Mods) (d s : SReg) (t : Option SReg) (st : State) := runAlu2 m d s t 34 divS st
def execDivn (m : Mods) (d s : SReg) (t : Option SReg) (st : State) := runAlu2 m d s t 34 divU st
def execRem (m : Mods) (d s : SReg) (t : Option SReg) (st : State) := runAlu2 m d s t 34 remS st
def execRemn (m : Mods) (d s : SReg) (t : Option SReg) (st : State) := runAlu2 m d s t 34 remU st
def execAnd (m : Mods) (d s : SReg) (t : Option SReg) (st : State) := runAlu2 m d s t 1 (fun a b => a &&& b) st
def execOr (m : Mods) (d s : SReg) (t : Option SReg) (st : State) := runAlu2 m d s t 1 (fun a b => a ||| b) st
def execXor (m : Mods) (d s : SReg) (t : Option SReg) (st : State) := runAlu2 m d s t 1 (fun a b => a ^^^ b) st
def execShl (m : Mods) (d s : SReg) (t : Option SReg) (st : State) := runAlu2 m d s t 1 (fun a b => a <<< shAmt b) st
def execShr (m : Mods) (d s : SReg) (t : Option SReg) (st : State) := runAlu2 m d s t 1 (fun a b => a >>> shAmt b) st
def execSar (m : Mods) (d s : SReg) (t : Option SReg) (st : State) := runAlu2 m d s t 1 (fun a b => a.sshiftRight (shAmt b)) st
def execRol (m : Mods) (d s : SReg) (t : Option SReg) (st : State) := runAlu2 m d s t 1 (fun a b => a.rotateLeft (shAmt b)) st
def execMin (m : Mods) (d s : SReg) (t : Option SReg) (st : State) := runAlu2 m d s t 1 minS st
def execMax (m : Mods) (d s : SReg) (t : Option SReg) (st : State) := runAlu2 m d s t 1 maxS st
def execMinn (m : Mods) (d s : SReg) (t : Option SReg) (st : State) := runAlu2 m d s t 1 minU st
def execMaxn (m : Mods) (d s : SReg) (t : Option SReg) (st : State) := runAlu2 m d s t 1 maxU st

/-- SEL takes the predicate as an operand and is never gated (R227). -/
def execSel (m : Mods) (d s t : SReg) (st : State) : Host.Outcome State Fault Refusal :=
  runReg m (lenOf m false true) false st fun pr =>
    .ok ({ pr with ctx := pr.ctx.ws d (if onOf m pr.ctx then pr.ctx.rs s else pr.ctx.rs t) }, { outs := [outS d 1] })

/-- LEA (R226). -/
def execLea (m : Mods) (d s : SReg) (t : Option SReg) (sc : BitVec 2) (imm : Word) (st : State) :
    Host.Outcome State Fault Refusal :=
  runAlu1 m d (if t.isSome then 2 else 1) t.isSome
    (fun c => match t with | none => c.rs s + imm | some t => c.rs s + (c.rs t <<< sc.toNat) + imm) st

/-! ## One-source group (R223) -/

def execNeg (m : Mods) (d s : SReg) (st : State) := runAlu1 m d 1 false (fun c => 0 - c.rs s) st
def execNot (m : Mods) (d s : SReg) (st : State) := runAlu1 m d 1 false (fun c => ~~~(c.rs s)) st
def execClz (m : Mods) (d s : SReg) (st : State) := runAlu1 m d 2 false (fun c => clz64 (c.rs s)) st
def execCtz (m : Mods) (d s : SReg) (st : State) := runAlu1 m d 2 false (fun c => ctz64 (c.rs s)) st
def execPopc (m : Mods) (d s : SReg) (st : State) := runAlu1 m d 2 false (fun c => popc64 (c.rs s)) st
def execSext (m : Mods) (d s : SReg) (z : Sz) (st : State) := runAlu1 m d 1 false (fun c => signExt z (c.rs s)) st
def execZext (m : Mods) (d s : SReg) (z : Sz) (st : State) := runAlu1 m d 1 false (fun c => zeroExt z (c.rs s)) st
def execMov (m : Mods) (d s : SReg) (st : State) := runAlu1 m d 1 false (fun c => c.rs s) st

/-! ## Immediates (R224) -/

def execAddi (m : Mods) (d : SReg) (imm : Word) (st : State) := runAlu1 m d 1 false (fun c => c.rs d + imm) st
def execAndi (m : Mods) (d : SReg) (imm : Word) (st : State) := runAlu1 m d 1 false (fun c => c.rs d &&& imm) st
def execOri (m : Mods) (d : SReg) (imm : Word) (st : State) := runAlu1 m d 1 false (fun c => c.rs d ||| imm) st
def execXori (m : Mods) (d : SReg) (imm : Word) (st : State) := runAlu1 m d 1 false (fun c => c.rs d ^^^ imm) st
def execMovi (m : Mods) (d : SReg) (imm : Word) (st : State) := runAlu1 m d 1 false (fun _ => imm) st
def execMovhi (m : Mods) (d : SReg) (imm : Word) (st : State) :=
  runAlu1 m d 1 false (fun c => (imm <<< 32) ||| (c.rs d &&& 0xFFFFFFFF)) st

/-! ## Compares and predicates (R228, R229) -/

def execCmp (m : Mods) (d : PReg) (s : SReg) (t : Option SReg) (c : Cnd) (st : State) :=
  runPred m false t.isSome d 2 (fun x => allIf (cndHolds c (x.rs s) (x.rs (t.getD 0)))) st
def execCmpi (m : Mods) (d : PReg) (s : SReg) (c : Cnd) (imm : Word) (st : State) :=
  runPred m false false d 2 (fun x => allIf (cndHolds c (x.rs s) imm)) st

/-- The sources of a "T opt" predicate form. -/
def srcP (c : Ctx) (d s : PReg) (t : Option PReg) : Word × Word :=
  match t with | none => (c.rp d, c.rp s) | some t => (c.rp s, c.rp t)

def execPand (m : Mods) (d s : PReg) (t : Option PReg) (st : State) :=
  runPred m true t.isSome d 1 (fun c => let ab := srcP c d s t; ab.1 &&& ab.2) st
def execPor (m : Mods) (d s : PReg) (t : Option PReg) (st : State) :=
  runPred m true t.isSome d 1 (fun c => let ab := srcP c d s t; ab.1 ||| ab.2) st
def execPnot (m : Mods) (d s : PReg) (st : State) := runPred m true false d 1 (fun c => ~~~(c.rp s)) st

def execPmov (m : Mods) (o : PMovOps) (st : State) : Host.Outcome State Fault Refusal :=
  runReg m (lenOf m true false) true st fun pr =>
    let c := pr.ctx
    match o with
    | .pp d s => .ok ({ pr with ctx := c.wp d (c.rp s) }, { outs := [outP d 1] })
    | .ps d s => .ok ({ pr with ctx := c.wp d (c.rs s) }, { outs := [outP d 1] })
    | .sp d s => .ok ({ pr with ctx := c.ws d (c.rp s) }, { outs := [outS d 1] })

end Sys2Proof.Machine
end

