-- ==== Sys2Proof/Machine/Vector.lean ====
section
/-! DEFINITION. Vector instructions (R241 to R254). -/

namespace Sys2Proof.Machine

/-! ## Element operations -/

/-- Replaces an infinite result by the largest finite value of its sign (R243, .sat). -/
def satInf (f : Fmt) (x : Nat) : Nat := match f.decode x with | .inf n => f.signBit n + f.maxEnc | _ => x

/-- A float result rounded once into the tag's format. -/
def floatRes (f : Fmt) (rm : RMode) (sat : Bool) (r : Val × Flags) : Nat × Flags :=
  let y := f.round false rm r.1
  (if sat then satInf f y.1 else y.1, r.2 ||| y.2)

/-- An integer result wrapped, or clamped under .sat. -/
def intRes (t : Tag) (sat : Bool) (i : Int) : Nat × Flags :=
  (wrap (Tag.bits t) (if sat then max (Tag.lo t) (min (Tag.hi t) i) else i), 0)

/-- The element operations of R243 with two operands. -/
inductive BinOp where | add | sub | mul | min | max
  deriving DecidableEq, Repr

/-- Whether the rounding mode is RDN. -/
def isRdn (rm : RMode) : Bool := match rm with | .rdn => true | _ => false

def floatBin (o : BinOp) (rdn : Bool) (a b : Val) : Val × Flags :=
  match o with
  | .add => Val.add rdn a b
  | .sub => Val.add rdn a b.neg
  | .mul => Val.mul a b
  | .min => Val.minmax false a b
  | .max => Val.minmax true a b

def intBin (o : BinOp) (a b : Int) : Int :=
  match o with
  | .add => a + b
  | .sub => a - b
  | .mul => a * b
  | .min => min a b
  | .max => max a b

/-- One element of VADD, VSUB, VMUL, VMIN, VMAX (R243, R244). -/
def eltBin (o : BinOp) (t : Tag) (rm : RMode) (sat : Bool) (x y : Nat) : Nat × Flags :=
  match Tag.fmt? t with
  | some f => floatRes f rm sat (floatBin o (isRdn rm) (f.decode x) (f.decode y))
  | none => intRes t sat (intBin o (Tag.int t x) (Tag.int t y))

/-- VFMA and VFMS. -/
def eltFma (neg : Bool) (f : Fmt) (rm : RMode) (d x y : Nat) : Nat × Flags :=
  let a := f.decode x
  floatRes f rm false (Val.fma (isRdn rm) (f.decode d) (if neg then a.neg else a) (f.decode y))

/-- VABS and VNEG: a float changes its sign only; a NaN becomes canonical. -/
def eltSign (neg : Bool) (t : Tag) (sat : Bool) (x : Nat) : Nat × Flags :=
  match Tag.fmt? t with
  | some f =>
    match f.decode x with
    | .nan g => (f.canonNan, if g then Flags.nv else 0)
    | _ =>
      let mag := x % 2 ^ (f.ebits + f.fbits)
      let y := f.signBit (neg && x / 2 ^ (f.ebits + f.fbits) % 2 = 0) + mag
      (if sat then satInf f y else y, 0)
  | none =>
    let i := Tag.int t x
    intRes t sat (if neg then -i else if i < 0 then -i else i)

/-- VCLAMP: min(max(d, a), b). -/
def eltClamp (t : Tag) (rm : RMode) (d x y : Nat) : Nat × Flags :=
  let u := eltBin .max t rm false d x
  let v := eltBin .min t rm false u.1 y
  (v.1, u.2 ||| v.2)

/-- The shifts of R245. -/
inductive ShiftOp where | shl | shr | sar
  deriving DecidableEq, Repr

def eltShift (o : ShiftOp) (w x y : Nat) : Nat :=
  match o with
  | .shl => if w ≤ y then 0 else x * 2 ^ y % 2 ^ w
  | .shr => if w ≤ y then 0 else x / 2 ^ y
  | .sar => wrap w (toSigned w x / 2 ^ (min y w))

/-- The conditions of R247 on elements; none: the pairing is refused. Flags are NV. -/
def eltCmp (c : Cnd) (t : Tag) (x y : Nat) : Option (Bool × Flags) :=
  match Tag.fmt? t with
  | some f =>
    let a := f.decode x
    let b := f.decode y
    let un := a.isNan || b.isNan
    let anyNv : Flags := if un then Flags.nv else 0
    match c with
    | .eq => some (!un && Val.cmp a b = .eq, sigFlag [a, b])
    | .ne => some (un || Val.cmp a b ≠ .eq, sigFlag [a, b])
    | .lt => some (!un && Val.cmp a b = .lt, anyNv)
    | .ge => some (!un && Val.cmp a b ≠ .lt, anyNv)
    | .un => some (un, sigFlag [a, b])
    | _ => none
  | none =>
    let a := Tag.int t x
    let b := Tag.int t y
    match c with
    | .eq => some (a = b, 0)
    | .ne => some (a ≠ b, 0)
    | .lt => some (a < b, 0)
    | .ge => some (b ≤ a, 0)
    | .ltn => some (x < y, 0)
    | .gen => some (y ≤ x, 0)
    | .un => none

/-! ## Writing results -/

/-- Elements of a full register of `bytes` bytes at width w. -/
def countOf (bytes w : Nat) : Nat := 8 * bytes / w

/-- Flags of the elements that are written (R241, R214). -/
def onFlags (tile : Bool) (mask : Word) (w : Nat) : Nat → List (Nat × Flags) → List Flags
  | _, [] => []
  | i, r :: rs => (if eltOn tile mask w i then r.2 else 0) :: onFlags tile mask w (i + 1) rs

/-- Writes element results to a v register with its tag and scale, and raises their flags. -/
def putV (m : Mods) (c : Ctx) (d : VReg) (w : Nat) (rs : List (Nat × Flags)) (tag : BitVec 4) (scale : BitVec 8) : Ctx :=
  let mask := maskOf m c
  let new : Line := BitVec.ofNat 512 (pack w (rs.map (·.1)))
  raiseIf m (c.wv d (blend (vecMask mask) (c.rv d) new) tag scale) w (onFlags false mask w 0 rs)

/-- Runs a vector form of page 1. -/
def runV (m : Mods) (third : Bool) (gate : Bool) (st : State) (f : Ctx → Except TrapInfo (Ctx × List (BitVec 2 × BitVec 6 × Nat))) :
    Host.Outcome State Fault Refusal :=
  runReg m (lenOf m true third) gate st fun pr =>
    match f pr.ctx with
    | .error t => .error t
    | .ok (c, outs) => .ok ({ pr with ctx := c }, { outs := outs })

/-- Sources of a "T opt" vector form: the registers and their operands. -/
def vSrc (c : Ctx) (d s : VReg) (t : Option VReg) : (VReg × Opnd) × (VReg × Opnd) :=
  match t with
  | none => ((d, vOp c 1 d), (s, vOp c 2 s))
  | some t => ((s, vOp c 2 s), (t, vOp c 3 t))

/-- Elements of a v register at width w. -/
def vElts (c : Ctx) (r : VReg) (w : Nat) : List Nat := elts w (countOf 64 w) (c.rv r).toNat

def isArith (t : Tag) : Bool := Tag.isI t || Tag.isF t

/-- VADD, VSUB, VMUL, VMIN, VMAX. -/
def runBin (o : BinOp) (m : Mods) (d s : VReg) (t : Option VReg) (sat : Bool) (st : State) : Host.Outcome State Fault Refusal :=
  runV m t.isSome false st fun c => do
    let ((ra, a), (rb, b)) := vSrc c d s t
    let tag ← sameTag isArith [a, b]
    let sc ← (if o = .mul then fitScale (a.sigma + b.sigma) b
      else match sameScale [a, b] with | .error x => .error x | .ok _ => .ok a.scale)
    let w := Tag.bits tag
    let rs := List.zipWith (eltBin o tag (arithRm c) sat) (vElts c ra w) (vElts c rb w)
    .ok (putV m c d w rs (tagCode tag) sc, [outV d 4])

def execVadd (m : Mods) (d s : VReg) (t : Option VReg) (sat : Bool) (st : State) := runBin .add m d s t sat st
def execVsub (m : Mods) (d s : VReg) (t : Option VReg) (sat : Bool) (st : State) := runBin .sub m d s t sat st
def execVmul (m : Mods) (d s : VReg) (t : Option VReg) (sat : Bool) (st : State) := runBin .mul m d s t sat st
def execVmin (m : Mods) (d s : VReg) (t : Option VReg) (st : State) := runBin .min m d s t false st
def execVmax (m : Mods) (d s : VReg) (t : Option VReg) (st : State) := runBin .max m d s t false st

/-- Three lists element by element. -/
def zip3 (f : Nat → Nat → Nat → Nat × Flags) : List Nat → List Nat → List Nat → List (Nat × Flags)
  | a :: as, b :: bs, c :: cs => f a b c :: zip3 f as bs cs
  | _, _, _ => []

/-- Forms with the destination as a third operand: VFMA, VFMS, VMAC. -/
def runTri (ok : Tag → Bool) (lat : Nat) (f : Ctx → Tag → Nat → Nat → Nat → Nat × Flags) (m : Mods) (d s t : VReg) (st : State) :
    Host.Outcome State Fault Refusal :=
  runV m true false st fun c => do
    let od := vOp c 1 d
    let a := vOp c 2 s
    let b := vOp c 3 t
    let tag ← sameTag ok [od, a, b]
    let _ ← sumScale od a b
    let w := Tag.bits tag
    .ok (putV m c d w (zip3 (f c tag) (vElts c d w) (vElts c s w) (vElts c t w)) (tagCode tag) od.scale, [outV d lat])

def fmtD (t : Tag) : Fmt := (Tag.fmt? t).getD Machine.fp32

def execVfma (m : Mods) (d s t : VReg) (st : State) :=
  runTri Tag.isF 5 (fun c tag x y z => eltFma false (fmtD tag) (arithRm c) x y z) m d s t st
def execVfms (m : Mods) (d s t : VReg) (st : State) :=
  runTri Tag.isF 5 (fun c tag x y z => eltFma true (fmtD tag) (arithRm c) x y z) m d s t st
def execVmac (m : Mods) (d s t : VReg) (sat : Bool) (st : State) :=
  runTri Tag.isI 4 (fun _ tag x y z => intRes tag sat (Tag.int tag x + Tag.int tag y * Tag.int tag z)) m d s t st

/-- VCLAMP: every operand has the same tag and scale. -/
def execVclamp (m : Mods) (d s t : VReg) (st : State) : Host.Outcome State Fault Refusal :=
  runV m true false st fun c => do
    let od := vOp c 1 d
    let a := vOp c 2 s
    let b := vOp c 3 t
    let tag ← sameTag isArith [od, a, b]
    let _ ← sameScale [od, a, b]
    let w := Tag.bits tag
    .ok (putV m c d w (zip3 (eltClamp tag (arithRm c)) (vElts c d w) (vElts c s w) (vElts c t w)) (tagCode tag) od.scale,
      [outV d 4])

/-- One-source forms that keep tag and scale. -/
def runSign (neg : Bool) (m : Mods) (d s : VReg) (sat : Bool) (st : State) : Host.Outcome State Fault Refusal :=
  runV m false false st fun c => do
    let a := vOp c 2 s
    let tag ← sameTag isArith [a]
    let w := Tag.bits tag
    .ok (putV m c d w ((vElts c s w).map (eltSign neg tag sat)) (tagCode tag) a.scale, [outV d 4])

def execVabs (m : Mods) (d s : VReg) (sat : Bool) (st : State) := runSign false m d s sat st
def execVneg (m : Mods) (d s : VReg) (sat : Bool) (st : State) := runSign true m d s sat st

/-! ## Bitwise forms and shifts (R245, R246) -/

/-- Writes whole register contents under the predicate, without flags. -/
def putLine (m : Mods) (c : Ctx) (d : VReg) (x : Line) (tag : BitVec 4) (scale : BitVec 8) : Ctx :=
  c.wv d (blend (vecMask (maskOf m c)) (c.rv d) x) tag scale

def anyTag (_ : Tag) : Bool := true

def runBit (f : Line → Line → Line) (m : Mods) (d s : VReg) (t : Option VReg) (st : State) : Host.Outcome State Fault Refusal :=
  runV m t.isSome false st fun c => do
    let ((ra, a), (rb, b)) := vSrc c d s t
    let _ ← needTag a anyTag
    let _ ← needTag b anyTag
    .ok (putLine m c d (f (c.rv ra) (c.rv rb)) a.tag a.scale, [outV d 2])

def execVand (m : Mods) (d s : VReg) (t : Option VReg) (st : State) := runBit (fun a b => a &&& b) m d s t st
def execVor (m : Mods) (d s : VReg) (t : Option VReg) (st : State) := runBit (fun a b => a ||| b) m d s t st
def execVxor (m : Mods) (d s : VReg) (t : Option VReg) (st : State) := runBit (fun a b => a ^^^ b) m d s t st
def execVnot (m : Mods) (d s : VReg) (st : State) : Host.Outcome State Fault Refusal :=
  runV m false false st fun c => do
    let a := vOp c 2 s
    let _ ← needTag a anyTag
    .ok (putLine m c d (~~~(c.rv s)) a.tag a.scale, [outV d 2])

def runShift (o : ShiftOp) (m : Mods) (d s : VReg) (t : Option VReg) (st : State) : Host.Outcome State Fault Refusal :=
  runV m t.isSome false st fun c => do
    let ((ra, a), (rb, b)) := vSrc c d s t
    let tag ← sameTag Tag.isI [a, b]
    let w := Tag.bits tag
    let rs := List.zipWith (fun x y => (eltShift o w x y, (0 : Flags))) (vElts c ra w) (vElts c rb w)
    .ok (putV m c d w rs (tagCode tag) a.scale, [outV d 2])

def execVshl (m : Mods) (d s : VReg) (t : Option VReg) (st : State) := runShift .shl m d s t st
def execVshr (m : Mods) (d s : VReg) (t : Option VReg) (st : State) := runShift .shr m d s t st
def execVsar (m : Mods) (d s : VReg) (t : Option VReg) (st : State) := runShift .sar m d s t st

/-! ## Compare and select (R247, R248) -/

/-- The bits of a p register that belong to element i of w bits. -/
def eltBits (w i : Nat) : Nat := (2 ^ (w / 8) - 1) * 2 ^ (i * (w / 8))

/-- Result bits of VCMP from element results, from element i on. -/
def cmpBits (w : Nat) : Nat → List (Bool × Flags) → Nat
  | _, [] => 0
  | i, r :: rs => (if r.1 then eltBits w i else 0) + cmpBits w (i + 1) rs

def execVcmp (m : Mods) (d : PReg) (s t : VReg) (cnd : Cnd) (st : State) : Host.Outcome State Fault Refusal :=
  runV m true true st fun c => do
    let a := vOp c 2 s
    let b := vOp c 3 t
    let tag ← sameTag isArith [a, b]
    if (eltCmp cnd tag 0 0).isNone then .error a.trap
    else
      let _ ← sameScale [a, b]
      let w := Tag.bits tag
      let rs := List.zipWith (fun x y => (eltCmp cnd tag x y).getD (false, 0)) (vElts c s w) (vElts c t w)
      .ok (raiseIf m (c.wp d (BitVec.ofNat 64 (cmpBits w 0 rs))) w (rs.map (·.2)), [outP d 3])

/-- VSEL: the predicate chooses, and every byte is written. -/
def execVsel (m : Mods) (d s t : VReg) (st : State) : Host.Outcome State Fault Refusal :=
  runV m true false st fun c => do
    let a := vOp c 2 s
    let b := vOp c 3 t
    let _ ← sameTag anyTag [a, b]
    let _ ← sameScale [a, b]
    .ok (c.wv d (blend (vecMask (maskOf m c)) (c.rv t) (c.rv s)) a.tag a.scale, [outV d 2])

/-! ## Conversion (R249) -/

/-- Elements a conversion covers in a register of `bytes` bytes. -/
def cvtCount (bytes : Nat) (src dt : Tag) : Nat := 8 * bytes / max (Tag.bits src) (Tag.bits dt)

def execVcvt (m : Mods) (d s : VReg) (fmt : Tag) (rnd : Rnd) (st : State) : Host.Outcome State Fault Refusal :=
  runV m false false st fun c => do
    let a := vOp c 2 s
    let src ← needTag a (· ≠ .raw)
    let n := cvtCount 64 src fmt
    let mask := maskOf m c
    let w := Tag.bits fmt
    let r := convertAll c src a.sigma fmt (rndOr c rnd) (eltOn false mask w) 0 c.srstate
      (elts (Tag.bits src) n (c.rv s).toNat)
    .ok (putV m { c with srstate := r.2 } d w r.1 (tagCode fmt) 0, [outV d 4])

/-! ## Reductions (R217, R250) -/

/-- The combining operation of a reduction. -/
def fopBin : Fop → BinOp | .add => .add | .min => .min | .max => .max

/-- Exact integer values, or float encodings, combined. -/
def redElt (fop : Fop) (t : Tag) (rm : RMode) (a b : Int × Flags) : Int × Flags :=
  match Tag.fmt? t with
  | some _ => let r := eltBin (fopBin fop) t rm false a.1.toNat b.1.toNat; ((r.1 : Int), a.2 ||| b.2 ||| r.2)
  | none => (intBin (fopBin fop) a.1 b.1, 0)

/-- combine of R217. -/
def combineOpt (f : Int × Flags → Int × Flags → Int × Flags) : Option (Int × Flags) → Option (Int × Flags) → Option (Int × Flags)
  | none, b => b
  | a, none => a
  | some a, some b => some (f a b)

/-- One level of the tree. -/
def pairUp (f : Int × Flags → Int × Flags → Int × Flags) : List (Option (Int × Flags)) → List (Option (Int × Flags))
  | a :: b :: l => combineOpt f a b :: pairUp f l
  | l => l

/-- The tree of R217; fuel counts levels. -/
def redTree (f : Int × Flags → Int × Flags → Int × Flags) : Nat → List (Option (Int × Flags)) → Option (Int × Flags)
  | 0, l => l.headD none
  | n + 1, l => redTree f n (pairUp f l)

/-- An element as a reduction reads it: a NaN is the canonical one from here on, and a signalling NaN raises NV (R203). -/
def redIn (t : Tag) (x : Nat) : Int × Flags :=
  match Tag.fmt? t with
  | none => (Tag.int t x, 0)
  | some f =>
    match f.decode x with
    | .nan g => ((f.canonNan : Int), if g then Flags.nv else 0)
    | _ => ((x : Int), 0)

/-- Whether element i is active: the predicate bit of its lowest byte (R250). -/
def activeElt (mask : Word) (w i : Nat) : Bool := mask.getLsbD (i * (w / 8))

/-- The result of an empty VRED. -/
def emptyRed (fop : Fop) (t : Tag) : Int :=
  match Tag.fmt? t with
  | some f => if fop = .add then 0 else (f.canonNan : Int)
  | none => 0

def execVred (m : Mods) (d : SReg) (s : VReg) (fop : Fop) (st : State) : Host.Outcome State Fault Refusal :=
  runV m false false st fun c => do
    let a := vOp c 2 s
    let tag ← sameTag isArith [a]
    let w := Tag.bits tag
    let mask := maskOf m c
    let n := countOf 64 w
    let leaves := (List.range n).map fun i =>
      if activeElt mask w i then some (redIn tag (elt w (c.rv s).toNat i)) else none
    let r := (redTree (redElt fop tag (arithRm c)) (Nat.log2 n) leaves).getD (emptyRed fop tag, 0)
    .ok (raiseIf m (c.ws d (BitVec.ofInt 64 r.1)) 32 [r.2], [outS d 8])

/-- The chain of R217 over the elements from index i: results of active elements. -/
def scanChain (fop : Fop) (t : Tag) (rm : RMode) (mask : Word) (w : Nat) : Nat → Option Int → List Nat → List (Nat × Flags)
  | _, _, [] => []
  | i, acc, x :: xs =>
    if activeElt mask w i then
      let r := match acc with
        | none => redIn t x
        | some a => redElt fop t rm (a, 0) (redIn t x)
      (wrap w r.1, r.2) :: scanChain fop t rm mask w (i + 1) (some r.1) xs
    else (0, 0) :: scanChain fop t rm mask w (i + 1) acc xs

/-- Byte mask of the active elements. -/
def activeMask (mask : Word) (w : Nat) : Word :=
  BitVec.ofNat 64 (((List.range (countOf 64 w)).map fun i => if activeElt mask w i then eltBits w i else 0).sum)

def execVscan (m : Mods) (d s : VReg) (fop : Fop) (st : State) : Host.Outcome State Fault Refusal :=
  runV m false false st fun c => do
    let a := vOp c 2 s
    let tag ← sameTag isArith [a]
    let w := Tag.bits tag
    let mask := maskOf m c
    let rs := scanChain fop tag (arithRm c) mask w 0 none (vElts c s w)
    let new : Line := BitVec.ofNat 512 (pack w (rs.map (·.1)))
    .ok (raiseIf m (c.wv d (blend (vecMask (activeMask mask w)) (c.rv d) new) a.tag a.scale) w (rs.map (·.2)), [outV d 8])

/-! ## Lane movement (R251) -/

/-- Lane width of a tag: RAW and INT4X2 have byte lanes. -/
def laneBits (t : Tag) : Nat := match t with | .raw | .int4x2 => 8 | t => Tag.bits t

/-- A lane within the register, or FORMAT at position 2. -/
def needLane (o : Opnd) (t : Tag) (lane : Nat) : Except TrapInfo Unit :=
  if lane < countOf 64 (laneBits t) then .ok () else .error { o.trap with opnd := 2 }

def execVperm (m : Mods) (d s t : VReg) (st : State) : Host.Outcome State Fault Refusal :=
  runV m true false st fun c => do
    let a := vOp c 2 s
    let _ ← needTag a anyTag
    let _ ← needTag (vOp c 3 t) fun x => x = .int8 || x = .nat8 || x = .raw
    let idx := elts 8 64 (c.rv t).toNat
    let x := pack 8 (idx.map fun j => if 128 ≤ j then 0 else elt 8 (c.rv s).toNat (j % 64))
    .ok (putLine m c d (BitVec.ofNat 512 x) a.tag a.scale, [outV d 2])

/-- An element as a lane form writes it: an ACC20 element has bits 31:20 filled from bit 19 (R200). -/
def laneCode (tag : Tag) (x : Nat) : Nat := match tag with | .acc20 => (BitVec.ofInt 32 (Tag.int .acc20 x)).toNat | _ => x

def execVbcast (m : Mods) (d s : VReg) (lane : BitVec 6) (st : State) : Host.Outcome State Fault Refusal :=
  runV m false false st fun c => do
    let a := vOp c 2 s
    let tag ← needTag a anyTag
    let _ ← needLane a tag lane.toNat
    let w := laneBits tag
    let x := pack w (List.replicate (countOf 64 w) (laneCode tag (elt w (c.rv s).toNat lane.toNat)))
    .ok (putLine m c d (BitVec.ofNat 512 x) a.tag a.scale, [outV d 2])

def execVsplat (m : Mods) (d : VReg) (s : SReg) (fmt : Tag) (st : State) : Host.Outcome State Fault Refusal :=
  runV m false false st fun c =>
    let w := laneBits fmt
    .ok (putLine m c d (BitVec.ofNat 512 (pack w (List.replicate (countOf 64 w) (laneCode fmt (c.rs s).toNat)))) (tagCode fmt) 0, [outV d 2])

def execVext (m : Mods) (d : SReg) (s : VReg) (lane : BitVec 6) (st : State) : Host.Outcome State Fault Refusal :=
  runV m false true st fun c => do
    let a := vOp c 2 s
    let tag ← needTag a anyTag
    let _ ← needLane a tag lane.toNat
    let x := elt (laneBits tag) (c.rv s).toNat lane.toNat
    let v := match tag with
      | .int8 | .int16 | .int32 | .acc20 => BitVec.ofInt 64 (Tag.int tag x)
      | _ => BitVec.ofNat 64 x
    .ok (c.ws d v, [outS d 3])

def execVins (m : Mods) (d : VReg) (s : SReg) (lane : BitVec 6) (st : State) : Host.Outcome State Fault Refusal :=
  runV m false false st fun c => do
    let o := vOp c 1 d
    let tag ← needTag o anyTag
    let _ ← needLane o tag lane.toNat
    let w := laneBits tag
    let es := elts w (countOf 64 w) (c.rv d).toNat
    let x := pack w (es.set lane.toNat (laneCode tag (c.rs s).toNat))
    .ok (putLine m c d (BitVec.ofNat 512 x) o.tag o.scale, [outV d 2])

/-! ## Approximating forms (R252) -/

/-- Reads the represented value, applies the function and rounds once by RNE. -/
def runApprox (lat : Nat) (f : Val → Val × Flags) (m : Mods) (d s : VReg) (st : State) : Host.Outcome State Fault Refusal :=
  runV m false false st fun c => do
    let a := vOp c 2 s
    let tag ← sameTag Tag.isF [a]
    let fm := fmtD tag
    let w := Tag.bits tag
    let rs := (vElts c s w).map fun x => floatRes fm .rne false (f ((fm.decode x).scale a.sigma))
    .ok (putV m c d w rs (tagCode tag) 0, [outV d lat])

def execVrcp (m : Mods) (d s : VReg) (st : State) := runApprox 6 Val.rcp m d s st
def execVrsq (m : Mods) (d s : VReg) (st : State) := runApprox 6 Val.rsq m d s st
def execVexp2 (m : Mods) (d s : VReg) (st : State) := runApprox 8 Val.exp2 m d s st
def execVlog2 (m : Mods) (d s : VReg) (st : State) := runApprox 8 Val.log2 m d s st
def execVtanh (m : Mods) (d s : VReg) (st : State) := runApprox 8 Val.tanh m d s st

/-! ## VDOT4 (R253) -/

def is8 (t : Tag) : Bool := t = .int8 || t = .nat8

/-- The sum of four byte products. -/
def dot4 (ta tb : Tag) (x y : Nat) : Int :=
  ((List.range 4).map fun k => Tag.int ta (elt 8 x k) * Tag.int tb (elt 8 y k)).foldl (· + ·) 0

def execVdot4 (m : Mods) (d s t : VReg) (sat : Bool) (st : State) : Host.Outcome State Fault Refusal :=
  runV m true false st fun c => do
    let od := vOp c 1 d
    let a := vOp c 2 s
    let b := vOp c 3 t
    let _ ← needTag od (· = .int32)
    let ta ← needTag a is8
    let tb ← needTag b is8
    let _ ← sumScale od a b
    let rs := zip3 (fun x y z => intRes .int32 sat (Tag.int .int32 x + dot4 ta tb y z)) (vElts c d 32) (vElts c s 32) (vElts c t 32)
    .ok (putV m c d 32 rs od.tag od.scale, [outV d 4])

end Sys2Proof.Machine
end

