-- ==== Sys2Proof/Machine/Tile.lean ====
section
/-! DEFINITION. Tile instructions (R255 to R259). -/

namespace Sys2Proof.Machine

/-- Writes whole tile contents under the predicate, with tag and scale. -/
def putTile (m : Mods) (c : Ctx) (d : TReg) (x : TileData) (tag : BitVec 4) (scale : BitVec 8) : Ctx :=
  c.wt d (blend (tileMask (maskOf m c)) (c.rt d) x) tag scale

/-- Writes element results to a tile and raises their flags. -/
def putT (m : Mods) (c : Ctx) (d : TReg) (w : Nat) (rs : List (Nat × Flags)) (tag : BitVec 4) (scale : BitVec 8) : Ctx :=
  raiseIf m (putTile m c d (BitVec.ofNat 8192 (pack w (rs.map (·.1)))) tag scale) w (onFlags true (maskOf m c) w 0 rs)

/-- Elements of a tile at width w. -/
def tElts (c : Ctx) (r : TReg) (w : Nat) : List Nat := elts w (countOf 1024 w) (c.rt r).toNat

/-- Runs a tile form of page 2. -/
def runT := @runV

/-- TZERO leaves tag and scale (R256). -/
def execTzero (m : Mods) (d : TReg) (st : State) : Host.Outcome State Fault Refusal :=
  runT m false false st fun c => .ok (putTile m c d 0 (c.rttag d) (c.rtscale d), [outT d 2])

/-- TTAG sets tag and scale and is not predicated. -/
def execTtag (m : Mods) (d : TReg) (fmt : Tag) (scale : BitVec 8) (st : State) : Host.Outcome State Fault Refusal :=
  runT m false false st fun c => .ok (c.wt d (c.rt d) (tagCode fmt) scale, [outT d 1])

/-- TSCL adds to the scale and is not predicated. -/
def execTscl (m : Mods) (d : TReg) (s : SReg) (st : State) : Host.Outcome State Fault Refusal :=
  runT m false false st fun c => do
    let o := tOp c 1 d
    let _ ← needTag o (· ≠ .raw)
    let sc ← fitScale (o.sigma + (c.rs s).toInt) { o with pos := 2 }
    .ok (c.wt d (c.rt d) o.tag sc, [outT d 1])

def execTmov (m : Mods) (d s : TReg) (st : State) : Host.Outcome State Fault Refusal :=
  runT m false false st fun c => do
    let a := tOp c 2 s
    let _ ← needTag a anyTag
    .ok (putTile m c d (c.rt s) a.tag a.scale, [outT d 2])

/-- D[m][n] of TMMA (R257). -/
def tmmaCell (ta tb : Tag) (a b d i j : Nat) : Nat :=
  let s := (List.range 32).foldl (fun (s : Int) k => s + Tag.int ta (elt 8 a (32 * i + k)) * Tag.int tb (elt 8 b (32 * k + j)))
    (Tag.int .int32 (elt 32 d (16 * i + j)))
  wrap 32 s

def execTmma (m : Mods) (d s t : TReg) (st : State) : Host.Outcome State Fault Refusal :=
  runT m true false st fun c => do
    let od := tOp c 1 d
    let a := tOp c 2 s
    let b := tOp c 3 t
    let _ ← needTag od (· = .int32)
    let ta ← needTag a is8
    let tb ← needTag b is8
    let _ ← sumScale od a b
    let cells := (List.range 256).map fun i => tmmaCell ta tb (c.rt s).toNat (c.rt t).toNat (c.rt d).toNat (i / 16) (i % 16)
    .ok (putTile m c d (BitVec.ofNat 8192 (pack 32 cells)) od.tag od.scale, [outT d 4])

/-- Sources of TADD with their positions. -/
def tSrc (c : Ctx) (d s : TReg) (t : Option TReg) : (TReg × Opnd) × (TReg × Opnd) :=
  match t with
  | none => ((d, tOp c 1 d), (s, tOp c 2 s))
  | some t => ((s, tOp c 2 s), (t, tOp c 3 t))

def execTadd (m : Mods) (d s : TReg) (t : Option TReg) (sat : Bool) (st : State) : Host.Outcome State Fault Refusal :=
  runT m t.isSome false st fun c => do
    let ((ra, a), (rb, b)) := tSrc c d s t
    let tag ← sameTag isArith [a, b]
    let _ ← sameScale [a, b]
    let w := Tag.bits tag
    let rs := List.zipWith (eltBin .add tag (arithRm c) sat) (tElts c ra w) (tElts c rb w)
    .ok (putT m c d w rs (tagCode tag) a.scale, [outT d 4])

def execTcvt (m : Mods) (d s : TReg) (fmt : Tag) (rnd : Rnd) (st : State) : Host.Outcome State Fault Refusal :=
  runT m false false st fun c => do
    let a := tOp c 2 s
    let src ← needTag a (· ≠ .raw)
    let w := Tag.bits fmt
    let r := convertAll c src a.sigma fmt (rndOr c rnd) (eltOn true (maskOf m c) w) 0 c.srstate
      (elts (Tag.bits src) (cvtCount 1024 src fmt) (c.rt s).toNat)
    .ok (putT m { c with srstate := r.2 } d w r.1 (tagCode fmt) 0, [outT d 8])

/-- Tags a transposition takes (R195). -/
def txOk (x16 : Bool) (t : Tag) : Bool :=
  match t with
  | .raw => true
  | .int8 | .nat8 | .f8a | .f8b | .dy8 | .int4x2 => !x16
  | .int16 | .nat16 | .bf16 | .fp16 => x16
  | _ => false

/-- Source byte of tile byte 32i + b (R195). -/
def txByte (tx : Tx) (k : Nat) : Nat :=
  let i := k / 32
  let b := k % 32
  match tx with
  | .none => k
  | .x8 => 32 * b + i
  | .x16 => 64 * (b / 2) + 2 * i + b % 2

/-- A tile's bytes rearranged. -/
def txTile (tx : Tx) (x : Nat) : TileData := BitVec.ofNat 8192 (pack 8 ((List.range 1024).map fun k => elt 8 x (txByte tx k)))

def execTtrn (m : Mods) (d s : TReg) (x16 : Bool) (st : State) : Host.Outcome State Fault Refusal :=
  runT m false false st fun c => do
    let a := tOp c 2 s
    let _ ← needTag a (txOk x16)
    .ok (putTile m c d (txTile (if x16 then .x16 else .x8) (c.rt s).toNat) a.tag a.scale, [outT d 4])

end Sys2Proof.Machine
end

