-- ==== Sys2Proof/Machine/LoadStore.lean ====
section
/-! DEFINITION. Loads and stores (R190 to R197), and the replies and acknowledgements of accesses that left the device (R64, R113 to
R116). -/

namespace Sys2Proof.Machine

/-! ## Scalar loads and stores -/

/-- Bytes of TIMEBASE as a load of `n` bytes at an address sees them (R183). -/
def timeBytes (s : State) (cl : Nat) (ea : Word) (n : Nat) : List Byte :=
  bytesLE n (s.timeAt cl % 2 ^ 64 / 2 ^ (8 * (ea.toNat % 8)))

/-- Loads `n` bytes at an address for a scalar form; `ports` where port cells answer. -/
def loadScalar (p : Pid) (ea : Word) (n : Nat) (ports : Bool) : Exec Nat := do
  let pl ← resolveAl p ea n n .read ports
  waitPlace p pl
  match pl with
  | .mem loc | .acc _ loc => do pure (natLE (← loadLoc p loc n ea))
  | .port q => do pure ((← portPop p q n).toNat % 2 ^ (8 * n))
  | .timebase => do pure (natLE (timeBytes (← get) (← getProc p).cl ea n))

def execLd (m : Mods) (d rs : SReg) (sz : Sz) (off : Word) (s : State) : Host.Outcome State Fault Refusal :=
  runExec m (lenOf m false false) true s fun p pr => do
    let x ← loadScalar p (pr.ctx.rs rs + off) (szBytes sz) true
    setS p d (BitVec.ofNat 64 x)
    pure {}

def execLds (m : Mods) (d rs : SReg) (sz : Sz) (off : Word) (s : State) : Host.Outcome State Fault Refusal :=
  runExec m (lenOf m false false) true s fun p pr => do
    let x ← loadScalar p (pr.ctx.rs rs + off) (szBytes sz) true
    setS p d (signExt sz (BitVec.ofNat 64 x))
    pure {}

def execSt (m : Mods) (d rs : SReg) (sz : Sz) (off : Word) (s : State) : Host.Outcome State Fault Refusal :=
  runExec m (lenOf m false false) true s fun p pr => do
    let ea := pr.ctx.rs rs + off
    let n := szBytes sz
    let pl ← resolveAl p ea n n .write true
    waitPlace p pl
    match pl with
    | .mem loc | .acc _ loc => storeLoc p loc (bytesLE n (pr.ctx.rs d).toNat)
    | .port q => portPush p q n ((pr.ctx.rs d).setWidth 8192) none
    | .timebase => raiseTrap (trapXlate xPerm ea true)
    pure {}

/-- The scope of an ordered form, CLUSTER by default (R193, R289). -/
def scopeOr (m : Mods) : Nat := if scopeOf m = 0 then scCluster else scopeOf m

/-- LDA (R193): a load, then an acquire; wider than CLUSTER it ends the chunk. -/
def execLda (m : Mods) (d rs : SReg) (sz : Sz) (s : State) : Host.Outcome State Fault Refusal :=
  runExec m (lenOf m false false) true s fun p pr => do
    let x ← loadScalar p (pr.ctx.rs rs) (szBytes sz) false
    setS p d (BitVec.ofNat 64 x)
    acquire p (scopeOr m)
    pure { endChunk := scCluster < scopeOr m }

/-- The cluster's own copy of a line takes bytes that its home has (R312), and so do its cores' data caches. -/
def State.takeIn (s : State) (cl core line : Nat) (data : Line) (mask : BitVec 64) : State :=
  let s := if (Tab.get? line (s.cluster cl).cache).isSome then s.cachePut cl line data mask none else s
  s.coherent cl core line data mask

/-- A release store at DIE or wider is performed at its home; the cluster's own copy of the line takes the bytes on
acknowledgement (R312). -/
def releaseStore (p : Pid) (loc : Nat) (bs : List Byte) (ea : Word) : Exec Unit := do
  let pr ← getProc p
  let line := lineOf loc
  waitLine p loc
  noteWatch p 2 loc bs.length
  modS fun s => (s.keepOld pr.cl loc).noteWrite pr.cl loc
  if isSram loc || remoteBase ≤ loc then modS fun s => s.performBuf p pr.cl (bufBytes [] loc bs)
  else if isDev loc then do
    waitMove loc
    crossOut p loc ea true
    let d := bufLine (bufBytes [] loc bs) line
    let s ← get
    let s := s.racHit (.site (s.clusterSite pr.cl)) line
    let hit := (s.memDie (dieOf line)).msc.contains line
    set (s.homeWrite line d.1 d.2)
    crossBack p loc hit false ea true
    modS fun s => s.takeIn pr.cl pr.unit line d.1 d.2
  else do
    modS fun s => s.sendStore pr.cl (some p) 2 line (hostAddr loc) bs
    modProcE p fun pr => { pr with outs := pr.outs.map fun o => if o.id + 1 = s_next pr then { o with take := bufBytes [] loc bs } else o }
where
  /-- One past the highest identifier among the process's accesses. -/
  s_next (pr : Proc) : Nat := (pr.outs.map fun o => o.id + 1).foldl max 0

/-- The instruction after a release store, when it is a store that R320 lets the store buffer merge with it: its value, and its length
and stall count. The model merges a store that follows at once, outside a pinned block and with no debugger attached (log entry 83). -/
def State.laterStore (s : State) (p : Pid) (pr : Proc) (len : Nat) (ea : Word) (sz : Sz) : Option (Word × Nat × Nat) :=
  if pr.loop.isSome || pr.leaving || (s.cluster pr.cl).dm.att then none
  else match fetchChain p 5 (pr.pc + BitVec.ofNat 64 len) s with
    | .error _ => none
    | .ok (ws, _) =>
      match decodeWords ws with
      | .instr (.st m2 d2 r2 sz2 off) n =>
        let outstanding := pr.ctx.short.any fun o => o.cls = 0 && (o.reg = d2 || o.reg = r2)
        if m2.pfxQ.isNone && sz2 = sz && pr.ctx.rs r2 + off = ea && !outstanding then
          some (pr.ctx.rs d2, 2 * n, max (stallOf m2) 1)
        else none
      | _ => none

/-- Whether a release store is merged with the store after it: a free choice where R320 allows it. -/
def mergeLater (p : Pid) (pr : Proc) (len : Nat) (ea : Word) (sz : Sz) (loc : Nat) : Exec (Option (Word × Nat × Nat)) := do
  let s ← get
  match if isSram loc then none else s.laterStore p pr len ea sz with
  | none => pure none
  | some x => do
    let (b, s) := s.freeBool
    set s
    pure (if b then some x else none)

def execStl (m : Mods) (d rs : SReg) (sz : Sz) (s : State) : Host.Outcome State Fault Refusal :=
  runExec m (lenOf m false false) true s fun p pr => do
    let ea := pr.ctx.rs rs
    let n := szBytes sz
    let pl ← resolveAl p ea n n .write false
    waitPlace p pl
    release p (scopeOr m) false
    match pl with
    | .mem loc | .acc _ loc =>
      if scCluster < scopeOr m then do
        let later ← mergeLater p pr (lenOf m false false) ea sz loc
        releaseStore p loc (bytesLE n ((later.map fun x => x.1).getD (pr.ctx.rs d)).toNat) ea
        pure { merged := later.map fun x => x.2 }
      else do
        storeLoc p loc (bytesLE n (pr.ctx.rs d).toNat)
        pure {}
    | _ => raiseTrap (trapXlate xPerm ea true)

/-! ## Vector and tile loads and stores -/

/-- The tag a load sets (R178): its lf, or the format of the bound window at its first byte, or RAW. -/
def loadTag (s : State) (pr : Proc) (ea : Word) (lf : Option Tag) : BitVec 4 :=
  match lf with
  | some t => tagCode t
  | none =>
    if spaceOf ea = 3 ∧ bits ea 61 32 = 0 ∧ bits ea 31 0 < s.spmBytes pr.team then
      match s.windowAt pr.cl (s.spmOf pr.team + bits ea 31 0) with
      | some (_, w) => w.fmt
      | none => 0
    else 0

/-- LDV (R194). -/
def execLdv (m : Mods) (d : VReg) (rs : SReg) (lf : Option Tag) (off : Word) (s : State) : Host.Outcome State Fault Refusal :=
  runExec m (lenOf m false false) false s fun p pr => do
    let ea := pr.ctx.rs rs + off
    let mask := maskOf m pr.ctx
    let write := fun (x : Line) (tag : BitVec 4) => modCtx p fun c => c.wv d (blend (vecMask mask) (c.rv d) x) tag 0
    if mask = 0 then write 0 (loadTag (← get) pr ea lf)
    else do
      let pl ← resolveAl p ea 64 64 .read true
      waitPlace p pl
      match pl with
      | .mem loc | .acc _ loc => do
        let bs ← loadLoc p loc 64 ea
        write (BitVec.ofNat 512 (natLE bs)) (loadTag (← get) pr ea lf)
      | .port q => do
        let h := Tab.getD q pr.ctx.qh 0
        let x ← portPop p q 64
        write (x.setWidth 512) (match lf with | some t => tagCode t | none => recvTag h)
      | .timebase => raiseTrap (trapXlate xForm ea false)
    pure {}

/-- Stores the bytes of a line that a mask names, as one unit (R191). -/
def storeMasked (p : Pid) (loc : Nat) (x : Line) (mask : BitVec 64) : Exec Unit := do
  let pr ← getProc p
  let runs := maskRuns x mask 64 0 []
  if pr.chunk.isSome then runs.forM fun r => storeLoc p (loc + r.1) r.2
  else if mask = 0 then pure ()
  else do
    waitLine p loc
    runs.forM fun r => noteWatch p 2 (loc + r.1) r.2.length
    modS fun s => (s.performLine p pr.cl loc x mask).noteWrite pr.cl loc

/-- STV (R194). A push sends the whole register. -/
def execStv (m : Mods) (d : VReg) (rs : SReg) (off : Word) (s : State) : Host.Outcome State Fault Refusal :=
  runExec m (lenOf m false false) false s fun p pr => do
    let ea := pr.ctx.rs rs + off
    let mask := maskOf m pr.ctx
    if mask = 0 then pure ()
    else do
      let pl ← resolveAl p ea 64 64 .write true
      waitPlace p pl
      match pl with
      | .mem loc | .acc _ loc => storeMasked p loc (pr.ctx.rv d) mask
      | .port q => portPush p q 64 ((pr.ctx.rv d).setWidth 8192) (some (pr.ctx.rvtag d))
      | .timebase => raiseTrap (trapXlate xForm ea true)
    pure {}

/-- Location of a place in memory. -/
def Place.loc : Place → Nat | .mem l | .acc _ l => l | _ => 0

/-- LDT (R195). -/
def execLdt (m : Mods) (d : TReg) (rs : SReg) (lf : Option Tag) (tx : Tx) (off : Word) (s : State) :
    Host.Outcome State Fault Refusal :=
  runExec m (lenOf m false false) false s fun p pr => do
    let ea := pr.ctx.rs rs + off
    let mask := maskOf m pr.ctx
    let tag := loadTag (← get) pr ea lf
    let fits := match tx with
      | .none => true
      | .x8 => (Tag.ofCode? tag.toNat).any (txOk false)
      | .x16 => (Tag.ofCode? tag.toNat).any (txOk true)
    guardTrap (!fits) (trapFormat 1 tag.toNat)
    if mask.setWidth 32 = (0 : BitVec 32) then modCtx p fun c => c.wt d (c.rt d) tag 0
    else do
      let pls ← resolveLines p (lineAddrs ea 16) .read
      waitPlaces p (pls.map (·.2))
      let bs ← pls.mapM fun e => loadLoc p e.2.loc 64 e.1
      let x := txTile tx (natLE bs.flatten)
      modCtx p fun c => c.wt d (blend (tileMask mask) (c.rt d) x) tag 0
    pure {}

/-- STT (R195). -/
def execStt (m : Mods) (d : TReg) (rs : SReg) (off : Word) (s : State) : Host.Outcome State Fault Refusal :=
  runExec m (lenOf m false false) false s fun p pr => do
    let ea := pr.ctx.rs rs + off
    let half : BitVec 32 := (maskOf m pr.ctx).setWidth 32
    if half = 0 then pure ()
    else do
      let pls ← resolveLines p (lineAddrs ea 16) .write
      waitPlaces p (pls.map (·.2))
      let x := pr.ctx.rt d
      ((List.range 16).zip pls).forM fun e => storeMasked p e.2.2.loc (x.extractLsb' (512 * e.1) 512) (half ++ half)
    pure {}

/-! ## Gather and scatter (R196) -/

/-- The address of a lane. -/
def laneAddr (base : Word) (idx : Line) (i : Nat) : Word := base + ((idx.extractLsb' (32 * i) 32).setWidth 64)

/-- Active lanes. -/
def activeLanes (mask : Word) : List Nat := (List.range 16).filter fun i => mask.getLsbD (4 * i)

/-- Checks the index register's tag. -/
def checkIndex (c : Ctx) (t : VReg) : Exec Unit :=
  guardTrap (!((c.rvtag t).toNat = 0 || (c.rvtag t).toNat = Tag.code .int32)) (trapFormat 3 (c.rvtag t).toNat)

def execLdg (m : Mods) (d : VReg) (rs : SReg) (t : VReg) (lf : Option Tag) (s : State) : Host.Outcome State Fault Refusal :=
  runExec m (lenOf m false true) false s fun p pr => do
    let c := pr.ctx
    checkIndex c t
    let lanes := activeLanes (maskOf m c)
    let ea := fun i => laneAddr (c.rs rs) (c.rv t) i
    let pls ← lanes.mapM fun i => do pure (i, ← resolveAl p (ea i) 4 4 .read false)
    waitPlaces p (pls.map (·.2))
    let xs ← pls.mapM fun e => do
      match e.2 with
      | .timebase => do pure (e.1, natLE (timeBytes (← get) pr.cl (ea e.1) 4))
      | pl => do pure (e.1, natLE (← loadLoc p pl.loc 4 (ea e.1)))
    let tag := loadTag (← get) pr (ea 0) lf
    modCtx p fun c =>
      let lanesMask : Line := xs.foldl (fun (k : Line) e => k ||| ((BitVec.ofNat 512 (2 ^ 32 - 1)) <<< (32 * e.1))) 0
      let data : Line := xs.foldl (fun (k : Line) e => k ||| ((BitVec.ofNat 512 e.2) <<< (32 * e.1))) 0
      c.wv d (blend lanesMask (c.rv d) data) tag 0
    pure {}

def execStx (m : Mods) (d : VReg) (rs : SReg) (t : VReg) (s : State) : Host.Outcome State Fault Refusal :=
  runExec m (lenOf m false true) false s fun p pr => do
    let c := pr.ctx
    checkIndex c t
    let lanes := activeLanes (maskOf m c)
    let ea := fun i => laneAddr (c.rs rs) (c.rv t) i
    let pls ← lanes.mapM fun i => do pure (i, ← resolveAl p (ea i) 4 4 .write false)
    waitPlaces p (pls.map (·.2))
    pls.forM fun e => storeLoc p e.2.loc (bytesLE 4 ((c.rv d).toNat / 2 ^ (32 * e.1)))
    pure {}

/-! ## PREF (R197) -/

/-- The line a prefetch names, unless it is dropped: spaces 0b01 and 0b11, a fault, a moving or a bad line. -/
def State.prefLine (s : State) (pr : Proc) (ea : Word) : Option Nat :=
  if spaceOf ea = 2 then (if bits ea 61 52 ≠ 0 then none else some (lineOf (hostBase + bits ea 51 0)))
  else if spaceOf ea ≠ 0 ∨ bits ea 61 57 ≠ 0 then none
  else
    let x := s.xctx pr false
    let va := bits ea 56 0
    let e := match (s.tlbHit x va).1 with
      | some e => some e
      | none => match (s.walk x va).1 with | .ok e => some e | .error _ => none
    match e with
    | none => none
    | some e =>
      let line := lineOf (leafAddr e va)
      if !permOk .read e.leaf then none
      else if !isDev line then some line
      else if s.isPoison line || Tab.getD line s.codeErr 0 ≠ 0 || Tab.getD line s.phys.flips 0 ≠ 0 ||
        (s.moveOf line).isSome || s.moveLands line || s.redSlots.any (fun r => lineOf r.loc = line) then none
      else some line

/-- Brings a line of the cluster cache into a core's data cache. -/
def State.prefData (s : State) (cl core line : Nat) : State :=
  match Tab.get? line (s.cluster cl).cache with
  | some c => if c.poison || (Tab.get? line (Tab.getD core (s.cluster cl).dcache [])).isSome then s
    else s.dataPut cl core line { c with dirty := 0, by_ := none }
  | none => s

/-- A line of the host that a prefetch asked for has come. -/
def State.prefArrive (s : State) (id : Nat) (r : Reply) : State :=
  match Tab.get? id s.prefetches with
  | none => s
  | some (cl, core, line, lvl) =>
    let s : State := { s with prefetches := Tab.del id s.prefetches }
    match r with
    | .fault _ _ _ => s
    | .value v =>
      let old := (Tab.get? line (s.cluster cl).cache).getD noLine
      let s := s.cachePut cl line (v.setWidth 512) (~~~old.valid) none
      if lvl = 0 then s.prefData cl core line else s

/-- PREF brings a line nearer and changes nothing a program sees: level 0 to the core's data cache, 1 to the cluster cache, 2 to the
memory-side cache of the home, which a line of the host does not have. -/
def execPref (m : Mods) (rs : SReg) (lvl : BitVec 2) (off : Word) (s : State) : Host.Outcome State Fault Refusal :=
  runExec m (lenOf m false false) true s fun p pr => do
    let s ← get
    match s.prefLine pr (pr.ctx.rs rs + off) with
    | none => pure ()
    | some line =>
      let here := (Tab.get? line (s.cluster pr.cl).cache).isSome
      let near : State → State := fun s => if lvl = 0 then s.prefData pr.cl pr.unit line else s
      if isDev line then
        let s := (s.mscTouch line).2
        set (if lvl = 2 then s else near (if here then s else s.cachePut pr.cl line (s.lineData line) fullMask none))
      else if lvl = 2 then pure ()
      else if here then set (near s)
      else
        let s : State := { s with
          nextReq := s.nextReq + 1, prefetches := Tab.put s.nextReq (pr.cl, pr.unit, line, lvl.toNat) s.prefetches }
        set (s.emit (.request p (s.nextReq - 1) (hostAddr line) 64))
    pure {}

/-! ## Replies and acknowledgements -/

/-- Sends what a request held back by R115 asks for. -/
def State.sendHeld (s : State) (pid : Pid) (o : OutAcc) : State :=
  match o.hold with
  | none => s
  | some (a, .op op) => s.emit (.atomic pid o.id a o.scope op)
  | some (a, r) => s.emit (storeOut (some pid) o.id a r)

/-- An access of a cluster to a line of space 0b01 is over: the next one that waited is sent, unless another is still on its way, and
the cluster's loads of the line look again (R115, R304). -/
def State.lineFree (s : State) (cl line : Nat) : State :=
  let l := (s.procs.filter fun e => e.2.cl = cl).flatMap fun e => (e.2.outs.filter fun o => o.space = 1 && o.line = line).map fun o => (e.1, o)
  let s := match l with
    | [] => s
    | e :: l =>
      let e := l.foldl (fun (b x : Pid × OutAcc) => if x.2.id < b.2.id then x else b) e
      if e.2.hold.isNone then s
      else (s.modProc e.1 fun pr => { pr with outs := pr.outs.map fun (x : OutAcc) => if x.id = e.2.id then { x with hold := none } else x }).sendHeld e.1 e.2
  (s.procs.filter fun e => e.2.cl = cl && e.2.wkind = .reply && bits e.2.wait 63 6 = bits (remoteAddr line) 63 6).foldl (fun s e => s.wake e.1) s

/-- An access of a process that left the cluster is acknowledged: its place is freed, a later access to its line that waited is sent,
a fault is held for the next release (R114 to R116, R297; kind 0 is POISON), and waits look again. -/
def State.ackAccess (s : State) (pid : Pid) (id : Nat) (fault : Option (Nat × Nat)) : State :=
  match s.proc? pid with
  | none => s
  | some pr =>
    let s := s.unrouted 3 pid id
    match pr.outs.find? fun o => o.id = id with
    | none => s
    | some o =>
      let rest := pr.outs.filter fun q => q.id ≠ id
      let s := s.setProc pid { pr with outs := rest, pend := if o.red then pr.pend - 1 else pr.pend }
      let s := if o.space = 1 then s.lineFree pr.cl o.line else s
      let s := match fault with
        | some (k, a) => s.holdFault pid (if k = 0 then 7 else 8) k a o.space o.red (if o.space = 1 then remoteAddr o.line else hostAddr o.line) id
        | none => if o.take = [] then s else
            let d := bufLine o.take o.line
            s.takeIn pr.cl pr.unit o.line d.1 d.2
      let s := s.wakeIf pid .reply
      match s.proc? pid with
      | some pr => if pr.leaving ∧ pr.pend = 0 ∧ pr.loop.isNone then s.preempt pid else s
      | none => s

/-! ## Completion records (R93, R95) -/

def complAddr (q slot : Nat) : Nat := 0x100000 + 0x2000 * q + 0x20 * slot

/-- An interrupting completion (R95). -/
def State.interrupt (s : State) (q ivec : Nat) : State :=
  let k := Tab.getD q s.queues {}
  if ivec = 0xFFFF ∨ !k.ien then s
  else if k.coal = 0 then s.emit (.msix ivec)
  else if (Tab.get? ivec s.coalesce).isSome then s
  else ({ s with coalesce := Tab.put ivec 1 s.coalesce } : State).schedNs (s.timebase + 1000 * min k.coal.toNat 1000) (.coalescingWindowClose ivec)

/-- Writes the completion record of a slot. -/
def State.complRecord (s : State) (q : Nat) (slot : List Word) (status cause lid : Nat) : State :=
  let seq := slot.getD 7 0
  let w0 := BitVec.ofNat 64 (status + cause * 2 ^ 8 + bits (slot.getD 0 0) 63 32 * 2 ^ 32)
  let s := s.homeWriteBytes (complAddr q (seq.toNat % 256)) (wordsBytes [w0, seq, BitVec.ofNat 64 lid, BitVec.ofNat 64 s.timebase])
  s.interrupt q (bits (slot.getD 2 0) 15 0)

/-- A write of the ended launch is not yet visible: unacknowledged, or held by a page move. -/
def State.recordWaits (s : State) (r : EndRecord) : Bool := (s.leftWrites.any fun e => e.2 = r.lid) || r.cls.any fun c => s.heldOf c none

/-- Sends a 64-byte message of the device's own to a handle; false when it cannot be delivered. -/
def State.postMessage (s : State) (h : Word) (ws : List Word) : Bool × State :=
  let bs := wordsBytes ws
  if !handleOk h ∨ hSclass h ≠ 6 then (false, s)
  else
    let m : Msg := {
      sender := none, kind := hKind h, idx := hIdx h, efmt := BitVec.ofNat 6 (hEfmt h), sclass := 6, len := 64, bytes := bs
      bad := [], srcCl := 0, srcOff := 194, bulk := false, expert := none, place := none, ended := false, dropped := [] }
    let id := s.nextMsg
    let add : Msg → State := fun m => { s with nextMsg := id + 1, msgs := Tab.put id m s.msgs }
    if hDev h ≠ s.dev then (true, (add { m with remote := some (hDev h) }).postRemote (s.linkSite (hDev h)) id h)
    else
    match hKind h with
    | 0 | 2 => match s.lookup (dirKey h) with
      | some (.ep cl e) =>
        if (s.endp? cl e).any fun n => n.closed || (!n.reply && (n.efmt ≠ m.efmt || n.sclass ≠ m.sclass)) then (false, s)
        else (true, (add m).sched tripCycles (.grantRequestArrival cl id))
      | some .pending => (true, add m)
      | _ => (false, s)
    | 1 => if hIdx h < s.mdies then (true, (add m).sched tripCycles (.serverCommandAccept (hIdx h) id)) else (false, s)
    | 4 => if hIdx h = 0 then (true, s.emit (.controller 0x100 (BitVec.allOnes 64 :: ws))) else (false, s)
    | 5 => match s.expert? (hIdx h) with
      | some e =>
        if e.unbound then (false, s)
        else match replicaOf e.live (tokenOf bs) with
        | none => (false, s)
        | some r =>
          let m := { m with kind := 0, idx := hIdx (Tab.getD r e.rh 0), expert := some (hIdx h, e.ver.toNat) }
          match s.msgTarget m with
          | some (.ep cl _) => (true, ((add m).modExpert (hIdx h) fun e => { e with cnt := e.cnt + 1 }).sched tripCycles (.grantRequestArrival cl id))
          | _ => (false, s)
      | none => (false, s)
    | 6 => if hIdx h ≤ 2 || (s.teams.any fun e => faultIdx e.1 = hIdx h) then (true, s.postService (hIdx h) ws) else (false, s)
    | _ => (false, s)

/-- A place of a store is free again: the oldest waiter goes on (R375), or the next forwarded slot (R90). -/
def State.placeFreed (s : State) (die : Option Nat) : State :=
  match die with
  | none =>
    match Tab.keys s.lreqs with
    | [] => s
    | k :: _ => s.sched 0 (.launchAcceptance k)
  | some d =>
    match s.waitLaunch.find? fun p => (s.proc? p).any fun pr => pr.cl / 8 = d with
    | some p => s.wake p
    | none => s

/-- Reports the end of a launch (R373): the completion record, the message to its handle, and its place is free. -/
def State.reportEnd (s : State) (r : EndRecord) : State :=
  let s := match r.host with
    | some (q, slot) => s.complRecord q slot r.status r.cause r.lid
    | none => s
  let s := if r.notify = 0 then s else
    match s.postMessage r.notify [BitVec.ofNat 64 (r.status + r.cause * 2 ^ 8), BitVec.ofNat 64 r.lid, BitVec.ofNat 64 s.timebase, 0, 0, 0, 0, 0] with
    | (true, s) => s
    | (false, s) => s.countDevice 194
  s.placeFreed r.die

/-- Reports the ends of launches that wait for no write any more. -/
def State.writeRecords (s : State) : State :=
  (s.recs.filter fun r => !s.recordWaits r).foldl State.reportEnd { s with recs := s.recs.filter s.recordWaits }

/-- A write that an ended process or team left behind is acknowledged. -/
def State.leftDone (s : State) (id : Nat) : State :=
  if s.leftWrites.any fun e => e.1 = id then
    ({ s with leftWrites := s.leftWrites.filter fun (e : Nat × Nat) => e.1 ≠ id } : State).writeRecords
  else s

/-- A write-back to the host is acknowledged (R189): the releases of its cluster look again; a fault is told to the process whose
store it carried. -/
def State.ackBack (s : State) (id : Nat) (fault : Option (Nat × Nat)) : State :=
  match s.clusters.find? fun e => (Tab.get? id e.2.wbacks).isSome with
  | none => s
  | some (cl, c) =>
    let s := s.modCluster cl fun d => { d with wbacks := Tab.del id d.wbacks }
    let s := match fault, (Tab.get? id c.wbacks).bind fun p => p with
      | some (k, a), some p => s.holdFault p (if k = 0 then 7 else 8) k a 2 false 0 id
      | _, _ => s
    s.wakeKinds cl [.reply]

def execStoreAck (pid : Pid) (id : Nat) (fault : Option (Nat × Nat)) (plat : PlatInfo) (s : State) : Host.Outcome State Fault Refusal :=
  let s := ((s.twinPaired (4 * id + 1)).ackBack id fault).leftDone id
  if (s.proc? pid).any fun pr => pr.outs.any fun o => o.id = id && !o.red then .next ((s.replyPlat 1 pid id plat).ackAccess pid id fault)
  else .next (s.relay pid id (match fault with | none => .value 0 | some (k, a) => .fault 8 k a))

end Sys2Proof.Machine
end

