-- ==== Sys2Proof/Machine/Trace.lean ====
section
/-! DEFINITION. The trace unit of a cluster (R445 to R447): packets, sessions, the spill area, state logs, commit-order records and
the log under replay. -/

namespace Sys2Proof.Machine

/-! ## Registers -/

def trcfg (s : State) (cl : Nat) : Word := s.clReg cl 126
def trspill (s : State) (cl : Nat) : Word := s.clReg cl 125
/-- Capture is on: a session is open, CAP is 1 and nothing is frozen (R446). -/
def State.capturing (s : State) (cl : Nat) : Bool := bit (trcfg s cl) 0 && bit (trcfg s cl) 1 && !bit (trcfg s cl) 2

/-- Packets in 1 MiB. -/
def packetsPerMiB : Nat := 16384

/-! ## Packets -/

/-- A packet's header (R445). -/
def packetHead (tb nrec core typ : Nat) : Word := field (tb % 2 ^ 46) 18 ||| field nrec 13 ||| field core 8 ||| field typ 0

/-- Words padded to a packet. -/
def packetOf (ws : List Word) : Packet8 := (ws ++ List.replicate 8 0).take 8

/-- Appends a packet to the trace buffer, where capture is on and no filter excludes its core. A full buffer with nowhere to spill
loses its oldest packet under WRAP and stops the capture otherwise (DEDUCED, log entry 13). -/
def State.pushPacket (s : State) (cl core : Nat) (ws : List Word) : State :=
  let t := (s.cluster cl).trace
  if !s.capturing cl || t.filt.any (fun k => k ≠ core) then s
  else if packetsPerMiB ≤ t.buf.length then
    if bit (trcfg s cl) 3 then s.modCluster cl fun c => { c with trace := { t with buf := t.buf.drop 1 ++ [packetOf ws] } }
    else s.setClReg cl 126 (trcfg s cl &&& ~~~2)
  else
    let s := s.modCluster cl fun c => { c with trace := { t with buf := t.buf ++ [packetOf ws] } }
    if t.buf.length + 1 = packetsPerMiB / 2 then s.sched 1 (.traceSpill cl) else s

/-- A state-log packet from its records: four to a word after the header. -/
def logPacket (tb core : Nat) (rs : List (BitVec 16)) : List Word :=
  packetHead tb rs.length core 1 :: (List.range 7).map fun i =>
    BitVec.ofNat 64 (natLE (((rs.drop (4 * i)).take 4).flatMap fun r => bytesLE 2 r.toNat))

/-- Writes a core's open state-log packet to the buffer. -/
def State.flushLog (s : State) (cl core : Nat) : State :=
  let t := (s.cluster cl).trace
  match Tab.get? core t.recs with
  | none => s
  | some (tb, rs) =>
    let s := s.modCluster cl fun c => { c with trace := { t with recs := Tab.del core t.recs } }
    s.pushPacket cl core (logPacket tb core rs)

/-- Appends a state record (R445). -/
def State.addRecord (s : State) (cl core st delta base : Nat) : State :=
  let t := (s.cluster cl).trace
  let r : BitVec 16 := BitVec.ofNat 16 (st * 2 ^ 14 + delta)
  let (tb, rs) := (Tab.get? core t.recs).getD (base, [])
  let s := s.modCluster cl fun c => { c with trace := { t with recs := Tab.put core (tb, rs ++ [r]) t.recs } }
  if 28 ≤ rs.length + 1 then s.flushLog cl core else s

/-- Writes the commit records not yet in a packet. -/
def State.flushCommits (s : State) (cl : Nat) : State :=
  let t := (s.cluster cl).trace
  if t.commits = [] then s
  else
    let s := s.modCluster cl fun c => { c with trace := { t with commits := [] } }
    s.pushPacket cl 0 (packetHead s.timebase t.commits.length 0 5 :: t.commits)

/-! ## Spilling (R446) -/

/-- Writes packets to the spill area: a full area starts again under WRAP, and ends the capture otherwise. -/
def State.spillPackets (cl : Nat) : List Packet8 → State → State
  | [], s => s
  | p :: ps, s =>
    let size := bits (trspill s cl) 63 52 * 2 ^ 20
    let base := bits (trspill s cl) 51 20 * 2 ^ 20
    let t := (s.cluster cl).trace
    if size = 0 ∨ (size ≤ t.spilled ∧ ¬ bit (trcfg s cl) 3) then
      State.spillPackets cl ps (s.setClReg cl 126 (trcfg s cl &&& ~~~2))
    else
      let pa := base + t.spilled % size
      let s := s.modCluster cl fun c => { c with trace := { t with spilled := t.spilled + 64 } }
      State.spillPackets cl ps (if s.paOk pa then s.homeWriteBytes pa (wordsBytes p) else s)

/-- The buffer's older half spills when it is half full and there is a spill area. -/
def State.spillHalf (s : State) (cl : Nat) : State :=
  let t := (s.cluster cl).trace
  if t.buf.length < packetsPerMiB / 2 ∨ bits (trspill s cl) 63 52 = 0 then s
  else
    let n := t.buf.length / 2
    State.spillPackets cl (t.buf.take n) (s.modCluster cl fun c => { c with trace := { t with buf := t.buf.drop n } })

/-! ## State logs (R445) -/

/-- WKINDs of state 2. -/
def memWait (k : WKind) : Bool := k = .window || k = .batch || k = .lease || k = .reply || k = .place

/-- A slot waits for memory: its process is BLOCKED on it, or is out of rotation for a register line or a walk (R445, R75, R173). -/
def Proc.waitsMemory (pr : Proc) : Bool := memWait pr.wkind || !pr.fetching.isEmpty || pr.asked.any fun q => q.ans.isNone

/-- State of a core in a cycle in which it issues nothing: a slot's wait for memory, a wait for something else, or idle. -/
def State.coreState (s : State) (cl core : Nat) : Nat :=
  let l := s.procs.filter fun e => e.2.cl = cl && e.2.unit = core && (e.2.slot.isSome || e.2.svc.isSome)
  if l.any fun e => e.2.waitsMemory then 2
  else if l.any fun e => e.2.wkind ≠ .nothing then 1
  else 3

/-- Whether some slot of a core issued in this cycle. -/
def State.coreIssued (s : State) (cl core : Nat) : Bool :=
  s.procs.any fun e => e.2.cl = cl && e.2.unit = core && e.2.issuedAt = s.cycles + 1

/-- Logs a state of a core at a cycle, when it is a change. -/
def State.logState (s : State) (cl core st at_ : Nat) : State :=
  let t := (s.cluster cl).trace
  let (old, since) := Tab.getD core t.last (3, at_)
  if old = st then s
  else
    let s := s.modCluster cl fun c => { c with trace := { t with last := Tab.put core (st, at_) t.last } }
    let s := s.addRecord cl core st ((at_ - since) % 2 ^ 14) (since * 5 / 6)
    s.sched (at_ - s.cycles + 16383) (.stateLogExtension cl core)

/-- 16,383 cycles have gone by without a change: an extension record. -/
def State.logExtension (s : State) (cl core : Nat) : State :=
  let t := (s.cluster cl).trace
  match Tab.get? core t.last with
  | some (st, since) =>
    if s.capturing cl ∧ since + 16383 ≤ s.cycles ∧ (s.cluster cl).dm.phase ≠ .halted then
      let s := s.modCluster cl fun c => { c with trace := { t with last := Tab.put core (st, since + 16383) t.last } }
      (s.addRecord cl core st 0x3FFF (since * 5 / 6)).sched 16383 (.stateLogExtension cl core)
    else s
  | none => s

/-- Cores that hold a process, as cluster and core. -/
def State.busyCores (s : State) : List (Nat × Nat) :=
  s.procs.foldl (fun l e =>
    if (e.2.slot.isSome || e.2.svc.isSome) && !l.contains (e.2.cl, e.2.unit) then (e.2.cl, e.2.unit) :: l else l) []

/-- n cycles in a state are counted (R451). -/
def State.countState (s : State) (cl core st n : Nat) : State :=
  if st = 3 ∨ n = 0 then s
  else
    let k := 256 * core + 6 + st
    s.modCluster cl fun c =>
      { c with events := Tab.put k (BitVec.ofNat 64 (min ((Tab.getD k c.events 0).toNat + n) (2 ^ 64 - 1))) c.events }

/-- Core states over the next n cycles: this one, in which a core may have issued, and n - 1 in which none issues. -/
def State.logTick (s : State) (n : Nat) : State :=
  s.busyCores.foldl (fun s e =>
    let (cl, core) := e
    if (s.cluster cl).dm.phase = .halted then s
    else
      let st := s.coreState cl core
      let now := if s.coreIssued cl core then 0 else st
      let s := (s.countState cl core now 1).countState cl core st (n - 1)
      if s.capturing cl then
        let s := s.logState cl core now s.cycles
        if 1 < n then s.logState cl core st (s.cycles + 1) else s
      else s) s

/-- Cores that the logs of a capture still show busy go idle when they hold nothing any more. -/
def State.logIdle (s : State) : State :=
  s.clusters.foldl (fun s e =>
    if s.capturing e.1 && e.2.dm.phase ≠ .halted then
      (e.2.trace.last.filter fun r => r.2.1 ≠ 3 && !s.busyCores.contains (e.1, r.1)).foldl (fun s r => s.logState e.1 r.1 3 s.cycles) s
    else s) s

/-! ## Sessions (R446) -/

/-- Capture begins: every core's state counts from now. -/
def State.startLogs (s : State) (cl : Nat) : State :=
  let s := s.modCluster cl fun c => { c with trace := { c.trace with
    last := (List.range 32).map fun k => (k, s.coreState cl k, s.cycles), recs := [] } }
  (List.range 32).foldl (fun s k => s.sched 16383 (.stateLogExtension cl k)) s

/-- The session closes: open packets and the buffer are written out. -/
def State.closeTrace (s : State) (cl : Nat) : State :=
  let s := s.setClReg cl 126 (trcfg s cl ||| 2)
  let s := (List.range 32).foldl (fun s k => s.flushLog cl k) s
  let s := s.flushCommits cl
  let buf := (s.cluster cl).trace.buf
  let s := if bits (trspill s cl) 63 52 = 0 then s
    else State.spillPackets cl buf (s.modCluster cl fun c => { c with trace := { c.trace with buf := [] } })
  let s := s.modCluster cl fun c => { c with trace := { c.trace with last := [], recs := [], commits := [], filt := none } }
  s.setClReg cl 126 (trcfg s cl &&& ~~~3)

/-- TRCFG takes a value: EN opens and closes the session. -/
def State.setTrcfg (s : State) (cl : Nat) (v : Word) : State :=
  let old := trcfg s cl
  let v := (v &&& 0xFFFFFFFF0000003F)
  if bit old 0 ∧ ¬ bit v 0 then (s.closeTrace cl).setClReg cl 126 (v &&& ~~~1)
  else
    let was := s.capturing cl
    let s := s.setClReg cl 126 v
    let s := if ¬ bit old 0 ∧ bit v 0 then
        s.modCluster cl fun c => { c with trace := { c.trace with spilled := 0, buf := [], rplyPos := 0 } }
      else s
    if s.capturing cl ∧ ¬ was then s.startLogs cl else s

/-- A queue reset ends the sessions that a launch owns: one TRUNC packet, and the session closes. -/
def State.truncTrace (s : State) (cause lid : Nat) : State :=
  s.clusters.foldl (fun s e =>
    if bit (trcfg s e.1) 0 && bits (trcfg s e.1) 63 32 = lid then
      (s.pushPacket e.1 0 [packetHead s.timebase 0 0 4, BitVec.ofNat 64 (cause % 256), BitVec.ofNat 64 lid]).closeTrace e.1
    else s) s

/-! ## Commit order (R447) -/

/-- The record of a commit. -/
def commitWord (pid slot core n : Nat) (solo : Bool) : Word :=
  field slot 48 ||| field core 43 ||| field solo.toNat 42 ||| field ((n - 1) % 1024) 32 ||| field (pid % 2 ^ 32) 0

def State.logCommit (s : State) (cl pid slot core n : Nat) (solo : Bool) : State :=
  if !s.capturing cl || !bit (trcfg s cl) 4 then s
  else
    let t := (s.cluster cl).trace
    let s := s.modCluster cl fun c => { c with trace := { t with commits := t.commits ++ [commitWord pid slot core n solo] } }
    if 7 ≤ t.commits.length + 1 then s.flushCommits cl else s

/-- Record k of the commit-order packets from packet i on, and the line that holds it. -/
def State.logRecord (s : State) (base : Nat) : Nat → Nat → Nat → Option (Nat × Word)
  | 0, _, _ => none
  | n + 1, i, k =>
    let h := Memory.read64 s.mem (base + 64 * i)
    let m := if bits h 7 0 = 5 then bits h 17 13 else 0
    if k < m then some (base + 64 * i, Memory.read64 s.mem (base + 64 * i + 8 * (k + 1)))
    else s.logRecord base n (i + 1) (k - m)

/-- The next record of a replay. -/
def State.replayRecord (s : State) (cl : Nat) : Option (Nat × Word) :=
  if bit (trcfg s cl) 0 && bit (trcfg s cl) 5 then
    let w := trspill s cl
    s.logRecord (bits w 51 20 * 2 ^ 20) (bits w 63 52 * packetsPerMiB) 0 (s.cluster cl).trace.rplyPos
  else none

/-- The commit whose turn it is under replay: PID and length. -/
def State.replayTurn (s : State) (cl : Nat) : Option (Nat × Nat) :=
  (s.replayRecord cl).map fun r => (bits r.2 31 0, bits r.2 41 32 + 1)

/-- A replay goes on to the next record: the line of the one before has been read at its home (R47). -/
def State.nextTurn (s : State) (cl : Nat) : State :=
  match s.replayRecord cl with
  | none => s
  | some r => (s.touchHome r.1).2.modCluster cl fun d => { d with trace := { d.trace with rplyPos := d.trace.rplyPos + 1 } }

end Sys2Proof.Machine
end

