-- ==== Sys2Proof/Machine/Atomics.lean ====
section
/-! DEFINITION. Atomics and reductions (R285 to R298), WAITRED and FENCE (R299, R300), and the commit of a chunk (R303 to R306). -/

namespace Sys2Proof.Machine

/-! ## Where an operation goes -/

/-- Marks an AMO or CAS among the operations of a process; one more when it goes through an export window of this device. -/
def amoKey : Nat := 2 ^ 70

/-- Cycles an operation takes to its home in device memory or at a scratchpad. -/
def homeCycles (loc : Nat) : Nat := if isSram loc then 16 else 60

/-- A size selector's bytes. -/
def wideBytes (wide : Bool) : Nat := if wide then 8 else 4

/-- Operations that PCIe AtomicOps carry (R285). -/
def hostOp : HomeOp → Bool
  | .amo .add _ _ | .amo .swap _ _ | .cas _ _ _ => true
  | _ => false

/-- What an operation asks of its page (R72), and of a watchpoint: AMO and CAS read and write, RED and REDF write. -/
def opAcc : HomeOp → Acc | .amo _ _ _ | .cas _ _ _ => .both | _ => .write
def opRw : HomeOp → Nat | .amo _ _ _ | .cas _ _ _ => 3 | _ => 2
def returns (op : HomeOp) : Bool := opRw op = 3

/-- The site whose router refuses a packet of the process on the way to a home or back (R54, R62). -/
def State.unreachable (s : State) (cl loc : Nat) : Option Nat :=
  if isDev loc then s.tripRefused (s.clusterSite cl) (memSite (dieOf loc)) else none

/-- Where an operation outside every chunk is performed. -/
inductive Home where
  /-- on this device, at a location; `remote` through an export window -/
  | here (loc : Nat) (remote : Bool)
  | host (loc : Nat)
  | away (loc : Nat)
  deriving DecidableEq, Repr

/-- The fabric fault that an address of space 0b01 meets before it leaves, or its home (R112, R114). -/
def homeOfLoc (loc : Nat) (op : HomeOp) (s : State) : Except (Nat × Nat) Home × State :=
  if loc < hostBase then (.ok (.here loc false), s)
  else if loc < remoteBase then (.ok (.host loc), s)
  else
    let a := remoteAddr loc
    if s.noDev (bits a 61 51) then (.error (1, 0), s)
    else if bits a 61 51 ≠ s.dev then (.ok (.away loc), s)
    else match s.exportAt a (opAcc op) true with
      | (.error e, s) => (.error e, s)
      | (.ok h, s) => (.ok (if hostBase ≤ h then .host h else .here h true), s)

/-! ## Inside a chunk (R289, R292) -/

/-- The new value of an operation on an element. -/
def opNew (op : HomeOp) (old : Nat) : Nat :=
  let w := 8 * opBytes op
  match op with
  | .amo a _ x | .red a _ x => aopApply a w old (x.toNat % 2 ^ w)
  | .cas _ e v => if old = e.toNat % 2 ^ w then v.toNat % 2 ^ w else old
  | .redf f b x _ => if f = .add then redfAdd b old (x.toNat % 2 ^ w) else redfMinMax b f old (x.toNat % 2 ^ w)

/-- AMO or CAS on the cluster's own SRAM inside a chunk: performed at the commit with what the chunk itself has stored. -/
def chunkAtomic (p : Pid) (loc : Nat) (op : HomeOp) (ea : Word) : Exec Word := do
  waitLine p loc
  readSig p loc
  writeSig p loc
  settleReds p (lineOf loc)
  noteHit p 3 3 loc (opBytes op) true
  let s ← get
  let pr ← getProc p
  let (_, s) := s.touchHome (lineOf loc)
  set s
  if s.isPoison (lineOf loc) && !covered pr.buf (lineOf loc) 64 then raiseTrap (trapPoison ea true)
  let n := opBytes op
  let old := natLE (overlay pr.buf loc (Memory.read s.mem loc n))
  let bs := bytesLE n (opNew op old)
  modProcE p fun pr => { pr with chunk := pr.chunk.map fun c => { c with buf := bufBytes c.buf loc bs } }
  pure (BitVec.ofNat 64 old)

/-! ## Sending an operation -/

/-- Drops the issuing cluster's copy of a line, its dirty bytes written back first (R285). -/
def State.takeBack (s : State) (pid : Pid) (line : Nat) : State :=
  match s.proc? pid with
  | some pr => if isDev line then s.dropLine pr.cl line else s
  | none => s

/-- The key of an operation on its way: the process, and for a reduction the number of its acknowledgement. -/
def opKey (pid id : Nat) : Nat := pid + 2 ^ 32 * id

/-- AMO or CAS outside every chunk: it is sent, and the process waits for the reply. -/
def sendAmo (p : Pid) (loc scope : Nat) (op : HomeOp) (ea : Word) : Exec Word := do
  let s ← get
  let pr ← getProc p
  match homeOfLoc loc op s with
  | (.error (k, x), s) => do set s; raiseTrap (trapFabric k x ea true)
  | (.ok h, s) => do
    set s
    let id := s.nextReq
    let wait : Nat → Exec Word := fun key => do
      modS fun s => { s with nextReq := id + 1 }
      modProcE p fun pr => { pr with op := some { id := id, key := key, res := .waiting, got := [(0, BitVec.ofNat 512 loc)] } }
      waitOn .reply ea 0
    match h with
    | .here loc remote => do
      match s.unreachable pr.cl loc with
      | some site => undeliverable site (lineOf loc) ea true
      | none => pure ()
      modS fun s => (s.takeBack p (lineOf loc)).sched (homeCycles loc) (.atomicAtHome loc op (opKey p 0))
      wait (amoKey + (if remote then 1 else 0))
    | .host loc => do
      guardTrap (!hostOp op) { cls := 18, kind := 1 }
      modS fun s => s.dropLine pr.cl (lineOf loc)
      if (pr.outs.any fun o => o.line = lineOf loc) || ((← get).cluster pr.cl).wbacks ≠ [] then waitOn .reply ea 0
      modS fun s => s.emit (.atomic p id (hostAddr loc) scope op)
      wait amoKey
    | .away loc => do
      if pr.outs.any fun o => o.space = 1 && o.line = lineOf loc then waitOn .reply ea 0
      modS fun s => s.emit (.atomic p id (remoteAddr loc) scope op)
      wait amoKey

/-- RED or REDF outside every chunk: it is sent, and the process goes on (R292). -/
def sendRed (p : Pid) (loc scope : Nat) (op : HomeOp) : Exec Unit := do
  let s ← get
  let pr ← getProc p
  match homeOfLoc loc op s with
  | (.error (k, x), s) => set (s.holdFault p 8 k x 1 true (remoteAddr loc))
  | (.ok h, s) => do
    set s
    let id := s.nextAcc
    let count : Nat → Nat → Option (Word × OutReq) → Exec Unit := fun space line hold => do
      modS fun s => { s with nextAcc := id + 1 }
      modProcE p fun pr => { pr with
        pend := pr.pend + 1
        outs := pr.outs ++ [{ id := id, space := space, line := line, red := true, scope := scope, take := [], hold := hold }] }
    match h with
    | .here h remote => do
      let space := if remote then 1 else if isSram h then 3 else 0
      match s.unreachable pr.cl h with
      | some site => do
        let (k, s) := s.freeNat
        set ((s.machineCheck 4 0 site (lineOf h)).holdFault p 8 (k % 256) 0 space true 0)
      | none => do
        count space (if remote then lineOf loc else lineOf h) none
        modS fun s => (s.takeBack p (lineOf h)).sched (homeCycles h) (.atomicAtHome h op (opKey p id))
    | .host _ => raiseTrap { cls := 18, kind := 1 }
    | .away loc => do
      let wait := pr.outs.any fun o => o.space = 1 && o.line = lineOf loc
      count 1 (lineOf loc) (if wait then some (remoteAddr loc, .op op) else none)
      if wait then pure () else modS fun s => s.emit (.atomic p id (remoteAddr loc) scope op)

/-! ## AMO and CAS (R287 to R290) -/

/-- AMO and CAS over their operation: the old value. -/
def amoOp (m : Mods) (p : Pid) (ea : Word) (op : HomeOp) : Exec Word := do
  let n := opBytes op
  let pr ← getProc p
  match pr.op with
  | some o =>
    match o.res with
    | .ok v => do
      noteHit p 3 3 (Tab.getD 0 o.got 0).toNat n false
      acquire p (scopeOr m)
      pure (v.setWidth 64)
    | .trap c k a => raiseTrap { cls := c, kind := k, addr := ea, aux := field 1 61 ||| BitVec.ofNat 64 a }
    | _ => waitOn .reply ea 0
  | none => do
    let pl ← resolveAl p ea n n .both false
    match pl with
    | .mem loc | .acc _ loc => do
      guardTrap (hostBase ≤ loc && loc < remoteBase && !hostOp op) { cls := 18, kind := 1 }
      waitPlace p pl
      release p (scopeOr m) false
      if pr.chunk.isSome then chunkAtomic p loc op ea
      else do
        waitLine p loc
        if isDev loc then waitMove loc
        sendAmo p loc (scopeOr m) op ea
    | _ => raiseTrap (trapXlate xPerm ea true)

def execAmo (m : Mods) (d rs t : SReg) (op : AOp) (wide : Bool) (s : State) : Host.Outcome State Fault Refusal :=
  runExec m (lenOf m true true) true s fun p pr => do
    let old ← amoOp m p (pr.ctx.rs rs) (.amo op wide (pr.ctx.rs t))
    setS p d old
    pure { endChunk := scCluster < scopeOr m }

def execCas (m : Mods) (d rs t : SReg) (wide : Bool) (s : State) : Host.Outcome State Fault Refusal :=
  runExec m (lenOf m true true) true s fun p pr => do
    let old ← amoOp m p (pr.ctx.rs rs) (.cas wide (pr.ctx.rs d) (pr.ctx.rs t))
    setS p d old
    pure { endChunk := scCluster < scopeOr m }

/-! ## RED and REDF (R291 to R297) -/

/-- RED and REDF over their operation. -/
def redOp (m : Mods) (p : Pid) (ea : Word) (op : HomeOp) : Exec Unit := do
  let n := opBytes op
  let pr ← getProc p
  let pl ← resolveAl p ea n n .write false
  match pl with
  | .mem loc | .acc _ loc => do
    guardTrap (hostBase ≤ loc && loc < remoteBase) { cls := 18, kind := 1 }
    waitPlace p pl
    match pr.chunk with
    | some c =>
      -- a chunk that holds sixteen ends, so that they are performed
      if 16 ≤ pr.pend + c.reds.length then do
        if c.count ≠ 0 then modS fun s => s.endChunk p
        waitOn .reply 0 0
      else do
        waitLine p loc
        writeSig p loc
        noteHit p 2 3 loc n true
        modProcE p fun pr => { pr with chunk := pr.chunk.map fun c => { c with reds := c.reds ++ [{ loc := loc, op := op }] } }
    | none => do
      if 16 ≤ pr.pend then waitOn .reply 0 0
      if isDev loc then waitMove loc
      noteHit p 2 3 loc n false
      sendRed p loc (scopeOr m) op
  | _ => raiseTrap (trapXlate xPerm ea true)

def execRed (m : Mods) (d rs : SReg) (op : AOp) (wide : Bool) (s : State) : Host.Outcome State Fault Refusal :=
  runExec m (lenOf m true false) true s fun p pr => do
    redOp m p (pr.ctx.rs d) (.red op wide (pr.ctx.rs rs))
    pure {}

def execRedf (m : Mods) (d rs : SReg) (fop : Fop) (bf16 : Bool) (s : State) : Host.Outcome State Fault Refusal :=
  runExec m (lenOf m true false) true s fun p pr => do
    redOp m p (pr.ctx.rs d) (.redf fop bf16 (pr.ctx.rs rs) (s.contributor pr.cl pr.unit))
    pure {}

/-! ## WAITRED and FENCE (R299, R300) -/

def execWaitred (m : Mods) (s : State) : Host.Outcome State Fault Refusal :=
  runExec m (lenOf m true false) true s fun p pr => do
    if pr.pend ≠ 0 then waitOn .reply 0 0
    takeHeld p fun h => h.red
    pure {}

def execFence (m : Mods) (kind : FenceKind) (s : State) : Host.Outcome State Fault Refusal :=
  runExec m (lenOf m true false) true s fun p _ => do
    match kind with
    | .acq => do takeHeld p fun h => h.red; acquire p (scopeOr m)
    | .rel => release p (scopeOr m) true
    | .full => do release p (scopeOr m) true; acquire p (scopeOr m)
    pure {}

/-! ## At the home (R286) -/

/-- An operation is performed at its home on this device, or held while its page moves (R83). -/
def State.atHome (s : State) (loc : Nat) (op : HomeOp) (key : Nat) : State :=
  let pid := key % 2 ^ 32
  let id := key / 2 ^ 32
  let site := match s.proc? pid with | some pr => s.clusterSite pr.cl | none => 0
  let s := if isDev loc then s.racHit (.site site) loc else s
  match s.moveOf loc with
  | some m => s.hold loc m (.op (.atomicAtHome loc op key))
  | none =>
    let s := s.takeBack pid (lineOf loc)
    let s := match s.proc? pid with | some pr => s.keepOld pr.cl loc | none => s
    let hit := isDev loc && (s.memDie (dieOf loc)).msc.contains (lineOf loc)
    let (v, s) := s.homeAtomic loc op
    let s := match s.proc? pid with | some pr => s.noteWrite pr.cl loc | none => s
    let s := s.watchAtomic loc (opBytes op) (opRw op) (s.key pid)
    if returns op then
      let remote := (s.proc? pid).any fun pr => pr.op.any fun o => o.key = amoKey + 1
      let r : Reply := match v with
        | some w => .value (w.setWidth 8192)
        | none => if remote then .fault 8 5 0 else .fault 7 0 0
      let rid := ((s.proc? pid).bind fun pr => pr.op.map fun o => o.id).getD 0
      if isDev loc then
        let dst := memSite (dieOf loc)
        let (i, s) := s.homePlat site (dieOf loc) ((s.routeHops site dst).getD 0) ((s.routeHops dst site).getD 0) hit
        let i := { i with src := if remote then 2 else i.src, lat := i.lat + 10 }
        (s.sched (homeCycles loc) (.amoReply pid rid r (some i)))
      else (s.sched 0 (.amoReply pid rid r none))
    else
      let remote := (s.proc? pid).any fun pr => pr.outs.any fun o => o.id = id && o.space = 1
      (s.sched (if isDev loc then homeCycles loc else 0)
        (.reductionAck pid id (match v with | some _ => none | none => if remote then some (5, 0) else some (0, 0))))

def execAtomicAtHome (loc : Nat) (op : HomeOp) (key : Nat) (s : State) : Host.Outcome State Fault Refusal := .next (s.atHome loc op key)

/-- A REDF.add of a contributor arrives at its home, which counts one of this device's cores (R79), and holds it while its page moves
(R83). -/
def State.redfAtHome (s : State) (loc : Nat) (bf16 : Bool) (x : Word) (cn : Nat) : State :=
  let s := if isDev loc && cn / 2 ^ 13 = s.dev then s.racHit (.site (s.clusterSite (cn % 2 ^ 13 / 32))) loc else s
  match s.moveOf loc with
  | some m => s.hold loc m (.op (.redfAddArrival loc bf16 x cn))
  | none => (s.homeAtomic loc (.redf .add bf16 x cn)).2

def execRedfAddArrival (loc : Nat) (bf16 : Bool) (x : Word) (cn : Nat) (s : State) : Host.Outcome State Fault Refusal :=
  .next (s.redfAtHome loc bf16 x cn)

/-- The reply of an AMO or CAS (R288): the old value is kept for the process, which goes on. -/
def execAmoReply (pid : Pid) (id : Nat) (r : Reply) (plat : Option PlatInfo) (s : State) : Host.Outcome State Fault Refusal :=
  let s := s.twinPaired (4 * id + 2)
  match s.proc? pid with
  | none => .next (s.relay pid id r)
  | some pr =>
    match pr.op with
    | some o =>
      if o.id = id ∧ amoKey ≤ o.key ∧ o.res = .waiting then
        let res : OpRes := match r with | .value v => .ok v | .fault c k a => .trap c k a
        let s := s.setProc pid { pr with op := some { o with res := res } }
        .next ((match plat with | some i => s.replyPlat 2 pid id i | none => s.unrouted 2 pid id).wake pid)
      else .next s
    | none => .next s

/-- The acknowledgement of a reduction (R292). -/
def execReductionAck (pid : Pid) (id : Nat) (fault : Option (Nat × Nat)) (s : State) : Host.Outcome State Fault Refusal :=
  let s := (s.twinPaired (4 * id + 2)).leftDone id
  if (s.proc? pid).any fun pr => pr.outs.any fun o => o.id = id && o.red then .next (s.ackAccess pid id fault) else .next s

/-! ## The commit arbiter (R304 to R306) -/

/-- Whether a chunk committed after the chunk's first instruction issued wrote a line it read. -/
def overlaps (c : Chunk) (wsets : List (Nat × List Nat)) : Bool := wsets.any fun e => c.seq0 ≤ e.1 && e.2.any c.rsig.contains

/-- Commits that no open chunk of the cluster began before are forgotten. -/
def State.pruneSets (s : State) (cl : Nat) : State :=
  let open_ := s.procs.filterMap fun e => if e.2.cl = cl then e.2.chunk.map fun c => c.seq0 else none
  match open_ with
  | [] => s.modCluster cl fun c => { c with wsets := [] }
  | n :: l => let lo := l.foldl min n; s.modCluster cl fun c => { c with wsets := c.wsets.filter fun e => lo ≤ e.1 }

/-- A squash (R306). -/
def State.squash (s : State) (p : Pid) : State :=
  match s.proc? p with
  | none => s
  | some pr =>
    let n := pr.squashes + 1
    (s.setProc p { pr.squashed with squashes := n, solo := pr.solo || 3 ≤ n }).countCore pr.cl pr.unit 3

/-- Performs a chunk's buffered stores and reductions in program order. -/
def State.performChunk (s : State) (p : Pid) (cl : Nat) (c : Chunk) : State :=
  let s := s.performBuf p cl c.buf
  c.reds.foldl (fun s r =>
    if r.failed then s.holdFault p 7 0 0 3 true 0
    else match s.homeAtomic r.loc r.op with
      | (some _, s) => s
      | (none, s) => s.holdFault p 7 0 0 3 true 0) s

/-- A chunk commits: its effects, its place in the commit order, its records. -/
def State.commitChunk (s : State) (p : Pid) (pr : Proc) (c : Chunk) : State :=
  let s := (s.performChunk p pr.cl c).wakeIf p .reply
  let s := s.modCluster pr.cl fun d => { d with wsets := d.wsets ++ [(d.seq, c.wsig)], seq := d.seq + 1, commitAt := s.cycles + 1 }
  let s := (s.modProc p fun pr => { pr with chunk := none, hits := [] }).unsolo p
  let s := (s.pruneSets pr.cl).countCore pr.cl pr.unit 2
  let s := if pr.solo then s.countCore pr.cl pr.unit 4 else s
  let s := s.modCluster pr.cl fun d => { d with events :=
    (let k := 256 * pr.unit + 1
     Tab.put k (BitVec.ofNat 64 (min ((Tab.getD k d.events 0).toNat + c.count) (2 ^ 64 - 1))) d.events) }
  let s := c.marks.foldl (fun s w => s.pushPacket pr.cl pr.unit
    [packetHead s.timebase 0 pr.unit 2, w, BitVec.ofNat 64 (s.key p), field pr.stage.toNat 0]) s
  let s := s.logCommit pr.cl p (pr.slot.getD 0) pr.unit c.count pr.solo
  s.nextTurn pr.cl

/-- One more instruction of a watchpoint replay has committed; the replay is over after the hit (R441, R473). -/
def State.replayed (s : State) (p : Pid) (cl : Nat) (hit : Bool) : State :=
  match (s.cluster cl).dm.replay with
  | some (q, n) =>
    if q ≠ p then s
    else s.modCluster cl fun d => { d with dm := { d.dm with
      replay := if hit || n ≤ 1 then none else some (q, n - 1), stepping := false } }
  | none => s

/-- The commit arbiter looks at an ended chunk (R305, R441, R447). -/
def execChunkCommit (pid : Pid) (s : State) : Host.Outcome State Fault Refusal :=
  match s.proc? pid with
  | none => .next s
  | some pr =>
    match pr.chunk with
    | none => .next s
    | some c =>
      let k := s.cluster pr.cl
      if !c.ended then .next s
      else if (k.token.any fun t => t ≠ pid) || s.cycles < k.commitAt then .next (s.sched 1 (.chunkCommit pid))
      else if !pr.solo && overlaps c k.wsets then .next ((s.squash pid).wakeIf pid .reply)
      else
        match pr.hits with
        | (owner, w, kind) :: _ =>
          if k.dm.phase = .running then
            let s := s.setProc pid { pr.squashed with solo := true }
            let s := s.countCore pr.cl pr.unit 3
            let s := s.modCluster pr.cl fun d => { d with dm := { d.dm with replay := some (pid, c.count) } }
            .next (s.watchHit pr.cl w kind owner (s.key pid) (some pid))
          else .next ((s.commitChunk pid pr c).replayed pid pr.cl true)
        | [] =>
          match s.replayTurn pr.cl with
          | some (q, n) =>
            if q ≠ pid then .next (s.sched 16 (.chunkCommit pid))
            else if n ≠ c.count then .next ((s.commitChunk pid pr c).trigger pr.cl 9 0 (some pid) false)
            else .next (s.commitChunk pid pr c)
          | none => .next ((s.commitChunk pid pr c).replayed pid pr.cl false)

end Sys2Proof.Machine
end

