-- ==== Sys2Proof/Machine/Barriers.lean ====
section
/-! DEFINITION. The barrier tree (R377 to R384) and barriers across devices (R120, R121). -/

namespace Sys2Proof.Machine

/-- MBGn (R120). -/
def mbg (s : State) (n : Nat) : Word := s.reg (88 + n)
def mbgOn (s : State) (n : Nat) : Bool := bit (mbg s n) 63

/-! ## REQ, ARR and the AND line (R378, R379) -/

/-- Where a member's K is counted: its core, or its compute die while it is suspended or in the backlog. -/
def Proc.barrierPlace (pr : Proc) : Nat := if pr.state = .suspended then 65536 + pr.cl / 8 else 64 * pr.cl + pr.core

/-- Members of a barrier, with their memberships. -/
def State.barMembers (s : State) (n : Nat) : List (Pid × Proc × BarMem) :=
  s.procs.filterMap fun e => (Tab.get? n e.2.bars).map fun b => (e.1, e.2, b)

/-- REQ and ARR of one place. -/
def barReq (l : List (Pid × Proc × BarMem)) (place : Nat) : Nat :=
  ((l.filter fun e => e.2.1.barrierPlace = place).map fun e => e.2.2.k).sum
def barArr (l : List (Pid × Proc × BarMem)) (place : Nat) : Nat :=
  ((l.filter fun e => e.2.1.barrierPlace = place).map fun e => e.2.2.arr).sum

/-- The level of the AND line: every place with REQ > 0 has ARR ≥ REQ. -/
def State.barHigh (s : State) (n : Nat) : Bool :=
  let l := s.barMembers n
  l.all fun e => barReq l e.2.1.barrierPlace ≤ barArr l e.2.1.barrierPlace

/-- Core cycles from the arrival that completes the AND to its release: at most 120 ns, 70 on the half part (R380). -/
def State.barTrip (s : State) : Nat := if s.rows = 4 then 60 else 100

/-- The AND line follows its inputs; its rising edge reaches the root. -/
def State.barLine (s : State) (n : Nat) : State :=
  let high := s.barHigh n
  let was := (s.bar n).high
  let s := s.modBar n fun b => { b with high := high }
  if high && !was then s.sched s.barTrip (.barrierAndRise n) else s

/-- A membership changes. -/
def State.setMem (s : State) (p : Pid) (n : Nat) (b : BarMem) : State :=
  s.modProc p fun pr => { pr with bars := Tab.put n b pr.bars }

/-- A member leaves (R378): its K and its arrivals go with it, and the last one to leave ends the launch's ownership (R377). -/
def State.barLeave (s : State) (p : Pid) (n : Nat) : State :=
  let s := s.modProc p fun pr => { pr with bars := Tab.del n pr.bars }
  let s := if s.barMembers n = [] then s.modBar n fun b => { b with owner := none } else s
  s.barLine n

/-- A process leaves every barrier it belongs to (R378). -/
def State.leaveBars (s : State) (p : Pid) : State :=
  match s.proc? p with
  | none => s
  | some pr => (Tab.keys pr.bars).foldl (fun s n => s.barLeave p n) s

/-- The lines of the barriers a process belongs to follow a move of its record. -/
def State.barMoved (s : State) (p : Pid) : State :=
  match s.proc? p with
  | none => s
  | some pr => (Tab.keys pr.bars).foldl (fun s n => s.barLine n) s

/-! ## Releases (R379, R121) -/

/-- Whether a process's wait at a barrier is over: its record no longer says that it waits. -/
def Proc.barOver (pr : Proc) : Bool :=
  pr.wkind = .barrier && (match Tab.get? pr.wait.toNat pr.bars with | some b => !b.waiting && !b.deferred | none => true)

/-- Ends a member's wait; on a halted cluster the wait completes when it resumes (R382, R434). -/
def State.barEnd (s : State) (p : Pid) : State :=
  match s.proc? p with
  | none => s
  | some pr => if s.isHalted pr.cl || !pr.barOver then s else s.wake p

/-- What a release does to one member: arrivals go back to 0, a waiting member goes on and acquires (R382), and a deferred arrival counts in the new
episode, in which a BAR then waits. -/
def State.barReleaseOne (n : Nat) (s : State) (p : Pid) : State :=
  match (s.proc? p).bind fun pr => Tab.get? n pr.bars with
  | none => s
  | some b =>
    if b.deferred then
      let s := s.setMem p n { b with arr := 1, deferred := false }
      if b.waiting then s else s.barEnd p
    else
      let s := s.setMem p n { b with arr := 0, waiting := false }
      if b.waiting then (s.modProc p fun pr => { pr with acquireDue := true }).barEnd p else s

/-- An episode of the comparison barrier has ended: each H is kept for the comparator and starts anew (R449). -/
def State.twinEpisode (s : State) (epoch : Nat) : State :=
  let now := s.twinH.filter fun e => e.1 < 64
  let s := { s with twinH := (s.twinH.filter fun e => !(e.1 < 64)) }
  let s := now.foldl (fun (s : State) e => { s with twinH := Tab.put (64 * (epoch + 1) + e.1) e.2 s.twinH }) s
  s.sched (nsCycles s.barTrip) (.twinCompare epoch)

/-- The release line is driven: the episode ends (R379). -/
def State.barRelease (s : State) (n : Nat) : State :=
  let on := mbgOn s n
  let s := if s.phys.twin = some n then s.twinEpisode (s.bar n).epoch.toNat else s
  let s := s.modBar n fun b => { b with epoch := b.epoch + 1, mEpoch := if on then !b.mEpoch else b.mEpoch }
  let members := (s.barMembers n).map fun e => e.1
  let s := members.foldl (State.barReleaseOne n) s
  (s.modBar n fun b => { b with high := decide (members = []) }).barLine n

/-- An event for service firmware about a link or a group; what the message says is open (log entry 2). -/
def State.linkEvent (s : State) : State :=
  let (k, s) := s.freeNat
  s.postService 2 [BitVec.ofNat 64 k]

/-- A barrier's packet to another device, in the reply class (R121). -/
def State.barSend (s : State) (dev : Nat) (body : Body) : State := s.sendBody (s.linkSite dev) dev true body []

/-- The root counts an arrival of the current epoch and releases every member at COUNT, its own arrival among them (R121). -/
def State.barArrive (s : State) (n : Nat) (epoch : Bool) (count dev : Nat) : State :=
  let r := mbg s n
  if !mbgOn s n || bits r 10 0 ≠ s.dev then s
  else if count ≠ bits r 27 16 then s.linkEvent
  else if epoch ≠ (s.bar n).mEpoch then s
  else
    let l := insertNat dev (s.bar n).arrivals
    if l.length < count || !l.contains s.dev then s.modBar n fun b => { b with arrivals := l }
    else ((l.filter (· ≠ s.dev)).foldl (fun s d => s.barSend d (.release n epoch)) (s.modBar n fun b => { b with arrivals := [] })).barRelease n

def execBarrierAndRise (n : Nat) (s : State) : Host.Outcome State Fault Refusal :=
  if 32 ≤ n then .next s
  else
    let r := mbg s n
    if !mbgOn s n then .next (s.barRelease n)
    else if bits r 10 0 = s.dev then .next (s.barArrive n (s.bar n).mEpoch (bits r 27 16) s.dev)
    else .next (s.barSend (bits r 10 0) (.arrive n (s.bar n).mEpoch (bits r 27 16)))

/-- RELEASE reaches a member: it drives its release line (R121). -/
def State.barReleased (s : State) (n : Nat) (epoch : Bool) : State :=
  if n < 32 ∧ mbgOn s n ∧ (s.bar n).mEpoch = epoch then s.barRelease n else s

def execBarrierArriveMessage (n : Nat) (epoch : Bool) (count dev : Nat) (s : State) : Host.Outcome State Fault Refusal :=
  if 32 ≤ n then .next s else .next (s.barArrive n epoch count dev)

def execBarrierReleaseMessage (n : Nat) (epoch : Bool) (s : State) : Host.Outcome State Fault Refusal :=
  .next (s.barReleased n epoch)

/-! ## The instructions (R384) -/

def trapBarrier (kind : Nat) : TrapInfo := { cls := 25, kind := kind }

/-- The scope of an arrival and of a return (R315). -/
def barScope (s : State) (n : Nat) : Nat := if mbgOn s n then scSystem else scDevice

def execBarjoin (m : Mods) (d rs : SReg) (s : State) : Host.Outcome State Fault Refusal :=
  runExec m (lenOf m true false) true s fun p pr => do
    let a := pr.ctx.rs d
    let k := (pr.ctx.rs rs).toNat
    guardTrap (32 ≤ a.toNat || 256 ≤ k) (trapBarrier 1)
    let n := a.toNat
    let s ← get
    guardTrap ((s.bar n).owner.any fun l => l ≠ pr.lid) (trapBarrier 2)
    if k = 0 then do
      if (Tab.get? n pr.bars).isSome then modS fun s => s.barLeave p n
    else
      modS fun s =>
        let b := (Tab.get? n pr.bars).getD { k := 0, arr := 0, deferred := false, waiting := false }
        ((s.setMem p n { b with k := k }).modBar n fun x => { x with owner := some pr.lid }).barLine n
    pure {}

/-- What is left of an instruction whose process waits for the end of an episode: the wait. -/
def barBlocked (n : Nat) : Done := { wait := some (.barrier, BitVec.ofNat 64 n) }

/-- An arrival (R381); `wait`: it belongs to a BAR. A process that waits has completed the instruction (R434; log entry 25). -/
def barArrival (p : Pid) (n : Nat) (wait : Bool) : Exec Done := do
  let pr ← getProc p
  match Tab.get? n pr.bars with
  | none => raiseTrap (trapBarrier 3)
  | some b => do
    let s ← get
    release p (barScope s n) false
    if b.k ≤ b.arr then do
      modS fun s => s.setMem p n { b with deferred := true, waiting := wait }
      pure (barBlocked n)
    else do
      modS fun s => (s.setMem p n { b with arr := b.arr + 1, waiting := wait }).barLine n
      pure (if wait then barBlocked n else {})

def execBararv (m : Mods) (n : BitVec 5) (s : State) : Host.Outcome State Fault Refusal :=
  runExec m (lenOf m true false) true s fun p _ => barArrival p n.toNat false

/-- A wait (R382): it returns at once unless the process has arrived. -/
def execBarwait (m : Mods) (n : BitVec 5) (s : State) : Host.Outcome State Fault Refusal :=
  runExec m (lenOf m true false) true s fun p pr => do
    match Tab.get? n.toNat pr.bars with
    | none => pure {}
    | some b =>
      if b.arr = 0 then pure {}
      else do
        modS fun s => s.setMem p n.toNat { b with waiting := true }
        pure (barBlocked n.toNat)

def execBar (m : Mods) (n : BitVec 5) (s : State) : Host.Outcome State Fault Refusal :=
  runExec m (lenOf m true false) true s fun p _ => barArrival p n.toNat true

/-- The BARQ word (R384). -/
def State.barWord (s : State) (pr : Proc) (n : Nat) : Word :=
  let x := s.bar n
  let b := (Tab.get? n pr.bars).getD { k := 0, arr := 0, deferred := false, waiting := false }
  field x.epoch.toNat 48 ||| field (decide (b.k ≠ 0)).toNat 47 ||| field (decide (x.owner = some pr.lid)).toNat 46 |||
    field (mbgOn s n).toNat 45 ||| field (decide (b.arr ≠ 0) || b.deferred).toNat 44 ||| field b.arr 8 ||| field b.k 0

def execBarq (m : Mods) (d : SReg) (n : BitVec 5) (s : State) : Host.Outcome State Fault Refusal :=
  runExec m (lenOf m true false) true s fun p pr => do
    let s ← get
    setS p d (s.barWord pr n.toNat)
    pure {}

end Sys2Proof.Machine
end

