-- ==== Sys2Proof/Machine/Gcm.lean ====
section
/-! DEFINITION. AES-256-GCM with 96-bit IVs and 16-byte tags, which R99 names and does not restate: PRESUMED from the published
standards (FIPS 197 and NIST SP 800-38D), log entry 3. Byte strings run from the first byte on; numbers are read from them with the
first byte as the most significant. -/

namespace Sys2Proof.Machine.Aes

/-- Doubling in GF(2^8). -/
def xtime (a : Nat) : Nat := if a < 128 then 2 * a else Nat.xor (2 * a - 256) 0x1B

/-- Product in GF(2^8); fuel counts bits of the second factor. -/
def gmul : Nat → Nat → Nat → Nat
  | 0, _, _ => 0
  | n + 1, a, b => Nat.xor (if b % 2 = 1 then a else 0) (gmul n (xtime a) (b / 2))

/-- a^(2^n - 1), the product of the squarings up to n - 1. -/
def gpow : Nat → Nat → Nat
  | 0, _ => 1
  | n + 1, a => gmul 8 a (gpow n (gmul 8 a a))

/-- The inverse in GF(2^8), 0 for 0: the 254th power. -/
def ginv (a : Nat) : Nat := let b := gpow 7 a; gmul 8 b b

/-- The substitution of one byte. -/
def sub (a : Nat) : Nat :=
  let b := ginv a
  let r : Nat → Nat := fun k => b * 2 ^ k % 256 + b / 2 ^ (8 - k)
  Nat.xor b (Nat.xor (r 1) (Nat.xor (r 2) (Nat.xor (r 3) (Nat.xor (r 4) 0x63))))

/-- Bytewise exclusive-or of two strings. -/
def xorBytes (a b : List Nat) : List Nat := (a.zip b).map fun e => Nat.xor e.1 e.2

/-- Words of the key schedule, the last first. `i` counts words; fuel counts those to come. -/
def expand : Nat → Nat → Nat → List (List Nat) → List (List Nat)
  | 0, _, _, ws => ws
  | n + 1, i, rcon, ws =>
    let last := ws.headD []
    let t := if i % 8 = 0 then xorBytes ((last.drop 1 ++ last.take 1).map sub) [rcon, 0, 0, 0]
      else if i % 8 = 4 then last.map sub else last
    expand n (i + 1) (if i % 8 = 0 then xtime rcon else rcon) (xorBytes (ws.getD 7 []) t :: ws)

/-- A string cut into pieces of k bytes. -/
def chunks (k : Nat) : Nat → List Nat → List (List Nat)
  | 0, _ => []
  | n + 1, l => l.take k :: chunks k n (l.drop k)

/-- The fifteen round keys of a 32-byte key. -/
def roundKeys (key : List Nat) : List (List Nat) :=
  chunks 16 15 ((expand 52 8 1 (chunks 4 8 key).reverse).reverse.flatten)

/-- Row r of the state moves r columns to the left; byte 4c + r is row r of column c. -/
def shiftRows (st : List Nat) : List Nat := (List.range 16).map fun i => st.getD ((i + 4 * (i % 4)) % 16) 0

/-- The mixing of the columns. -/
def mixColumns (st : List Nat) : List Nat :=
  (List.range 16).map fun i =>
    let b : Nat → Nat := fun k => st.getD (i / 4 * 4 + (i + k) % 4) 0
    Nat.xor (gmul 8 (b 0) 2) (Nat.xor (gmul 8 (b 1) 3) (Nat.xor (b 2) (b 3)))

/-- The rounds after the first key addition. -/
def rounds : List (List Nat) → List Nat → List Nat
  | [], st => st
  | [k], st => xorBytes (shiftRows (st.map sub)) k
  | k :: ks, st => rounds ks (xorBytes (mixColumns (shiftRows (st.map sub))) k)

/-- One block under a key schedule. -/
def encrypt (ks : List (List Nat)) (block : List Nat) : List Nat := rounds (ks.drop 1) (xorBytes block (ks.headD []))

/-- A number as n bytes, the most significant first, and back. -/
def bytesBE (n x : Nat) : List Nat := ((List.range n).map fun i => x / 256 ^ i % 256).reverse
def natBE (l : List Nat) : Nat := l.foldl (fun n b => 256 * n + b) 0

/-- Product in GF(2^128) with the first bit as the lowest power; fuel counts bits of the first factor, from the first. -/
def ghashMul : Nat → Nat → Nat → Nat
  | 0, _, _ => 0
  | n + 1, x, v =>
    Nat.xor (if x / 2 ^ n % 2 = 1 then v else 0) (ghashMul n x (if v % 2 = 1 then Nat.xor (v / 2) (0xE1 * 2 ^ 120) else v / 2))

/-- A string padded with zeros to whole blocks, as blocks. -/
def blocks (l : List Nat) : List (List Nat) :=
  let n := (l.length + 15) / 16
  chunks 16 n (l ++ List.replicate (16 * n - l.length) 0)

/-- GHASH of additional data and ciphertext under the hash key. -/
def ghash (h : Nat) (aad ct : List Nat) : Nat :=
  (blocks aad ++ blocks ct ++ [bytesBE 8 (8 * aad.length) ++ bytesBE 8 (8 * ct.length)]).foldl
    (fun y b => ghashMul 128 (Nat.xor y (natBE b)) h) 0

/-- The key stream of n bytes from counter 2 on. -/
def stream (ks : List (List Nat)) (iv : List Nat) (n : Nat) : List Nat :=
  (List.range ((n + 15) / 16)).flatMap fun i => encrypt ks (iv ++ bytesBE 4 (2 + i))

/-- Ciphertext, or plaintext of a ciphertext. -/
def ctr (ks : List (List Nat)) (iv data : List Nat) : List Nat := xorBytes data (stream ks iv data.length)

/-- The tag of a ciphertext. -/
def tagOf (ks : List (List Nat)) (iv aad ct : List Nat) : List Nat :=
  xorBytes (bytesBE 16 (ghash (natBE (encrypt ks (List.replicate 16 0))) aad ct)) (encrypt ks (iv ++ bytesBE 4 1))

end Sys2Proof.Machine.Aes

namespace Sys2Proof.Machine

def toNats (bs : List Byte) : List Nat := bs.map BitVec.toNat
def ofNats (ns : List Nat) : List Byte := ns.map (BitVec.ofNat 8)

/-- Seals one record (R99): ciphertext and tag. -/
def gcmSeal (key : BitVec 256) (iv : BitVec 96) (aad data : List Byte) : List Byte × List Byte :=
  let ks := Aes.roundKeys (Aes.bytesBE 32 key.toNat)
  let n := Aes.bytesBE 12 iv.toNat
  let ct := Aes.ctr ks n (toNats data)
  (ofNats ct, ofNats (Aes.tagOf ks n (toNats aad) ct))

/-- Opens one record: its plaintext, or none when the tag fails. -/
def gcmOpen (key : BitVec 256) (iv : BitVec 96) (aad data tag : List Byte) : Option (List Byte) :=
  let ks := Aes.roundKeys (Aes.bytesBE 32 key.toNat)
  let n := Aes.bytesBE 12 iv.toNat
  if Aes.tagOf ks n (toNats aad) (toNats data) = toNats tag then some (ofNats (Aes.ctr ks n (toNats data))) else none

end Sys2Proof.Machine
end

