-- ==== Sys2Proof/Machine/Transfers.lean ====
section
/-! DEFINITION. Grant-scheduled transfers at work (R122 to R142): tokens, chunks, expiry, orphans and cancellation; the copy engine's
reads and writes, secure copies (R97 to R101), stopped copies (R154, R425); GPRI, GQRY and GCAN. -/

namespace Sys2Proof.Machine

/-! ## Issuing tokens (R127, R128) -/

/-- Whether the tokens of a request expire (R122): those of messages, and of copies from another device. -/
def State.expires (s : State) (cl : Nat) (r : GReq) : Bool :=
  match r.src with
  | .msg _ => true
  | .copy k => (Tab.get? k (s.cluster cl).copies).any s.copyFar

/-- Cycles from a token's issue to its receipt. -/
def State.tokenTrip (_s : State) (r : GReq) : Nat := match r.src with | .msg _ => tripCycles | .copy _ => 20

/-- Grants the next unit when the cap allows it; the chosen request keeps its turn while it does not. The orphan timeout counts from the
last accepted chunk, or from the first token after a time without any (R134; log entry 70). -/
def State.grantOnce (s : State) (cl : Nat) : State :=
  if s.frozen cl then s
  else
    match s.grantBest cl with
    | none => s
    | some (k, r) =>
      match missingUnit r with
      | none => s
      | some u =>
        let c := s.cluster cl
        let b := unitBytes r u
        if 262144 < c.out + b then s.setCluster cl { c with turn := some k }
        else
          let t : Token := { serial := c.serial, unit := u, bytes := b, issued := s.timebase, texp := s.texp cl }
          let fresh := r.toks = [] ∧ (u ∉ r.granted ∨ r.lastAcc < r.arrival)
          let last := if fresh then s.timebase else r.lastAcc
          let s := s.setCluster cl { c with
            out := c.out + b
            serial := c.serial + 1
            turn := none
            greqs := Tab.put k { r with toks := r.toks ++ [t], granted := insertNat u r.granted, lastAcc := last } c.greqs }
          let s := match r.src with | .msg id => s.modMsg id fun m => { m with dropped := m.dropped.erase t.serial } | .copy _ => s
          let s := s.sched (s.tokenTrip r) (.tokenReceipt cl k u t.serial)
          let s := if s.expires cl r then s.schedNs (t.issued + t.texp) (.tokenExpiry cl k t.serial) else s
          let s := match r.src with
            | .msg _ => if s.queue.any fun q => q.2 = Instr.orphanTimeout cl k then s else s.schedNs (last + r.orph) (.orphanTimeout cl k)
            | .copy _ => s
          s.kickGrant cl

def execGrantNext (cl : Nat) (s : State) : Host.Outcome State Fault Refusal := .next (s.grantOnce cl)

/-! ## The sender answers (R129, R463) -/

/-- Whether an earlier token of the same request still waits for its answer. -/
def State.earlierToken (s : State) (cl k : Nat) (serial : BitVec 16) : Bool :=
  s.queue.any fun e => match e.2 with
    | .tokenReceipt c j _ t => c = cl && j = k && t ≠ serial && (serial - t).toNat < 32768
    | _ => false

/-- Bytes of a unit as an offset in the transfer and a length. -/
def unitSpan (r : GReq) (u : Nat) : Nat × Nat :=
  (if u = 0 then min r.pfx 4096 else 4096 * u, unitBytes r u)

/-- Lines of a scratchpad range with their poison, or none while one of them is not full. -/
def State.readUnit (s : State) (cl off len : Nat) : Option (List (Line × Bool)) × State :=
  let ls := linesOf (sramLoc cl off) len
  let s := ls.foldl (fun s l => match s.windowAt cl (l - sramLoc cl 0) with | some (k, _) => s.startFill cl k | none => s) s
  if ls.any fun l => (s.windowAt cl (l - sramLoc cl 0)).isSome && !s.isFull cl ((l - sramLoc cl 0) / 64) then (none, s)
  else
    let s := ls.foldl (fun s l => (s.touchHome l).2) s
    (some (ls.map fun l => (s.lineData l, s.isPoison l)), s)

/-- The bytes of a message that a token grants, as lines with their poison: none while its source is frozen, away with its team, or
not full yet (R463). -/
def State.msgLines (s : State) (m : Msg) (off len : Nat) : Option (List (Line × Bool)) × State :=
  match m.sender with
  | none => (some (asLines (len / 64 + 1) ((m.bytes.drop off).take len)
      (m.bad.filterMap fun i => if off / 64 ≤ i then some (i - off / 64) else none) 0), s)
  | some p =>
    if s.frozen m.srcCl || (s.team? (p / 256)).any fun t => t.luggage.isSome then (none, s)
    else s.readUnit m.srcCl (m.srcOff + off) len

/-- The sender of a message receives a token: it pushes the granted bytes (R129). A sender on another device is sent the token as a
Marrun packet (R122). -/
def State.answerMsg (s : State) (cl k u : Nat) (serial : BitVec 16) (r : GReq) (m : Msg) : State :=
  let again := s.sched 16 (.tokenReceipt cl k u serial)
  let (off, len) := unitSpan r u
  match m.origin with
  | some (dev, tag) => s.sendBody (s.clusterSite cl) dev false (.token tag cl k u serial off len) []
  | none =>
    -- a killed sender answers no token (R134, R358)
    if m.dropped.contains serial || (m.ended && m.sender.isSome) then s
    else if s.earlierToken cl k serial then again
    else match s.msgLines m off len with
      | (none, s) => s.sched 16 (.tokenReceipt cl k u serial)
      | (some ls, s) => s.sched tripCycles (.chunkArrival cl k u serial ls)

/-- A token of another device's scheduler is answered by its message's sender here, or dropped with its message. -/
def State.answerFar (s : State) (n : Nat) (serial : BitVec 16) : State :=
  let done : State → State := fun s => { s with farTokens := Tab.del n s.farTokens }
  match Tab.get? n s.farTokens with
  | none => s
  | some t =>
    match s.msg? t.msg with
    | none => done s
    | some m =>
      match s.msgLines m t.off t.len with
      | (none, s) => s.sched 16 (.tokenReceipt (2 ^ 32 + n) t.entry t.unit serial)
      | (some ls, s) =>
        (done s).sendBody (m.site.getD (s.linkSite t.dev)) t.dev true (.chunk t.cl t.entry t.unit t.serial) (ls.map fun l => madeLine l.1 l.2)

/-! ## The copy engine reads and writes (R151 to R157) -/

/-- The fault a line of a copy meets, source before destination. -/
def State.lineFault (s : State) (cl : Nat) (c : Copy) (i : Nat) : Option (Nat × Nat × Word) × State :=
  match s.copySrcAt cl c i with
  | (.error (x, k), s) => (some (x, k, c.srcAt i), s)
  | (.ok src, s) =>
    let lost : Nat → Word → State → Option (Option (Nat × Nat × Word) × State) := fun loc a s =>
      (if isDev loc then s.unreachable cl loc else none).map fun site =>
        let (k, s) := s.freeNat
        (some (8, k % 256, a), s.machineCheck 4 0 site loc)
    match (match src with | .dev loc => lost loc (c.srcAt i) s | _ => none) with
    | some r => r
    | none =>
      match s.copyDst cl c i with
      | (.error (x, k), s) => (some (x, k, c.dstAt i), s)
      | (.ok dst, s) => (dst.bind fun loc => lost loc (c.dstAt i) s).getD (none, s)

/-- The first fault among lines, in order, that are not yet written. -/
def State.firstFault (cl : Nat) (c : Copy) : List Nat → State → Option (Nat × Nat × Nat × Word) × State
  | [], s => (none, s)
  | i :: is, s =>
    if c.written.contains i then State.firstFault cl c is s
    else match s.lineFault cl c i with
      | (some (x, k, a), s) => (some (i, x, k, a), s)
      | (none, s) => State.firstFault cl c is s

/-- Lines of unit u of the transfer a copy is in. -/
def Copy.unitLines (c : Copy) (u : Nat) : List Nat :=
  let first := transferLines * c.transfer + 64 * u
  (List.range (min 64 (c.lines - first))).map fun j => first + j

/-- What reading lines of a copy finds: each line's contents or its address outside the device; none when some come later. -/
def State.copyRead (cl : Nat) (c : Copy) : List Nat → State → Option (List ((Line × Bool) ⊕ Word)) × State
  | [], s => (some [], s)
  | i :: is, s =>
    match s.copySrc cl c i with
    | (.notYet, s) | (.fault _ _, s) => (none, s)
    | (.outside a, s) =>
      match State.copyRead cl c is s with
      | (some ls, s) => (some (.inr a :: ls), s)
      | r => r
    | (.data l b, s) =>
      match State.copyRead cl c is s with
      | (some ls, s) => (some (.inl (l, b) :: ls), s)
      | r => r

/-- The lines a reading found here, and the addresses of the others. -/
def readHere (ls : List ((Line × Bool) ⊕ Word)) : List (Line × Bool) := ls.filterMap fun x => match x with | .inl l => some l | .inr _ => none
def readThere (ls : List ((Line × Bool) ⊕ Word)) : List Word := ls.filterMap fun x => match x with | .inl _ => none | .inr a => some a

/-- The lines of a reading in order, those from outside as they came. -/
def fillIn : List ((Line × Bool) ⊕ Word) → List (Line × Bool) → List (Line × Bool)
  | [], _ => []
  | .inl l :: xs, ys => l :: fillIn xs ys
  | .inr _ :: _, [] => []
  | .inr _ :: xs, y :: ys => y :: fillIn xs ys

/-- A line of a copy is noted written. -/
def State.markWritten (s : State) (cl place i : Nat) : State :=
  s.modCluster cl fun d => { d with copies := Tab.modify place (fun (c : Copy) => { c with written := insertNat i c.written }) d.copies }

/-- Writes lines of a copy that are not yet written. -/
def State.copyLines (cl place : Nat) (c : Copy) : List (Nat × Line × Bool) → State → State
  | [], s => s
  | (i, l, b) :: rest, s =>
    if c.written.contains i then State.copyLines cl place c rest s
    else State.copyLines cl place c rest ((s.copyWrite cl c i l b).markWritten cl place i)

/-- The latency record of a copy's reads in device memory (R64); through this device's own export window SRC is 2. -/
def State.copyPlat (s : State) (cl : Nat) (c : Copy) (i : Nat) : State :=
  match s.copySrcAt cl c i with
  | (.ok (.dev loc), s) =>
    let src := s.clusterSite cl
    let dst := memSite (dieOf loc)
    let hit := (s.memDie (dieOf loc)).msc.contains (lineOf loc)
    let (p, s) := s.homePlat src (dieOf loc) ((s.routeHops src dst).getD 0) ((s.routeHops dst src).getD 0) hit
    if (s.proc? c.pid).isSome then s.setPlat c.pid (if spaceOf (c.srcAt i) = 1 then { p with src := 2 } else p) else s
  | (_, s) => s

/-- A record's tag (R99): its address. -/
def Secure.tagAt (x : Secure) (i : Nat) : Word := x.tags + BitVec.ofNat 64 (16 * i)

/-- Number of the record that unit u of the transfer a copy is in holds. -/
def Copy.record (c : Copy) (u : Nat) : Nat := 256 * c.transfer + u

/-- The lines of a unit that a read brings: those below line `stop` that are still to be written (R154, R156). A secure copy works on
whole records (R100). -/
def Copy.todo (c : Copy) (u stop : Nat) : List Nat :=
  (c.unitLines u).filter fun i => i < stop && (c.secure.isSome || !c.written.contains i)

/-- The engine reads lines for a token: those here make a chunk, and those outside the device are asked for by address, with the tag
of a record to decrypt (R100). -/
def State.fetchUnit (s : State) (cl k u : Nat) (serial : BitVec 16) (c : Copy) (todo : List Nat) : State :=
  match State.copyRead cl c todo s with
  | (none, s) => s.sched 16 (.tokenReceipt cl k u serial)
  | (some ls, s) =>
    let tag := match c.secure with
      | some x => if x.encrypt then [] else let a := x.tagAt (c.record u); [a - BitVec.ofNat 64 (a.toNat % 64)]
      | none => []
    let there := readThere ls
    if there = [] && tag = [] then (s.copyPlat cl c (todo.headD 0)).sched (homeCycles 0) (.chunkArrival cl k u serial (readHere ls))
    else s.emitAt (s.clusterSite cl) (.fetch c.pid (copyId cl k serial) (runsOf there ++ runsOf tag))

/-- The first line of a copy's transfer up to the end of a unit that meets a fault. -/
def State.faultUpTo (s : State) (cl : Nat) (c : Copy) (u : Nat) : Option (Nat × Nat × Nat × Word) × State :=
  let mine := c.unitLines u
  State.firstFault cl c ((List.range (mine.headD 0 + mine.length)).drop c.first) s

/-- Every unit below one is received. -/
def GReq.lower (r : GReq) (u : Nat) : Bool := (neededUnits r).all fun v => u ≤ v || r.rcv.contains v

/-- The engine reads a granted unit of a copy (R154): translations are met in order, nothing at or beyond a fault is read, and what
lies below it is written before the copy stops. A record that a fault cuts is not read, since its tag covers all of it (log
entry 71). -/
def State.answerCopy (s : State) (cl k u : Nat) (serial : BitVec 16) (place : Nat) (r : GReq) : State :=
  match Tab.get? place (s.cluster cl).copies with
  | none => s
  | some c =>
    if s.frozen cl then s.sched 16 (.tokenReceipt cl k u serial)
    else
      match s.faultUpTo cl c u with
      | (some (i, x, kd, a), s) =>
        let todo := c.todo u i
        if i < (c.unitLines u).headD 0 ∨ !r.lower u then s.sched 16 (.tokenReceipt cl k u serial)
        else if todo = [] ∨ c.secure.isSome then s.stopCopy cl place c i x kd a
        else s.fetchUnit cl k u serial c todo
      | (none, s) => s.fetchUnit cl k u serial c (c.todo u c.lines)

def execTokenReceipt (cl entry unit : Nat) (serial : BitVec 16) (s : State) : Host.Outcome State Fault Refusal :=
  if 2 ^ 32 ≤ cl then .next (s.answerFar (cl - 2 ^ 32) serial)
  else match Tab.get? entry (s.cluster cl).greqs with
  | none => .next s
  | some r =>
    match r.src with
    | .copy place => .next (s.answerCopy cl entry unit serial place r)
    | .msg id =>
      match s.msg? id with
      | some m => .next (s.answerMsg cl entry unit serial r m)
      | none => .next s

/-! ## Secure copies (R97 to R101) -/

/-- Parameters of record i (R99): key, IV and additional data. -/
def State.recordParams (s : State) (c : Copy) (x : Secure) (i n : Nat) : BitVec 256 × BitVec 96 × List Byte :=
  let key := Tab.getD x.kslot s.mgmt.keys (0, 0)
  let va := bits (if x.encrypt then c.srcAt (64 * i) else c.dstAt (64 * i)) 56 0
  (key.1, key.2 ++ (x.ivbase + BitVec.ofNat 64 i : Word), bytesLE 8 va ++ bytesLE 8 n)

/-- Bytes as a record's lines, with the lines that are poisoned. -/
def recordLines (n : Nat) (bs : List Byte) (bad : List Nat) : List (Line × Bool) := asLines n ((bs ++ List.replicate (64 * n) 0).take (64 * n)) bad 0

/-- What a record of n lines becomes on its way, with the tag that goes with it: none when the tag it came with, in a line of its own,
fails. A poisoned line is copied poisoned (R151). -/
def State.passRecord (s : State) (c : Copy) (x : Secure) (u : Nat) (ls : List (Line × Bool)) (n : Nat) :
    Option (List (Line × Bool) × List Byte) :=
  let i := c.record u
  let (key, iv, aad) := s.recordParams c x i (64 * n)
  let data := lineList (ls.take n)
  let bad := badOf (ls.take n)
  if x.encrypt then
    let r := gcmSeal key iv aad data
    some (recordLines n r.1 bad, r.2)
  else
    let tag := (lineList (ls.drop n)).drop ((x.tagAt i).toNat % 64) |>.take 16
    (gcmOpen key iv aad data tag).map fun bs => (recordLines n bs bad, [])

/-- Zeroes and poisons the protected lines an aborted secure copy has written, wherever they are cached (R101). -/
def State.scrubCopy (s : State) (cl : Nat) (c : Copy) : State :=
  if c.secure.any fun x => x.encrypt then s
  else c.written.foldl (fun s i =>
    match s.copyDst cl c i with
    | (.ok (some loc), s) =>
      if isDev loc then
        let s := (Tab.keys s.clusters).foldl (fun s k => s.modCluster k fun d => { d with cache := Tab.del loc d.cache }.dropData none loc) s
        s.homeWrite loc 0 fullMask true
      else s
    | (_, s) => s) s

/-- An aborted secure copy ends (R101). -/
def State.endAborted (s : State) (cl place : Nat) : State :=
  match Tab.get? place (s.cluster cl).copies with
  | some c => (s.scrubCopy cl c).endCopy cl place .abortSec
  | none => s

/-- A secure copy is aborted: it finishes the record of its oldest token, gets no other, and ends. -/
def State.abortCopy (s : State) (cl place : Nat) (c : Copy) : State :=
  match s.copyReq? cl place, c.secure with
  | some (k, r), some x =>
    match r.toks with
    | [] => s.endAborted cl place
    | t :: ts =>
      s.modCluster cl fun d => { d with
        out := d.out - (ts.map fun t => t.bytes).sum
        greqs := Tab.put k { r with matched := false, toks := [t] } d.greqs
        copies := Tab.put place { c with secure := some { x with ending := true } } d.copies }
  | _, _ => s.endAborted cl place

/-- Every secure copy in flight is aborted, those that a team carries with it too. -/
def State.abortSecure (s : State) : State :=
  let s := s.clusters.foldl (fun s e =>
    (e.2.copies.filter fun k => k.2.secure.isSome).foldl (fun s k => s.abortCopy e.1 k.1 k.2) s) s
  s.teams.foldl (fun s e =>
    match e.2.luggage with
    | none => s
    | some g =>
      let gone := g.copies.filter fun c => c.secure.isSome
      let s := gone.foldl (fun s c => s.scrubCopy e.2.cl c) s
      s.modTeam e.1 fun t => { t with luggage := some { g with
        copies := g.copies.filter fun c => c.secure.isNone
        ends := g.ends ++ gone.filterMap fun c => c.batch.map fun b => { pid := c.pid, batch := b, order := c.order, stat := .abortSec } } }) s

/-! ## Chunks arrive (R129 to R131) -/

/-- What follows when lines of a copy are written: it is done, or its next transfer is asked for. -/
def State.copyOn (s : State) (cl place : Nat) (c : Copy) : State :=
  match Tab.get? place (s.cluster cl).copies with
  | none => s
  | some c' =>
    if c'.secure.any fun x => x.ending then s.endAborted cl place
    else if firstUnwritten c'.written c'.lines = c'.lines then s.endCopy cl place .done
    else if c'.transfer ≠ c.transfer then
      (match s.copyReq? cl place with | some (k, _) => s.dropReq cl k | none => s).requestCopy cl place c'
    else s

/-- The copy at a place stops at a line, as it stands now. -/
def State.stopAt (s : State) (cl place i cls kind : Nat) (a : Word) : State :=
  match Tab.get? place (s.cluster cl).copies with
  | some c => if c.secure.any fun x => x.ending then s.endAborted cl place else s.stopCopy cl place c i cls kind a
  | none => s

/-- Lines of a copy that are to be written: what the chunk brings, in order, with those here that go between them. -/
def State.chunkLines (s : State) (cl : Nat) (c : Copy) (todo : List Nat) (ls : List (Line × Bool)) : List (Line × Bool) × State :=
  if ls.length = todo.length then (ls, s)
  else match State.copyRead cl c todo s with
    | (some xs, s) => (fillIn xs ls, s)
    | (none, s) => ([], s)

/-- A chunk of a copy: its lines are written, up to the first that meets a fault. While units below it are still to come a fault
does not stop the copy yet, and the unit is granted again (R154). -/
def State.copyChunk (s : State) (cl k place u : Nat) (ls : List (Line × Bool)) : State :=
  match Tab.get? place (s.cluster cl).copies with
  | none => s
  | some c =>
    let mine := c.unitLines u
    match c.secure with
    | some x =>
      let n := mine.length
      let (body, s) := s.chunkLines cl c mine (ls.take n)
      match s.passRecord c x u (if x.encrypt then body else body ++ ls.drop n) n with
      | none => if x.ending then s.endAborted cl place else s.endCopy cl place .auth
      | some (out, tag) =>
        match State.firstFault cl c mine s with
        | (some (i, y, kd, a), s) => s.stopAt cl place i y kd a
        | (none, s) =>
          let s := State.copyLines cl place c (mine.zip out) s
          let s := if tag = [] then s else s.sendStore cl none 2 0 (x.tagAt (c.record u)) tag
          s.copyOn cl place c
    | none =>
      match State.firstFault cl c mine s with
      | (some (i, x, kd, a), s) =>
        let todo := c.todo u i
        let (ls, s) := s.chunkLines cl c todo ls
        let s := State.copyLines cl place c (todo.zip ls) s
        match Tab.get? k (s.cluster cl).greqs with
        | some r => if r.lower u then s.stopAt cl place i x kd a else s.setReq cl k { r with rcv := r.rcv.erase u }
        | none => s
      | (none, s) =>
        let todo := c.todo u c.lines
        let (ls, s) := s.chunkLines cl c todo ls
        let s := State.copyLines cl place c (todo.zip ls) s
        -- a line that could not be read again leaves its unit missing
        let s := if ls.length = todo.length then s else s.modCluster cl fun d => { d with
          greqs := Tab.modify k (fun (r : GReq) => { r with rcv := r.rcv.erase u }) d.greqs }
        s.copyOn cl place c

/-- The request of a copy from another device arrives with its prefix (R122, R125): it takes an entry, or is refused and sent again. -/
def State.prefixIn (s : State) (cl place : Nat) (ls : List (Line × Bool)) : State :=
  match Tab.get? place (s.cluster cl).copies with
  | none => s
  | some c =>
    if c.stopped.isSome || (s.copyReq? cl place).isSome then s
    else match s.enterCopy cl place c with
      | (s, false) => s
      | (s, true) =>
        let todo := s.prefixLines c
        match State.firstFault cl c todo s with
        | (some (i, x, kd, a), s) =>
          (State.copyLines cl place c ((todo.zip ls).filter fun e => e.1 < i) s).stopAt cl place i x kd a
        | (none, s) => (State.copyLines cl place c (todo.zip ls) s).copyOn cl place c

/-- A reply to a copy's request outside the device is noted in PLAT; its latency is free beyond the cluster's part (log entry 9). -/
def State.outsidePlat (s : State) (pid id : Nat) : State :=
  if (Tab.get? (replyTag 0 pid id) s.routed).isNone || (s.proc? pid).isNone then s
  else
    let (k, s) := s.freeNat
    s.replyPlat 0 pid id { noPlat with lat := 20 + k }

/-- A chunk is accepted when its token is outstanding, and written; otherwise it is discarded and counted. -/
def State.chunkIn (s : State) (cl k u : Nat) (serial : BitVec 16) (ls : List (Line × Bool)) : State :=
  let discard := s.modCluster cl fun c => { c with gDisc := c.gDisc + 1 }
  let far := match Tab.get? k (s.cluster cl).greqs with | some r => (match r.src with | .copy _ => true | .msg _ => false) | none => false
  if s.frozen cl && (1024 ≤ k || far) then s.sched 16 (.chunkArrival cl k u serial ls)
  else if 1024 ≤ k then s.prefixIn cl (k - 1024) ls
  else match Tab.get? k (s.cluster cl).greqs with
  | none => discard
  | some r =>
    match r.toks.find? fun t => t.serial = serial && t.unit = u with
    | none => discard
    | some t =>
      let r' := { r with toks := r.toks.erase t, rcv := insertNat u r.rcv, lastAcc := s.timebase }
      let s := s.modCluster cl fun c => { c with out := c.out - t.bytes, greqs := Tab.put k r' c.greqs }
      match r.src with
      | .copy place =>
        let s := match Tab.get? place (s.cluster cl).copies with
          | some c => s.outsidePlat c.pid (copyId cl k serial)
          | none => s
        (s.copyChunk cl k place u ls).kickGrant cl
      | .msg _ =>
        let (off, len) := unitSpan r u
        let s := s.putBytes cl (r.dest - sramLoc cl 0 + off) (badOf ls) ((lineList ls ++ List.replicate len 0).take len)
        let s := s.kickGrant cl
        if r'.complete then
          let ep := r.ep
          let s := s.finishReq cl k
          match ep with | some e => s.settle cl e | none => s
        else s

def execChunkArrival (cl entry unit : Nat) (serial : BitVec 16) (lines : List (Line × Bool)) (s : State) :
    Host.Outcome State Fault Refusal :=
  .next ((s.twinPaired (4 * copyId cl entry serial)).chunkIn cl entry unit serial lines)

/-- A read of a copy outside the device ends with a fault at line `i` of what it asked for (R114, R154). The lines before it came. -/
def State.copyFault (s : State) (id cls kind : Nat) (ls : List (Line × Bool)) : State :=
  let cl := id / 2 ^ 32 % 2 ^ 16
  let k := id / 2 ^ 16 % 2 ^ 16
  let serial := BitVec.ofNat 16 id
  let s := s.twinPaired (4 * id)
  if 1024 ≤ k then
    match Tab.get? (k - 1024) (s.cluster cl).copies with
    | none => s
    | some c =>
      let todo := s.prefixLines c
      let s := State.copyLines cl (k - 1024) c (todo.zip ls) s
      let i := todo.getD ls.length c.first
      s.stopAt cl (k - 1024) i cls kind (c.srcAt i)
  else match Tab.get? k (s.cluster cl).greqs with
    | none => s
    | some r =>
      match r.src, r.toks.find? fun t => t.serial = serial with
      | .copy place, some t =>
        match Tab.get? place (s.cluster cl).copies with
        | none => s
        | some c =>
          let todo := c.todo t.unit c.lines
          let s := if c.secure.isSome then s else State.copyLines cl place c (todo.zip ls) s
          let i := todo.getD ls.length (todo.headD 0)
          s.stopAt cl place i cls kind (c.srcAt i)
      | _, _ => s

/-- The answer to a request of a process comes in: it is kept, and the process goes on (R64, R114). An answer to a request that was
abandoned is dropped. -/
def execLoadReply (pid : Pid) (id : Nat) (r : Reply) (plat : PlatInfo) (s : State) : Host.Outcome State Fault Refusal :=
  if 2 ^ 48 ≤ id then
    .next (match r with | .fault c k _ => (s.unrouted 0 pid id).copyFault id c k [] | .value _ => s)
  else
  let s := (s.twinPaired (4 * id)).prefArrive id r
  match s.proc? pid with
  | none => .next (s.relay pid id r)
  | some pr =>
    match pr.op with
    | none => .next s
    | some o =>
      if o.id ≠ id ∨ o.res ≠ .waiting then .next s
      else .next (((s.setProc pid { pr with op := some { o with res := replyRes r } }).replyPlat 0 pid id plat).wake pid)

/-! ## Expiry, orphans, cancellation (R130, R133 to R135) -/

/-- A saturating count. -/
def satCount (n w : Nat) : Nat := min (n + 1) (2 ^ w - 1)

/-- A token expires; during a halt nothing does. -/
def execTokenExpiry (cl entry : Nat) (serial : BitVec 16) (s : State) : Host.Outcome State Fault Refusal :=
  match Tab.get? entry (s.cluster cl).greqs with
  | none => .next s
  | some r =>
    match r.toks.find? fun t => t.serial = serial with
    | none => .next s
    | some t =>
      if s.frozen cl ∨ !s.expires cl r then .next s
      else if s.timebase < t.issued + t.texp then .next (s.schedNs (t.issued + t.texp) (.tokenExpiry cl entry serial))
      else .next ((s.modCluster cl fun c => { c with
        out := c.out - t.bytes, gExp := satCount c.gExp 16
        greqs := Tab.put entry { r with toks := r.toks.erase t } c.greqs }).kickGrant cl)

/-- The receiving side of a matched transfer ends with a status: the process, or the buffer slot kept for it. -/
def State.endReceiver (s : State) (cl : Nat) (r : GReq) (n : Nat) : State :=
  match r.rcvr, r.ep with
  | some p, _ => s.endOp p (.status n) 0
  | none, some e =>
    if r.matched then
      (s.modEndp cl e fun ep =>
        match (List.range ep.slots.length).find? fun i => sramLoc cl (s.slotOff ep i) = r.dest with
        | some i => trimSlots (setSlot ep i .gone)
        | none => ep).settle cl e
    else s
  | none, none => s

/-- An orphan is reclaimed (R134). -/
def State.reclaim (s : State) (cl k : Nat) : State :=
  match Tab.get? k (s.cluster cl).greqs with
  | none => s
  | some r =>
    let s := (s.dropReq cl k).modCluster cl fun c => { c with gOrph := satCount c.gOrph 8 }
    let s := s.endReceiver cl r 3
    match r.src with | .msg id => s.sendDone id (.status 1) 0 | .copy _ => s

def execOrphanTimeout (cl entry : Nat) (s : State) : Host.Outcome State Fault Refusal :=
  match Tab.get? entry (s.cluster cl).greqs with
  | none => .next s
  | some r =>
    match r.src with
    | .copy _ => .next s
    | .msg _ =>
      if s.frozen cl ∨ r.toks = [] then .next s
      else if s.timebase < r.lastAcc + r.orph then .next (s.schedNs (r.lastAcc + r.orph) (.orphanTimeout cl entry))
      else .next (s.reclaim cl entry)

/-- A request is cancelled (R135). -/
def State.cancelReq (s : State) (cl k : Nat) : State :=
  match Tab.get? k (s.cluster cl).greqs with
  | none => s
  | some r =>
    match r.src with
    | .copy place => s.endCopy cl place .cancel
    | .msg id => ((s.dropReq cl k).endReceiver cl r 2).sendDone id (.status 2) 0

/-- Cancels every request addressed to an endpoint. -/
def State.cancelEnd (s : State) (cl e : Nat) : State :=
  ((s.cluster cl).greqs.filter fun q => q.2.ep = some e).foldl (fun s q => s.cancelReq cl q.1) s

/-- A message's sender was killed (R134, R358): an unmatched message is withdrawn, a matched request is an orphan, and one that a
reservation keeps goes to its receiver. -/
def State.senderDied (s : State) (id : Nat) : State :=
  match s.withdrawMsg id with
  | some s => s
  | none =>
    match s.msg? id with
    | none => s
    | some m =>
      let s := s.modMsg id fun m => { m with ended := true }
      match m.place.bind fun q => (Tab.get? q.2 (s.cluster q.1).greqs).map fun r => (q.1, q.2, r) with
      | some (cl, k, r) => if r.matched then s.reclaim cl k else s
      | none => { s with msgs := Tab.del id s.msgs }

/-- Cancels every batch copy of a process (R152). -/
def State.cancelCopies (s : State) (cl : Nat) (p : Pid) : State :=
  ((s.cluster cl).copies.filter fun q => q.2.pid = p && q.2.batch.isSome).foldl (fun s q => s.endCopy cl q.1 .cancel) s

/-- A sender drops revoked tokens (R136). -/
def State.dropTokens (s : State) (msg : Nat) (serials : List (BitVec 16)) : State :=
  { s.modMsg msg fun m => { m with dropped := m.dropped ++ serials } with
    farTokens := s.farTokens.filter fun (t : Nat × FarToken) => !(t.2.msg = msg && serials.contains t.2.serial) }

def execRevokedSerialsReceipt (msg : Nat) (serials : List (BitVec 16)) (s : State) : Host.Outcome State Fault Refusal :=
  .next (s.dropTokens msg serials)

/-- GRCTL.CLR clears the counters of R141. -/
def State.clearGrants (s : State) (cl : Nat) : State :=
  s.modCluster cl fun c => { c with gExp := 0, gDisc := 0, gOrph := 0, gBusy := 0 }

def execGrctlClear (cl : Nat) (s : State) : Host.Outcome State Fault Refusal := .next (s.clearGrants cl)

/-! ## Stopped copies and their ends (R154, R425) -/

/-- Service firmware resumes a stopped copy at F. -/
def State.resumeCopy (s : State) (cl team place : Nat) : State :=
  match Tab.get? place (s.cluster cl).copies with
  | none => s
  | some c =>
    if c.team ≠ team ∨ c.stopped.isNone then s
    else
      let c := { c with stopped := none }
      let s := s.modCluster cl fun d => { d with
        copies := Tab.put place c d.copies
        windows := match c.win with | some k => Tab.modify k (fun (w : Window) => { w with fst := .ok }) d.windows | none => d.windows }
      s.requestCopy cl place c

/-- Service firmware ends a stopped copy FAILED; a failed fill wakes what waits on its window (R147). -/
def State.failCopy (s : State) (cl team place : Nat) : State :=
  match Tab.get? place (s.cluster cl).copies with
  | none => s
  | some c =>
    if c.team ≠ team ∨ c.stopped.isNone then s
    else
      let s := s.modCluster cl fun d => { d with
        windows := match c.win with
          | some k => Tab.modify k (fun (w : Window) => { w with fst := .failed }) d.windows
          | none => d.windows }
      (s.endCopy cl place .failed).wakeKinds cl [.window]

def execCpyctlResume (cl team place : Nat) (s : State) : Host.Outcome State Fault Refusal := .next (s.resumeCopy cl team place)
def execCpyctlEndFailed (cl team place : Nat) (s : State) : Host.Outcome State Fault Refusal := .next (s.failCopy cl team place)

/-- A whole line arrives from an engine (R148). -/
def execEngineLineWrite (cl off : Nat) (data : Line) (poison : Bool) (s : State) : Host.Outcome State Fault Refusal :=
  if off % 64 = 0 ∧ off < 0x02000000 then .next (s.engineWrite cl off data poison) else .next s

/-! ## GPRI, GQRY, GCAN (R139 to R142) -/

/-- The endpoint-table entry of a handle that qualifies (R139). -/
def State.qualifies (s : State) (p : Pid) (pr : Proc) (h0 : Word) : Option Nat :=
  match s.unrelative pr h0 with
  | .error _ => none
  | .ok h =>
    if hDev h ≠ s.dev then none
    else if hKind h = 0 then
      match s.lookup (hIdx h) with
      | some (.ep cl e) => if cl = pr.cl && (s.endp? cl e).any (fun n => n.team = pr.team) then some e else none
      | _ => none
    else if hKind h = 2 ∧ hIdx h = p then
      match s.lookup (replyKey p) with
      | some (.ep cl e) => if cl = pr.cl then some e else none
      | _ => none
    else none

def execGpri (m : Mods) (d rs : SReg) (s : State) : Host.Outcome State Fault Refusal :=
  runExec m (lenOf m true false) true s fun p pr => do
    let s ← get
    let c := pr.ctx.rs rs
    guardTrap (bits c 63 2 ≠ 0) { cls := 22 }
    match s.qualifies p pr (pr.ctx.rs d) with
    | none => raiseTrap { cls := 22 }
    | some e =>
      let g := BitVec.ofNat 2 c.toNat
      let reply := (s.endp? pr.cl e).any fun n => n.reply
      let s := s.modEndp pr.cl e fun n => { n with gcls := g }
      let mine : GReq → Bool := fun r => r.ep = some e || (reply && (match r.src with
        | .copy k => (Tab.get? k (s.cluster pr.cl).copies).any fun c => c.pid = p
        | .msg _ => false))
      set ((s.modCluster pr.cl fun c => { c with
        greqs := c.greqs.map fun q => (q.1, if mine q.2 then { q.2 with cls := g } else q.2) }).kickGrant pr.cl)
      pure {}

/-- The counters word of R141. -/
def grantWord (c : Cluster) : Word :=
  field (min c.gExp 65535) 48 ||| field (min c.gDisc 65535) 32 ||| field (min c.gOrph 255) 24 ||| field (min c.gBusy 255) 16 |||
    field (c.out / 64) 0

/-- An endpoint's word of R141. -/
def State.endWord (s : State) (cl e : Nat) : Word :=
  let g := match s.endp? cl e with | some n => n.gcls.toNat | none => 0
  let l := (s.cluster cl).greqs.filter fun q => q.2.ep = some e
  let ntok := (l.map fun q => q.2.toks.length).sum
  let age := match l with
    | [] => 0
    | q :: qs => s.timebase - qs.foldl (fun a x => min a x.2.arrival) q.2.arrival
  field g 62 ||| field (min l.length 255) 40 ||| field (min ntok 255) 32 ||| field (sat32 age) 0

def execGqry (m : Mods) (d rs : SReg) (s : State) : Host.Outcome State Fault Refusal :=
  runExec m (lenOf m true false) true s fun p pr => do
    let s ← get
    let h := pr.ctx.rs rs
    let v := if h = 0 then grantWord (s.cluster pr.cl)
      else match s.qualifies p pr h with
        | some e => s.endWord pr.cl e
        | none => BitVec.allOnes 64
    setS p d v
    pure {}

def execGcan (m : Mods) (d : SReg) (s : State) : Host.Outcome State Fault Refusal :=
  runExec m (lenOf m true false) true s fun p pr => do
    let s ← get
    match s.qualifies p pr (pr.ctx.rs d) with
    | none => raiseTrap { cls := 22 }
    | some e =>
      let reply := (s.endp? pr.cl e).any fun n => n.reply
      let s := (s.cancelEnd pr.cl e)
      set ((if reply then s.cancelCopies pr.cl p else s).settle pr.cl e)
      pure {}

end Sys2Proof.Machine
end

