-- ==== Sys2Proof/Machine/Windows.lean ====
section
/-! DEFINITION. Windows and copies: the instructions of page 4 (R158 to R168). -/

namespace Sys2Proof.Machine

/-! ## Windows (R159 to R163) -/

/-- A window number from a register. -/
def winNum (x : Word) : Exec Nat := do
  guardTrap (bits x 63 8 ≠ 0) (trapWindow 1)
  pure (bits x 7 0)

/-- Whether a descriptor breaks the limits of R144. -/
def badWindow (ws : List Word) : Bool :=
  let w := fun i => ws.getD i 0
  bits (w 0) 63 25 ≠ 0 || bits (w 0) 5 0 ≠ 0 || (w 1).toNat % 64 ≠ 0 || bits (w 2) 63 48 ≠ 0 ||
    !(64 ≤ bits (w 2) 47 16 && bits (w 2) 47 16 ≤ 0x100000 && bits (w 2) 47 16 % 64 = 0) || bits (w 2) 15 0 = 0 ||
    (w 3).toNat % 64 ≠ 0 || bits (w 4) 63 6 ≠ 0 || 14 ≤ bits (w 4) 3 0 ||
    (bit (w 4) 4 && (w 1 ≠ 0 || w 3 ≠ 0 || bit (w 4) 5)) || w 5 ≠ 0 || w 6 ≠ 0 || w 7 ≠ 0

/-- The entry a descriptor gives. -/
def windowOf (ws : List Word) (team num : Nat) (owner : Pid) : Window :=
  let w := fun i => ws.getD i 0
  let rowb := bits (w 2) 47 16
  let rows := bits (w 2) 15 0
  { team := team, num := num, base := bits (w 0) 24 6 * 64, src := w 1, rowb := rowb, rows := rows, stride := w 3
    fill := bit (w 4) 5, nosrc := bit (w 4) 4, fmt := BitVec.ofNat 4 (bits (w 4) 3 0)
    st := if bit (w 4) 4 || bit (w 4) 5 then .filling else .absent
    ovr := false, fst := .ok, pend := rows * rowb, owner := owner, want := bit (w 4) 5 }

/-- Whether two ranges of bytes meet. -/
def meet (a n b m : Nat) : Bool := a < b + m && b < a + n

/-- Whether some row of a scratchpad source meets the window's own range. -/
def selfOverlap (w : Window) : Bool :=
  !w.nosrc && spaceOf w.src = 3 && (List.range w.rows).any fun i =>
    meet (bits (w.src + BitVec.ofNat 64 i * w.stride) 31 0) w.rowb w.base w.bytes

/-- What R159 finds wrong with binding a window on a cluster: a WINDOW kind, or 0. -/
def State.windowBad (s : State) (cl : Nat) (w : Window) : Nat :=
  if (s.windowNum cl w.team w.num).isSome then 2
  else if (Tab.freeKey (s.cluster cl).windows 0 256).isNone then 3
  else if (s.cluster cl).windows.any (fun e => meet (s.spmOf e.2.team + e.2.base) e.2.bytes (s.spmOf w.team + w.base) w.bytes) ||
    selfOverlap w then 4
  else if s.spmBytes w.team < w.base + w.bytes then 5
  else 0

/-- Binds a window (R145, R160): the full bits of its range are cleared, and a wanted fill starts. -/
def State.bindWindow (s : State) (cl : Nat) (w : Window) : State :=
  match Tab.freeKey (s.cluster cl).windows 0 256 with
  | none => s
  | some k =>
    let lo := (s.spmOf w.team + w.base) / 64
    let s := s.modCluster cl fun c => { c with
      windows := Tab.put k w c.windows
      full := c.full.filter fun l => !(lo ≤ l && l < lo + w.bytes / 64) }
    if w.want then s.offerPlace cl else s

/-- An address that an engine command names has its zero fields zero (R44). -/
def guardForm (a : Word) (write : Bool) : Exec Unit := guardTrap (badForm a) (trapXlate xForm a write)

/-- An address that an engine command names is within reach of a part without optical links (R3). -/
def guardOptics (a : Word) : Exec Unit := fun s => guardTrap (spaceOf a = 1 && s.noOptics (bits a 61 51)) { cls := 2 } s

def execWset (m : Mods) (d rs : SReg) (s : State) : Host.Outcome State Fault Refusal :=
  runExec m (lenOf m true false) true s fun p pr => do
    let n ← winNum (pr.ctx.rs d)
    let sa := pr.ctx.rs rs
    guardTrap (!aligned sa.toNat 64) (trapWindow 1)
    let ws ← loadBlock p sa
    guardTrap (badWindow ws) (trapWindow 1)
    let s ← get
    let w := windowOf ws pr.team n p
    let k := s.windowBad pr.cl w
    guardTrap (k ≠ 0) (trapWindow k)
    if !w.nosrc then do
      guardForm w.src false
      guardOptics w.src
    set (s.bindWindow pr.cl w)
    pure {}

/-- Marks a process that waits in WWAIT on a window number. -/
def wwaitKey (n : Nat) : Nat := 2 ^ 71 + n

/-- Frees a window (R150): its fill stops, and what waits on its lines goes on; a WWAIT on it ends UNBOUND. -/
def State.freeWindow (s : State) (cl k : Nat) : State :=
  match Tab.get? k (s.cluster cl).windows with
  | none => s
  | some w =>
    let s := s.modCluster cl fun c => { c with windows := Tab.del k c.windows }
    let s := ((s.cluster cl).copies.filter fun e => e.2.win = some k).foldl (fun s e => s.endCopy cl e.1 .cancel) s
    let told : Proc → Proc := fun pr =>
      if pr.cl = cl && pr.team = w.team && pr.op.any (fun o => o.key = wwaitKey w.num) then
        { pr with op := pr.op.map fun o => { o with res := .trap 13 7 0 } }
      else pr
    ({ s with procs := s.procs.map fun (e : Nat × Proc) => (e.1, told e.2) } : State).wakeKinds cl [.window]

def execWclr (m : Mods) (d : SReg) (s : State) : Host.Outcome State Fault Refusal :=
  runExec m (lenOf m true false) true s fun _ pr => do
    let n ← winNum (pr.ctx.rs d)
    let s ← get
    match s.windowNum pr.cl pr.team n with
    | none => pure ()
    | some (k, _) => set (s.freeWindow pr.cl k)
    pure {}

def WState.code : WState → Nat | .absent => 1 | .filling => 2 | .present => 3
def FillStat.code : FillStat → Nat | .ok => 0 | .pendFault => 3 | .failed => 4

/-- Word 5 of an entry (R144). -/
def Window.word5 (w : Window) : Word := field w.st.code 62 ||| field w.ovr.toNat 61 ||| field w.fst.code 56 ||| field (w.pend % 2 ^ 26) 0

def execWprobe (m : Mods) (d rs : SReg) (s : State) : Host.Outcome State Fault Refusal :=
  runExec m (lenOf m true false) true s fun p pr => do
    let n ← winNum (pr.ctx.rs rs)
    let s ← get
    setS p d (match s.windowNum pr.cl pr.team n with
      | none => 0
      | some (_, w) => w.word5 ||| field w.fmt.toNat 48)
    pure {}

def execWwait (m : Mods) (d : SReg) (s : State) : Host.Outcome State Fault Refusal :=
  runExec m (lenOf m true false) true s fun p pr => do
    let n ← winNum (pr.ctx.rs d)
    match pr.op.map Op.res with
    | some (OpRes.trap c k _) => raiseTrap { cls := c, kind := k }
    | _ => do
      let s ← get
      match s.windowNum pr.cl pr.team n with
      | none => raiseTrap (trapWindow 7)
      | some (k, _) => do
        modS fun s => s.startFill pr.cl k
        let s ← get
        match Tab.get? k (s.cluster pr.cl).windows with
        | none => raiseTrap (trapWindow 7)
        | some w =>
          if w.st = .present then
            if w.ovr && w.owner = p && !w.orphan then do
              if pr.pend ≠ 0 then waitOn .reply 0 0
              set (s.setWindow pr.cl k { w with ovr := false })
              raiseTrap { cls := 15 }
            else acquire p scCluster
          else if w.fst = .failed then raiseTrap (trapWindow 6)
          else do
            modProcE p fun pr => { pr with op := some { id := 0, key := wwaitKey n, res := .waiting } }
            waitOn .window (BitVec.ofNat 64 n) 0
    pure {}

/-! ## Copy commands (R151, R157, R164, R165) -/

def trapCopy (kind : Nat) : TrapInfo := { cls := 14, kind := kind }

/-- The lowest and the highest byte offset that rows of a copy name, past the first row's. -/
def rowSpan (rows rowb : Nat) (str : Word) : Int × Int :=
  let last : Int := (rows - 1 : Int) * str.toInt
  (min 0 last, max 0 last + rowb)

/-- What is wrong with one end of a copy (R164): 3 SPACE, 5 RANGE, or 0. `far` where spaces 0b01 and 0b10 may stand. -/
def State.endBad (s : State) (team : Nat) (a : Word) (rows rowb : Nat) (str : Word) (far : Bool) : Nat :=
  match spaceOf a with
  | 0 => 0
  | 3 =>
    if 0x02000000 ≤ bits a 31 0 then 3
    else
      let span := rowSpan rows rowb str
      let off : Int := bits a 31 0
      if off + span.1 < 0 ∨ (s.spmBytes team : Int) < off + span.2 then 5 else 0
  | _ => if far then 0 else 3

/-- The lowest kind that applies. -/
def lowestKind (l : List Nat) : Nat := (l.filter (· ≠ 0)).foldl (fun a b => if a = 0 then b else min a b) 0

/-- Scope of a copy command's release, by its source (R151). -/
def copyScope (src : Word) : Nat := if spaceOf src = 3 then scCluster else if spaceOf src = 0 then scDevice else scSystem

/-- Joins a copy to the open batch and starts it, once a place is free; an empty copy is complete at once. -/
def issueCopy (p : Pid) (cl : Nat) (c : Copy) : Exec Unit := do
  let s ← get
  if c.lines = 0 then pure ()
  else match Tab.freeKey (s.cluster cl).copies 0 64 with
    | none => waitOn .place 0 0
    | some place => set (s.startCopy cl place { c with pid := p })

/-- The copy that a command of a process describes. -/
def Proc.copyOf (pr : Proc) (src dst : Word) (rows rowb : Nat) (sstr dstr : Word) (x : Option Secure) : Copy :=
  { pid := 0, team := pr.team, batch := some pr.openBatch.toNat, win := none, src := src, dst := dst, rows := rows, rowb := rowb
    sstr := sstr, dstr := dstr, written := [], stopped := none, secure := x, vmctx := pr.ctx.vmctx, order := 0 }

/-- Checks both ends, releases, and starts. -/
def copyCommand (p : Pid) (pr : Proc) (kinds : List Nat) (c : Copy) : Exec Unit := do
  let s ← get
  let ends := [s.endBad pr.team c.src c.rows c.rowb c.sstr true, s.endBad pr.team c.dst c.rows c.rowb c.dstr false]
  let k := lowestKind (kinds ++ ends)
  guardTrap (k ≠ 0) (trapCopy k)
  guardForm c.src false
  guardForm c.dst true
  guardOptics c.src
  release p (copyScope c.src) false
  issueCopy p pr.cl c

def execCpy (m : Mods) (d rs t : SReg) (s : State) : Host.Outcome State Fault Refusal :=
  runExec m (lenOf m true true) true s fun p pr => do
    let dst := pr.ctx.rs d
    let src := pr.ctx.rs rs
    let n := (pr.ctx.rs t).toNat
    let kinds := [if dst.toNat % 64 ≠ 0 ∨ src.toNat % 64 ≠ 0 ∨ n % 64 ≠ 0 then 1 else 0, if 0xFFFFFFC0 < n then 2 else 0]
    copyCommand p pr kinds (pr.copyOf src dst 1 n 0 0 none)
    pure {}

/-- Whether the words of a shape descriptor break R164. -/
def badShape (ws : List Word) : Bool :=
  let w := fun i => ws.getD i 0
  let rowb := bits (w 0) 47 16
  bits (w 0) 63 48 ≠ 0 || !(64 ≤ rowb && rowb ≤ 0x100000 && rowb % 64 = 0) || bits (w 0) 15 0 = 0 ||
    (w 1).toNat % 64 ≠ 0 || (w 2).toNat % 64 ≠ 0 || (w 2).toInt.natAbs < rowb || (ws.drop 3).any (· ≠ 0)

def execCpy2 (m : Mods) (d rs t : SReg) (s : State) : Host.Outcome State Fault Refusal :=
  runExec m (lenOf m true true) true s fun p pr => do
    let dst := pr.ctx.rs d
    let src := pr.ctx.rs rs
    let sa := pr.ctx.rs t
    guardTrap (!(aligned dst.toNat 64 && aligned src.toNat 64 && aligned sa.toNat 64)) (trapCopy 1)
    let ws ← loadBlock p sa
    let rows := bits (ws.getD 0 0) 15 0
    let rowb := bits (ws.getD 0 0) 47 16
    copyCommand p pr [if badShape ws then 4 else 0] (pr.copyOf src dst rows rowb (ws.getD 1 0) (ws.getD 2 0) none)
    pure {}

/-- Whether a session descriptor breaks R100. -/
def badSession (ws : List Word) : Bool :=
  bits (ws.getD 0 0) 63 5 ≠ 0 || (ws.getD 1 0).toNat % 16 ≠ 0 || spaceOf (ws.getD 1 0) ≠ 2 || (ws.drop 3).any (· ≠ 0)

def execCpys (m : Mods) (d rs t : SReg) (s : State) : Host.Outcome State Fault Refusal :=
  runExec m (lenOf m true true) true s fun p pr => do
    let dst := pr.ctx.rs d
    let src := pr.ctx.rs rs
    let sa := pr.ctx.rs t
    let n := (pr.ctx.rs (t + 1)).toNat
    guardTrap (!(aligned dst.toNat 64 && aligned src.toNat 64 && aligned sa.toNat 64 && aligned n 64)) (trapCopy 1)
    guardTrap (0xFFFFFFC0 < n) (trapCopy 2)
    let ws ← loadBlock p sa
    let enc := bit (ws.getD 0 0) 4
    guardTrap (!(if enc then spaceOf src = 0 && spaceOf dst = 2 else spaceOf src = 2 && spaceOf dst = 0)) (trapCopy 3)
    guardTrap (badSession ws) (trapCopy 4)
    guardForm src false
    guardForm dst true
    guardForm (ws.getD 1 0) enc
    release p (copyScope src) false
    let x : Secure := { kslot := bits (ws.getD 0 0) 3 0, encrypt := enc, tags := ws.getD 1 0, ivbase := ws.getD 2 0 }
    let c := { pr.copyOf src dst 1 n 0 0 (some x) with pid := p }
    let s ← get
    if s.mgmt.tdisp = .run ∧ s.mgmt.session then issueCopy p pr.cl c
    else set (s.modCluster pr.cl fun k => { k with
      copyEnds := k.copyEnds ++ [{ pid := p, batch := pr.openBatch.toNat, order := k.copySeq, stat := .secRefused }]
      copySeq := k.copySeq + 1 })
    pure {}

/-! ## Batches (R152, R153, R166 to R168) -/

/-- Sealed unfinished batches. -/
def Proc.unfinished (pr : Proc) : Nat := (pr.batches.filter fun e => e.2 = .running).length

def execCpyb (m : Mods) (d : SReg) (s : State) : Host.Outcome State Fault Refusal :=
  runExec m (lenOf m true false) true s fun p pr => do
    if 255 ≤ pr.unfinished then waitOn .batch 0 0
    let b := pr.openBatch
    modProcE p fun pr => { pr with
      openBatch := b + 1, batches := Tab.put b.toNat .running (Tab.del (b + 1).toNat pr.batches) }
    modS fun s => s.settleBatch pr.cl p b.toNat
    setS p d (b.setWidth 64)
    pure {}

def execWaitb (m : Mods) (n : BitVec 8) (s : State) : Host.Outcome State Fault Refusal :=
  runExec m (lenOf m true false) true s fun p pr => do
    if n.toNat < pr.unfinished then waitOn .batch (n.setWidth 64) 0
    acquire p scDevice
    pure {}

def BStat.code : BStat → Nat
  | .done => 0 | .opened => 1 | .running => 2 | .pendFault => 3 | .failed => 4 | .auth => 5 | .abortSec => 6 | .secRefused => 7
  | .cancel => 8

/-- The status a batch number reads. -/
def State.batchStat (s : State) (p : Pid) (pr : Proc) (b : Nat) : BStat :=
  if b = pr.openBatch.toNat then .opened
  else match Tab.get? b pr.batches with
    | some .running =>
      if (s.cluster pr.cl).copies.any fun e => e.2.pid = p && e.2.batch = some b && e.2.stopped.isSome then .pendFault else .running
    | some st => st
    | none => .done

/-- Lines of a batch not yet written. -/
def State.batchRem (s : State) (cl : Nat) (p : Pid) (b : Nat) : Nat :=
  (((s.cluster cl).copies.filter fun e => e.2.pid = p && e.2.batch = some b).map fun e => e.2.lines - e.2.written.length).sum

def execCpyq (m : Mods) (d rs : SReg) (s : State) : Host.Outcome State Fault Refusal :=
  runExec m (lenOf m true false) true s fun p pr => do
    let x := pr.ctx.rs rs
    guardTrap (bits x 63 8 ≠ 0) (trapCopy 5)
    let b := bits x 7 0
    let s ← get
    let st := s.batchStat p pr b
    let final := !(st = .opened || st = .running || st = .pendFault)
    if final then acquire p scDevice
    let rem := if final then 0 else s.batchRem pr.cl p b
    setS p d (field (sat32 rem) 32 ||| field (min pr.unfinished 255) 8 ||| field st.code 0)
    pure {}

end Sys2Proof.Machine
end

