-- ==== Sys2Proof/Machine/Teams.lean ====
section
/-! DEFINITION. Teams on clusters: what a cluster can hold (R365), placing a team (R361, R362, R366), taking its things off a
cluster and putting them on another (R143, R156, R262, R327, R371), and freeing what it held (R373). -/

namespace Sys2Proof.Machine

/-! ## What a cluster can hold (R361, R365) -/

/-- Clusters in service. -/
def State.clusterCount (s : State) : Nat := 8 * s.cdies.length

/-- A team holds a team slot of a cluster. -/
def Team.placed (t : Team) (cl : Nat) : Bool := t.cl = cl && (t.state = .running || t.state = .suspended)
/-- A team's allotment is taken. -/
def Team.occupies (t : Team) (cl : Nat) : Bool := t.placed cl || (t.cl = cl && t.state = .draining)
/-- A team of the backlog whose allotment is still in its cluster's scratchpad. -/
def Team.stays (t : Team) (cl : Nat) : Bool := t.cl = cl && t.state = .backlog && t.luggage.isNone

/-- Bytes of a team's allotment. -/
def Team.bytes (t : Team) : Nat := t.spmsz * 65536
def Team.meets (t : Team) (off n : Nat) : Bool := meet t.spm t.bytes off n

/-- The lowest place of `n` bytes in a scratchpad of 32 MiB that meets no allotment of a list. -/
def firstPlace (l : List Team) (n : Nat) : Option Nat :=
  ((List.range 512).map (65536 * ·)).find? fun off => off + n ≤ 32 * 2 ^ 20 && !(l.any fun t => t.meets off n)

/-- A place for an allotment: one that leaves teams of the backlog where they are when there is one (R371). -/
def State.allot (s : State) (cl n : Nat) : Option Nat :=
  let held := (s.teams.filter fun e => e.2.occupies cl).map fun (e : Nat × Team) => e.2
  let stays := (s.teams.filter fun e => e.2.stays cl).map fun (e : Nat × Team) => e.2
  match firstPlace (held ++ stays) n with
  | some off => some off
  | none => firstPlace held n

/-- Channels a team owns by its launch's record. -/
def State.declsOf (s : State) (t : Nat) : List ChanDecl :=
  match (s.team? t).bind fun k => s.launch? k.lid with
  | some l => l.decls.filter fun d => d.team = t
  | none => []

def State.freeSlots (s : State) (cl : Nat) : Nat := 8 - (s.teams.filter fun e => e.2.placed cl).length
def State.freeEnds (s : State) (cl : Nat) : Nat := 4096 - (s.cluster cl).endps.length
def State.freeWindows (s : State) (cl : Nat) : Nat := 256 - (s.cluster cl).windows.length

/-- A cluster can hold a new team (R361, R365). A halted cluster takes none. -/
def State.canHold (s : State) (cl t : Nat) : Bool :=
  match s.team? t with
  | none => false
  | some k =>
    (s.cluster cl).dm.phase = .running && 0 < s.freeSlots cl && (s.allot cl k.bytes).isSome &&
      (s.declsOf t).length + k.nproc ≤ s.freeEnds cl && k.nwin ≤ s.freeWindows cl

/-- Clusters of a compute die. -/
def clustersOf (die : Nat) : List Nat := (List.range 8).map fun k => 8 * die + k

/-- A cluster of a die that can hold a team. -/
def State.holder (s : State) (die t : Nat) : Option Nat := (clustersOf die).find? fun cl => s.canHold cl t

/-- Whether dispatchers may claim from a class queue: a firm team holds back its own class and the lower ones, but for itself. -/
def State.mayClaim (s : State) (c t : Nat) : Bool :=
  (List.range 4).all fun f =>
    match (Tab.getD f s.classQ []).head? with
    | some h => !((s.team? h).any fun k => k.firm) || c < f || t = h
    | none => true

/-! ## Moving bytes -/

/-- Moves the entries of a table whose keys lie in `from .. from + n - 1` to `to` on, replacing what is there. -/
def Tab.shift {α : Type} (src n dst : Nat) (t : Tab α) : Tab α :=
  let moved : Tab α := (t.filter fun e => src ≤ e.1 && e.1 < src + n).map fun e => (dst + (e.1 - src), e.2)
  let rest := t.filter fun e => !(src ≤ e.1 && e.1 < src + n) && !(dst ≤ e.1 && e.1 < dst + n)
  rest.filter (fun e => e.1 < dst) ++ moved ++ rest.filter (fun e => !(e.1 < dst))

def shiftNat (src n dst x : Nat) : Nat := if src ≤ x ∧ x < src + n then dst + (x - src) else x

/-- Moves n bytes with everything that stands for them: poison, check codes, pending sums. -/
def State.moveBytes (s : State) (src n dst : Nat) : State :=
  if src = dst then s
  else { s with
    mem := Tab.shift src n dst s.mem
    poison := (s.poison.filter fun l => !(dst ≤ l && l < dst + n)).foldl (fun k l => insertNat (shiftNat src n dst l) k) []
    codeErr := Tab.shift src n dst s.codeErr
    redSlots := s.redSlots.map fun (r : RedSlot) => { r with loc := shiftNat src n dst r.loc } }

/-- Where a team's allotment, and its team slot number a, stand in HBM while it is off every cluster. -/
def backLoc (t : Nat) : Nat := backBase + t * 2 ^ 27
def backSlot (t a : Nat) : Nat := backLoc t + 2 ^ 25 + a * accBytes

/-- Memory-side records that name a place follow it: an endpoint's buffers are relative to the team, a matched request is not. -/
def State.shiftDest (s : State) (cl src n dst : Nat) : State :=
  s.modCluster cl fun c => { c with greqs := c.greqs.map fun (e : Nat × GReq) => (e.1, { e.2 with dest := shiftNat src n dst e.2.dest }) }

/-! ## Off a cluster -/

/-- Writes a team's allotment and slots to HBM with what else it holds (R371); its unfinished copies stop (R156). -/
def State.lift (s : State) (t : Nat) : State :=
  match s.team? t with
  | none => s
  | some k =>
    if k.luggage.isSome then s
    else
      let c := s.cluster k.cl
      let lo := k.spm / 64
      let n := k.bytes / 64
      let mine := c.copies.filter fun e => e.2.team = t
      let wnums := (c.windows.filter fun e => e.2.team = t).map fun (e : Nat × Window) => (e.1, e.2.num)
      let numOf : Nat → Option Nat := fun k => (wnums.find? fun w => w.1 = k).map fun w => w.2
      let slots := (c.slots.filter fun e => e.2.team = t)
      let bag : Luggage := {
        full := (c.full.filter fun l => lo ≤ l && l < lo + n).map (· - lo)
        windows := (c.windows.filter fun e => e.2.team = t).map fun (e : Nat × Window) => e.2
        copies := mine.map fun (e : Nat × Copy) => { e.2 with win := e.2.win.bind numOf }
        ends := c.copyEnds.filter fun x => x.pid / 256 = t
        slots := slots.map fun (e : Nat × Slot) => e.2
        carry := c.carry.filterMap fun x => (slots.find? fun e => e.1 = x.slot).map fun e => { x with slot := e.2.tslot.toNat } }
      let s := mine.foldl (fun s e => match s.copyReq? k.cl e.1 with | some (r, _) => s.dropReq k.cl r | none => s) s
      let s := s.modCluster k.cl fun c => { c with
        full := c.full.filter fun l => !(lo ≤ l && l < lo + n)
        windows := c.windows.filter fun e => e.2.team ≠ t
        copies := c.copies.filter fun e => e.2.team ≠ t
        copyEnds := c.copyEnds.filter fun x => x.pid / 256 ≠ t
        slots := c.slots.filter fun e => e.2.team ≠ t
        carry := c.carry.filter fun x => !(slots.any fun e => e.1 = x.slot) }
      let s := s.moveBytes (sramLoc k.cl k.spm) k.bytes (backLoc t)
      let s := slots.foldl (fun s e => s.moveBytes (accLoc k.cl e.1) accBytes (backSlot t e.2.tslot.toNat)) s
      (s.modTeam t fun k => { k with luggage := some bag }).offerPlace k.cl

/-- Clears the way for an allotment: teams of the backlog that stand in it are written to HBM (R371). -/
def State.clearWay (s : State) (cl off n : Nat) : State :=
  (s.teams.filter fun e => e.2.stays cl && e.2.meets off n).foldl (fun s e => s.lift e.1) s

/-! ## Onto a cluster -/

/-- Messages for a team's endpoints that were waiting for them set out (R363), and every operation that waits for them looks
again. -/
def State.callPending (s : State) : State :=
  let s := (s.msgs.filter fun e => e.2.place.isNone && !e.2.ended).foldl (fun s e =>
    match s.msgTarget e.2 with
    | some (.ep c _) => if s.queue.any fun q => q.2 = .grantRequestArrival c e.1 then s else s.sched tripCycles (.grantRequestArrival c e.1)
    | _ => s) s
  s.wakeOthers

/-- Creates the endpoint of a declared channel (R366 step 2). -/
def State.makeEnd (s : State) (cl : Nat) (d : ChanDecl) : State :=
  match Tab.freeKey (s.cluster cl).endps 0 4096 with
  | none => s
  | some e => ({ s with dir := Tab.put d.idx (cl, e) s.dir }).setEndp cl e (chanEndp d.word0 d.buf d.entry d.team d.idx none)

/-- Member number of a PID. -/
def memberOf (p : Pid) : Nat := p % 256

/-- Creates the initial processes of a team (R362), each with its acquire still owed (R315). -/
def State.makeInitial (s : State) (t : Nat) : State :=
  match s.team? t with
  | none => s
  | some k =>
    let args := ((s.launch? k.lid).map fun l => l.args).getD []
    (List.range k.nproc).foldl (fun s i =>
      let p := 256 * t + i
      let s := s.addProc p t { entry := k.entry, code := 0, s1 := BitVec.ofNat 64 i } fun pr =>
        let ctx := (List.range 4).foldl (fun (c : Ctx) j => c.ws (BitVec.ofNat 6 (2 + j)) (args.getD j 0)) pr.ctx
        { pr with prio := k.prio, stage := k.stage, ctx := ctx.ws 6 (BitVec.ofNat 64 k.index), acquireDue := true }
      s.makeReady p) s

/-- Messages under way from a team read its scratchpad where it stands now (R129, R134). -/
def State.moveSources (s : State) (t old cl off : Nat) : State :=
  { s with msgs := s.msgs.map fun (e : Nat × Msg) => (e.1,
      if e.2.sender.any fun p => p / 256 = t then
        { e.2 with srcCl := cl, srcOff := off + (e.2.srcOff - old), site := some (s.clusterSite cl) }
      else e.2) }

/-- Gives a team a team slot and an allotment (R366 step 1, R392 step 2). -/
def State.seat (s : State) (t cl : Nat) : State :=
  match s.team? t with
  | none => s
  | some k =>
    match s.allot cl k.bytes with
    | none => s
    | some off =>
      let s := s.clearWay cl off k.bytes
      let s := s.modTeam t fun k => { k with state := .running, cl := cl, spm := off, disp := s.timebase, headAt := none, firm := false, victim := none }
      let s := s.moveSources t k.spm cl off
      s.modCluster cl fun c => { c with full := c.full.filter fun l => !(off / 64 ≤ l && l < (off + k.bytes) / 64) }

/-- Binds a team's window presets in list order (R361). -/
def State.bindPresets (s : State) (t : Nat) : State :=
  match s.team? t with
  | none => s
  | some k => k.presets.foldl (fun s ws =>
      s.bindWindow k.cl (windowOf ((ws.take 7) ++ [0]) t (bits (ws.getD 7 0) 7 0) (256 * t))) s

/-- Dispatches a team onto a cluster (R366). -/
def State.dispatch (s : State) (t cl : Nat) : State :=
  let s := s.seat t cl
  let s := s.bindPresets t
  let s := (s.declsOf t).foldl (fun s d => s.makeEnd cl d) s
  (s.makeInitial t).callPending

/-- A team's endpoint-table entries move with it (R327): the directory names the new places, and each unmatched message held at
the old cluster is refused with MOVED and sent again. -/
def State.moveEnds (s : State) (t old cl : Nat) : State :=
  if old = cl then s
  else ((s.cluster old).endps.filter fun e => e.2.team = t).foldl (fun s e =>
    let s := ((s.cluster old).greqs.filter fun q => q.2.ep = some e.1 && !q.2.matched).foldl (fun s q =>
      match s.reqMsg q.2 with
      | some (id, _) =>
        if s.procs.any fun x => match x.2.resv with | some (_, .entry c j) => c = old && j = q.1 | _ => false then s
        else ((s.dropReq old q.1).modMsg id fun m => { m with place := none }).sched tripCycles (.grantRequestArrival cl id)
      | none => s) s
    match Tab.freeKey (s.cluster cl).endps 0 8192, s.endp? old e.1 with
    | some k, some n =>
      let kept := ((s.cluster old).greqs.filter fun q => q.2.ep = some e.1)
      -- matched transfers and reserved messages go along
      let (s, unm) := kept.foldl (fun (a : State × List Nat) q =>
        match Tab.freeKey (a.1.cluster cl).greqs 0 512 with
        | none => a
        | some j =>
          let s := a.1.modCluster old fun c => { c with
            greqs := Tab.del q.1 c.greqs, out := c.out - tokBytes q.2, turn := if c.turn = some q.1 then none else c.turn }
          let s := s.setReq cl j { q.2 with ep := some k, toks := [] }
          let s := match s.reqMsg q.2 with | some (id, _) => s.modMsg id fun m => { m with place := some (cl, j) } | none => s
          let s : State := { s with procs := s.procs.map fun (x : Nat × Proc) => (x.1, match x.2.resv with
            | some (key, .entry c i) => if c = old && i = q.1 then { x.2 with resv := some (key, .entry cl j) } else x.2
            | _ => x.2) }
          (s.kickGrant cl, a.2)) (s, ([] : List Nat))
      let s := (s.modCluster old fun c => { c with endps := Tab.del e.1 c.endps }).setEndp cl k { n with unm := unm }
      { s with dir := Tab.put (endpKey n) (cl, k) s.dir }
    | _, _ => s) s

/-- A cluster can take a team of the backlog (R365, R361), its copies and claims included (R156, R262). -/
def State.canLand (s : State) (t cl : Nat) : Bool :=
  match s.team? t with
  | none => false
  | some k =>
    let old := s.cluster k.cl
    let wins := match k.luggage with | some g => g.windows.length | none => (old.windows.filter fun e => e.2.team = t).length
    let cps := match k.luggage with | some g => g.copies.length | none => (old.copies.filter fun e => e.2.team = t).length
    let claims := match k.luggage with | some g => g.slots.length | none => (old.slots.filter fun e => e.2.team = t).length
    let ends := (old.endps.filter fun e => e.2.team = t).length
    -- requests that go along (R327), and carry entries (R276)
    let reqs := (old.greqs.filter fun q => q.2.ep.any fun e => (s.endp? k.cl e).any fun n => n.team = t).length
    let carries := match k.luggage with | some g => g.carry.length | none => (old.carry.filter fun x =>
      old.slots.any fun e => e.1 = x.slot && e.2.team = t).length
    (s.cluster cl).dm.phase = .running && 0 < s.freeSlots cl &&
      (if k.cl = cl && k.luggage.isNone then true
       else (s.allot cl k.bytes).isSome && wins ≤ s.freeWindows cl && (k.cl = cl || ends ≤ s.freeEnds cl) &&
         cps + (s.cluster cl).copies.length ≤ 64 && claims + (s.cluster cl).slots.length ≤ 4 &&
         carries + (s.cluster cl).carry.length ≤ 1024 && (k.cl = cl || reqs + (s.cluster cl).greqs.length ≤ 512))

/-- Puts a lifted team's things on a cluster at its allotment. -/
def State.unpack (s : State) (t : Nat) : State :=
  match s.team? t with
  | none => s
  | some k =>
    match k.luggage with
    | none => s
    | some g =>
      let s := s.moveBytes (backLoc t) k.bytes (sramLoc k.cl k.spm)
      let s := g.slots.foldl (fun s x =>
        match Tab.freeKey (s.cluster k.cl).slots 0 4 with
        | none => s
        | some j =>
          (s.moveBytes (backSlot t x.tslot.toNat) accBytes (accLoc k.cl j)).modCluster k.cl fun c => { c with
            slots := Tab.put j x c.slots
            carry := c.carry ++ (g.carry.filter fun y => y.slot = x.tslot.toNat).map fun y => { y with slot := j } }) s
      let s := g.windows.foldl (fun s w =>
        match Tab.freeKey (s.cluster k.cl).windows 0 256 with
        | none => s
        | some j => s.setWindow k.cl j w) s
      let s := s.modCluster k.cl fun c => { c with full := g.full.foldl (fun f l => insertNat (l + k.spm / 64) f) c.full }
      let s := g.copies.foldl (fun s x =>
        match Tab.freeKey (s.cluster k.cl).copies 0 64 with
        | none => s
        | some j =>
          let x := { x with win := x.win.bind fun n => (s.windowNum k.cl t n).map fun e => e.1 }
          let s := s.modCluster k.cl fun c => { c with copies := Tab.put j x c.copies }
          if x.stopped.isSome then s else s.requestCopy k.cl j x) s
      let s := s.modCluster k.cl fun c => { c with copyEnds := c.copyEnds ++ g.ends }
      let s := g.ends.foldl (fun s e => s.settleBatch k.cl e.pid e.batch) s
      (s.modTeam t fun k => { k with luggage := none }).offerPlace k.cl

/-- The team's state leaves the backlog of its die. -/
def State.unbacklog (s : State) (t : Nat) : State :=
  { s with backlog := s.backlog.map fun (e : Nat × List Nat) => (e.1, e.2.filter (· ≠ t)) }

/-! ## Freeing what a team held (R373) -/

/-- Frees an endpoint: everything held there ends CLOSED, and the directory answers CLOSED (R336). -/
def State.freeEnd (s : State) (cl e : Nat) : State :=
  match s.endp? cl e with
  | none => s
  | some n =>
    let s := ((s.cluster cl).greqs.filter fun q => q.2.ep = some e).foldl (fun s q =>
      match s.reqMsg q.2 with
      | some (id, _) => if q.2.matched then s.cancelReq cl q.1 else (s.dropReq cl q.1).sendDone id (.status 4) 0
      | none => s.dropReq cl q.1) s
    { (s.modCluster cl fun c => { c with endps := Tab.del e c.endps }) with dir := Tab.put (endpKey n) closedMark s.dir }

/-- Frees a team's slot, allotment, windows, copies, claims and the endpoints that `keep` does not hold back. -/
def State.freeTeam (s : State) (t : Nat) (keep : Endp → Bool) : State :=
  match s.team? t with
  | none => s
  | some k =>
    let cl := k.cl
    let s := ((s.cluster cl).endps.filter fun e => e.2.team = t && !keep e.2).foldl (fun s e => s.freeEnd cl e.1) s
    let s := if k.luggage.isSome then s
      else ((s.cluster cl).windows.filter fun e => e.2.team = t).foldl (fun s e => s.freeWindow cl e.1) s
    let s := ((s.cluster cl).copies.filter fun e => e.2.team = t).foldl (fun s e => s.endCopy cl e.1 .cancel) s
    let gone := (s.cluster cl).slots.filter fun e => e.2.team = t
    let s := s.modCluster cl fun c => { c with
      copyEnds := c.copyEnds.filter fun x => x.pid / 256 ≠ t
      slots := c.slots.filter fun e => e.2.team ≠ t
      carry := c.carry.filter fun x => !(gone.any fun e => e.1 = x.slot) }
    let s := if gone = [] then s else s.sched 8 (.leaseGrant cl)
    (s.modTeam t fun k => { k with state := .ended, luggage := none }).unbacklog t

end Sys2Proof.Machine
end

