-- ==== Sys2Proof/Machine/Experts.lean ====
section
/-! DEFINITION. Replica tables of the Chandler (R385 to R400): events, publications and their acknowledgements, retirement, the
end of replica teams, and an expert's unbinding. -/

namespace Sys2Proof.Machine

/-- Expert handle (R385). -/
def expertHandle (s : State) (x : Nat) (e : Expert) : Word := mkHandle e.efmt.toNat e.sclass.toNat 5 true s.dev x

/-- Live replica numbers, ascending. -/
def liveList (b : BitVec 8) : List Nat := (List.range 8).filter fun r => b.getLsbD r
def setBit8 (b : BitVec 8) (r : Nat) (v : Bool) : BitVec 8 :=
  if v then b ||| ((1 : BitVec 8) <<< r) else b &&& ~~~((1 : BitVec 8) <<< r)

/-- BUSY (R399). -/
def Expert.busy (e : Expert) : Bool := e.switch.isSome

/-- No table version is left (R389). -/
def Expert.atLimit (e : Expert) : Bool := e.ver = BitVec.allOnes 32

/-- A Chandler event (R400). -/
def State.chEvent (s : State) (x evt cause rep team : Nat) (faddr : Word) (fkind : Nat) : State :=
  match s.expert? x with
  | none => s
  | some e => s.postService (faultIdx e.team0)
      [BitVec.ofNat 64 (0x48 + evt * 2 ^ 8 + cause * 2 ^ 16 + rep * 2 ^ 24), expertHandle s x e, e.ver.setWidth 64,
        BitVec.ofNat 64 team, BitVec.ofNat 64 s.timebase, faddr, BitVec.ofNat 64 fkind, 0]

/-- The endpoint of a replica's receiving handle. -/
def State.replicaEnd (s : State) (e : Expert) (r : Nat) : Option (Nat × Nat) :=
  match s.lookup (hIdx (Tab.getD r e.rh 0)) with
  | some (.ep cl k) => some (cl, k)
  | _ => none

/-- The team of replica r that has not ended. -/
def State.replicaTeam (s : State) (x r : Nat) : Option Nat :=
  (s.teams.find? fun e => e.2.replica = some (x, r) && e.2.state ≠ .ended).map fun e => e.1

/-! ## Counting windows (R390) -/

/-- Arms the end of the current counting window: windows start at TIMEBASE multiples of WIN µs (R390). -/
def State.armWindow (s : State) : State :=
  if s.queue.any fun q => q.2 = .chandlerWindowEnd then s
  else
    let win := 1000 * max 1 (bits (s.reg 122) 47 32)
    s.schedNs ((s.timebase / win + 1) * win) .chandlerWindowEnd

/-! ## Publication (R389, R394, R396) -/

/-- Applies the stub filter to the messages that wait unmatched at an endpoint. -/
def State.filterWaiting (s : State) (cl k : Nat) : State :=
  match s.endp? cl k with
  | none => s
  | some n => n.unm.foldl (fun s q =>
      match (Tab.get? q (s.cluster cl).greqs).bind s.reqMsg with
      | none => s
      | some (id, m) =>
        match s.redirect n m with
        | none => s
        | some m' =>
          let s := s.dropReq cl q
          let s := { s with msgs := Tab.put id m' s.msgs }
          match s.msgTarget m' with
          | some (.ep c _) => s.sched tripCycles (.grantRequestArrival c id)
          | _ => s.sendDone id (.status 4) 0) s

/-- Publishes the next version with the given LIVE and STUB: every resolving point of the device will acknowledge it, and every
endpoint that was live filters what arrives under the old version. -/
def State.publish (s : State) (x : Nat) (live stub : BitVec 8) (sw : Switch) : State :=
  match s.expert? x with
  | none => s
  | some e =>
    let old := liveList e.live
    let v := e.ver.toNat
    let points := List.range s.clusterCount
    let s := s.modExpert x fun e => { e with ver := e.ver + 1, live := live, stub := stub, switch := some { sw with pending := points } }
    let s := old.foldl (fun s r =>
      match s.replicaEnd e r with
      | some (cl, k) => (s.modEndp cl k fun n => { n with filter := some v }).filterWaiting cl k
      | none => s) s
    points.foldl (fun s p => s.sched (nsCycles 300) (.versionAck x p)) s

/-- The process whose XPIN waited for the publication or the rollback goes on (R407). -/
def State.pinDone (s : State) (sw : Switch) : State :=
  match sw.pin with
  | some p => s.endOp p (.ok 0) 0
  | none => s

/-! ## Retirement (R397, R398) -/

/-- Retires live replica r, a team's, by a publication. -/
def State.startRetire (s : State) (x r team : Nat) (pin : Option Pid) : State :=
  match s.expert? x with
  | none => s
  | some e =>
    let sw : Switch := { grow := none, rep := r, team := team, pin := pin, pending := [] }
    let s := s.publish x (setBit8 e.live r false) (setBit8 e.stub r true) sw
    (s.chEvent x 2 0 r sw.team 0 0).pinDone sw

/-- Takes the first message of a stub's buffer and sends it to the replica that resolves its token without r (R398). None while
the first slot's transfer is in progress. -/
def State.redeliver (s : State) (x r : Nat) (cl k : Nat) : Option State :=
  match s.expert? x, s.endp? cl k with
  | some e, some n =>
    match n.slots with
    | [] => none
    | b :: _ =>
      match b.st with
      | .filling => none
      | .kept | .gone => some (s.setEndp cl k (trimSlots (setSlot n 0 .gone)))
      | .filled =>
        let len := 2 ^ n.sclass.toNat
        let off := s.slotOff n 0
        let bs := Memory.read s.mem (sramLoc cl off) len
        let bad := (List.range ((len + 63) / 64)).filter fun j => s.isPoison (sramLoc cl (off + 64 * j))
        let s := s.setEndp cl k (trimSlots (setSlot n 0 .gone))
        match replicaOf (setBit8 e.live r false) (tokenOf bs) with
        | none => some s
        | some r' =>
          let m : Msg := {
            sender := b.sender.map (· % 2 ^ 32), kind := 0, idx := hIdx (Tab.getD r' e.rh 0), efmt := n.efmt, sclass := n.sclass
            len := len, bytes := bs, bad := bad, srcCl := cl, srcOff := 0, bulk := false, expert := some (x, e.ver.toNat + 1)
            place := none, ended := true, dropped := [] }
          let id := s.nextMsg
          let s := { s with nextMsg := id + 1, msgs := Tab.put id m s.msgs }
          match s.msgTarget m with
          | some (.ep c _) => some (s.sched tripCycles (.grantRequestArrival c id))
          | _ => some { s with msgs := Tab.del id s.msgs }
  | _, _ => none

/-- Redelivers while the next message is there. -/
def State.redeliverAll (x r cl k : Nat) : Nat → State → State
  | 0, s => s
  | f + 1, s => match s.redeliver x r cl k with | some t => State.redeliverAll x r cl k f t | none => s

/-- The step number under which a retirement that waits for a buffer's transfers is taken up again. -/
def retirePoint (r : Nat) : Nat := 2 ^ 20 + r

/-- The retirement of a replica whose team ended by itself (R398): the buffer is delivered again, then the version is published.
While a transfer into the buffer is in progress it stays first among the requests. With no version left, it stays in LIVE as a stub
that takes no message. -/
def State.earlyEnd (s : State) (x r : Nat) : State :=
  match s.expert? x with
  | none => s
  | some e =>
    let team := (s.replicaTeam x r).getD 0
    let fin : State → State := fun s => (s.freeTeam team fun n => n.expert = some (x, r)).sched 0 (.dispatchClaim 0)
    match s.replicaEnd e r with
    | none => (fin s).startRetire x r team none
    | some (cl, k) =>
      if e.atLimit then
        let s := s.modEndp cl k fun n => { n with slots := [] }
        (fin (s.freeEnd cl k)).chEvent x 5 0 r team 0 0
      else
        let s := State.redeliverAll x r cl k 256 s
        if (s.endp? cl k).any fun n => n.slots ≠ [] then
          let s := s.modExpert x fun e => { e with retireQ := r :: e.retireQ }
          if s.queue.any fun q => q.2 = .versionAck x (retirePoint r) then s else s.sched 60 (.versionAck x (retirePoint r))
        else (fin s).startRetire x r team none

/-! ## Growing and waiting requests (R392, R399, R407) -/

/-- The lowest free replica number (R391). -/
def Expert.freeReplica (e : Expert) : Option Nat :=
  (List.range 8).find? fun r => !((e.live ||| e.stub ||| e.mset).getLsbD r)

/-- The team of a new replica: its controls are those of replica 0's team. -/
def replicaTeamOf (x r : Nat) (e : Expert) (t0 : Team) (now : Nat) : Team :=
  { lid := e.lid, index := 0, nproc := e.nproc, spmsz := e.spmsz, entry := e.entry, fctl := t0.fctl, pctl := t0.pctl, dbg := t0.dbg
    prio := e.prio, stage := e.stage, tpol := t0.tpol, ppol := t0.ppol, enq := now, replica := some (x, r) }

/-- The weight copy of a grow takes a place of the team's copy engine (R392 step 3), when one is free. -/
def State.growCopy (s : State) (x : Nat) : State :=
  match s.expert? x with
  | none => s
  | some e =>
    match e.switch with
    | none => s
    | some w =>
      let k := (s.team? w.team).getD (replicaTeamOf x w.rep e { lid := e.lid, index := 0 } 0)
      let vm := ((s.launch? e.lid).map fun l => l.vmctx).getD 0
      let c : Copy := {
        pid := 256 * w.team, team := w.team, batch := none, win := none, src := e.wsrc, dst := field 3 62 ||| BitVec.ofNat 64 e.wdst
        rows := 1, rowb := e.wlen, sstr := 0, dstr := 0, written := [], stopped := none, secure := none, vmctx := vm, order := 0 }
      match Tab.freeKey (s.cluster k.cl).copies 0 64 with
      | some place => (s.modExpert x fun e => { e with switch := some { w with grow := some .copying } }).startCopy k.cl place c
      | none => s.sched 60 (.growCopyComplete x none)

/-- Steps 1 to 3 of a grow to replica r: a cluster is asked for, the team is placed, and its weight copy starts. With no cluster
the grow ends in ROLLBACK cause NOFIT; the first component says whether it goes on. -/
def State.startGrow (s : State) (x r : Nat) (pin : Option Pid) : Bool × State :=
  match s.expert? x with
  | none => (false, s)
  | some e =>
    let t := s.nextTeam
    let t0 := (s.team? e.team0).getD { lid := e.lid, index := 0 }
    let cls := ((s.launch? e.lid).map fun l => l.cls.toNat).getD 3
    let s' : State := { s with teams := Tab.put t (replicaTeamOf x r e t0 s.timebase) s.teams }
    match if s'.mayClaim cls t then (List.range s.cdies.length).findSome? fun d => s'.holder d t else none with
    | none => (false, s.chEvent x 4 2 r 0 0 0)
    | some cl =>
      let s := ({ s' with nextTeam := if (t + 1) % 2 ^ 24 = 0 then 1 else (t + 1) % 2 ^ 24 } : State).seat t cl
      let s := s.modExpert x fun e => { e with
        switch := some { grow := some .waiting, rep := r, team := t, pin := pin, pending := [] } }
      (true, s.growCopy x)

/-- A switch that no version is left for is refused (R389). -/
def State.refuseSwitch (s : State) (x : Nat) : State := s.chEvent x 5 0 0 0 0 0

/-- An XPIN GROW or SHRINK of process p with operand sn takes its turn (R407): it is refused, or it starts and ends p's wait at
publication or rollback. -/
def State.pinSwitch (s : State) (x : Nat) (p : Pid) (sn : Nat) : State :=
  match s.expert? x with
  | none => s
  | some e =>
    let n := (liveList e.live).length
    let refused := OpRes.trap 26 4 0
    if e.atLimit then (s.refuseSwitch x).endOp p refused 0
    else if sn % 16 = 2 then
      match e.freeReplica with
      | none => s.endOp p refused 0
      | some r =>
        if e.maxm1.toNat < n then s.endOp p refused 0
        else match s.startGrow x r (some p) with
          | (true, s) => s
          | (false, s) => s.endOp p (.ok 0) 0
    else
      let r := if sn / 16 % 8 = 0 then (liveList e.live).getLastD 0 else sn / 16 % 8
      if n = 1 || !e.live.getLsbD r then s.endOp p refused 0 else s.startRetire x r ((s.replicaTeam x r).getD 0) (some p)

/-- A switch is over: the requests that waited for it take their turns until one is in progress (R399). -/
def State.switchTurns (x : Nat) : Nat → State → State
  | 0, s => s
  | f + 1, s =>
    match s.expert? x with
    | none => s
    | some e =>
      if e.busy || e.merging.isSome || e.unbound then s
      else match e.retireQ with
        | r :: rest =>
          let s := (s.modExpert x fun e => { e with retireQ := rest }).earlyEnd x r
          if (s.expert? x).any fun e => e.retireQ.head? = some r then s else State.switchTurns x f s
        | [] => match e.pinQ with
          | (p, sn) :: rest => State.switchTurns x f ((s.modExpert x fun e => { e with pinQ := rest }).pinSwitch x p sn)
          | [] => s.wakeOthers

def State.nextSwitch (s : State) (x : Nat) : State :=
  match s.expert? x with
  | none => s
  | some e => State.switchTurns x (e.retireQ.length + e.pinQ.length + 1) s

/-- Replica r's team has ended: its STUB bit and handle clear (R397 step 4), and an unbound expert with no replica team left is
forgotten (R398). -/
def State.freed (s : State) (x r t : Nat) : State :=
  match s.expert? x with
  | none => s
  | some e =>
    if e.stub.getLsbD r then
      (s.modExpert x fun e => { e with stub := setBit8 e.stub r false, rh := Tab.del r e.rh }).chEvent x 3 0 r t 0 0
    else s

/-- The expert number is free once every replica team has ended (R398). -/
def State.forget (s : State) (x : Nat) : State :=
  if (s.expert? x).any fun e => e.unbound then
    if s.teams.any fun e => e.2.state ≠ .ended && (e.2.replica.any fun q => q.1 = x) then s
    else { s with experts := Tab.del x s.experts }
  else s

/-- The last acknowledgement has arrived: the filters end, BUSY clears, and what waits on it goes on (R394, R397, R399). -/
def State.endSwitch (s : State) (x : Nat) : State :=
  match s.expert? x with
  | none => s
  | some e =>
    let s := s.modExpert x fun e => { e with switch := none }
    let ends := (List.range 8).filterMap fun r => s.replicaEnd e r
    let s := ends.foldl (fun s q => s.modEndp q.1 q.2 fun n => { n with filter := none }) s
    let s := ends.foldl (fun s q => s.settle q.1 q.2) s
    -- a stub whose team has ended already is freed with its endpoint
    let s := (List.range 8).foldl (fun s r =>
      if e.stub.getLsbD r && (s.replicaTeam x r).isNone then s.freed x r ((e.switch.map fun w => w.team).getD 0) else s) s
    s.nextSwitch x

/-- A resolving point still has a message on its way that it resolved under an older version (R394). -/
def State.pointBusy (s : State) (x v point : Nat) : Bool :=
  s.msgs.any fun e => e.2.srcCl = point && e.2.place.isNone && (e.2.expert.any fun q => q.1 = x && q.2 < v)

def execVersionAck (x point : Nat) (s : State) : Host.Outcome State Fault Refusal :=
  match s.expert? x with
  | none => .next s
  | some e =>
    if 2 ^ 20 ≤ point then .next (s.nextSwitch x)
    else
      match e.switch with
      | none => .next s
      | some sw =>
        if !sw.pending.contains point then .next s
        else if s.pointBusy x e.ver.toNat point then .next (s.sched tripCycles (.versionAck x point))
        else
          let rest := sw.pending.filter (· ≠ point)
          let s := s.modExpert x fun e => { e with switch := some { sw with pending := rest } }
          .next (if rest = [] then s.endSwitch x else s)

/-! ## Rollback and unbinding (R393, R398) -/

/-- A grow ends in ROLLBACK: the candidate team is removed, none of its processes having run (R393). -/
def State.rollback (s : State) (x cause : Nat) (faddr : Word) (fkind : Nat) : State :=
  match s.expert? x with
  | none => s
  | some e =>
    match e.switch with
    | none => s
    | some sw =>
      let s := if sw.team = 0 then s else
        let s : State := { s with procs := s.procs.filter fun (q : Nat × Proc) => q.2.team ≠ sw.team }
        let s := s.freeTeam sw.team fun _ => false
        { s with teams := Tab.del sw.team s.teams }
      let s := s.modExpert x fun e => { e with switch := none, rh := Tab.del sw.rep e.rh }
      let s := (s.chEvent x 4 cause sw.rep sw.team faddr fkind).pinDone sw
      s.nextSwitch x

/-- Replica 0's team has ended: the expert becomes unbound (R398). A replica whose retirement still waited ends at once, and an
XMERGE that waited looks at its handle again (R404). -/
def State.unbind (s : State) (x : Nat) : State :=
  match s.expert? x with
  | none => s
  | some e =>
    if e.unbound then s
    else
      let growing := e.switch.any fun sw => sw.grow.isSome
      let s := s.modExpert x fun e => { e with unbound := true }
      let s := if growing then s.rollback x 4 0 0 else s
      let s := (s.teams.filter fun q => q.2.state = .draining && q.2.replica.any fun q => q.1 = x).foldl
        (fun s q => s.freeTeam q.1 fun _ => false) s
      let s := ((List.range 8).filter (· ≠ 0)).foldl (fun s r =>
        match s.replicaEnd e r with
        | some (cl, k) => if (s.replicaTeam x r).isSome then s.closeEnd cl k else s.freeEnd cl k
        | none => s) s
      let s := s.chEvent x 6 0 0 e.team0 0 0
      let s := e.pinQ.foldl (fun s q => s.endOp q.1 (.trap 26 3 0) 0) (s.modExpert x fun e => { e with pinQ := [], retireQ := [] })
      (s.forget x).wakeOthers

/-- A live replica's team ends by itself: its bytes and its endpoint stay for the messages in its buffer (R398). -/
def State.keepsStub (s : State) (t : Nat) : Bool :=
  match (s.team? t).bind fun k => k.replica with
  | some (x, r) => (s.expert? x).any fun e => e.live.getLsbD r && !e.unbound
  | none => false

/-- After a replica team's processes have gone: retirement of a live replica, or the end of a stub. -/
def State.replicaEnded (s : State) (t : Nat) : State :=
  match (s.team? t).bind fun k => k.replica with
  | some (x, r) =>
    match s.expert? x with
    | none => s
    | some e =>
      if e.unbound then s.forget x
      else if e.live.getLsbD r then (s.modExpert x fun e => { e with retireQ := e.retireQ ++ [r] }).nextSwitch x
      else s.freed x r t
  | none =>
    (s.experts.filter fun e => e.2.team0 = t).foldl (fun s e => s.unbind e.1) s

end Sys2Proof.Machine
end

