-- ==== Sys2Proof/Machine/Launch.lean ====
section
/-! DEFINITION. Launches: the record and its checks (R359 to R364), acceptance, the class queues and dispatch (R365, R366), the
end of teams and launches (R373), completion records and interrupts (R93, R95), and LAUNCH and LSTAT (R374 to R376). -/

namespace Sys2Proof.Machine

/-! ## Fields that keep a value (R6) -/

def fctlMask : Word := 0x1F17
def vmctxMask : Word := 0xFFFF07CFFFFFF000
def dbgMask : Word := 0x3FF

/-! ## The record (R359 to R361, R364) -/

/-- A launch record as it was read: header, team entries, channel entries, and each team's window presets. -/
structure LaunchRec where
  hdr : List Word
  teams : List (List Word)
  chans : List (List Word)
  presets : List (List (List Word))
  deriving DecidableEq, Repr

def recTeams (hdr : List Word) : Nat := bits (hdr.getD 0 0) 9 0
def recChans (hdr : List Word) : Nat := bits (hdr.getD 0 0) 18 10
def recBytes (hdr : List Word) : Nat := 64 + 64 * recTeams hdr + 32 * recChans hdr

/-- What R364 finds wrong with a header. `own` is the VMCTX that word 1 = 0 stands for. -/
def badHeader (host : Bool) (a : Word) (hdr : List Word) : Bool :=
  bits (hdr.getD 0 0) 63 24 ≠ 0 || recTeams hdr = 0 || 256 < recChans hdr || bits (hdr.getD 2 0) 63 56 ≠ 0 ||
    (host && bits (hdr.getD 1 0) 63 48 = 0) || 65536 < a.toNat % 65536 + recBytes hdr

def badTeam (w : List Word) : Bool :=
  let g := fun i => w.getD i 0
  bits (g 0) 63 43 ≠ 0 || bits (g 0) 31 26 ≠ 0 || bits (g 0) 15 9 ≠ 0 || bits (g 0) 25 16 = 0 || 512 < bits (g 0) 25 16 ||
    bits (g 0) 8 0 = 0 || 256 < bits (g 0) 8 0 || bit (g 1) 0 || (g 2) &&& ~~~fctlMask ≠ 0 || 4 < bits (g 2) 2 0 ||
    bits (g 6) 63 9 ≠ 0 || 256 < bits (g 6) 8 0 || (g 5).toNat % 64 ≠ 0 || (bits (g 6) 8 0 = 0 && g 5 ≠ 0) || g 7 ≠ 0

/-- A channel entry, against the team entries. -/
def badChanEntry (teams : List (List Word)) (w : List Word) : Bool :=
  let t := bits (w.getD 3 0) 9 0
  bits (w.getD 3 0) 63 10 ≠ 0 || teams.length ≤ t ||
    badChan (w.getD 0 0) (w.getD 1 0) (w.getD 2 0) (bits ((teams.getD t []).getD 0 0) 25 16 * 65536)

/-- A preset's descriptor words and number. -/
def presetWords (w : List Word) : List Word := w.take 7 ++ [0]
def presetNum (w : List Word) : Nat := bits (w.getD 7 0) 7 0

/-- A team's presets fail the checks of R159 within its own allotment and among themselves. -/
def badPresets (spm : Nat) : List (List Word) → Bool
  | [] => false
  | w :: ws =>
    let x := windowOf (presetWords w) 0 (presetNum w) 0
    bits (w.getD 7 0) 63 8 ≠ 0 || badWindow (presetWords w) || selfOverlap x || spm < x.base + x.bytes ||
      (ws.any fun v =>
        let y := windowOf (presetWords v) 0 (presetNum v) 0
        presetNum v = presetNum w || meet x.base x.bytes y.base y.bytes) || badPresets spm ws

/-- VMCTX of a record's processes. -/
def recVmctx (own : Word) (hdr : List Word) : Word := (if hdr.getD 1 0 = 0 then own else hdr.getD 1 0) &&& vmctxMask

/-- Reads and checks a record: `line` reads a line of it, `wline` a line of a WLIST in the launch's address space. None: it is
malformed. -/
def readRecord {m : Type → Type} [Monad m] (line : Word → m (List Word)) (wline : Word → Word → m (List Word)) (host : Bool)
    (own a : Word) : m (Option LaunchRec) := do
  let hdr ← line a
  if badHeader host a hdr then pure none
  else
    let teams ← (List.range (recTeams hdr)).mapM fun i => line (a + BitVec.ofNat 64 (64 + 64 * i))
    let tail ← (List.range ((recChans hdr + 1) / 2)).mapM fun i => line (a + BitVec.ofNat 64 (64 + 64 * teams.length + 64 * i))
    let chans := (tail.flatMap fun l => [l.take 4, l.drop 4]).take (recChans hdr)
    if (teams.any badTeam) || chans.any (badChanEntry teams) then pure none
    else
      let presets ← teams.mapM fun t =>
        (List.range (bits (t.getD 6 0) 8 0)).mapM fun i => wline (recVmctx own hdr) (t.getD 5 0 + BitVec.ofNat 64 (64 * i))
      if (teams.zip presets).any fun e => badPresets (bits (e.1.getD 0 0) 25 16 * 65536) e.2 then pure none
      else pure (some { hdr := hdr, teams := teams, chans := chans, presets := presets })

/-! ### Reading by the launch logic -/

/-- Reads that may fail: the launch logic's, at the line's home. -/
abbrev LogicRead (α : Type) := StateT State Option α

def lineWords (bs : List Byte) : List Word := (List.range 8).map fun i => wordAt bs i

/-- A line at a location; what a line outside the device holds is free (log entry 2). -/
def logicLine (loc : Nat) : LogicRead (List Word) := fun s =>
  if isDev loc || isSram loc then
    let (bs, bad, s) := s.homeRead loc 64
    if bad then none else some (lineWords bs, s)
  else
    let (k, s) := s.freeNat
    some ((List.range 8).map fun i => BitVec.ofNat 64 (k / 2 ^ (64 * i)), s)

/-- A line at a physical address. -/
def physLine (a : Word) : LogicRead (List Word) := fun s => if s.paOk a.toNat then logicLine a.toNat s else none

/-- A line at a global address in an address space. -/
def globalLine (vm a : Word) : LogicRead (List Word) := fun s =>
  if badForm a then none
  else match spaceOf a with
  | 0 => match s.translate (dieXctx 0 (asidOf vm) vm) a.toNat .read with
    | (.error _, _) => none
    | (.ok e, s) => logicLine (leafAddr e a.toNat) s
  | 3 => none
  | _ => logicLine hostBase s

/-- A launch's record as the launch logic reads it. -/
def State.readAgain (s : State) (l : Launch) : Option (Option LaunchRec × State) :=
  if l.phys then readRecord physLine globalLine true 0 l.record s
  else
    let line : Word → LogicRead (List Word) := fun a s =>
      if spaceOf a = 3 then
        match l.issuer.bind s.proc? with
        | some pr => logicLine (sramLoc pr.cl (s.spmOf pr.team + bits a 31 0)) s
        | none => none
      else globalLine l.recVm a s
    readRecord line globalLine false l.recVm l.record s

/-! ## Acceptance (R363) -/

/-- The next launch id of the 32-bit counter that skips 0, and the next team id. -/
def nextLidOf (n : Nat) : Nat := if (n + 1) % 2 ^ 32 = 0 then 1 else (n + 1) % 2 ^ 32
def nextTeamOf (n : Nat) : Nat := if (n + 1) % 2 ^ 24 = 0 then 1 else (n + 1) % 2 ^ 24

/-- The team of a team entry. -/
def teamOf (lid index : Nat) (w : List Word) (presets : List (List Word)) (now : Nat) : Team :=
  let g := fun i => w.getD i 0
  { lid := lid, index := index, nproc := bits (g 0) 8 0, spmsz := bits (g 0) 25 16, entry := g 1, fctl := g 2, pctl := g 3 &&& 1
    dbg := g 4 &&& dbgMask, wlist := g 5, nwin := bits (g 6) 8 0, prio := BitVec.ofNat 3 (bits (g 0) 34 32)
    stage := BitVec.ofNat 4 (bits (g 0) 38 35), tpol := BitVec.ofNat 2 (bits (g 0) 40 39), ppol := BitVec.ofNat 2 (bits (g 0) 42 41)
    presets := presets, enq := now }

/-- The teams at the heads of the class queues begin to stand there (R365). -/
def State.noteHeads (s : State) : State :=
  (List.range 4).foldl (fun s c =>
    match (Tab.getD c s.classQ []).head? with
    | none => s
    | some t =>
      if (s.team? t).any fun k => k.headAt.isNone then
        let firm := bits (s.reg 121) 47 32
        let s := s.modTeam t fun k => { k with headAt := some s.timebase, firmIn := firm }
        if firm = 0 then s else s.schedNs (s.timebase + 1000 * firm) (.teamFirm c)
      else s) s

/-- Every dispatcher looks at the queues, and every die at its backlog. -/
def State.callDispatch (s : State) : State :=
  let dies := List.range s.cdies.length
  let s := dies.foldl (fun s d => s.sched 180 (.dispatchClaim d)) s.noteHeads
  dies.foldl (fun s d => if Tab.getD d s.backlog [] = [] then s else s.sched 190 (.backlogResume d)) s

/-- Accepts a launch under an id: teams, channel indices, channel list and queue places (R363). -/
def State.accept (s : State) (lid : Nat) (l : Launch) (r : LaunchRec) : State :=
  let n := r.teams.length
  let (ids, next) := (List.range n).foldl (fun (a : List Nat × Nat) _ => (a.1 ++ [a.2], nextTeamOf a.2)) ([], s.nextTeam)
  let s := { s with nextTeam := next }
  let s := ((List.range n).zip (r.teams.zip r.presets)).foldl (fun s e =>
    ({ s with teams := Tab.put (ids.getD e.1 0) (teamOf lid e.1 e.2.1 e.2.2 s.timebase) s.teams } : State)) s
  let (decls, nextE) := r.chans.foldl (fun (a : List ChanDecl × Nat) w =>
    (a.1 ++ [{ idx := a.2, word0 := w.getD 0 0, buf := w.getD 1 0, entry := w.getD 2 0, team := ids.getD (bits (w.getD 3 0) 9 0) 0 }],
      nextIdx a.2)) ([], s.nextEp)
  let chans : Tab Word := (List.range decls.length).zip decls |>.map fun e =>
    (e.1, mkHandle (bits e.2.word0 22 17) (bits e.2.word0 16 12) 0 false s.dev e.2.idx)
  let l := { l with teams := ids, decls := decls, chans := chans, vmctx := recVmctx l.recVm r.hdr, mbox := r.hdr.getD 2 0,
                    notify := r.hdr.getD 3 0, lpol := BitVec.ofNat 2 (bits (r.hdr.getD 0 0) 23 22) }
  let s := { s with
    nextEp := nextE
    launches := Tab.put lid l s.launches
    classQ := Tab.put l.cls.toNat (Tab.getD l.cls.toNat s.classQ [] ++ ids) s.classQ }
  s.callDispatch

/-! ## Completion (R93, R95, R373) -/

def execCoalescingWindowClose (vec : Nat) (s : State) : Host.Outcome State Fault Refusal :=
  if (Tab.get? vec s.coalesce).isSome then .next ({ s with coalesce := Tab.del vec s.coalesce }.emit (.msix vec)) else .next s

/-- Launches that hold a place of a store, the host's or a compute die's, until their end is reported (R363). -/
def State.placesUsed (s : State) (die : Option Nat) : Nat :=
  (s.launches.filter fun e => match die with | none => e.2.host.isSome | some d => e.2.host.isNone && e.2.die = d).length +
    (s.recs.filter fun r => r.die = die).length

/-- Unacknowledged writes that a launch leaves behind (R93). -/
def State.leaveWrites (s : State) (lid : Nat) (ids : List Nat) : State :=
  if (s.launch? lid).isSome then { s with leftWrites := s.leftWrites ++ ids.map fun i => (i, lid) } else s

/-- A launch ends with a status and cause of R93; its end is reported once its writes are visible (R373). -/
def State.endLaunch (s : State) (lid status cause : Nat) : State :=
  match s.launch? lid with
  | none => s
  | some l =>
    let n := (s.teams.filter fun e => e.2.lid = lid).length
    let r : EndRecord := {
      lid := lid, notify := l.notify, status := status, cause := cause, die := if l.host.isSome then none else some l.die
      host := l.host.map fun h => (h.1, [field h.2.2.1.toNat 32, 0, BitVec.ofNat 64 h.2.2.2.1.toNat, 0, 0, 0, 0, h.2.2.2.2])
      cls := ((s.teams.filter fun (e : Nat × Team) => e.2.lid = lid).map fun (e : Nat × Team) => e.2.cl).eraseDups }
    { s with
      recs := s.recs ++ [r]
      history := ((lid, (asidOf l.vmctx).toNat, status, cause, n) :: s.history).take 1024
      launches := Tab.del lid s.launches
      teams := s.teams.filter fun (e : Nat × Team) => e.2.lid ≠ lid
      bars := s.bars.map fun (e : Nat × Bar) => (e.1, { e.2 with owner := if e.2.owner = some lid then none else e.2.owner }) }.writeRecords

/-- A launch whose teams have all ended ends: DONE, unless something else was recorded for it. -/
def State.tryEndLaunch (s : State) (lid : Nat) : State :=
  match s.launch? lid with
  | none => s
  | some l =>
    if s.teams.any fun e => e.2.lid = lid && e.2.state ≠ .ended then s
    else s.endLaunch lid ((l.ended.map fun e => e.1).getD 0) ((l.ended.map fun e => e.2).getD 0)

/-- A team ends (R373): what it held is freed, sends to ends that never came to be end with CHAN HANDLE (R363), and the launch
ends with its last team. -/
def State.endTeam (s : State) (t : Nat) : State :=
  match s.team? t with
  | none => s
  | some k =>
    if k.state = .ended ∨ k.state = .draining then s
    else
      let unborn := k.state = .queued || k.state = .claimed
      let held := (s.declsOf t).map fun d => d.idx
      let s := { s with classQ := s.classQ.map fun (e : Nat × List Nat) => (e.1, e.2.filter (· ≠ t)) }
      let s := (s.writeBackAll k.cl).leaveWrites k.lid ((Tab.keys ((s.writeBackAll k.cl).cluster k.cl).wbacks))
      let s := if s.keepsStub t then s.modTeam t fun k => { k with state := .draining }
        else if unborn then s.modTeam t fun k => { k with state := .ended }
        else s.freeTeam t fun _ => false
      let s := if unborn then
          ((s.msgs.filter fun e => e.2.kind = 0 && held.contains e.2.idx && e.2.place.isNone).foldl
            (fun s e => s.sendDone e.1 (.trap 11 2 0) 0) s).wakeOthers
        else s
      let s := s.replicaEnded t
      (s.tryEndLaunch k.lid).callDispatch

/-! ## Forwarded slots (R89, R90, R92, R363) -/

/-- A slot that is refused without a look at its record (R92). -/
def State.badSlot (s : State) (slot : List Word) : Bool :=
  let w0 := slot.getD 0 0
  let lrec := (slot.getD 1 0).toNat
  !(bits w0 7 0 = 1 || bits w0 7 0 = 2) || bits w0 31 11 ≠ 0 || bits (slot.getD 2 0) 63 16 ≠ 0 || lrec % 64 ≠ 0 || !s.paOk lrec

/-- Slots of a queue that wait to be forwarded. -/
def State.waitingSlots (s : State) (q : Nat) : Nat := (s.lreqs.filter fun e => e.2.queue = q && e.2.slot = []).length

/-- The slots that were forwarded take, or will take, every place of the store: forwarding pauses (R90). -/
def State.storeFull (s : State) : Bool := 64 ≤ s.placesUsed none + (s.lreqs.filter fun e => e.2.slot ≠ []).length

/-- A slot, or the wait for one, joins the launch logic's queue. -/
def State.queueSlot (s : State) (q : Nat) (slot : List Word) : State :=
  ({ s with nextReq := s.nextReq + 1, lreqs := Tab.put s.nextReq { queue := q, slot := slot } s.lreqs } : State).sched 0
    (.launchAcceptance s.nextReq)

/-- Where word 0 of the slot of a sequence value lies. -/
def dueAddr (q : Nat) (seq : Word) : Nat := 0x4000 * q + 0x40 * (seq.toNat % 256)

/-- The die reads a slot of the window through its memory-side cache. -/
def State.readSlot (s : State) (q : Nat) (seq : Word) : List Word × State :=
  let a := dueAddr q seq
  let s := (s.touchHome a).2
  ((List.range 8).map fun i => Memory.read64 s.mem (a + 8 * i), s)

/-- Forwards the due slot of a queue when its word 7 is ESEQ: the copy of the slot, with ESEQ stepped; none when it is not valid. -/
def State.takeDue (s : State) (q : Nat) : Option (List Word) × State :=
  let k := Tab.getD q s.queues {}
  let (slot, s) := s.readSlot q k.eseq
  if slot.getD 7 0 ≠ k.eseq then (none, s)
  else (some slot, { s with queues := Tab.put q { k with eseq := k.eseq + 1 } s.queues })

/-- A write left word 7 of a queue's due slot as the queue expects it (R90): the slot is forwarded, or waits while the store is full
and while slots before it wait. -/
def State.lookDue (s : State) (q : Nat) : State :=
  let k := Tab.getD q s.queues {}
  let n := s.waitingSlots q
  let (slot, s) := s.readSlot q (k.eseq + BitVec.ofNat 64 n)
  if slot.getD 7 0 ≠ k.eseq + BitVec.ofNat 64 n then s
  else if s.storeFull || (s.lreqs.any fun e => e.2.slot = []) then s.queueSlot q []
  else match s.takeDue q with
    | (some x, s) => s.queueSlot q x
    | (none, s) => s

def execLaunchSlotLaunch (q : Nat) (slot : List Word) (s : State) : Host.Outcome State Fault Refusal :=
  .next (if s.badSlot slot then s.complRecord q slot 2 0 0 else s.queueSlot q slot)

/-- A NOP slot completes at once. -/
def execLaunchSlotNop (q : Nat) (slot : List Word) (s : State) : Host.Outcome State Fault Refusal :=
  .next (s.complRecord q slot (if s.badSlot slot then 2 else 0) 0 0)

/-- The launch that a slot and its record make. -/
def hostLaunch (q : Nat) (slot : List Word) : Launch :=
  { host := some (q, (slot.getD 7 0).toNat % 256, BitVec.ofNat 32 (bits (slot.getD 0 0) 63 32), BitVec.ofNat 16 (bits (slot.getD 2 0) 15 0),
      slot.getD 7 0)
    issuer := none, die := 0, cls := BitVec.ofNat 2 (bits (slot.getD 0 0) 9 8), span := bit (slot.getD 0 0) 10, vmctx := 0, mbox := 0
    notify := 0, args := (slot.drop 3).take 4, lpol := 0, lrtry := 0, record := slot.getD 1 0, phys := true, recVm := 0, chans := []
    decls := [], teams := [], ended := none }

/-- The launch logic takes the slot at the head of its queue. -/
def State.nextSlot (s : State) : State :=
  match s.lreqs with
  | [] => s
  | (j, _) :: _ => s.sched 0 (.launchAcceptance j)

/-- The launch logic takes a forwarded slot (R92, R363). -/
def State.takeSlot (s : State) (q : Nat) (slot : List Word) : State :=
  if s.badSlot slot then s.complRecord q slot 2 0 0
  else if bits (slot.getD 0 0) 7 0 = 2 then s.complRecord q slot 0 0 0
  else
    let l := hostLaunch q slot
    match s.readAgain l with
    | some (some x, s) => ({ s with nextLid := nextLidOf s.nextLid } : State).accept s.nextLid l x
    | some (none, s) => s.complRecord q slot 2 0 0
    | none => s.complRecord q slot 2 0 0

/-- The slot at the head of the launch logic's queue is taken; one that waited is forwarded now, when a place is free (R90). -/
def execLaunchAcceptance (req : Nat) (s : State) : Host.Outcome State Fault Refusal :=
  match s.lreqs with
  | [] => .next s
  | (k, r) :: rest =>
    if k ≠ req ∨ 64 ≤ s.placesUsed none then .next s
    else
      let s : State := { s with lreqs := rest }
      if r.slot ≠ [] then .next (s.takeSlot r.queue r.slot).nextSlot
      else match s.takeDue r.queue with
        | (some x, s) => .next (s.takeSlot r.queue x).nextSlot
        | (none, s) => .next s.nextSlot

/-! ## LAUNCH and LSTAT (R375, R376) -/

/-- A line of a WLIST as LAUNCH reads it. -/
def wlistLine (p : Pid) (own vm a : Word) : Exec (List Word) := do
  if vm = own then loadBlock p a
  else
    let s ← get
    match spaceOf a with
    | 0 =>
      if badForm a then raiseTrap (trapXlate xForm a false)
      match s.translate (dieXctx 0 (asidOf vm) vm) a.toNat .read with
      | (.error k, s) => do set s; raiseTrap (trapXlate k a false)
      | (.ok e, s) =>
        match logicLine (leafAddr e a.toNat) s with
        | some (ws, s) => do set s; pure ws
        | none => do set s; raiseTrap (trapPoison a false)
    | _ => loadBlock p a

def execLaunch (m : Mods) (d rs : SReg) (t : Bool) (s : State) : Host.Outcome State Fault Refusal :=
  runExec m (lenOf m true false) true s fun p pr => do
    release p scDevice false
    let a := pr.ctx.rs rs
    let own := pr.ctx.vmctx
    match ← readRecord (loadBlock p) (wlistLine p own) false own a with
    | none => raiseTrap { cls := 24, kind := 1 }
    | some r => do
      let s ← get
      let cls := bits (r.hdr.getD 0 0) 20 19
      let mine := ((s.launch? pr.lid).map fun l => l.cls.toNat).getD 0
      guardTrap (pr.svc.isNone && (recVmctx own r.hdr ≠ own || cls < mine)) (trapPrivilege 1)
      let die := pr.cl / 8
      let ahead := s.waitLaunch.filter fun q => q ≠ p && (s.proc? q).any fun x => x.cl / 8 = die
      let first := match s.waitLaunch.find? fun q => (s.proc? q).any fun x => x.cl / 8 = die with
        | some q => decide (q = p)
        | none => true
      let rest := s.waitLaunch.filter (· ≠ p)
      if 64 ≤ s.placesUsed (some die) || !(first || ahead = []) then
        if t then do
          modS fun s => { s with waitLaunch := rest }
          setS p d 0
          pure {}
        else do
          if !s.waitLaunch.contains p then modS fun s => { s with waitLaunch := s.waitLaunch ++ [p] }
          waitOn .other 0 0
      else do
        let l : Launch := {
          host := none, issuer := some p, die := die, cls := BitVec.ofNat 2 cls, span := bit (r.hdr.getD 0 0) 21, vmctx := own, mbox := 0
          notify := 0, args := (r.hdr.drop 4).take 4, lpol := 0, lrtry := 0, record := a, phys := false, recVm := own, chans := []
          decls := [], teams := [], ended := none }
        let lid := s.nextLid
        modS fun s => ({ s with nextLid := nextLidOf lid, waitLaunch := rest } : State).accept lid l r
        setS p d (BitVec.ofNat 64 lid)
        pure {}

/-- The LSTAT word (R376), with whether it reports an end. -/
def State.lstatWord (s : State) (asid : BitVec 16) (x : Word) : Word × Bool :=
  let id := x.toNat
  match s.launch? id with
  | some l =>
    if asidOf l.vmctx ≠ asid then (0, false)
    else
      let ts := (s.teams.filter fun e => e.2.lid = id).map fun (e : Nat × Team) => e.2
      let queued := (ts.filter fun k => k.state = .queued || k.state = .claimed || k.state = .backlog).length
      let live := (ts.filter fun k => k.state = .running || k.state = .suspended || k.state = .draining).length
      let done := (ts.filter fun k => k.state = .ended).length
      let begun := ts.any fun k => k.disp ≠ 0 || k.state = .running || k.state = .suspended || k.state = .backlog
      (field (if begun then 2 else 1) 62 ||| field queued 20 ||| field live 10 ||| field done 0, false)
  | none =>
    match s.history.find? fun e => e.1 = id with
    | some (_, a, status, cause, n) =>
      if a ≠ asid.toNat then (0, false) else (field 3 62 ||| field status 48 ||| field cause 40 ||| field n 0, true)
    | none => if 0 < id ∧ id < s.nextLid ∧ 1024 ≤ s.history.length then (field 3 62 ||| field 0xFF 48, true) else (0, false)

def execLstat (m : Mods) (d rs : SReg) (s : State) : Host.Outcome State Fault Refusal :=
  runExec m (lenOf m true false) true s fun p pr => do
    let s ← get
    let (w, ended) := s.lstatWord (asidOf pr.ctx.vmctx) (pr.ctx.rs rs)
    if ended then acquire p scDevice
    setS p d w
    pure {}

end Sys2Proof.Machine
end

