-- ==== Sys2Proof/Machine/Sched.lean ====
section
/-! DEFINITION. Scheduling: barrel slots, stealing, priorities and slices (R367 to R369), dispatch and firmness (R365), class
pre-emption, the backlog and migration (R371, R372), and saved receives (R136 to R138). -/

namespace Sys2Proof.Machine

/-! ## Barrel slots (R367, R368) -/

/-- The first priority whose queue on a core is not empty. -/
def State.bestPrio (s : State) (cl core : Nat) : Option Nat := (List.range 8).find? fun q => s.readyAt cl core q ≠ []

/-- A process takes a slot of a core. -/
def State.occupy (s : State) (p : Pid) (core k : Nat) : State :=
  match s.proc? p with
  | none => s
  | some pr =>
    let moved := pr.core ≠ core
    let s := s.unready p
    let s := s.setProc p { pr with
      state := .running, core := core, slot := some k, slotAt := s.timebase, issueAt := max pr.issueAt s.cycles, hasRun := true
      slice := bits (s.reg 121) 15 0 }
    let s := if moved then s.barMoved p else s
    let slice := bits (s.reg 121) 15 0
    if slice = 0 then s else s.schedNs (s.timebase + 1000 * slice) (.timeSliceExpiry p)

/-- A process blocked for a long wait, outside every pinned block, whose slot a READY process may take (R368). -/
def Proc.yieldsSlot (pr : Proc) : Bool :=
  pr.state = .blocked && pr.slot.isSome && pr.loop.isNone && pr.chunk.isNone &&
    !(pr.wkind = .window || pr.wkind = .lease || pr.wkind = .reply || pr.wkind = .place)

/-- A free slot of a core takes the head of its highest-priority queue. -/
def execSlotRefill (cl core : Nat) (s : State) : Host.Outcome State Fault Refusal :=
  if (s.cluster cl).dm.phase ≠ .running ∨ 31 ≤ core then .next s
  else match s.bestPrio cl core with
    | none => .next (if (s.freeSlot cl core).isSome then s.sched 6 (.workSteal cl core) else s)
    | some q =>
      match s.readyAt cl core q, s.freeSlot cl core with
      | p :: _, some k =>
        let s := s.occupy p core k
        .next (if (s.bestPrio cl core).isSome then s.sched 6 (.slotRefill cl core) else s)
      | p :: _, none =>
        match s.procs.find? fun e => e.2.cl = cl && e.2.core = core && e.2.yieldsSlot with
        | none => .next s
        | some (v, pv) =>
          let s := s.leaveCore v
          let s := match pv.slot with | some k => s.occupy p core k | none => s
          .next (if (s.bestPrio cl core).isSome then s.sched 6 (.slotRefill cl core) else s)
      | [], _ => .next s

/-- Processes READY at one priority on a core. -/
def State.readyNum (s : State) (cl core q : Nat) : Nat := (s.readyAt cl core q).length

/-- The core other than `me` with the most READY processes at a priority. -/
def State.richest (s : State) (cl me q : Nat) : Option Nat :=
  ((List.range 31).filter fun k => k ≠ me && s.readyNum cl k q ≠ 0).foldl
    (fun (b : Option Nat) k => match b with
      | none => some k
      | some j => if s.readyNum cl j q < s.readyNum cl k q then some k else some j) none

/-- A core with a free slot and empty queues takes a READY process of another core. -/
def execWorkSteal (cl core : Nat) (s : State) : Host.Outcome State Fault Refusal :=
  if (s.cluster cl).dm.phase ≠ .running ∨ 31 ≤ core ∨ (s.bestPrio cl core).isSome then .next s
  else match s.freeSlot cl core, (List.range 8).find? fun q => (s.richest cl core q).isSome with
    | some k, some q =>
      match s.richest cl core q with
      | some from_ =>
        match s.readyAt cl from_ q with
        | p :: _ =>
          let s := s.occupy p core k
          .next (if (s.freeSlot cl core).isSome then s.sched 6 (.workSteal cl core) else s)
        | [] => .next s
      | none => .next s
    | _, _ => .next s

/-! ## Priorities and slices (R369) -/

/-- Whether a drain or zeroing of a process is in progress. -/
def State.draining (s : State) (p : Pid) (pr : Proc) : Bool :=
  (s.cluster pr.cl).slots.any fun e => match e.2.cmd with
    | some (q, .drain _ _ _) | some (q, .drained _ _ _) | some (q, .zero) => q = p
    | _ => false

/-- A slice or pass of a process's MMA is in progress: it is finished before the process leaves its core (R272). -/
def State.inSlice (s : State) (p : Pid) (pr : Proc) : Bool :=
  (s.cluster pr.cl).slots.any fun e => match e.2.cmd with
    | some (q, .mma _ none) => q = p && s.queue.any fun x => x.2 = Instr.sliceComplete pr.cl e.1
    | _ => false

/-- A RUNNING process is to leave its core as soon as its reductions, its pinned block and its chunk allow (R238, R298). -/
def State.beginLeave (s : State) (p : Pid) : State :=
  match s.proc? p with
  | none => s
  | some pr =>
    if pr.loop.isNone && pr.pend = 0 && !s.inSlice p pr then s.preempt p
    else ((s.setProc p { pr with leaving := true }).endChunk p).sched 4 (.timeSliceExpiry p)

/-- A process that has to leave its core when it is pre-empted: it runs, or waits out of rotation in its slot for a lease, a locked
slot or an MMA (R273); a drain or zeroing is never stopped (R267). -/
def State.onCore (s : State) (p : Pid) (pr : Proc) : Bool :=
  pr.state = .running || (pr.state = .blocked && pr.wkind = .lease && pr.slot.isSome && !s.draining p pr)

/-- A process has had its slice while another of equal or higher priority is READY on its core. -/
def State.sliceOver (s : State) (p : Pid) (pr : Proc) : Bool :=
  s.onCore p pr && pr.slice ≠ 0 && pr.slotAt + 1000 * pr.slice ≤ s.timebase &&
    ((s.bestPrio pr.cl pr.core).any fun q => q ≤ pr.prio.toNat)

def execTimeSliceExpiry (pid : Pid) (s : State) : Host.Outcome State Fault Refusal :=
  match s.proc? pid with
  | none => .next s
  | some pr =>
    if (s.cluster pr.cl).dm.phase ≠ .running ∨ pr.slot.isNone then .next s
    else if pr.leaving then
      if pr.state = .running then
        if pr.loop.isNone && pr.pend = 0 then .next (s.preempt pid) else .next (s.sched 4 (.timeSliceExpiry pid))
      else if pr.state = .blocked && (pr.loop.isSome || s.inSlice pid pr) then .next s
      else .next (s.setProc pid { pr with leaving := false })
    else if s.sliceOver pid pr then .next ((s.countCore pr.cl pr.core 11).beginLeave pid)
    else .next s

/-- The RUNNING process of a core with the highest PRIO number; on a tie, the one that has run longest. -/
def State.weakest (s : State) (cl core : Nat) : Option (Pid × Proc) :=
  (s.procs.filter fun e => e.2.cl = cl && e.2.core = core && e.2.slot.isSome && s.onCore e.1 e.2 && !e.2.leaving).foldl
    (fun (b : Option (Pid × Proc)) e => match b with
      | none => some e
      | some x => if x.2.prio < e.2.prio ∨ (x.2.prio = e.2.prio ∧ e.2.slotAt < x.2.slotAt) then some e else some x) none

/-- The process that retired last did so on this core just now (R372). -/
def State.justRetired (s : State) (cl core : Nat) : Bool :=
  s.lastExit.any fun x => x.2.1 = cl && x.2.2.1 = core && s.cycles ≤ x.1 + 1

/-- A READY process finds every slot of its core held (R369): a lower-priority process is pre-empted, and one whose slice is over
reaches its expiry. A pre-emption that falls with a retirement is dropped (R372). -/
def execPriorityPreemption (cl core : Nat) (s : State) : Host.Outcome State Fault Refusal :=
  if (s.cluster cl).dm.phase ≠ .running then .next s
  else match s.bestPrio cl core with
    | none => .next s
    | some q =>
      let expired := s.procs.filter fun e => e.2.cl = cl && e.2.core = core && s.sliceOver e.1 e.2 && !e.2.leaving
      let s := expired.foldl (fun s e => s.sched 0 (.timeSliceExpiry e.1)) s
      if (s.freeSlot cl core).isSome then .next (if s.justRetired cl core then s.countCore cl core 10 else s)
      else if s.procs.any fun e => e.2.cl = cl && e.2.core = core && e.2.yieldsSlot then .next (s.sched 0 (.slotRefill cl core))
      else match s.weakest cl core with
        | none => .next s
        | some (p, pr) => if q < pr.prio.toNat then .next ((s.countCore cl core 12).beginLeave p) else .next s

/-! ## Saved receives (R136 to R138) -/

/-- The handle under which a message was sent: for a memory server's reply, the server's own (R137). -/
def State.senderHandle (s : State) (m : Msg) : Word :=
  match m.kind, m.sender, m.origin, m.site with
  | 2, none, none, some site => mkHandle m.efmt.toNat m.sclass.toNat 1 true s.dev (4 * (site / 8) + site % 8 / 2)
  | _, _, _, _ => mkHandle m.efmt.toNat m.sclass.toNat m.kind true s.dev m.idx

/-- The rendezvous record of a request (R137); `off` is its area's offset in the allotment. -/
def rendezRecord (s : State) (r : GReq) (id : Nat) (m : Msg) (off : Nat) : List Word :=
  let granted := min r.len (r.pfx + (r.granted.map fun u => unitBytes r u).sum)
  let ser := r.toks.map fun t => t.serial.toNat
  let sers := ((List.range 4).map fun i => ser.getD i 0 * 2 ^ (16 * i)).sum
  let rcv := fun w => ((r.rcv.filter fun u => u / 64 = w).map fun u => 2 ^ (u % 64)).sum
  [field 1 63 ||| field r.toks.length 56 ||| field r.cls.toNat 54 ||| field granted 21 ||| field r.len 0,
   s.senderHandle m,
   field (id % 2 ^ 32) 32 ||| field off 0,
   BitVec.ofNat 64 (rcv 0), BitVec.ofNat 64 (rcv 1), BitVec.ofNat 64 (rcv 2), BitVec.ofNat 64 (rcv 3), BitVec.ofNat 64 sers]

/-- Where a message stands whose request was saved: at no cluster. -/
def savedPlace : Nat × Nat := (4096, 0)

/-- Saves the grant state of a process's receive (R136): its tokens are revoked, the record is written, the entry is freed. -/
def State.saveReceive (s : State) (p : Pid) : State :=
  match s.proc? p with
  | none => s
  | some pr =>
    match (s.cluster pr.cl).greqs.find? fun e => e.2.matched && e.2.rcvr = some p with
    | none => s
    | some (k, r) =>
      match s.reqMsg r with
      | none => s
      | some (id, m) =>
        let rec_ := rendezRecord s r id m (r.dest - sramLoc pr.cl (s.spmOf pr.team))
        let ser := r.toks.map fun t => t.serial
        let s := s.modMsg id fun m => { m with dropped := m.dropped ++ ser, place := some savedPlace }
        let s := match m.origin with
          | some (dev, tag) => s.sendBody (s.clusterSite pr.cl) dev false (.revoke tag ser) []
          | none => s
        let s := s.dropReq pr.cl k
        s.modProc p fun pr => { pr with ctx := { pr.ctx with rendez := (List.range 8).zip rec_ } }

def unionOf (a b : List Nat) : List Nat := a.foldl (fun l n => insertNat n l) b

/-- Rebuilds the request of a saved receive (R138); a full store is tried again later. -/
def State.rebuildReceive (s : State) (p : Pid) : State :=
  match s.proc? p with
  | none => s
  | some pr =>
    let w := fun i => Tab.getD i pr.ctx.rendez 0
    if !bit (w 0) 63 || (s.cluster pr.cl).greqs.any (fun e => e.2.rcvr = some p) then s
    else
      let id := bits (w 2) 63 32
      match s.msg? id with
      -- its sender is gone: an orphan (R134)
      | none => (s.modCluster pr.cl fun c => { c with gOrph := satCount c.gOrph 8 }).endOp p (.status 3) 0
      | some m =>
        let len := bits (w 0) 20 0
        let pfx := min len 1024
        let all := (List.range (unitsOf len)).filter fun u => min len (4096 * (u + 1)) ≤ bits (w 0) 41 21
        let units := (List.range 256).filter fun u => bit (w (3 + u / 64)) (u % 64)
        let e := match s.msgTarget m with | some (.ep c e) => if c = pr.cl then some e else none | _ => none
        let r : GReq := {
          src := .msg id, len := len, pfx := pfx, ep := e, cls := BitVec.ofNat 2 (bits (w 0) 55 54), arrival := s.timebase
          matched := true, rcvr := some p, dest := sramLoc pr.cl (s.spmOf pr.team + bits (w 2) 31 0), rcv := units
          granted := unionOf all units, toks := [], lastAcc := 0 }
        match s.addReq pr.cl m.site r with
        | (s, some k) => (s.modMsg id fun m => { m with place := some (pr.cl, k) }).kickGrant pr.cl
        | (s, none) => s.sched (nsCycles 2000) (.backlogResume (pr.cl / 8))

/-! ## Suspending a team (R371, R417, R418) -/

/-- One process of a suspended team goes as far as it can toward SUSPENDED. -/
def State.suspendProc (s : State) (p : Pid) : State :=
  match s.proc? p with
  | none => s
  | some pr =>
    match pr.state with
    | .ready =>
      if pr.chunk.isSome then s
      else (s.unready p).modProc p fun pr => { pr with state := .suspended, before := some .ready }
    | .running =>
      if pr.chunk.any fun c => c.ended then s
      else if pr.chunk.any fun c => c.count ≠ 0 then (s.setProc p { pr with leaving := true }).endChunk p
      else if pr.loop.isSome ∨ pr.pend ≠ 0 then s.setProc p { pr with leaving := true }
      else (s.leaveCore p).modProc p fun pr => { pr with state := .suspended, before := some .ready, chunk := none }
    | .blocked =>
      -- new tokens of its receive stop first (R136)
      let s := s.modCluster pr.cl fun c => { c with
        greqs := c.greqs.map fun (e : Nat × GReq) => (e.1, if e.2.matched && e.2.rcvr = some p then { e.2 with halted := true } else e.2) }
      if s.draining p pr then s
      else if pr.loop.isSome || s.inSlice p pr then s.setProc p { pr with leaving := true }
      else if pr.pend ≠ 0 || (pr.chunk.any fun c => c.ended) || pr.op.any (fun o => amoKey ≤ o.key && o.key < amoKey + 2 && o.res = .waiting) then s
      else if pr.chunk.any fun c => c.count ≠ 0 then s.endChunk p
      else
        -- an access that is not performed is abandoned; other waits go on
        let short := pr.wkind = .window || pr.wkind = .lease || pr.wkind = .reply || pr.wkind = .place || pr.wkind = .other
        let s := s.saveReceive p
        (s.leaveCore p).modProc p fun q =>
          if short then { q with
            state := .suspended, before := some .ready, chunk := none, wkind := .nothing, wait := 0
            op := q.op.filter fun o => o.key = arrKey && o.res ≠ .waiting }
          else { q with state := .suspended, before := some .blocked, chunk := none }
    | _ => s

/-- Nothing of a team is under way any more: every process is SUSPENDED, no array command and no transfer into a buffer runs. -/
def State.quiet (s : State) (t cl : Nat) : Bool :=
  (s.procs.all fun e => e.2.team ≠ t || e.2.state = .suspended) &&
    ((s.cluster cl).slots.all fun e => e.2.team ≠ t || e.2.cmd.isNone) &&
    ((s.cluster cl).greqs.all fun e => !e.2.matched || (e.2.ep.all fun k => (s.endp? cl k).all fun n => n.team ≠ t))

/-- A suspended team whose processes have all left enters the backlog of its die. -/
def State.intoBacklog (s : State) (t : Nat) : State :=
  match s.team? t with
  | none => s
  | some k =>
    let die := k.cl / 8
    let s := s.modTeam t fun k => { k with state := .backlog, susp := s.timebase, advIn := max 1 (bits (s.reg 121) 31 16) }
    let s := { s with backlog := Tab.put die (Tab.getD die s.backlog [] ++ [t]) s.backlog }
    let s := (s.procs.filter fun e => e.2.team = t).foldl (fun s e => s.barMoved e.1) s
    let adv := 1000 * max 1 (bits (s.reg 121) 31 16)
    (List.range s.cdies.length).foldl (fun s d =>
      if s.queue.any fun q => q.2 = .advertisement d then s else s.schedNs ((s.timebase / adv + 1) * adv) (.advertisement d)) s

/-! ## Dispatch (R365, R366) -/

/-- The oldest team that fits a die, from the lowest-numbered class queue that holds one, and its cluster. -/
def State.claimable (s : State) (die : Nat) : Option (Nat × Nat × Nat) :=
  (List.range 4).findSome? fun c =>
    (Tab.getD c s.classQ []).findSome? fun t => if s.mayClaim c t then (s.holder die t).map fun cl => (c, t, cl) else none

/-- Takes a team out of its class queue. -/
def State.unqueue (s : State) (t : Nat) : State :=
  ({ s with classQ := s.classQ.map fun (e : Nat × List Nat) => (e.1, e.2.filter (· ≠ t)) } : State).noteHeads

/-- The class of a team's launch. -/
def State.classOf (s : State) (t : Nat) : Nat :=
  (((s.team? t).bind fun k => s.launch? k.lid).map fun l => l.cls.toNat).getD 3

/-- The team whose suspension would let team t onto a die (R371): of the greatest class above t's, the one dispatched last. -/
def State.victimFor (s : State) (die t : Nat) : Option Nat :=
  let c := s.classOf t
  let fits : Nat × Team → Bool := fun e =>
    (s.modTeam e.1 fun k => { k with state := .backlog }).canHold e.2.cl t
  let l := s.teams.filter fun e => e.2.state = .running && e.2.cl / 8 = die && c < s.classOf e.1 && fits e &&
    (s.procs.any fun q => q.2.team = e.1)
  (l.foldl (fun (b : Option (Nat × Team)) e => match b with
    | none => some e
    | some x =>
      let a := s.classOf e.1
      let d := s.classOf x.1
      if d < a ∨ (a = d ∧ x.2.disp ≤ e.2.disp) then some e else some x) none).map fun e => e.1

/-- The head team of a class that fits no cluster of the device and may be claimed for pre-emption by a die. -/
def State.preemptable (s : State) (die : Nat) : Option (Nat × Nat) :=
  (List.range 4).findSome? fun c =>
    match (Tab.getD c s.classQ []).head? with
    | none => none
    | some t =>
      if s.mayClaim c t && (List.range s.cdies.length).all fun d => (s.holder d t).isNone then
        (s.victimFor die t).map fun v => (t, v)
      else none

def execDispatchClaim (die : Nat) (s : State) : Host.Outcome State Fault Refusal :=
  let s := (Tab.keys s.launches).foldl (fun s l => s.tryEndLaunch l) s
  if s.cdies.length ≤ die ∨ s.mgmt.throttle then .next s
  else match s.claimable die with
    | some (_, t, cl) => .next (((s.unqueue t).dispatch t cl).sched 6 (.dispatchClaim die))
    | none => if (s.preemptable die).isSome then .next (s.sched 6 (.classPreemption die)) else .next s

/-- The head of a class queue becomes firm once it has stood there for FIRM µs (R365). -/
def execTeamFirm (cls : Nat) (s : State) : Host.Outcome State Fault Refusal :=
  match (Tab.getD cls s.classQ []).head? with
  | none => .next s
  | some t =>
    let due := (s.team? t).any fun k => k.firmIn ≠ 0 && k.headAt.any fun a => a + 1000 * k.firmIn ≤ s.timebase
    if due && (List.range s.cdies.length).all fun d => (s.holder d t).isNone then
      .next (s.modTeam t fun k => { k with firm := true })
    else .next s

/-! ## Class pre-emption (R371, R372) -/

/-- Puts a claimed team back where its enqueue time belongs in its class queue. -/
def State.requeue (s : State) (t : Nat) : State :=
  match s.team? t with
  | none => s
  | some k =>
    let c := s.classOf t
    let q := Tab.getD c s.classQ []
    let older := q.takeWhile fun u => (s.team? u).any fun x => x.enq ≤ k.enq && u < t
    let s := s.modTeam t fun k => { k with state := .queued, victim := none }
    ({ s with classQ := Tab.put c (older ++ [t] ++ q.drop older.length) s.classQ } : State).callDispatch

/-- A dispatcher claims a head team and suspends a running team for it; while that team's processes leave, the step comes again.
A victim that retired meanwhile leaves its slot in the ordinary way (R372). -/
def execClassPreemption (die : Nat) (s : State) : Host.Outcome State Fault Refusal :=
  match s.teams.find? fun e => e.2.state = .claimed && e.2.victim.isSome && e.2.cl / 8 = die with
  | some (t, k) =>
    match k.victim.bind fun v => (s.team? v).map fun x => (v, x) with
    | none => .next (s.requeue t)
    | some (v, x) =>
      if x.state ≠ .suspended then
        let s := if s.lastExit.any fun e => e.2.2.2 && s.cycles ≤ e.1 + 8 then s.countCore k.cl 0 10 else s
        .next (s.requeue t)
      else
        let s := (s.procs.filter fun e => e.2.team = v).foldl (fun s e => s.suspendProc e.1) s
        if s.quiet v x.cl then
          let s := s.intoBacklog v
          match s.holder die t with
          | some cl => .next ((s.dispatch t cl).callDispatch)
          | none => .next (s.requeue t)
        else .next (s.sched 8 (.classPreemption die))
  | none =>
    if (s.claimable die).isSome then .next (s.sched 0 (.dispatchClaim die))
    else match s.preemptable die with
      | none => .next s
      | some (t, v) =>
        let cl := ((s.team? v).map fun k => k.cl).getD 0
        let s := s.unqueue t
        let s := s.modTeam t fun k => { k with state := .claimed, victim := some v, cl := cl }
        let s := s.modTeam v fun k => { k with state := .suspended }
        let s := (s.procs.filter fun e => e.2.team = v).foldl (fun s e => s.suspendProc e.1) s
        .next (s.sched 8 (.classPreemption die))

/-! ## The backlog (R371) -/

/-- One process of a resumed team goes on; `moved`: on another cluster, where it performs its acquire (R318). -/
def State.resumeProc (s : State) (p : Pid) (moved : Bool) : State :=
  match s.proc? p with
  | none => s
  | some pr =>
    let pr := { pr with acquireDue := pr.acquireDue || moved, leaving := false }
    if pr.before = some .blocked then
      ((s.setProc p { pr with state := .blocked, before := none }).rebuildReceive p).barMoved p
    else ((s.setProc p { pr with before := none }).makeReady p).barMoved p

/-- Resumes a team of the backlog on a cluster that can take it. -/
def State.resumeTeam (s : State) (t cl : Nat) : State :=
  match s.team? t with
  | none => s
  | some k =>
    let stay := k.cl = cl && k.luggage.isNone
    let s := s.unbacklog t
    let s := if stay then s.modTeam t fun k => { k with state := .running }
      else
        let s := s.writeBackAll k.cl
        let ps := s.procs.filter fun e => e.2.team = t
        let s := ps.foldl (fun s e => s.flushRegs e.1) s
        let s := s.lift t
        let s := s.seat t cl
        let s := { s with procs := s.procs.map fun (e : Nat × Proc) =>
          (e.1, if e.2.team = t then { e.2 with cl := cl, core := 0, hasRun := decide (k.cl = cl) && e.2.hasRun } else e.2) }
        let s := if k.cl = cl then s else ps.foldl (fun s e => s.resave e.1 e.2) s
        (s.unpack t).moveEnds t k.cl cl
    let s := (s.procs.filter fun e => e.2.team = t).foldl (fun s e => s.resumeProc e.1 (k.cl ≠ cl)) s
    let s := if stay then s
      else (s.procs.filter fun e => e.2.team = t && bits e.2.dbgEn 8 5 ≠ 0).foldl (fun s e => s.rearm e.1) s
    let s := ((s.cluster cl).endps.filter fun e => e.2.team = t).foldl (fun s e => s.settle cl e.1) s
    s.wakeOthers

/-- A cluster of a die that can take a backlog team, its own first. -/
def State.lander (s : State) (die t : Nat) : Option Nat :=
  let own := ((s.team? t).map fun k => k.cl).getD 0
  if own / 8 = die && s.canLand t own then some own else (clustersOf die).find? fun cl => s.canLand t cl

/-- The oldest team of a die's backlog resumes when space has freed; saved receives that found no entry are taken up again. -/
def execBacklogResume (die : Nat) (s : State) : Host.Outcome State Fault Refusal :=
  let s := (s.procs.filter fun e => e.2.cl / 8 = die && e.2.state = .blocked && bit (Tab.getD 0 e.2.ctx.rendez 0) 63).foldl
    (fun s e => s.rebuildReceive e.1) s
  match Tab.getD die s.backlog [] with
  | [] => .next s
  | t :: _ =>
    match s.lander die t with
    | some cl => .next ((s.resumeTeam t cl).sched 6 (.backlogResume die))
    | none => .next s

/-- A die advertises what is free: each die with a backlog hears of a cluster that takes its oldest team. -/
def execAdvertisement (die : Nat) (s : State) : Host.Outcome State Fault Refusal :=
  let busy := s.backlog.filter fun e => e.2 ≠ []
  if busy = [] ∨ s.cdies.length ≤ die then .next s
  else
    let s := busy.foldl (fun s e =>
      match e.2 with
      | t :: _ =>
        if e.1 = die then s.sched 0 (.backlogResume die)
        else match (clustersOf die).find? fun cl => s.canLand t cl with
          | some cl => s.sched 180 (.advertisementReceipt e.1 cl)
          | none => s
      | [] => s) s
    let adv := 1000 * max 1 (bits (s.reg 121) 31 16)
    .next (s.schedNs ((s.timebase / adv + 1) * adv) (.advertisement die))

/-- A die whose backlog has held a team for longer than one interval migrates its oldest team to an advertising cluster. -/
def execAdvertisementReceipt (die toCl : Nat) (s : State) : Host.Outcome State Fault Refusal :=
  match Tab.getD die s.backlog [] with
  | [] => .next s
  | t :: _ =>
    if ((s.team? t).any fun k => k.susp + 1000 * k.advIn < s.timebase) && s.canLand t toCl && (s.lander die t).isNone then
      let old := ((s.team? t).map fun k => k.cl).getD 0
      .next (((s.writeBackAll old).lift t).sched 600 (.teamMigrationArrival t toCl))
    else .next s

/-- A migrating team arrives and resumes (R143, R156, R176, R262, R318, R327). -/
def execTeamMigrationArrival (team toCl : Nat) (s : State) : Host.Outcome State Fault Refusal :=
  if ((s.team? team).any fun k => k.state = .backlog) && s.canLand team toCl then .next (s.resumeTeam team toCl) else .next s

end Sys2Proof.Machine
end

