-- ==== Sys2Proof/Machine/Slices.lean ====
section
/-! DEFINITION. Arithmetic of the matrix array and of the memory-side MVM units: modes, shapes and the sums of a k-slice (R205, R218,
R268 to R270, R276, R281). -/

namespace Sys2Proof.Machine

/-- Format of A and of B in a mode (R268). -/
def modeA : Mode → Tag
  | .bf16 => .bf16 | .f8a => .f8a | .f8ab => .f8a | .f8ba => .f8b | .f8b => .f8b | .int8 => .int8 | .dy8 => .int8 | .int4x2 => .int4x2
def modeB : Mode → Tag
  | .bf16 => .bf16 | .f8a => .f8a | .f8ab => .f8b | .f8ba => .f8a | .f8b => .f8b | .int8 => .int8 | .dy8 => .dy8 | .int4x2 => .int4x2
/-- Float modes are 0 to 4. -/
def modeFloat : Mode → Bool | .int8 | .dy8 | .int4x2 => false | _ => true
/-- Products of a k-slice. -/
def modeSlice : Mode → Nat | .bf16 => 16 | _ => 32
/-- Bits of one element of A, and of one element of B. -/
def modeWidth : Mode → Nat | .bf16 => 16 | .int4x2 => 4 | _ => 8
/-- A mode by its code (R37); 8 to 15 are reserved. -/
def modeOf? : Nat → Option Mode
  | 0 => some .bf16 | 1 => some .f8a | 2 => some .f8ab | 3 => some .f8ba | 4 => some .f8b
  | 5 => some .int8 | 6 => some .dy8 | 7 => some .int4x2 | _ => none

/-- Most columns N of a mode. -/
def modeCols (m : Mode) : Nat := if modeFloat m then 512 else 1024

/-- A shape operand (R269): M, N, K and the row strides in bytes, 0 for packed. -/
structure Shape where
  m : Nat
  n : Nat
  k : Nat
  astr : Nat
  bstr : Nat
  deriving DecidableEq, Repr

def shapeOf (sm : Word) : Shape :=
  { m := bits sm 8 0 + 1
    n := bits sm 18 9 + 1
    k := bits sm 38 19 + 1
    astr := 64 * bits sm 50 39
    bstr := 64 * bits sm 62 51 }

/-- Bytes of a row of `n` elements, and the packed stride (R270). -/
def rowBytes (md : Mode) (n : Nat) : Nat := (n * modeWidth md + 7) / 8
def up64 (n : Nat) : Nat := (n + 63) / 64 * 64

/-- Strides in force. -/
def Shape.strideA (x : Shape) (md : Mode) : Nat := if x.astr = 0 then up64 (rowBytes md x.m) else x.astr
def Shape.strideB (x : Shape) (md : Mode) : Nat := if x.bstr = 0 then up64 (rowBytes md x.n) else x.bstr

/-- Whether a shape breaks R269 or a stride is shorter than its row (R270). -/
def Shape.bad (x : Shape) (md : Mode) (sm : Word) : Bool :=
  bit sm 63 || modeCols md < x.n || x.strideA md < rowBytes md x.m || x.strideB md < rowBytes md x.n

/-- Slices of a shape (R271). -/
def Shape.slices (x : Shape) (md : Mode) : Nat := (x.k + modeSlice md - 1) / modeSlice md

/-- Rows of slice j: from `modeSlice × j` on, and how many. -/
def Shape.rowsOf (x : Shape) (md : Mode) (j : Nat) : Nat := min (modeSlice md) (x.k - modeSlice md * j)

/-- The pairs of elements one output multiplies in a slice: element m of each row of A, element n of each row of B. -/
def slicePairs (md : Mode) (m n : Nat) (as bs : List Nat) : List (Nat × Nat) :=
  (as.zip bs).map fun r => (elt (modeWidth md) r.1 m, elt (modeWidth md) r.2 n)

/-- The exact product of a float mode. -/
def floatProduct (md : Mode) (a b : Nat) : Val := (Val.mul (Tag.decode (modeA md) a) (Tag.decode (modeB md) b)).1

/-- The exact sum of a slice's products; a short slice is padded with zero products. -/
def floatSum (md : Mode) : List (Nat × Nat) → Val
  | [] => .fin false 0 0
  | p :: ps =>
    let v := ps.foldl (fun v r => (Val.add false v (floatProduct md r.1 r.2)).1) (floatProduct md p.1 p.2)
    if ps.length + 1 < modeSlice md then (Val.add false v (.fin false 0 0)).1 else v

/-- A float slice on an FP32 accumulator (R218): the exact sum, one rounding. -/
def floatSlice (md : Mode) (acc : Nat) (ps : List (Nat × Nat)) : Nat :=
  let s := floatSum md ps
  (fp32.round false .rne (Val.add false (fp32.decode acc) s).1).1

/-- The exact product of an integer mode; a DY8 product in units of 2^-6 (R205). -/
def intProduct (md : Mode) (a b : Nat) : Int :=
  match md with
  | .dy8 => dyProduct b (toSigned 8 a)
  | .int4x2 => toSigned 4 a * toSigned 4 b
  | _ => toSigned 8 a * toSigned 8 b

/-- The exact sum of an integer slice. -/
def intSlice (md : Mode) (ps : List (Nat × Nat)) : Int := ps.foldl (fun s r => s + intProduct md r.1 r.2) 0

/-- An integer slice on a 20-bit accumulator: its new value and the carry −1, 0 or 1 (R276). -/
def narrow (acc : Nat) (s : Int) : Nat × Int :=
  let x := toSigned 20 acc + s
  let c := (x + 2 ^ 19) / 2 ^ 20
  (wrap 20 (x - c * 2 ^ 20), c)

/-- An exact value saturated to INT32, and whether it was. -/
def sat32i (t : Int) : Int × Bool := let v := max (-(2 ^ 31)) (min t (2 ^ 31 - 1)); (v, v ≠ t)

/-- Pieces of a list of n entries each. -/
def slicesOf {α : Type} (n : Nat) (l : List α) : List (List α) := (List.range ((l.length + n - 1) / n)).map fun j => (l.drop (n * j)).take n

end Sys2Proof.Machine
end

