-- ==== Sys2Proof/Machine/Array.lean ====
section
/-! DEFINITION. The matrix array of a cluster (R262 to R284): slots and their headers, leases, MMA by slices, the carry buffer, drains,
zeroing, and MVMQ. -/

namespace Sys2Proof.Machine

/-! ## Slots (R262 to R264) -/

/-- The slot a team's number names, with its physical number. -/
def State.teamSlot (s : State) (pr : Proc) (a : ASlot) : Option (Nat × Slot) :=
  (s.cluster pr.cl).slots.find? fun e => e.2.team = pr.team && e.2.tslot = a

def State.setSlotAt (s : State) (cl k : Nat) (x : Slot) : State := s.modCluster cl fun c => { c with slots := Tab.put k x c.slots }

/-- The header of R264. -/
def State.slotHeader (s : State) (cl k : Nat) (x : Slot) : Word :=
  let part := x.st = .partialMma
  field x.lock.toNat 63 ||| field x.sat.toNat 62 ||| field (match x.st with | .empty => 1 | .active => 2 | .partialMma => 3) 60 |||
    field (match x.mode with | some m => m.code | none => 15) 56 ||| field x.mm1.toNat 47 ||| field x.nm1.toNat 37 |||
    field ((s.cluster cl).carry.filter fun e => e.slot = k).length 26 |||
    (if part then field x.pass.toNat 24 ||| field x.mprog.toNat 0 else 0)

/-- A byte range of memory reads 0 again; whole lines get fresh codes. -/
def State.zeroRange (s : State) (lo n : Nat) : State :=
  { s with
    mem := s.mem.filter fun c => !(lo ≤ c.1 && c.1 < lo + n)
    poison := s.poison.filter fun l => !(lo ≤ l && l < lo + n)
    codeErr := s.codeErr.filter fun e => !(lo ≤ e.1 && e.1 < lo + n)
    redSlots := s.redSlots.filter fun r => !(lo ≤ r.loc && r.loc < lo + n)
    phys := { s.phys with flips := s.phys.flips.filter fun e => !(lo ≤ e.1 && e.1 < lo + n) } }

/-- A slot is emptied: cells zero, header of an EMPTY slot, its carry entries free. -/
def State.emptySlot (s : State) (cl k : Nat) (x : Slot) (sat : Bool) : State :=
  let s := s.zeroRange (accLoc cl k) accBytes
  let x := { x with
    lock := false, sat := sat, st := .empty, mode := none, mm1 := 0, nm1 := 0, pass := 0, mprog := 0, ident := none, cmd := none }
  s.modCluster cl fun c => { c with slots := Tab.put k x c.slots, carry := c.carry.filter fun e => e.slot ≠ k }

/-- Location of cell (m, c) of a slot. -/
def cellLoc (cl k m c : Nat) : Nat := accLoc cl k + 5 * (512 * m + c)
def State.cell (s : State) (cl k m c : Nat) : Nat := natLE (Memory.read s.mem (cellLoc cl k m c) 5)
def State.setCell (s : State) (cl k m c v : Nat) : State := s.homeWriteBytes (cellLoc cl k m c) (bytesLE 5 v)

/-! ## Leases (R265 to R267) -/

/-- Whether a process holds the lease. -/
def State.holdsLease (s : State) (p : Pid) (pr : Proc) : Bool := (s.cluster pr.cl).lease.any fun l => l.pid = p

/-- Asks for a lease of n commands. -/
def State.askLease (s : State) (cl : Nat) (p : Pid) (n : Nat) : State :=
  let c := s.cluster cl
  if c.leaseQ.any fun r => r.pid = p then s
  else
    let at_ := if c.lease.isNone && c.leaseQ = [] then max c.leaseAt (s.cycles + 8) else c.leaseAt
    let s := s.setCluster cl { c with leaseQ := c.leaseQ ++ [{ pid := p, n := n, time := s.cycles }], leaseAt := at_ }
    if c.lease.isNone then s.sched 8 (.leaseGrant cl) else s

/-- The lease of a cluster ends and passes on. -/
def State.dropLease (s : State) (cl : Nat) : State :=
  (s.modCluster cl fun c => { c with lease := none, leaseAt := s.cycles + 8 }).sched 8 (.leaseGrant cl)

/-- ns after which a lease has had its time. -/
def leaseNs : Nat := 50000
def State.leaseOver (s : State) (cl : Nat) : Bool := (s.cluster cl).lease.any fun l => l.start + leaseNs ≤ s.timebase

/-- Order among requests: priority, time, core number. -/
def State.leaseBefore (s : State) (a b : LeaseReq) : Bool :=
  let prio : LeaseReq → Nat := fun r => ((s.proc? r.pid).map fun pr => pr.prio.toNat).getD 7
  let core : LeaseReq → Nat := fun r => ((s.proc? r.pid).map fun pr => pr.core).getD 0
  prio a < prio b || (prio a = prio b && (a.time < b.time || (a.time = b.time && core a < core b)))

def State.bestLease (s : State) (cl : Nat) : Option LeaseReq :=
  (s.cluster cl).leaseQ.foldl (fun (b : Option LeaseReq) r => match b with
    | none => some r
    | some x => if s.leaseBefore r x then some r else some x) none

/-- Entries of the carry buffer. -/
def carryMax : Nat := 1024
def State.freeCarry (s : State) (cl : Nat) : Nat := carryMax - (s.cluster cl).carry.length

/-- MMAs that stalled for carry entries ask for a lease once enough are free (R277). -/
def State.carryWake (s : State) (cl : Nat) : State :=
  (s.cluster cl).slots.foldl (fun s e => match e.2.cmd with
    | some (p, .mma id (some n)) =>
      if n ≠ 0 ∧ n ≤ s.freeCarry cl then (s.setSlotAt cl e.1 { e.2 with cmd := some (p, .mma id (some 0)) }).askLease cl p 1 else s
    | _ => s) s

/-- Core cycles from an MMA's start to its first slice or pass applied, B in scratchpad (R284). -/
def firstSlice (md : Mode) : Nat := match md with | .bf16 => 64 | _ => 96

/-- The array passes to the next request (R266), not before 4 array cycles have gone by: a suspended MMA goes on, and any other process
is told. -/
def execLeaseGrant (cl : Nat) (s : State) : Host.Outcome State Fault Refusal :=
  if (s.cluster cl).dm.phase ≠ .running then .next s
  else if s.cycles < (s.cluster cl).leaseAt then .next (s.sched ((s.cluster cl).leaseAt - s.cycles) (.leaseGrant cl))
  else
    let s := s.carryWake cl
    let c := s.cluster cl
    match c.lease, s.bestLease cl with
    | none, some r =>
      let resumed := c.slots.find? fun e => match e.2.cmd with | some (p, .mma _ (some 0)) => p = r.pid | _ => false
      let s := s.setCluster cl { c with
        leaseQ := c.leaseQ.filter fun x => x.pid ≠ r.pid
        lease := some { pid := r.pid, left := r.n, start := s.timebase, trapMode := false, busy := resumed.isSome } }
      let s := s.schedNs (s.timebase + leaseNs) (.leaseTimeLimit cl)
      match resumed with
      | some (k, x) => match x.cmd with
        | some (p, .mma id _) => .next ((s.setSlotAt cl k { x with cmd := some (p, .mma id none) }).sched (firstSlice id.mode) (.sliceComplete cl k))
        | _ => .next s
      | none => .next (s.wake r.pid)
    | _, _ => .next s

/-- A lease's time is over: it ends while no command is in progress; an MMA is suspended at a boundary once another waits. -/
def execLeaseTimeLimit (cl : Nat) (s : State) : Host.Outcome State Fault Refusal :=
  match (s.cluster cl).lease with
  | none => .next s
  | some l =>
    if (s.cluster cl).dm.phase ≠ .running then .next s
    else if s.timebase < l.start + leaseNs then .next (s.schedNs (l.start + leaseNs) (.leaseTimeLimit cl))
    else if l.busy then .next s
    else .next (s.dropLease cl)

/-- A command of a process has completed: it counts, and the lease ends with the last or with its time. -/
def State.commandDone (s : State) (cl : Nat) (p : Pid) : State :=
  let s := s.modProc p fun pr => { pr with op := pr.op.map fun o => { o with res := .ok 0 } }
  let s := match (s.cluster cl).lease with
    | some l =>
      if l.pid ≠ p then s
      else if l.left ≤ 1 ∨ s.leaseOver cl then s.dropLease cl
      else s.modCluster cl fun c => { c with lease := some { l with left := l.left - 1, busy := false } }
    | none => s
  (s.carryWake cl).wakeKinds cl [.lease]

/-! ## Array commands in their process -/

/-- A trap kept with an operation: the address lies above the low 64 bits of the detail. -/
def keepTrap (t : TrapInfo) : OpRes := .trap t.cls t.kind (t.aux.toNat + 2 ^ 64 * t.addr.toNat)

/-- Keys beside those of lines in an MMA's operation: the address a line was asked for at, and the mark that its B is read ahead. -/
def askKey : Nat := 2 ^ 64
def aheadKey : Nat := 2 ^ 64 + 1

/-- Raises a trap kept by `keepTrap`. -/
def raiseKept (c k a : Nat) : Exec Unit := raiseTrap { cls := c, kind := k, aux := BitVec.ofNat 64 a, addr := BitVec.ofNat 64 (a / 2 ^ 64) }

/-- Marks a trap as taken at an MMA (R414): the class detail moves up, slot, PASS and MPROG stand below. -/
def mmaTrap (a : ASlot) (x : Option Slot) (t : TrapInfo) : TrapInfo :=
  let part := match x with
    | some k => if k.st = .partialMma then field k.pass.toNat 26 ||| field k.mprog.toNat 0 else 0
    | none => 0
  { t with aux := (t.aux &&& field 7 61) ||| field 1 63 ||| field (bits t.aux 15 0) 32 ||| field a.toNat 24 ||| part }

/-- An array command of a process: its checks, the release, the wait for the lock without a lease, the lease, and its start; then its
end, which acquires what the array wrote at scope `sc`. `start` answers the state with the command begun. -/
def arrayCommand (p : Pid) (a : ASlot) (sc : Nat) (check : State → Proc → Option TrapInfo) (start : Exec Unit) : Exec Done := do
  let s ← get
  let pr ← getProc p
  let wait : Exec Done := waitOn .lease (slotAddr a) 0
  match pr.op with
  | some o =>
    match o.res with
    | .ok v =>
      if o.key = arrKey + 1 then do
        -- a line of B came from outside the device: the MMA goes on
        match (s.teamSlot pr a) with
        | some (k, _) => do
          modProcE p fun pr => { pr with op := some { o with
            key := arrKey, res := .waiting, got := Tab.put o.sc (v.setWidth 512) (Tab.del askKey o.got) } }
          modS fun s => s.sched 0 (.sliceComplete pr.cl k)
          wait
        | none => wait
      else do
        acquire p sc
        pure { endChunk := true }
    | .trap c k d =>
      if o.key = arrKey + 1 then
        match (s.teamSlot pr a) with
        | some (k', x) => do
          let t : TrapInfo := { cls := c, kind := k, aux := BitVec.ofNat 64 d, addr := (Tab.getD askKey o.got 0).setWidth 64 }
          set (s.setSlotAt pr.cl k' { x with cmd := none, lock := false, st := .partialMma })
          raiseTrap (mmaTrap a (some { x with st := .partialMma }) t)
        | none => wait
      else do
        raiseKept c k d
        wait
    | _ => wait
  | none =>
    match check s pr with
    | some t => raiseTrap t
    | none => do
      release p scCluster false
      let s ← get
      match s.teamSlot pr a with
      | some (_, x) => if x.lock then do modS fun s => s.endLease p; waitOn .lease (slotAddr a) 0
      | none => pure ()
      let s ← get
      if s.holdsLease p pr then do
        start
        modProcE p fun pr => { pr with op := some { id := 0, key := arrKey, res := .waiting } }
        modS fun s => s.modCluster pr.cl fun c => { c with lease := c.lease.map fun l => { l with busy := true } }
        wait
      else do
        modS fun s => s.askLease pr.cl p 1
        wait

/-! ## MMA (R268 to R277) -/

/-- An address in the team's allotment, as an offset. -/
def State.inAllotment (s : State) (pr : Proc) (ea : Word) (n : Nat) : Option Nat :=
  if spaceOf ea = 3 ∧ bits ea 61 32 = 0 ∧ bits ea 31 0 + n ≤ s.spmBytes pr.team then some (bits ea 31 0) else none

/-- Bytes from the first to the last byte of an operand's rows. -/
def spanBytes (k stride row : Nat) : Nat := (k - 1) * stride + row

/-- Kind 1 of an MMA (R270). -/
def State.mmaArg (s : State) (pr : Proc) (md : Mode) (id : MmaId) : Bool :=
  let x := shapeOf id.sm
  !aligned id.sa.toNat 64 || !aligned id.sb.toNat 64 || x.bad md id.sm ||
    (s.inAllotment pr id.sa (spanBytes x.k (x.strideA md) (rowBytes md x.m))).isNone ||
    (spaceOf id.sb = 3 && (s.inAllotment pr id.sb (spanBytes x.k (x.strideB md) (rowBytes md x.n))).isNone)

/-- The tag of a window that holds an address of the allotment, when it differs from a format. -/
def State.wrongTag (s : State) (pr : Proc) (ea : Word) (t : Tag) : Option Nat :=
  if spaceOf ea ≠ 3 then none
  else match s.windowAt pr.cl (s.spmOf pr.team + bits ea 31 0) with
    | some (_, w) => if w.fmt = tagCode t then none else some w.fmt.toNat
    | none => none

/-- The checks of an MMA, the lowest kind first. -/
def State.mmaCheck (s : State) (pr : Proc) (a : ASlot) (id : MmaId) : Option TrapInfo :=
  let x := shapeOf id.sm
  let slot := s.teamSlot pr a
  let k := slot.map fun e => e.2
  let arr : Nat → Option TrapInfo := fun n => some (mmaTrap a k { cls := 16, kind := n })
  -- a locked slot is looked at once its lock is clear (R275)
  let used := k.filter fun v => v.st ≠ .empty && !v.lock
  if spaceOf id.sb = 1 && s.noOptics (bits id.sb 61 51) then some (mmaTrap a k { cls := 2 })
  else if s.mmaArg pr id.mode id then arr 1
  else if used.any fun v => v.mode.any fun m => m ≠ id.mode && !(modeFloat m && modeFloat id.mode) then arr 2
  else if used.any fun v => v.mm1.toNat + 1 ≠ x.m || v.nm1.toNat + 1 ≠ x.n then arr 3
  else if used.any fun v => v.st = .partialMma && v.ident ≠ some id then arr 6
  else if k.isNone then arr 7
  else match s.wrongTag pr id.sa (modeA id.mode), s.wrongTag pr id.sb (modeB id.mode) with
    | some t, _ => some (mmaTrap a k (trapFormat 1 t))
    | none, some t => some (mmaTrap a k (trapFormat 2 t))
    | none, none => none

/-- An MMA starts: the slot is locked, and an EMPTY slot records the shape and becomes ACTIVE; a PARTIAL one goes on at MPROG and is
ACTIVE after its last slice (R271, R274). -/
def startMma (p : Pid) (a : ASlot) (id : MmaId) : Exec Unit := do
  let s ← get
  let pr ← getProc p
  match s.teamSlot pr a with
  | none => pure ()
  | some (k, x) => do
    let sh := shapeOf id.sm
    let x := if x.st = .empty then
        { x with st := .active, mode := some id.mode, mm1 := BitVec.ofNat 9 (sh.m - 1), nm1 := BitVec.ofNat 10 (sh.n - 1) }
      else x
    let x := if x.st = .partialMma then x else { x with mprog := 0, pass := 0 }
    set ((s.setSlotAt pr.cl k { x with lock := true, ident := some id, cmd := some (p, .mma id none) }).sched (firstSlice id.mode)
      (.sliceComplete pr.cl k))

def execMma (m : Mods) (d rs t : SReg) (slot : ASlot) (mode : Mode) (s : State) : Host.Outcome State Fault Refusal :=
  runExec m (lenOf m true true) true s fun p pr =>
    let id : MmaId := { mode := mode, sa := pr.ctx.rs d, sb := pr.ctx.rs rs, sm := pr.ctx.rs t }
    arrayCommand p slot scCluster (fun s pr => s.mmaCheck pr slot id) (startMma p slot id)

/-! ## Operand fetch (R273) -/

/-- What fetching a line of an operand finds. -/
inductive Fetched where
  | line (l : Line)
  /-- not full yet, or its page is moving -/
  | later
  /-- it comes from outside the device: its key and the address asked for -/
  | ask (key : Nat) (addr : Word)
  | trap (t : TrapInfo)

/-- A line of the cluster's own scratchpad. -/
def State.fetchLocal (s : State) (cl off : Nat) (ea : Word) : Fetched × State :=
  let loc := sramLoc cl off
  match s.windowAt cl off with
  | some (k, w) =>
    let s := s.startFill cl k
    if !s.isFull cl (off / 64) then
      (if w.fst = .failed then .trap (trapWindow 6) else .later, s)
    else
      let s := (s.touchHome loc).2
      (if s.isPoison loc then .trap (trapPoison ea false) else .line (s.lineData loc), s)
  | none =>
    let s := (s.touchHome loc).2
    (if s.isPoison loc then .trap (trapPoison ea false) else .line (s.lineData loc), s)

/-- A line of host memory, through the cluster cache. -/
def State.fetchHost (s : State) (cl loc : Nat) (o : Op) : Fetched × State :=
  match Tab.get? loc (s.cluster cl).cache with
  | some c => if c.valid = fullMask then (.line c.data, s) else
      match Tab.get? loc o.got with
      | some l =>
        let s := s.cachePut cl loc l (~~~c.dirty) none
        match Tab.get? loc (s.cluster cl).cache with | some c => (.line c.data, s) | none => (.line l, s)
      | none => (.ask loc (hostAddr loc), s)
  | none => match Tab.get? loc o.got with
    | some l => (.line l, s.cachePut cl loc l fullMask none)
    | none => (.ask loc (hostAddr loc), s)

/-- A line of device memory, through the cluster cache; the array's fetch leaves PLAT alone. -/
def State.fetchDev (s : State) (p : Pid) (pr : Proc) (loc : Nat) (ea : Word) : Fetched × State :=
  let keep : State → State := fun s => s.modProc p fun q => { q with ctx := { q.ctx with plat := pr.ctx.plat } }
  match clusterLine p loc fullMask ea s with
  | .ok (c, s) => (if c.poison then .trap (trapPoison ea false) else .line c.data, keep s)
  | .error (.trap t s) => (.trap t, keep s)
  | .error (.wait _ _ _ s) | .error (.stall s) => (.later, keep s)

/-- A line of B or A by its global address. -/
def State.fetchOperand (s : State) (p : Pid) (pr : Proc) (o : Op) (ea : Word) : Fetched × State :=
  match s.checkSpace pr ea 64 false false with
  | .error t => (.trap t, s)
  | .ok (.inl (.mem loc)) =>
    if isSram loc then s.fetchLocal pr.cl (loc - sramLoc pr.cl 0) ea
    else if remoteBase ≤ loc then
      let dev := bits ea 61 51
      if s.noDev dev then (.trap (trapFabric 1 0 ea false), s)
      else if dev ≠ s.dev then (match Tab.get? loc o.got with | some l => .line l | none => .ask loc ea, s)
      else match s.exportAt ea .read false with
        | (.error (k, x), s) => (.trap (trapFabric k x ea false), s)
        | (.ok h, s) =>
          if hostBase ≤ h then (match Tab.get? h o.got with | some l => .line l | none => .ask h (hostAddr h), s)
          else
            let (_, bad, s) := (s.maySpill none h).homeRead h 64
            (if bad then .trap (trapFabric 5 0 ea false) else .line (s.lineData h), s)
    else s.fetchHost pr.cl loc o
  | .ok (.inl _) => (.trap (trapXlate xForm ea false), s)
  | .ok (.inr va) =>
    match s.translate (s.xctx pr false) va .read with
    | (.error k, s) => (.trap (trapXlate k ea false), s)
    | (.ok e, s) =>
      let loc := leafAddr e va
      if hostBase ≤ loc then s.fetchHost pr.cl loc o
      else if s.moveBlocks loc then (.later, s)
      else s.fetchDev p pr loc ea

/-- The lines of one row, in address order. -/
def State.fetchRow (p : Pid) (pr : Proc) (o : Op) : Nat → Word → List Byte → State → Except Fetched (List Byte) × State
  | 0, _, out, s => (.ok out, s)
  | n + 1, ea, out, s =>
    match s.fetchOperand p pr o ea with
    | (.line l, s) => State.fetchRow p pr o n (ea + 64) (out ++ bytesLE 64 l.toNat) s
    | (f, s) => (.error f, s)

/-- `n` rows of an operand as numbers. -/
def State.fetchRows (p : Pid) (pr : Proc) (o : Op) (lines stride : Nat) : Nat → Word → List Nat → State → Except Fetched (List Nat) × State
  | 0, _, out, s => (.ok out, s)
  | n + 1, ea, out, s =>
    match State.fetchRow p pr o lines ea [] s with
    | (.error f, s) => (.error f, s)
    | (.ok bs, s) => State.fetchRows p pr o lines stride n (ea + BitVec.ofNat 64 stride) (out ++ [natLE bs]) s

/-- The rows of A and B of slice j. -/
def State.fetchSlice (s : State) (p : Pid) (pr : Proc) (o : Op) (id : MmaId) (j : Nat) : Except Fetched (List Nat × List Nat) × State :=
  let x := shapeOf id.sm
  let md := id.mode
  let k0 := modeSlice md * j
  let n := x.rowsOf md j
  match State.fetchRows p pr o ((rowBytes md x.m + 63) / 64) (x.strideA md) n (id.sa + BitVec.ofNat 64 (k0 * x.strideA md)) [] s with
  | (.error f, s) => (.error f, s)
  | (.ok as, s) =>
    match State.fetchRows p pr o ((rowBytes md x.n + 63) / 64) (x.strideB md) n (id.sb + BitVec.ofNat 64 (k0 * x.strideB md)) [] s with
    | (.error f, s) => (.error f, s)
    | (.ok bs, s) => (.ok (as, bs), s)

/-! ## Applying a slice (R218, R271, R272, R276) -/

/-- Outputs of rows lo to hi - 1 of a shape, in row-major order. -/
def outputs (lo hi n : Nat) : List (Nat × Nat) :=
  (List.range (hi - lo)).flatMap fun i => (List.range n).map fun j => (lo + i, j)

/-- A float slice on the rows of a pass. -/
def State.applyFloat (s : State) (cl k : Nat) (md : Mode) (lo hi n : Nat) (as bs : List Nat) : State :=
  (outputs lo hi n).foldl (fun s r =>
    s.setCell cl k r.1 r.2 (floatSlice md (s.cell cl k r.1 r.2 % 2 ^ 32) (slicePairs md r.1 r.2 as bs))) s

/-- The 20-bit accumulator of an output. -/
def State.acc20 (s : State) (cl k m n : Nat) : Nat := s.cell cl k m (n / 2) / 2 ^ (20 * (n % 2)) % 2 ^ 20

/-- Outputs with their new accumulators and carries. -/
def State.intOutputs (s : State) (cl k : Nat) (md : Mode) (m n : Nat) (as bs : List Nat) : List (Nat × Nat × Nat × Int) :=
  (outputs 0 m n).map fun r =>
    let v := narrow (s.acc20 cl k r.1 r.2) (intSlice md (slicePairs md r.1 r.2 as bs))
    (r.1, r.2, v.1, v.2)

/-- Whether an entry of the slot takes a carry. -/
def takesCarry (k index : Nat) (c : Int) (e : Carry) : Bool := e.slot = k && e.index = index && -16 ≤ e.count + c && e.count + c ≤ 15

/-- New entries a slice takes (R277). -/
def carriesNeeded (k : Nat) (carry : List Carry) (outs : List (Nat × Nat × Nat × Int)) : Nat :=
  (outs.filter fun o => o.2.2.2 ≠ 0 && !(carry.any (takesCarry k (1024 * o.1 + o.2.1) o.2.2.2))).length

/-- Adds a carry (R276): to the first entry that takes it, or as a new entry. -/
def addCarry (k index : Nat) (c : Int) : List Carry → List Carry
  | [] => [{ slot := k, index := index, count := c }]
  | e :: es => if takesCarry k index c e then { e with count := e.count + c } :: es else e :: addCarry k index c es

/-- An integer slice. -/
def State.applyInt (s : State) (cl k : Nat) (outs : List (Nat × Nat × Nat × Int)) : State :=
  outs.foldl (fun s o =>
    let (m, n, v, c) := o
    let old := s.cell cl k m (n / 2)
    let sh := 20 * (n % 2)
    let s := s.setCell cl k m (n / 2) (old - old / 2 ^ sh % 2 ^ 20 * 2 ^ sh + v * 2 ^ sh)
    if c = 0 then s else s.modCluster cl fun d => { d with carry := addCarry k (1024 * m + n) c d.carry }) s

/-! ## Slices as steps -/

/-- Suspends an MMA at its boundary with its lock kept and gives its lease up; `need` entries are awaited, or only a lease. -/
def State.suspendMma (s : State) (cl k : Nat) (x : Slot) (p : Pid) (id : MmaId) (need : Nat) : State :=
  let s := (s.setSlotAt cl k { x with cmd := some (p, .mma id (some need)) }).dropLease cl
  if need = 0 then s.askLease cl p 1 else s

/-- An MMA stops with a trap: the slot is PARTIAL and unlocked, and its process takes the trap at its instruction. -/
def State.failMma (s : State) (cl k : Nat) (x : Slot) (p : Pid) (t : TrapInfo) : State :=
  let x := { x with st := .partialMma, lock := false, cmd := none }
  let t := mmaTrap x.tslot (some x) t
  let s := (s.setSlotAt cl k x).modProc p fun pr => { pr with op := pr.op.map fun o => { o with key := arrKey, res := keepTrap t } }
  s.wakeKinds cl [.lease]

/-- Cycles of one slice or pass. -/
def sliceCycles (md : Mode) : Nat := match md with | .bf16 => 32 | _ => 64

/-- Whether a poisoned line of the accumulators stands in rows lo to hi - 1. -/
def State.cellsBad (s : State) (cl k lo hi : Nat) : Option Nat × State :=
  let ls := linesOf (cellLoc cl k lo 0) (5 * 512 * (hi - lo))
  let s := ls.foldl (fun s l => (s.touchHome l).2) s
  (ls.find? fun l => s.isPoison l, s)

/-- Address of a line of a slot in the team's window. -/
def cellAddr (cl k : Nat) (a : ASlot) (line : Nat) : Word := slotAddr a + BitVec.ofNat 64 (line - accLoc cl k)

/-- Core cycles of the read of a line of B homed on the device (R64). -/
def State.readCycles (s : State) (pr : Proc) (ea : Word) : Nat :=
  if spaceOf ea ≠ 0 then 0
  else match (s.tlbHit (s.xctx pr false) (bits ea 56 0)).1 with
    | none => 0
    | some e =>
      let loc := leafAddr e (bits ea 56 0)
      if !isDev loc then 0
      else
        let src := s.clusterSite pr.cl
        let dst := memSite (dieOf loc)
        nsCycles (20 + 15 * ((s.routeHops src dst).getD 0 + (s.routeHops dst src).getD 0) +
          (if (s.memDie (dieOf loc)).msc.contains (lineOf loc) then 40 else 110))

/-- An MMA has reached a boundary (R271, R272): it stops there when its process is to leave its core, is suspended when its lease is over
and another waits, rests while the cluster halts, and otherwise goes on in n core cycles; after the last slice it completes in 8 array
cycles. -/
def State.boundary (s : State) (cl k : Nat) (p : Pid) (id : MmaId) (n : Nat) : State :=
  match Tab.get? k (s.cluster cl).slots with
  | none => s
  | some x =>
    if (s.cluster cl).dm.phase ≠ .running then s
    else if (shapeOf id.sm).slices id.mode ≤ x.mprog.toNat then s.sched 16 (.sliceComplete cl k)
    else if (s.proc? p).any fun pr => pr.leaving && pr.loop.isNone && pr.pend = 0 then s.preempt p
    else if s.leaseOver cl ∧ (s.cluster cl).leaseQ ≠ [] then s.suspendMma cl k x p id 0
    else s.sched n (.sliceComplete cl k)

/-- One slice, or one pass of a BF16 slice, of an MMA (R271 to R273), or its end. Slices after the first have been read ahead (R273; log
entry 6). -/
def State.sliceStep (s : State) (cl k : Nat) (x : Slot) (p : Pid) (pr : Proc) (o : Op) (id : MmaId) : State :=
  let sh := shapeOf id.sm
  let md := id.mode
  let j := x.mprog.toNat
  let again : Nat → State → State := fun n s => s.boundary cl k p id n
  if sh.slices md ≤ j then
    (s.setSlotAt cl k { x with st := .active, lock := false, mprog := 0, pass := 0, ident := none, cmd := none }).commandDone cl p
  else
    let next : State → State := fun s =>
      let s := s.modProc p fun pr => { pr with op := some { o with got := [(aheadKey, 1)] } }
      s.setSlotAt cl k { x with mprog := BitVec.ofNat 24 (j + 1), pass := 0 }
    match s.fetchSlice p pr o id j with
    | (.error (.trap t), s) => s.failMma cl k x p t
    | (.error (.ask key a), s) =>
      let s := ({ s with nextReq := s.nextReq + 1 } : State).emit (.request p s.nextReq a 64)
      let o' : Op := {
        o with
        id := s.nextReq - 1
        key := arrKey + 1
        res := .waiting
        sc := key
        got := Tab.put askKey (a.setWidth 512) o.got }
      s.modProc p fun pr => { pr with op := some o' }
    | (.error _, s) => again 16 s
    | (.ok (as, bs), s) =>
      let wait := if (Tab.get? aheadKey o.got).isSome then 0 else s.readCycles pr (id.sb + BitVec.ofNat 64 (modeSlice md * j * sh.strideB md))
      if wait ≠ 0 then
        (s.modProc p fun pr => { pr with op := some { o with got := Tab.put aheadKey 1 o.got } }).sched wait (.sliceComplete cl k)
      else
      let lo := if md = .bf16 then 128 * x.pass.toNat else 0
      let hi := if md = .bf16 then min (lo + 128) sh.m else sh.m
      match s.cellsBad cl k lo hi with
      | (some l, s) => s.failMma cl k x p (trapPoison (cellAddr cl k x.tslot l) false)
      | (none, s) =>
        if md = .bf16 then
          let s := s.applyFloat cl k md lo hi sh.n as bs
          if x.pass = 3 then again 32 (next s)
          else again 32 (s.setSlotAt cl k { x with pass := x.pass + 1 })
        else if modeFloat md then again 64 (next (s.applyFloat cl k md lo hi sh.n as bs))
        else
          let outs := s.intOutputs cl k md sh.m sh.n as bs
          let need := carriesNeeded k (s.cluster cl).carry outs
          if s.freeCarry cl < need then
            let own := ((s.cluster cl).carry.filter fun e => e.slot = k).length
            if ((s.cluster cl).lease.any fun l => l.trapMode) ∨ carryMax - own < need then s.failMma cl k x p { cls := 17 }
            else s.suspendMma cl k x p id need
          else again 64 (next (s.applyInt cl k outs))

def execSliceComplete (cl slot : Nat) (s : State) : Host.Outcome State Fault Refusal :=
  match Tab.get? slot (s.cluster cl).slots with
  | some x =>
    match x.cmd with
    | some (p, .mma id none) =>
      if (s.cluster cl).dm.phase = .halted then .next s
      else match s.proc? p with
        | some pr => match pr.op with
          | some o => if o.key = arrKey ∧ o.res = .waiting then .next (s.sliceStep cl slot x p pr o id) else .next s
          | none => .next s
        | none => .next s
    | _ => .next s
  | none => .next s

/-! ## MDRAIN (R279) -/

/-- M and N a drain writes: the recorded ones, or one output of an EMPTY slot. -/
def Slot.drainM (x : Slot) : Nat := if x.st = .empty then 1 else x.mm1.toNat + 1
def Slot.drainN (x : Slot) : Nat := if x.st = .empty then 1 else x.nm1.toNat + 1
/-- Bytes of a row of a drain. -/
def drainRow (fmt : Tag) (n : Nat) : Nat := up64 ((n * Tag.bits fmt + 7) / 8)
def Slot.drainBytes (x : Slot) (fmt : Tag) : Nat := x.drainM * drainRow fmt x.drainN

/-- ARRAY kinds of a drain. -/
def State.drainCheck (s : State) (pr : Proc) (a : ASlot) (fmt : Tag) (dst : Word) : Option TrapInfo :=
  let n := ((s.teamSlot pr a).map fun e => e.2.drainBytes fmt).getD 64
  if !aligned dst.toNat 64 || !(spaceOf dst = 0 || (s.inAllotment pr dst n).isSome) then some { cls := 16, kind := 1 }
  else if (s.teamSlot pr a).isNone then some { cls := 16, kind := 7 }
  else none

/-- Every destination page is translated before any line is written (R73). -/
def drainPages (p : Pid) (dst : Word) (n : Nat) : Exec Unit :=
  if spaceOf dst ≠ 0 then pure ()
  else (List.range (n / 64)).forM fun i => do
    let ea := dst + BitVec.ofNat 64 (64 * i)
    match ← resolve p ea 64 .write false with
    | .mem loc => do
      let s ← get
      let pr ← getProc p
      match s.unreachable pr.cl loc with
      | some site => undeliverable site (lineOf loc) ea true
      | none => pure ()
    | _ => pure ()

/-- A drain starts. -/
def startDrain (p : Pid) (a : ASlot) (fmt : Tag) (nf : Bool) (dst : Word) : Exec Unit := do
  let s ← get
  let pr ← getProc p
  match s.teamSlot pr a with
  | none => pure ()
  | some (k, x) => do
    drainPages p dst (x.drainBytes fmt)
    let s ← get
    match s.cellsBad pr.cl k 0 x.drainM with
    | (some l, s) => do set s; raiseTrap (trapPoison (cellAddr pr.cl k a l) false)
    | (none, s) =>
      set ((s.setSlotAt pr.cl k { x with lock := true, cmd := some (p, .drain dst fmt nf) }).sched
        (32 + x.drainBytes fmt / 256) (.mdrainComplete pr.cl k))

def execMdrain (m : Mods) (d : SReg) (slot : ASlot) (fmt : Tag) (s : State) : Host.Outcome State Fault Refusal :=
  runExec m (lenOf m true false) true s fun p pr =>
    let dst := pr.ctx.rs d
    arrayCommand p slot (if spaceOf dst = 3 then scCluster else scDevice)
      (fun s pr => s.drainCheck pr slot fmt dst) (startDrain p slot fmt (nfOf m) dst)

/-- The exact value of an output of an integer mode. -/
def State.intValue (s : State) (cl k m n : Nat) : Int :=
  toSigned 20 (s.acc20 cl k m n) +
    2 ^ 20 * (((s.cluster cl).carry.filter fun e => e.slot = k && e.index = 1024 * m + n).map fun e => e.count).foldl (· + ·) 0

/-- An output as its drain converts it: source format, bits, and whether clamping to INT32 saturated. -/
def State.drainSource (s : State) (cl k : Nat) (x : Slot) (r : Nat × Nat) : Nat × Bool :=
  match x.mode with
  | none => (0, false)
  | some md =>
    if modeFloat md then (s.cell cl k r.1 r.2 % 2 ^ 32, false)
    else let (v, sat) := sat32i (s.intValue cl k r.1 r.2); (wrap 32 v, sat)

/-- The rows of converted elements as bytes, each padded with zeros. -/
def drainBytesOf (fmt : Tag) (n : Nat) (vs : List Nat) : List Byte :=
  (slicesOf n vs).flatMap fun row => bytesLE (drainRow fmt n) (pack (Tag.bits fmt) row)

/-- Writes a drained line at its destination as an engine does (R148, R279); a copy of the line in the cluster cache goes. -/
def State.drainLine (s : State) (p : Pid) (pr : Proc) (ea : Word) (l : Line) : State :=
  if spaceOf ea = 3 then s.engineWrite pr.cl (s.spmOf pr.team + bits ea 31 0) l false
  else match s.translate (s.xctx pr false) (bits ea 56 0) .write with
    | (.error _, s) => s
    | (.ok e, s) =>
      let loc := leafAddr e (bits ea 56 0)
      let s := s.dropLine pr.cl loc
      if hostBase ≤ loc then s.sendStore pr.cl (some p) 2 loc (hostAddr loc) (bytesLE 64 l.toNat)
      else (s.writeAcross pr.cl none loc fun s => s.homeWriteFor (some pr.cl) none loc l fullMask).noteWrite pr.cl loc

def State.drainLines (p : Pid) (pr : Proc) : Word → List (Line × Bool) → State → State
  | _, [], s => s
  | ea, l :: ls, s => State.drainLines p pr (ea + 64) ls (s.drainLine p pr ea l.1)

/-- Bytes as whole lines. -/
def toLines (bs : List Byte) : List (Line × Bool) := (slicesOf 64 bs).map fun l => (BitVec.ofNat 512 (natLE l), false)

/-- The flags of each output in the lane of its byte offset (R213, R279). -/
def drainFlags (c : Ctx) (fmt : Tag) (n : Nat) (fs : List (Nat × Flags)) : Ctx :=
  ((List.range fs.length).zip fs).foldl (fun c e =>
    c.raise ((e.1 / n * drainRow fmt n + e.1 % n * Tag.bits fmt / 8) / 4 % 16) e.2.2) c

/-- A drain whose lines are written completes when every one is acknowledged at its home: the slot is EMPTY. -/
def State.endDrain (s : State) (cl k : Nat) (x : Slot) (p : Pid) (sat : Bool) (lo hi : Nat) : State :=
  if ((s.proc? p).any fun pr => pr.outs.any fun o => lo ≤ o.id && o.id < hi) || s.heldOf cl none then s.sched 16 (.mdrainComplete cl k)
  else (s.emptySlot cl k x sat).commandDone cl p

/-- A drain's outputs are converted and written. -/
def State.finishDrain (s : State) (cl k : Nat) (x : Slot) (p : Pid) (pr : Proc) (dst : Word) (fmt : Tag) (nf : Bool) : State :=
  let n := x.drainN
  let src := (outputs 0 x.drainM n).map (s.drainSource cl k x)
  let float := x.mode.any modeFloat
  let from_ : Tag := if float then .fp32 else .int32
  let (vs, sr) := convertAll pr.ctx from_ 0 fmt (fctlRm pr.ctx) (fun _ => true) 0 pr.ctx.srstate (src.map fun v => v.1)
  let clip := !float && Tag.isInt fmt && (vs.zip src).any fun e => Tag.int fmt e.1.1 ≠ Tag.int .int32 e.2.1
  let sat := (src.any fun v => v.2) || clip
  let c := { pr.ctx with srstate := sr }
  let c := if nf then c else drainFlags c fmt n vs
  let s := s.setProc p { pr with ctx := c }
  let lo := s.nextAcc
  let s := State.drainLines p pr dst (toLines (drainBytesOf fmt n (vs.map fun v => v.1))) s
  let x := { x with cmd := some (p, .drained sat lo s.nextAcc) }
  (s.setSlotAt cl k x).endDrain cl k x p sat lo s.nextAcc

def execMdrainComplete (cl slot : Nat) (s : State) : Host.Outcome State Fault Refusal :=
  match Tab.get? slot (s.cluster cl).slots with
  | some x =>
    match x.cmd with
    | some (p, .drain dst fmt nf) =>
      match s.proc? p with
      | some pr => .next (s.finishDrain cl slot x p pr dst fmt nf)
      | none => .next s
    | some (p, .drained sat lo hi) => .next (s.endDrain cl slot x p sat lo hi)
    | _ => .next s
  | none => .next s

/-! ## MZERO, MSTAT, MLEASE, MREL, MCARRY, MWAIT (R262, R264, R265, R275, R283) -/

/-- NOSLOT: nothing to claim. -/
def State.zeroCheck (s : State) (pr : Proc) (a : ASlot) : Option TrapInfo :=
  if (s.teamSlot pr a).isNone && (Tab.freeKey (s.cluster pr.cl).slots 0 4).isNone then some { cls := 16, kind := 4 } else none

def startZero (p : Pid) (a : ASlot) : Exec Unit := do
  let s ← get
  let pr ← getProc p
  match s.teamSlot pr a with
  | some (k, x) => set ((s.setSlotAt pr.cl k { x with lock := true, cmd := some (p, .zero) }).sched 128 (.mzeroComplete pr.cl k))
  | none => match Tab.freeKey (s.cluster pr.cl).slots 0 4 with
    | some k => set ((s.setSlotAt pr.cl k { team := pr.team, tslot := a, lock := true, cmd := some (p, .zero) }).sched 128
        (.mzeroComplete pr.cl k))
    | none => pure ()

def execMzero (m : Mods) (slot : ASlot) (s : State) : Host.Outcome State Fault Refusal :=
  runExec m (lenOf m true false) true s fun p _ =>
    arrayCommand p slot scCluster (fun s pr => s.zeroCheck pr slot) (startZero p slot)

def execMzeroComplete (cl slot : Nat) (s : State) : Host.Outcome State Fault Refusal :=
  match Tab.get? slot (s.cluster cl).slots with
  | some x =>
    match x.cmd with
    | some (p, .zero) => .next ((s.emptySlot cl slot x false).commandDone cl p)
    | _ => .next s
  | none => .next s

def execMstat (m : Mods) (d : SReg) (slot : ASlot) (s : State) : Host.Outcome State Fault Refusal :=
  runExec m (lenOf m true false) true s fun p pr => do
    let s ← get
    setS p d (match s.teamSlot pr slot with | some (k, x) => s.slotHeader pr.cl k x | none => 0)
    pure {}

def execMlease (m : Mods) (n : BitVec 5) (s : State) : Host.Outcome State Fault Refusal :=
  runExec m (lenOf m true false) true s fun p pr => do
    let s ← get
    if s.holdsLease p pr then do
      modS fun s => s.modCluster pr.cl fun c => { c with lease := c.lease.map fun l => { l with left := n.toNat } }
      pure { endChunk := true }
    else do
      modS fun s => s.askLease pr.cl p n.toNat
      waitOn .lease 0 0

def execMrel (m : Mods) (s : State) : Host.Outcome State Fault Refusal :=
  runExec m (lenOf m true false) true s fun p pr => do
    let s ← get
    if s.holdsLease p pr then modS fun s => s.dropLease pr.cl
    pure { endChunk := true }

def execMcarry (m : Mods) (trap : Bool) (s : State) : Host.Outcome State Fault Refusal :=
  runExec m (lenOf m true false) true s fun p pr => do
    let s ← get
    guardTrap (!s.holdsLease p pr) { cls := 16, kind := 5 }
    modS fun s => s.modCluster pr.cl fun c => { c with lease := c.lease.map fun l => { l with trapMode := trap } }
    pure {}

def execMwait (m : Mods) (slot : ASlot) (s : State) : Host.Outcome State Fault Refusal :=
  runExec m (lenOf m true false) true s fun p pr => do
    let s ← get
    match s.teamSlot pr slot with
    | some (_, x) => if x.lock then waitOn .lease (slotAddr slot) 0
    | none => pure ()
    acquire p scCluster
    pure { endChunk := true }

/-! ## MVMQ (R280, R281) -/

/-- Bytes of the vector. -/
def mvmBytes (md : Mode) (sm : Word) : Nat := rowBytes md (shapeOf sm).k

def State.mvmArg (s : State) (pr : Proc) (md : Mode) (sa sb sm : Word) : Bool :=
  let x := shapeOf sm
  x.bad md sm || x.m ≠ 1 || x.astr ≠ 0 || 0xFFFC0 < mvmBytes md sm || (s.inAllotment pr sa (mvmBytes md sm)).isNone ||
    spaceOf sb ≠ 0 || !aligned sb.toNat 64

/-- The command block of R281. -/
def mvmBlock (s : State) (p : Pid) (md : Mode) (sa sb sm : Word) : List Byte :=
  wordsBytes [BitVec.ofNat 64 (5 + bits sa 31 0 * 2 ^ 32), mkHandle 63 6 2 false s.dev p, sb, 0, 0, sm, BitVec.ofNat 64 md.code, 0]

/-- A page homed in host memory has no memory die: its command goes to die 0 (log entry 22). -/
def execMvmq (m : Mods) (d rs t : SReg) (mode : Mode) (s : State) : Host.Outcome State Fault Refusal :=
  runExec m (lenOf m true true) true s fun p pr => do
    let sa := pr.ctx.rs d
    let sb := pr.ctx.rs rs
    let sm := pr.ctx.rs t
    let s ← get
    guardTrap (Part.isE s.phys.part) { cls := 2 }
    guardTrap (s.mvmArg pr mode sa sb sm) { cls := 16, kind := 1 }
    let n := mvmBytes mode sm
    let pl ← resolve p sb 64 .read false
    let die := match pl with | .mem loc => if isDev loc then dieOf loc else 0 | _ => 0
    release p scDevice false
    let data ← readArea p (s.spmOf pr.team + bits sa 31 0) n
    let s ← get
    let bytes := mvmBlock s p mode sa sb sm ++ pad64 data.1
    let msg : Msg := {
      sender := some p, kind := 1, idx := die, efmt := 63, sclass := 6, len := bytes.length, bytes := bytes
      bad := data.2.map (· + 1), srcCl := pr.cl, srcOff := 0, bulk := true, expert := none, place := none, ended := true, dropped := []
      site := some (s.clusterSite pr.cl) }
    set (({ s with nextMsg := s.nextMsg + 1, msgs := Tab.put s.nextMsg msg s.msgs } : State).sched tripCycles
      (.serverCommandAccept die s.nextMsg))
    pure { endChunk := true }

end Sys2Proof.Machine
end

