-- ==== Sys2Proof/Machine/Procs.lean ====
section
/-! DEFINITION. The life of processes: SPAWN, PRIO, STAGE, SLEEP, SELF, YIELD and EXIT (R352 to R357), and kills (R358). -/

namespace Sys2Proof.Machine

/-! ## Ends (R357, R358) -/

/-- Takes a process off everything that lists it, and off its core. -/
def State.unhook (s : State) (p : Pid) : State :=
  match s.proc? p with
  | none => s
  | some pr =>
    let s := (s.leaveCore p).unready p
    let s := (s.unlist pr.cl p).leaveBars p
    let s := s.unsolo p
    let drop : List Armed → List Armed := fun l => l.filter fun a => a.pid ≠ p
    let boxes := s.mailboxes.map fun (e : Nat × Mailbox) => (e.1, { e.2 with senders := e.2.senders.filter (· ≠ p) })
    let s : State := { s with
      waitLaunch := s.waitLaunch.filter (· ≠ p)
      mailboxes := boxes
      experts := s.experts.map fun (e : Nat × Expert) => (e.1, { e.2 with
        pinQ := e.2.pinQ.filter fun q => q.1 ≠ p
        switch := e.2.switch.map fun (w : Switch) => { w with pin := if w.pin = some p then none else w.pin } })
      memdies := s.memdies.map fun (e : Nat × MemDie) => (e.1, { e.2 with armed := drop e.2.armed }) }
    s.modCluster pr.cl fun c => { c with armed := drop c.armed, svcQ := c.svcQ.filter fun x => x.pid ≠ p }

/-- Closes and frees the reply endpoint of a process. -/
def State.closeReply (s : State) (p : Pid) : State :=
  match s.lookup (replyKey p) with
  | some (.ep cl e) => s.freeEnd cl e
  | _ => s

/-- Removes a process: its record is EXITED and its member number free; its windows have lost their owner, and the ended copies of
its batches are nobody's. -/
def State.removeProc (s : State) (p : Pid) : State :=
  let s := (s.unhook p).closeReply p
  let own : Tab Window → Tab Window := fun t => t.map fun e => (e.1, if e.2.owner = p then { e.2 with orphan := true } else e.2)
  { s with
    procs := Tab.del p s.procs
    clusters := s.clusters.map fun (e : Nat × Cluster) => (e.1, { e.2 with
      windows := own e.2.windows, copyEnds := e.2.copyEnds.filter fun x => x.pid ≠ p }) }

/-- A process has ended: spawn entries may use its number, and its team ends with its last process (R373). -/
def State.afterEnd (s : State) (pr : Proc) : State :=
  let last := !(s.procs.any fun e => e.2.team = pr.team)
  let s := { s with lastExit := some (s.cycles, pr.cl, pr.core, last) }
  if last then s.endTeam pr.team
  else ((s.cluster pr.cl).endps.filter fun e => e.2.team = pr.team && e.2.spn).foldl (fun s e => s.settle pr.cl e.1) s

/-- Messages of a killed sender are withdrawn, matched or on another device too (R134, R358). -/
def State.dropMessages (s : State) (cl : Nat) (p : Pid) : State :=
  (s.msgs.filter fun e => e.2.sender = some p).foldl (fun s e =>
    match e.2.remote with
    | some dev => { s with msgs := Tab.del e.1 s.msgs }.sendBody (s.clusterSite cl) dev false (.withdraw (msgTag (some p) e.1) true) []
    | none => s.senderDied e.1) s

/-- The endpoints of its cluster at which a process receives: its reply endpoint, those it waits at, and the one its transfer
came to. -/
def State.receivesAt (s : State) (cl : Nat) (p : Pid) : List Nat :=
  ((s.cluster cl).endps.filter fun e => (e.2.reply && e.2.idx = p) || e.2.waiters.contains p ||
    (s.cluster cl).greqs.any fun q => q.2.rcvr = some p && q.2.ep = some e.1).map fun e => e.1

/-- A killed receiver (R135): every request addressed to an endpoint at which it receives is cancelled, and so is the one of its saved
receive. -/
def State.cancelReceives (s : State) (cl : Nat) (p : Pid) : State :=
  let s := (s.receivesAt cl p).foldl (fun s e => s.cancelEnd cl e) s
  let s := ((s.cluster cl).greqs.filter fun e => e.2.rcvr = some p).foldl (fun s e => s.cancelReq cl e.1) s
  match s.proc? p with
  | none => s
  | some pr =>
    let w := fun i => Tab.getD i pr.ctx.rendez 0
    if bit (w 0) 63 then s.sendDone (bits (w 2) 63 32) (.status 2) 0 else s

/-- The open chunk of a process that is killed commits, or is dropped when it overlaps (R417). -/
def State.settleChunk (s : State) (p : Pid) : State :=
  match s.proc? p with
  | none => s
  | some pr =>
    match pr.chunk with
    | none => s
    | some c =>
      if c.count = 0 || (!pr.solo && overlaps c (s.cluster pr.cl).wsets) then s.setProc p pr.squashed
      else s.commitChunk p pr c

/-- A killed process's committed writes go on without it: those that waited for an earlier one are sent, and its launch's record waits
for all of them (R93). -/
def State.leaveOuts (s : State) (p : Pid) : State :=
  match s.proc? p with
  | none => s
  | some pr =>
    let s := (pr.outs.foldl (fun s o => s.sendHeld p o) s).leaveWrites pr.lid (pr.outs.map fun o => o.id)
    let s := s.modProc p fun pr => { pr with outs := [] }
    pr.outs.foldl (fun s o => if o.space = 1 then s.lineFree pr.cl o.line else s) s

/-- What a kill undoes before the record goes. -/
def State.killEffects (s : State) (p : Pid) : State :=
  match s.proc? p with
  | none => s
  | some pr =>
    let s := s.settleChunk p
    let s := s.leaveOuts p
    let s := match pr.svc with
      | some k =>
        let c := s.cluster pr.cl
        let slot := Tab.getD k c.svc {}
        (s.setCluster pr.cl { c with svc := Tab.put k { ctx := none, ps := [], priv := bankCopy pr.ctx.s slot.priv } c.svc }).sched 1
          (.serviceSlotStart pr.cl)
      | none => s
    let s := ((s.cancelReceives pr.cl p).unlist pr.cl p).dropMessages pr.cl p
    (s.unreserve p).cancelCopies pr.cl p

/-- Kills a process (R358). -/
def State.killProc (s : State) (p : Pid) : State :=
  match s.proc? p with
  | none => s
  | some pr => ((s.killEffects p).removeProc p).afterEnd pr

/-- Processes of a team. -/
def State.members (s : State) (t : Nat) : List Pid := (s.procs.filter fun e => e.2.team = t).map fun e => e.1

/-- Kills a team (R373): a queued one leaves its queue, and no spawn entry takes the number of a member that is gone. -/
def State.killTeam (s : State) (t : Nat) : State :=
  let ps := s.members t
  let s := match (ps.getLast?).bind s.proc? with
    | some pr => { s with lastExit := some (s.cycles, pr.cl, pr.core, true) }
    | none => s
  (ps.foldl (fun s p => (s.killEffects p).removeProc p) s).endTeam t

/-! ## SPAWN (R352) -/

def execSpawn (m : Mods) (d rs : SReg) (t : Option SReg) (s : State) : Host.Outcome State Fault Refusal :=
  runExec m (lenOf m true t.isSome) true s fun p pr => do
    let entry := pr.ctx.rs rs
    let x := match t with | some r => pr.ctx.rs r | none => 0
    guardTrap (bit entry 0) { cls := 23, kind := 1 }
    let s ← get
    match s.freeMember pr.team with
    | none => raiseTrap { cls := 23, kind := 2 }
    | some c => do
      release p scCluster false
      modS fun s => (s.addProc c pr.team { entry := entry, code := 1, s1 := x } fun q =>
        { q with prio := pr.prio, stage := pr.stage, acquireDue := true }).makeReady c
      setS p d (BitVec.ofNat 64 c)
      pure {}

/-! ## PRIO, STAGE, SLEEP, SELF, YIELD (R353, R354, R356) -/

def execPrio (m : Mods) (n : BitVec 3) (s : State) : Host.Outcome State Fault Refusal :=
  runExec m (lenOf m true false) true s fun p _ => do
    modProcE p fun pr => { pr with prio := n }
    pure {}

def execStage (m : Mods) (n : BitVec 4) (s : State) : Host.Outcome State Fault Refusal :=
  runExec m (lenOf m true false) true s fun p _ => do
    modProcE p fun pr => { pr with stage := n }
    pure {}

def execSleep (m : Mods) (d : SReg) (s : State) : Host.Outcome State Fault Refusal :=
  runExec m (lenOf m true false) true s fun _ pr => do
    let s ← get
    let t := pr.ctx.rs d
    if s.timeAt pr.cl < t.toNat then waitOn .sleep 0 t
    pure {}

/-- What SELF writes. -/
def selfWord (s : State) (p : Pid) (pr : Proc) (item : SelfItem) : Word :=
  match item with
  | .pid => BitVec.ofNat 64 (s.key p)
  | .team => BitVec.ofNat 64 pr.team
  | .stage => pr.stage.setWidth 64
  | .prio => pr.prio.setWidth 64
  | .reply => mkHandle 63 6 2 false s.dev p

def execSelf (m : Mods) (d : SReg) (item : SelfItem) (s : State) : Host.Outcome State Fault Refusal :=
  runExec m (lenOf m true false) true s fun p pr => do
    let s ← get
    setS p d (selfWord s p pr item)
    pure {}

/-- Another process of a priority or a higher one is ready on the cluster. -/
def State.rivalReady (s : State) (cl prio : Nat) : Bool :=
  (List.range 31).any fun k => (s.bestPrio cl k).any fun q => q ≤ prio

def execYield (m : Mods) (s : State) : Host.Outcome State Fault Refusal :=
  runRaw m (lenOf m true false) s fun p pr =>
    let s := s.complete p pr.ctx m (lenOf m true false) {}
    if ((s.proc? p).any fun q => q.slot.isSome) && s.rivalReady pr.cl pr.prio.toNat then s.beginLeave p else s

/-! ## EXIT (R357) -/

def execExit (m : Mods) (s : State) : Host.Outcome State Fault Refusal :=
  runExec m (lenOf m true false) true s fun p pr => do
    if pr.pend ≠ 0 then waitOn .reply 0 0
    takeHeld p fun h => h.red
    -- a held fault is taken before anything has happened (R114)
    release p scDevice false
    let pr ← getProc p
    let open_ := pr.openBatch
    let s ← get
    if (s.cluster pr.cl).copies.any (fun e => e.2.pid = p && e.2.batch = some open_.toNat) && pr.unfinished < 255 then do
      modProcE p fun pr => { pr with
        openBatch := open_ + 1, batches := Tab.put open_.toNat .running (Tab.del (open_ + 1).toNat pr.batches) }
      modS fun s => s.settleBatch pr.cl p open_.toNat
    let pr ← getProc p
    if pr.unfinished ≠ 0 then waitOn .batch 0 0
    modS fun s => (s.endLease p).unreserve p
    modProcE p fun pr => { pr with ctx := { pr.ctx with qbound := 0, qout := 0, qh := [] } }
    release p scDevice false
    let pr ← getProc p
    modS fun s => ((s.countCore pr.cl pr.unit 1).removeProc p).afterEnd pr
    pure {}

end Sys2Proof.Machine
end

