-- ==== Sys2Proof/Machine/Contain.lean ====
section
/-! DEFINITION. Containment (R422 to R424): policies, fault records, restarts, aborts; service slots (R410, R412); and the
asynchronous trap of phase timers (R421). -/

namespace Sys2Proof.Machine

/-! ## Restarts (R424) -/

/-- Registers that a process of an origin gets beside s1. -/
def State.originRegs (s : State) (t : Nat) (k : Team) (o : Origin) (c : Ctx) : Ctx :=
  if o.code = 0 then
    let args := ((s.launch? k.lid).map fun l => l.args).getD []
    ((List.range 4).foldl (fun (c : Ctx) j => c.ws (BitVec.ofNat 6 (2 + j)) (args.getD j 0)) c).ws 6 (BitVec.ofNat 64 k.index)
  else if o.code = 3 then
    match (s.team? t).bind fun k => k.replica with
    | some (x, r) =>
      match s.expert? x with
      | some e => ((c.ws 2 (Tab.getD r e.rh 0)).ws 3 (BitVec.ofNat 64 r)).ws 4 (expertHandle s x e)
      | none => c
    | none => c
  else c

/-- Creates a process again from its origin entry, with the priority and stage it had, its fault summary and one more retry (R322, R416). -/
def State.restartProc (s : State) (p : Pid) : State :=
  match s.proc? p with
  | none => s
  | some pr =>
    match (s.team? pr.team).bind fun k => (Tab.get? (p % 256) k.origins).map fun o => (k, o) with
    | some (k, o) =>
      let s := (s.killEffects p).removeProc p
      let s := s.addProc p pr.team o fun q =>
        { q with prio := pr.prio, stage := pr.stage, ctx := s.originRegs pr.team k o q.ctx, acquireDue := true
                 rtry := pr.rtry + 1, fcls := pr.fcls, fkind := pr.fkind, fpcls := pr.fpcls, fpkind := pr.fpkind, flvl := pr.flvl }
      s.makeReady p
    | none => s

/-- Restarts a team: its processes are killed and its claims released; the initial processes, or those of its replica, start
again. -/
def State.restartTeam (s : State) (t : Nat) : State :=
  match s.team? t with
  | none => s
  | some k =>
    let ps := s.members t
    let s := ps.foldl (fun s p => (s.killEffects p).removeProc p) s
    let gone := (s.cluster k.cl).slots.filter fun e => e.2.team = t
    let s := s.modCluster k.cl fun c => { c with
      slots := c.slots.filter fun e => e.2.team ≠ t
      carry := c.carry.filter fun x => !(gone.any fun e => e.1 = x.slot) }
    let s := if gone = [] then s else s.sched 8 (.leaseGrant k.cl)
    let s := s.modTeam t fun k => { k with trtry := k.trtry + 1, origins := [] }
    let s := if k.replica.isNone then s.makeInitial t
      else (List.range k.nproc).foldl (fun s i =>
        let o : Origin := { entry := k.entry, code := 3, s1 := BitVec.ofNat 64 i }
        (s.addProc (256 * t + i) t o fun q => { q with
          prio := k.prio, stage := k.stage, ctx := s.originRegs t k o q.ctx, acquireDue := true }).makeReady (256 * t + i)) s
    ((s.cluster k.cl).endps.filter fun e => e.2.team = t).foldl (fun s e => s.settle k.cl e.1) s

/-- Takes a launch's entry away, kills its teams, and forgets them: the caller accepts or ends it. -/
def State.clearLaunch (s : State) (lid : Nat) : State :=
  let s := { s with launches := Tab.del lid s.launches }
  let ts := (s.teams.filter fun e => e.2.lid = lid && e.2.state ≠ .ended).map fun e => e.1
  let s := ts.foldl (fun s t => s.killTeam t) s
  { s with teams := s.teams.filter fun (e : Nat × Team) => e.2.lid ≠ lid || e.2.state = .draining }

/-- Restarts a launch under its id; a record that can no longer be taken aborts it. -/
def State.restartLaunch (s : State) (lid cls : Nat) : State :=
  match s.launch? lid with
  | none => s
  | some l =>
    let s := s.clearLaunch lid
    let l := { l with lrtry := l.lrtry + 1 }
    match s.readAgain l with
    | some (some r, s) => s.accept lid { l with args := if l.phys then l.args else (r.hdr.drop 4).take 4 } r
    | _ => ({ s with launches := Tab.put lid l s.launches } : State).endLaunch lid 1 cls

/-- Ends a launch with a status and a cause of R93, every team killed. -/
def State.abortLaunch (s : State) (lid status cause : Nat) : State :=
  match s.launch? lid with
  | none => s
  | some _ =>
    let s := s.modLaunch lid fun l => { l with ended := some (status, cause) }
    let ts := (s.teams.filter fun e => e.2.lid = lid && e.2.state ≠ .ended).map fun e => e.1
    (ts.foldl (fun s t => s.killTeam t) s).tryEndLaunch lid

/-! ## Containment (R422, R423) -/

/-- Posts the fault record. -/
def State.faultRecord (s : State) (p : Pid) (pr : Proc) (x : SvcCtx) (lvl pola : Nat) (exh : Bool) : State :=
  let f := x.frame
  s.postService (faultIdx pr.team)
    [BitVec.ofNat 64 (0x20 + bits f.tcause 7 0 * 2 ^ 8 + bits f.tcause 15 8 * 2 ^ 16 + lvl * 2 ^ 24 + pola * 2 ^ 26 + exh.toNat * 2 ^ 28 +
        x.second.isSome.toNat * 2 ^ 29),
      BitVec.ofNat 64 (s.key p), f.tpc, f.taddr, f.taux, BitVec.ofNat 64 s.timebase, BitVec.ofNat 64 pr.lid,
      match x.second with | some (c, k) => BitVec.ofNat 64 (c % 256 + k % 256 * 2 ^ 8) | none => 0]

/-- A process-level IGNORE: the trapping instruction counts as gated off (R423). -/
def State.ignoreFault (s : State) (p : Pid) (x : SvcCtx) : State :=
  let f := x.frame
  let here := bit f.tcause 29 || bits f.tcause 7 0 = 27 || bits f.tcause 7 0 = 29
  if here then s.resumeFrom p x
  else
    match s.proc? p with
    | none => s
    | some pr =>
      let inBlock := match x.loop with
        | some l => decide (bit f.tloop 63 ∧ f.tpc = l.start + BitVec.ofNat 64 (bits f.tloop 9 0))
        | none => false
      let pr := { pr with pc := f.tpc, loop := if inBlock then x.loop else none }
      (s.setProc p (pr.advance (bits f.tcause 19 16) none)).makeReady p

/-- Contains a fault: the policies are consulted upward until one absorbs it. -/
def State.contain (s : State) (p : Pid) (x : SvcCtx) : State :=
  match s.proc? p with
  | none => s
  | some pr =>
    let cls := bits x.frame.tcause 7 0
    let fetch := bit x.frame.taux 62
    let pol := if pr.pol = 0 ∧ (cls = 1 ∨ fetch) then 2 else pr.pol.toNat
    let exh0 := pol = 1 && pr.rtry = 3
    let mark : Nat → State → State := fun lvl s => s.modProc p fun q => { q with flvl := BitVec.ofNat 2 lvl }
    if pol ≠ 3 ∧ !exh0 then
      let s := mark 0 (s.faultRecord p pr x 0 pol false)
      if pol = 0 then s.ignoreFault p x
      else if pol = 1 then s.restartProc p
      else s.killProc p
    else
      match s.team? pr.team with
      | none => s.killProc p
      | some k =>
        let exh1 := k.tpol = 1 && k.trtry = 3
        if k.tpol ≠ 3 ∧ !exh1 then
          let s := mark 1 (s.faultRecord p pr x 1 k.tpol.toNat exh0)
          if k.tpol = 0 then s.killProc p
          else if k.tpol = 1 then s.restartTeam pr.team
          else s.killTeam pr.team
        else
          match s.launch? pr.lid with
          | none => s.killTeam pr.team
          | some l =>
            let exh2 := l.lpol = 1 && l.lrtry = 3
            let lp := if exh2 then 3 else l.lpol.toNat
            let s := mark 2 (s.faultRecord p pr x 2 lp (exh0 || exh1 || exh2))
            if lp = 0 then s.killTeam pr.team
            else if lp = 1 then s.restartLaunch pr.lid cls
            else
              let s := s.abortLaunch pr.lid 1 cls
              match (if lp = 3 then l.issuer else none) with
              | some q => s.modProc q fun z => { z with childDue := z.childDue ++ [(pr.lid, cls)] }
              | none => s

/-! ## Service slots (R410 to R412, R428) -/

/-- A free service slot takes the oldest queued context; with SVEC 0, or after a double fault, the context goes to containment. -/
def execServiceSlotStart (cl : Nat) (s : State) : Host.Outcome State Fault Refusal :=
  let c := s.cluster cl
  if c.dm.phase ≠ .running then .next s
  else match c.svcQ with
    | [] => .next s
    | x :: rest =>
      let again : State → State := fun s => if rest = [] then s else s.sched 1 (.serviceSlotStart cl)
      let svec := s.reg 16
      if svec = 0 ∨ x.second.isSome then
        .next (again ((s.setCluster cl { c with svcQ := rest }).contain x.pid x))
      else
        match (List.range 8).find? fun k => ((Tab.getD k c.svc {}).ctx).isNone with
        | none => .next s
        | some k =>
          match s.proc? x.pid with
          | none => .next (again (s.setCluster cl { c with svcQ := rest }))
          | some pr =>
            let slot := Tab.getD k c.svc {}
            let s := s.setCluster cl { c with
              svcQ := rest, svc := Tab.put k { slot with ctx := some x, ps := bankCopy pr.ctx.s [] } c.svc }
            let s := s.setProc x.pid { pr with
              state := .service, svc := some k, pc := svec, issueAt := s.cycles, op := none, chunk := none, loop := none
              wkind := .nothing, ctx := { pr.ctx with s := bankCopy slot.priv pr.ctx.s } }
            .next (again s)

/-- SRET: the context leaves its service slot and resumes, or its fault is contained. -/
def State.sret (s : State) (p : Pid) (k : Nat) : State :=
  match s.proc? p with
  | none => s
  | some pr =>
    match (Tab.getD k (s.cluster pr.cl).svc {}).ctx with
    | none => s
    | some x =>
      let s := (s.unbank p k).sched 1 (.serviceSlotStart pr.cl)
      if bits x.frame.svcst 2 1 = 0 then s.resumeFrom p x else s.contain p x

/-- A phase has overrun (R421). -/
def Ctx.overrun (c : Ctx) : Bool :=
  c.expect ≠ 0 && c.expect.toNat + c.expect.toNat * c.frac.toNat / 256 + c.padd.toNat < c.elapsed.toNat

/-- PHASE_OVERRUN is taken, and the timer is disarmed (R421). -/
def execPhaseOverrun (pid : Pid) (s : State) : Host.Outcome State Fault Refusal :=
  match s.proc? pid with
  | none => .next s
  | some pr =>
    if !(pr.ctx.overrun || pr.phaseDue) then .next s
    else if pr.svc.isSome || pr.state ≠ .running || (pr.chunk.any fun c => c.count ≠ 0) || pr.op.isSome then
      .next (s.setProc pid { pr with phaseDue := true })
    else if pr.pend ≠ 0 then .next (s.block pid .reply 0 0)
    else
      let c := pr.ctx
      let s := s.setProc pid { pr with phaseDue := false, ctx := { c with expect := 0 } }
      .next (s.enterService pid 0 { cls := 27, addr := c.phid.setWidth 64, aux := c.elapsed.setWidth 64, noLen := true })

end Sys2Proof.Machine
end

