-- ==== Sys2Proof/Machine/MemDie.lean ====
section
/-! DEFINITION. Units of the memory dies: the memory-side cache and scrubbing (R47, R48), the memory servers and their commands (R55
to R59, R281), remote-access counters and the migration engines (R79 to R85). -/

namespace Sys2Proof.Machine

/-! ## Requests at a die (R47, R48, R79) -/

/-- A request served at a memory die through its memory-side cache. -/
def execMemorySideAccess (line : Nat) (who : Requester) (op : MemOp) (s : State) : Host.Outcome State Fault Refusal :=
  let line := lineOf line
  if !s.paOk line then .next s
  else match op with
    | .read => .next (((s.racHit who line).maySpill none line).touchHome line).2
    | .write data mask => .next ((s.racHit who line).homeWrite line data mask)
    | .prefetch => .next ((s.racHit who line).touchHome line).2

/-- The scrubber of a die goes on, so that every line of its stack has its turn once per 24 hours; one step at a time is due. -/
def State.nextScrub (s : State) (die off : Nat) : State :=
  if s.queue.any fun q => match q.2 with | .scrub d _ => d = die | _ => false then s
  else s.sched (nsCycles (86400 * 10 ^ 9 / (stackBytes / 64))) (.scrub die (die * 2 ^ 47 + off % stackBytes))

/-- One line of a stack is scrubbed: a single-bit error is corrected in the stack. -/
def execScrub (die line : Nat) (s : State) : Host.Outcome State Fault Refusal :=
  let line := lineOf line
  if !s.paOk line ∨ dieOf line ≠ die then .next s
  else
    let s := (s.eccAt 1 line).verifyAt 1 line
    let s := s.nextScrub die (line % 2 ^ 47 + 64)
    .next (if Tab.getD line s.phys.flips 0 = 1 then { s with phys := { s.phys with flips := Tab.del line s.phys.flips } } else s)

/-- Every counter is halved once per EPOCH, while EPOCH is not 0. -/
def execCounterHalving (s : State) : Host.Outcome State Fault Refusal :=
  let epoch := bits (s.reg 57) 31 16
  if epoch = 0 then .next s
  else
    let s := { s with memdies := s.memdies.map fun (e : Nat × MemDie) =>
      (e.1, { e.2 with rac := (e.2.rac.map fun (c : Nat × BitVec 8) => (c.1, c.2 / 2)).filter fun c => c.2 ≠ 0 }) }
    .next (s.sched (nsCycles (1000 * epoch)) .counterHalving)

/-- Starts the halving timer when EPOCH is not 0 and no timer runs. A timer that runs fires at the old period before a changed EPOCH
takes effect: DESIGN CHOICE (log entry 76). -/
def State.startHalving (s : State) : State :=
  let epoch := bits (s.reg 57) 31 16
  if epoch = 0 ∨ (s.queue.any fun e => e.2 = .counterHalving) then s else s.sched (nsCycles (1000 * epoch)) .counterHalving

/-! ## Memory servers: reaching lines -/

/-- What a command came to: STATUS, DONE, FADDR, NBAD and the data that follow the block. -/
structure SrvEnd where
  status : Nat
  done : Nat := 0
  faddr : Word := 0
  nbad : Nat := 0
  data : List Byte := []
  deriving DecidableEq, Repr

def srvOk : Nat := 0
def srvBadCmd : Nat := 1
def srvBadArg : Nat := 2
def srvFault : Nat := 3
def srvPoison : Nat := 4
def srvUnsup : Nat := 5

/-- Word n of a command block. -/
def SrvCmd.word (c : SrvCmd) (n : Nat) : Word := wordAt c.bytes n
def SrvCmd.cmd (c : SrvCmd) : Nat := bits (c.word 0) 7 0
def SrvCmd.esz (c : SrvCmd) : Nat := bits (c.word 0) 9 8
def SrvCmd.count (c : SrvCmd) : Nat := bits (c.word 0) 31 16
/-- The operand bytes after the block. -/
def SrvCmd.operand (c : SrvCmd) : List Byte := c.bytes.drop 64

/-- A device location that the server of a die reaches for an access, or the FADDR at which it stops: the address, or the line's
address on a page homed in host memory (R57). No STATUS of R58 is stated for a line on another die that the mesh cannot reach: DESIGN
CHOICE, FAULT with the address (log entry 74). -/
def State.srvReach (s : State) (die : Nat) (c : SrvCmd) (ea : Word) (a : Acc) : Except Word Nat × State :=
  if bits ea 63 57 ≠ 0 then (.error ea, s)
  else match s.translate (dieXctx die c.asid c.root) (bits ea 56 0) a with
    | (.error _, s) => (.error ea, s)
    | (.ok e, s) =>
      let loc := leafAddr e (bits ea 56 0)
      if hostBase ≤ loc then (.error (ea &&& ~~~63), s)
      else match s.tripRefused (memSite die) (memSite (dieOf loc)) with
        | none => (.ok loc, s)
        | some site => (.error ea, s.machineCheck 4 0 site (lineOf loc))

/-- Brings a line to the server and verifies its code (point 8); answers whether it is poisoned. -/
def State.srvRead (s : State) (die line : Nat) : Bool × State :=
  let s := ((s.racHit (.site (memSite die)) line).maySpill none line).touchHome line
  let s := s.2.verifyAt 8 line
  (s.isPoison line, s)

/-- Writes bytes within one line at its home. -/
def State.srvWrite (s : State) (die loc : Nat) (bs : List Byte) : State :=
  (s.racHit (.site (memSite die)) (lineOf loc)).homeWriteBytes loc bs

/-! ## The commands (R57, R281) -/

/-- The first zero field of R56 that is not zero, or a wrong length, alignment or space. The operand bytes match COUNT when the
message is exactly as long as the block and the operands, or is the least power of two that holds them (log entry 16). -/
def lenMatches (n operands : Nat) : Bool := n = 64 + operands || (64 + operands ≤ n && n / 2 < 64 + operands && n = 2 ^ Nat.log2 n)

def SrvCmd.badWords (c : SrvCmd) (ns : List Nat) : Bool := ns.any fun n => c.word n ≠ 0

/-- Operand bytes of a GATHER or SCATTER. -/
def SrvCmd.operandLen (c : SrvCmd) (scatter : Bool) : Nat :=
  up64 (4 * c.count) + (if scatter then up64 (c.count * 2 ^ c.esz) else 0)

/-- BADARG of GATHER and SCATTER. R56 gives COUNT the range 1 to 65,535, and R57 does not name 0 among the cases: DESIGN CHOICE, a
COUNT of 0 is BADARG (log entry 75). -/
def SrvCmd.badIndexed (c : SrvCmd) (scatter : Bool) : Bool :=
  bits (c.word 0) 15 10 ≠ 0 || c.count = 0 || c.badWords [3, 4, 5, 6, 7] || spaceOf (c.word 2) ≠ 0 ||
    !aligned (c.word 2).toNat (2 ^ c.esz) || !lenMatches c.bytes.length (c.operandLen scatter)

/-- BADARG of FILL and CHECK. -/
def SrvCmd.badRange (c : SrvCmd) (fill : Bool) : Bool :=
  bits (c.word 0) 31 8 ≠ 0 || c.badWords (if fill then [5, 6, 7] else [4, 5, 6, 7]) || spaceOf (c.word 2) ≠ 0 ||
    !aligned (c.word 2).toNat 64 || !aligned (c.word 3).toNat 64 || (c.word 3).toNat < 64 || 0x40000000 < (c.word 3).toNat ||
    c.bytes.length ≠ 64

/-- The indices of a command. -/
def SrvCmd.indices (c : SrvCmd) : List Nat := (List.range c.count).map fun i => natLE ((c.operand.drop (4 * i)).take 4)

/-- Address of an element. -/
def SrvCmd.elemAddr (c : SrvCmd) (i : Nat) : Word := c.word 2 + BitVec.ofNat 64 (i * 2 ^ c.esz)

/-- Reads indexed elements in order; the elements read before a stop are sent. -/
def State.gatherFrom (die : Nat) (c : SrvCmd) : List Nat → Nat → List Byte → State → SrvEnd × State
  | [], n, out, s => ({ status := srvOk, done := n, data := pad64 out }, s)
  | i :: is, n, out, s =>
    match s.srvReach die c (c.elemAddr i) .read with
    | (.error a, s) => ({ status := srvFault, done := n, faddr := a, data := pad64 out }, s)
    | (.ok loc, s) =>
      match s.srvRead die (lineOf loc) with
      | (true, s) => ({ status := srvPoison, done := n, faddr := c.elemAddr i, data := pad64 out }, s)
      | (false, s) => State.gatherFrom die c is (n + 1) (out ++ Memory.read s.mem loc (2 ^ c.esz)) s

/-- FILL writes a line in two parts, each a partial write (R50): the old line is verified where they merge, and poison stays (R53). -/
def State.srvFill (s : State) (die loc : Nat) (bs : List Byte) : State :=
  let d : Line := BitVec.ofNat 512 (natLE bs)
  let s := s.racHit (.site (memSite die)) loc
  (s.homeWrite loc d (BitVec.ofNat 64 (2 ^ 32 - 1))).homeWrite loc d (BitVec.ofNat 64 (2 ^ 64 - 2 ^ 32))

/-- Writes indexed elements in order, so that of equal indices the higher one wins. -/
def State.scatterFrom (die : Nat) (c : SrvCmd) (elems : List Byte) : List Nat → Nat → State → SrvEnd × State
  | [], n, s => ({ status := srvOk, done := n }, s)
  | i :: is, n, s =>
    match s.srvReach die c (c.elemAddr i) .write with
    | (.error a, s) => ({ status := srvFault, done := n, faddr := a }, s)
    | (.ok loc, s) =>
      State.scatterFrom die c elems is (n + 1) (s.srvWrite die loc ((elems.drop (n * 2 ^ c.esz)).take (2 ^ c.esz)))

/-- Writes a pattern over lines. -/
def State.fillFrom (die : Nat) (c : SrvCmd) (pat : List Byte) : Nat → Nat → State → SrvEnd × State
  | 0, n, s => ({ status := srvOk, done := n }, s)
  | k + 1, n, s =>
    match s.srvReach die c (c.word 2 + BitVec.ofNat 64 n) .write with
    | (.error a, s) => ({ status := srvFault, done := n, faddr := a }, s)
    | (.ok loc, s) => State.fillFrom die c pat k (n + 64) (s.srvFill die loc pat)

/-- Counts failing or poisoned lines. -/
def State.checkFrom (die : Nat) (c : SrvCmd) : Nat → Nat → Nat → Word → State → SrvEnd × State
  | 0, n, bad, first, s => ({ status := srvOk, done := n, nbad := bad, faddr := first }, s)
  | k + 1, n, bad, first, s =>
    let ea := c.word 2 + BitVec.ofNat 64 n
    match s.srvReach die c ea .read with
    | (.error a, s) => ({ status := srvFault, done := n, nbad := bad, faddr := a }, s)
    | (.ok loc, s) =>
      match s.srvRead die loc with
      | (true, s) => State.checkFrom die c k (n + 64) (bad + 1) (if bad = 0 then ea else first) s
      | (false, s) => State.checkFrom die c k (n + 64) bad first s

/-- Shape and mode of an MVM. -/
def SrvCmd.shape (c : SrvCmd) : Shape := shapeOf (c.word 5)
def SrvCmd.mode? (c : SrvCmd) : Option Mode := modeOf? (bits (c.word 6) 3 0)

/-- BADARG of MVM: M is 1 and ASTR 0 (R280). -/
def SrvCmd.badMvm (c : SrvCmd) (md : Mode) : Bool :=
  bits (c.word 0) 31 8 ≠ 0 || c.badWords [3, 4, 7] || bits (c.word 6) 63 4 ≠ 0 || spaceOf (c.word 2) ≠ 0 ||
    !aligned (c.word 2).toNat 64 || c.shape.bad md (c.word 5) || c.shape.m ≠ 1 || c.shape.astr ≠ 0 ||
    !lenMatches c.bytes.length (up64 (rowBytes md c.shape.k))

/-- Reads the lines of one row. -/
def State.rowLines (die : Nat) (c : SrvCmd) : Nat → Word → List Byte → State → Except SrvEnd (List Byte) × State
  | 0, _, out, s => (.ok out, s)
  | k + 1, ea, out, s =>
    match s.srvReach die c ea .read with
    | (.error a, s) => (.error { status := srvFault, faddr := a }, s)
    | (.ok loc, s) =>
      match s.srvRead die loc with
      | (true, s) => (.error { status := srvPoison, faddr := ea }, s)
      | (false, s) => State.rowLines die c k (ea + 64) (out ++ Memory.read s.mem loc 64) s

/-- Reads the rows of B as numbers. -/
def State.mvmRows (die : Nat) (c : SrvCmd) (lines stride : Nat) : Nat → Word → List Nat → State → Except SrvEnd (List Nat) × State
  | 0, _, rows, s => (.ok rows, s)
  | k + 1, ea, rows, s =>
    match State.rowLines die c lines ea [] s with
    | (.error e, s) => (.error e, s)
    | (.ok bs, s) => State.mvmRows die c lines stride k (ea + BitVec.ofNat 64 stride) (rows ++ [natLE bs]) s

/-- Output n of a matrix-vector product as 32 bits, and whether it saturated. -/
def mvmOut (md : Mode) (vec : List Nat) (rows : List Nat) (n : Nat) : Nat × Bool :=
  let ps := slicePairs md 0 n vec rows
  if modeFloat md then ((slicesOf (modeSlice md) ps).foldl (floatSlice md) 0, false)
  else let (v, sat) := sat32i (intSlice md ps); (wrap 32 v, sat)

/-- The MVM of a command. -/
def State.mvmRun (s : State) (die : Nat) (c : SrvCmd) (md : Mode) : SrvEnd × State :=
  let x := c.shape
  let a := natLE c.operand
  let vec := (List.range x.k).map fun k => elt (modeWidth md) a k
  match State.mvmRows die c ((rowBytes md x.n + 63) / 64) (x.strideB md) x.k (c.word 2) [] s with
  | (.error e, s) => (e, s)
  | (.ok rows, s) =>
    let outs := (List.range x.n).map fun n => mvmOut md vec rows n
    ({ status := srvOk, done := x.n, nbad := (outs.filter fun o => o.2).length,
       data := pad64 (outs.flatMap fun o => bytesLE 4 o.1) }, s)

/-! ## Queue and replies (R55, R59) -/

/-- The reply block of a command, with its data. -/
def SrvCmd.reply (c : SrvCmd) (e : SrvEnd) : List Byte :=
  wordsBytes [BitVec.ofNat 64 (e.status + c.cmd * 2 ^ 8 + bits (c.word 0) 63 32 * 2 ^ 32), BitVec.ofNat 64 e.done, e.faddr,
    BitVec.ofNat 64 e.nbad, 0, 0, 0, 0] ++ e.data

/-- Sends a reply to its handle; one that cannot be delivered is discarded and counted. -/
def State.srvReply (s : State) (die : Nat) (c : SrvCmd) (e : SrvEnd) : State :=
  let bs := c.reply e
  let lost := s.countDevice 198
  let h := c.word 1
  let h := match c.sender.bind s.proc? with
    | some pr => match s.unrelative pr h with | .ok h => h | .error _ => 0
    | none => h
  let m : Msg := {
    sender := none, kind := hKind h, idx := hIdx h, efmt := BitVec.ofNat 6 (hEfmt h), sclass := BitVec.ofNat 5 (hSclass h)
    len := bs.length, bytes := bs, bad := [], srcCl := 0, srcOff := 198, bulk := 64 < bs.length, expert := none, place := none
    ended := false, dropped := [], site := some (memSite die) }
  let add : Msg → State := fun m => { s with nextMsg := s.nextMsg + 1, msgs := Tab.put s.nextMsg m s.msgs }
  -- a reply endpoint takes EFMT 63 and the bulk classes (R332)
  let typed := if hKind h = 2 then hEfmt h = 63 ∧ 6 ≤ hSclass h else hKind h = 0 ∧ hDir h ∧ 2 ^ hSclass h = bs.length
  if !handleOk h ∨ ¬ typed then lost
  else if hDev h ≠ s.dev then (add { m with remote := some (hDev h) }).postRemote (memSite die) s.nextMsg h
  else match s.lookup (dirKey h) with
    | some (.ep cl e) =>
      if (s.endp? cl e).all fun n => n.closed || (!n.reply && (n.efmt.toNat ≠ hEfmt h || n.sclass.toNat ≠ hSclass h)) then lost
      else (add m).sched tripCycles (.grantRequestArrival cl s.nextMsg)
    | _ => lost

/-- The step that runs a command. -/
def srvStep (die cmd : Nat) : Option Instr :=
  match cmd with
  | 1 => some (.gather die) | 2 => some (.scatter die) | 3 => some (.fill die) | 4 => some (.check die) | 5 => some (.mvm die) | _ => none

/-- The reply of the command at the head, which leaves the queue; a message that waited for room is accepted. -/
def State.srvEnd (s : State) (die : Nat) (c : SrvCmd) (e : SrvEnd) : State :=
  let s := s.modMemDie die fun m => { m with queue := m.queue.drop 1 }
  let s := match (s.memDie die).waiting with | m :: _ => s.sched 0 (.serverCommandAccept die m) | [] => s
  match c.grow with
  | some x => s.sched tripCycles (.growFillReply x e.status e.faddr)
  | none => s.srvReply die c e

/-- Schedules the command at the head of a queue; reserved commands are answered at once. Fuel counts the queue. -/
def State.srvNext (die : Nat) : Nat → State → State
  | 0, s => s
  | k + 1, s =>
    match (s.memDie die).queue with
    | [] => s
    | c :: _ =>
      match srvStep die c.cmd with
      | some i => s.sched (nsCycles 110) i
      | none => State.srvNext die k (s.srvEnd die c { status := srvBadCmd })

/-- Adds a command to a server's queue and starts it when the server is idle. -/
def State.srvAccept (s : State) (die : Nat) (c : SrvCmd) : State :=
  let idle := (s.memDie die).queue = []
  let s := s.modMemDie die fun m => { m with queue := m.queue ++ [c] }
  if idle then State.srvNext die 1 s else s

/-- A message waits unmatched for room in a server's queue. -/
def State.srvWait (s : State) (die msg : Nat) : State :=
  s.modMemDie die fun d => if d.waiting.contains msg then d else { d with waiting := d.waiting ++ [msg] }

/-- The whole message is in the server's queue, which completes the send. While the queue is full, and while messages wait that came
before, it waits unmatched (R55); the queue's size is a DESIGN CHOICE (log entry 17). -/
def execServerCommandAccept (die msg : Nat) (s : State) : Host.Outcome State Fault Refusal :=
  let d := s.memDie die
  match s.msg? msg with
  | none =>
    -- withdrawn while it waited: the next one has its turn
    let s := s.modMemDie die fun d => { d with waiting := d.waiting.filter (· ≠ msg) }
    .next (match (s.memDie die).waiting with | m :: _ => if d.waiting.contains msg then s.sched 0 (.serverCommandAccept die m) else s | [] => s)
  | some m =>
    if s.phys.srvDepth ≤ d.queue.length ∨ (d.waiting.head?.any fun w => w ≠ msg) then .next (s.srvWait die msg)
    else
    let s := s.modMemDie die fun d => { d with waiting := d.waiting.filter (· ≠ msg) }
    let vm := ((m.sender.bind s.proc?).bind fun pr => (s.launchOf pr).map fun l => l.vmctx).getD s.phys.svcVmctx
    let c : SrvCmd := {
      bytes := if m.bytes.length < 64 then m.bytes ++ List.replicate (64 - m.bytes.length) 0 else m.bytes
      bad := m.bad, asid := asidOf vm, root := vm, sender := m.sender, grow := none }
    .next ((s.sendDone msg (.ok 0) 0).srvAccept die c)

/-- Lines the writes of a range or of indexed elements would reach, as far as their pages are mapped. -/
def State.srvTargets (s : State) (die : Nat) (c : SrvCmd) : List Word → List Nat
  | [] => []
  | a :: as => match s.srvReach die c a .write with
    | (.ok loc, _) => loc :: s.srvTargets die c as
    | (.error _, _) => s.srvTargets die c as

/-- Whether a command must wait because a page it writes is moving (R59, R83). -/
def State.srvHeld (s : State) (die : Nat) (c : SrvCmd) : Bool :=
  let as := if c.cmd = 2 then c.indices.map c.elemAddr
    else if c.cmd = 3 then (List.range ((c.word 3).toNat / 65536 + 2)).map fun i =>
      if i = 0 then c.word 2 else (c.word 2 + BitVec.ofNat 64 (65536 * i)) &&& ~~~(65535 : Word)
    else []
  (s.srvTargets die c as).any fun loc => (s.moveOf loc).isSome || s.moveLands loc

/-- Runs the command at the head when it is of the kind asked for: refused, held, or carried out whole. A poisoned message never
serves as a command (log entry 18). -/
def State.srvRun (s : State) (die cmd : Nat) (i : Instr) (refuse : SrvCmd → Option Nat) (run : SrvCmd → State → SrvEnd × State) : State :=
  match (s.memDie die).queue with
  | [] => s
  | c :: _ =>
    if c.cmd ≠ cmd then s
    else
      let n := (s.memDie die).queue.length
      let fin : SrvEnd → State → State := fun e s => State.srvNext die n (s.srvEnd die c e)
      if c.bad ≠ [] then fin { status := srvPoison } s
      else match refuse c with
        | some st => fin { status := st } s
        | none => if s.srvHeld die c then s.sched 16 i else let (e, s) := run c s; fin e s

def execGather (die : Nat) (s : State) : Host.Outcome State Fault Refusal :=
  .next (s.srvRun die 1 (.gather die) (fun c => if c.badIndexed false then some srvBadArg else none)
    fun c s => State.gatherFrom die c c.indices 0 [] s)

def execScatter (die : Nat) (s : State) : Host.Outcome State Fault Refusal :=
  .next (s.srvRun die 2 (.scatter die) (fun c => if c.badIndexed true then some srvBadArg else none)
    fun c s => State.scatterFrom die c (c.operand.drop (up64 (4 * c.count))) c.indices 0 s)

def execFill (die : Nat) (s : State) : Host.Outcome State Fault Refusal :=
  .next (s.srvRun die 3 (.fill die) (fun c => if c.badRange true then some srvBadArg else none)
    fun c s => State.fillFrom die c ((List.range 8).flatMap fun _ => bytesLE 8 (c.word 4).toNat) ((c.word 3).toNat / 64) 0 s)

def execCheck (die : Nat) (s : State) : Host.Outcome State Fault Refusal :=
  .next (s.srvRun die 4 (.check die) (fun c => if c.badRange false then some srvBadArg else none)
    fun c s => State.checkFrom die c ((c.word 3).toNat / 64) 0 0 0 s)

/-- MVM units are present unless the part is the E (CAPS.MVM). R58 does not say which of UNSUP and BADARG a malformed MVM gets there:
DESIGN CHOICE, UNSUP (log entry 77). -/
def execMvm (die : Nat) (s : State) : Host.Outcome State Fault Refusal :=
  .next (s.srvRun die 5 (.mvm die)
    (fun c => if Part.isE s.phys.part then some srvUnsup
      else match c.mode? with | none => some srvBadArg | some md => if c.badMvm md then some srvBadArg else none)
    fun c s => match c.mode? with | some md => s.mvmRun die c md | none => ({ status := srvBadArg }, s))

/-! ## Page moves (R81 to R85) -/

/-- Pushes a frame onto its die's free list of at most 256 frames; a push that does not fit, of no frame of the device, or of a frame
of the command window (R87), is discarded and counted. An address that is not 64 KiB-aligned names the frame it lies in: DESIGN CHOICE
(log entry 78). -/
def State.pushFrame (s : State) (pa : Nat) : State :=
  let f := pa / 65536 * 65536
  let d := dieOf f
  if !s.paOk f ∨ f < 0x200000 ∨ 256 ≤ (s.memDie d).free.length then s.countDevice 195
  else s.modMemDie d fun m => { m with free := m.free ++ [f] }

def State.writeMigfrm (s : State) (v : Word) : State := { s.pushFrame v.toNat with migDie := dieOf v.toNat }

/-- An MTSR to MIGFRM pushes a frame. -/
def execMigfrmPush (pa : Word) (s : State) : Host.Outcome State Fault Refusal := .next (s.writeMigfrm pa)

/-- Service endpoint 1 is the page-event endpoint (R85). -/
def State.pageEvent (s : State) (evt : Nat) (m : Move) : State :=
  s.postService 1 [BitVec.ofNat 64 (evt + m.quad * 2 ^ 8 + m.rev.asid.toNat * 2 ^ 32), BitVec.ofNat 64 m.rev.va,
    BitVec.ofNat 64 m.old, if evt = 1 then BitVec.ofNat 64 m.new else 0, BitVec.ofNat 64 s.timebase, 0, 0, 0]

/-- The next candidate of a die, when it has one. -/
def State.nextMove (s : State) (die : Nat) : State :=
  if (s.memDie die).cands = [] then s else s.sched 1 (.pageMoveStart die)

/-- ns for which a move holds writes, unloaded (R83). -/
def moveNs (old new : Nat) : Nat := 900 + 15 * hopsBetween (memSite (dieOf old)) (memSite (dieOf new))

/-- Step 1: a frame is taken from the target's free list, the leaf is read, and the page is marked moving. -/
def execPageMoveStart (die : Nat) (s : State) : Host.Outcome State Fault Refusal :=
  let d := s.memDie die
  match d.move, d.cands with
  | none, (old, q) :: rest =>
    let s := s.setMemDie die { d with cands := rest }
    match Tab.get? (frameOf old) d.rev with
    | none => .next (s.nextMove die)
    | some r =>
      let s := (s.touchHome (lineOf r.leafPa)).2
      let r := { r with leaf := Memory.read64 s.mem r.leafPa }
      let t := migTarget (s.reg 57) q
      match (s.memDie t).free with
      | [] => .next ((s.pageEvent 3 { step := 1, quad := q, old := old, new := 0, rev := r, held := [] }).nextMove die)
      | f :: fs =>
        let s := s.modMemDie t fun m => { m with free := fs }
        let s := s.modMemDie die fun m => { m with move := some { step := 2, quad := q, old := old, new := f, rev := r, held := [] } }
        .next (s.sched (nsCycles (moveNs old f - 210)) (.pageMoveCopyDone die))
  | _, _ => .next s

/-- Copies one line of a frame, its poison with it. -/
def State.moveLine (old new : Nat) (s : State) (i : Nat) : State :=
  let l := old + 64 * i
  let s := (s.touchHome l).2
  s.performWrite (new + 64 * i) (s.lineData l) fullMask (s.isPoison l)

/-- Step 2 ends: the frame is copied, and the CAS of step 3 is sent. -/
def execPageMoveCopyDone (die : Nat) (s : State) : Host.Outcome State Fault Refusal :=
  match (s.memDie die).move with
  | some m =>
    if m.step ≠ 2 then .next s
    else
      let s := (List.range 1024).foldl (State.moveLine m.old m.new) s
      .next ((s.modMemDie die fun d => { d with move := some { m with step := 3 } }).sched (nsCycles 60) (.pageMoveCasReply die))
  | none => .next s

/-- Where a held write came from, as the counters of a home see it. -/
def State.heldSite (s : State) (cl : Option Nat) : Requester := match cl with | some c => .site (s.clusterSite c) | none => .host

/-- A held request in its turn: released to the old frame, or refused there, translated again and performed at the new one, whose
counters it enters (R79, R83). -/
def State.performHeld (old new : Nat) (s : State) : HeldReq → State
  | .write cl ack line data mask poison =>
    let line := line - old + new
    let s := if old = new then s else s.racHit (s.heldSite cl) line
    let s := s.homeWriteFor cl ack line data mask poison
    match ack with
    | some (p, id) => if (s.moveOf line).isSome then s else s.sched 0 (.storeAck p id none noPlat)
    | none => s
  | .op (.atomicAtHome loc op key) => s.atHome (loc - old + new) op key
  | .op (.redfAddArrival loc b x cn) => s.redfAtHome (loc - old + new) b x cn
  | .op _ => s
  | .orBits loc b => s.orEntry (loc - old + new) b

/-- Ends a move: every held request is performed at the frame where the page now is, and waiting processes look again. -/
def State.endMove (s : State) (die : Nat) (m : Move) (dst : Nat) : State :=
  let s := s.modMemDie die fun d => { d with move := none }
  -- a moved page carries its armed watchpoints (R83, R440)
  let mine := if dst = m.old then [] else (s.memDie (dieOf m.old)).armed.filter fun a => m.old ≤ a.loc && a.loc < m.old + 65536
  let s := if mine = [] then s else
    (s.modMemDie (dieOf m.old) fun d => { d with armed := d.armed.filter fun a => !mine.contains a }).modMemDie (dieOf dst)
      fun d => { d with armed := d.armed ++ mine.map fun a => { a with loc := a.loc - m.old + dst } }
  ((m.held.foldl (State.performHeld m.old dst) s).writeRecords.wakeOthers).nextMove die

/-- The CAS on the leaf entry (step 3): the value read at step 1 with PA replaced. On a poisoned line the spec does not say what it
does: DESIGN CHOICE, it fails, and the move ends with event 2 (log entry 79). -/
def State.leafCas (s : State) (m : Move) : Bool × State :=
  let pa := m.rev.leafPa
  let s := (s.touchHome (lineOf pa)).2
  let mapped := bit m.rev.leaf 0 && bit m.rev.leaf 1 && bits m.rev.leaf 51 16 * 65536 = m.old && !bit m.rev.leaf 9 && !bit m.rev.leaf 11
  if !s.isPoison (lineOf pa) && mapped && Memory.read64 s.mem pa = m.rev.leaf then
    let new := (m.rev.leaf &&& ~~~(field 0xFFFFFFFFF 16)) ||| field (m.new / 65536) 16
    (true, s.storeElt pa 8 new.toNat)
  else (false, s)

/-- The reply of the CAS: the shootdown starts, or the move is aborted because software changed the entry. -/
def execPageMoveCasReply (die : Nat) (s : State) : Host.Outcome State Fault Refusal :=
  match (s.memDie die).move with
  | some m =>
    if m.step ≠ 3 then .next s
    -- the home of the entry holds the CAS while the entry's own page moves
    else if (s.moveOf m.rev.leafPa).any fun x => x.old ≠ m.old then .next (s.sched 16 (.pageMoveCasReply die))
    else match s.leafCas m with
      | (true, s) =>
        .next ((s.modMemDie die fun d => { d with move := some { m with step := 4 } }).sched (nsCycles 150) (.shootdownComplete die))
      | (false, s) =>
        let s := s.endMove die m m.old
        .next ((s.pushFrame m.new).pageEvent 2 m)
  | none => .next s

/-- Whether a location lies in a 64 KiB frame. -/
def inFrame (frame loc : Nat) : Bool := isDev loc && loc / 65536 = frame / 65536

/-- Operations on their way to a frame. -/
def State.onTheWay (s : State) (frame : Nat) : Bool :=
  s.queue.any fun e => match e.2 with
    | .atomicAtHome loc _ _ | .redfAddArrival loc _ _ _ => inFrame frame loc
    | _ => false

/-- Every cluster writes its dirty lines of a frame back and drops the frame's lines. -/
def State.dropFrame (s : State) (frame : Nat) : State :=
  let s := s.clusters.foldl (fun s e => (e.2.cache.filter fun l => inFrame frame l.1).foldl (fun s l => s.dropLine e.1 l.1) s) s
  { s with clusters := s.clusters.map fun (e : Nat × Cluster) => (e.1, { e.2 with
      dcache := e.2.dcache.map fun d => (d.1, d.2.filter fun l => !inFrame frame l.1) }) }

/-- Open chunks that have read or written a frame run again, so that they translate again. -/
def State.squashFrame (s : State) (frame : Nat) : State :=
  (s.procs.filter fun e => e.2.chunk.any fun c => (c.rsig ++ c.wsig).any (inFrame frame)).foldl (fun s e => s.squash e.1) s

/-- Steps 4 and 5: the translation is gone everywhere, the cores' lines of the old frame are written back and dropped, the held
requests go to the new home, and the old frame is free. The spec does not say what becomes of the old frame's reverse-map slot: DESIGN
CHOICE, it is deleted (log entry 80). -/
def execShootdownComplete (die : Nat) (s : State) : Host.Outcome State Fault Refusal :=
  match (s.memDie die).move with
  | some m =>
    if m.step ≠ 4 then .next s
    else if s.onTheWay m.old then .next (s.sched 16 (.shootdownComplete die))
    else
      let s := s.invalDevice (.va m.rev.asid m.rev.va)
      let s := (s.squashFrame m.old).dropFrame m.old
      match (s.memDie die).move with
      | none => .next s
      | some m =>
        let s := s.endMove die m m.new
        let s := (s.pushFrame m.old).modMemDie die fun d => { d with
          rev := Tab.del (frameOf m.old) d.rev
          rac := d.rac.filter fun c => c.1 / 4 ≠ frameOf m.old }
        .next ((s.countDevice 193).pageEvent 1 m)
  | none => .next s

end Sys2Proof.Machine
end

