-- ==== Sys2Proof/Machine/Chandler.lean ====
section
/-! DEFINITION. The Chandler (R385 to R408): XBIND, XQRY, XPIN and XMERGE, counting windows and their decisions, the later steps of a
grow, and the end of a gradient merge. -/

namespace Sys2Proof.Machine

def trapExpert (kind : Nat) : TrapInfo := { cls := 26, kind := kind }

/-! ## XBIND (R405) -/

/-- Whether bits of a descriptor word that must be zero are not. -/
def badBindFields (w : List Word) : Bool :=
  let at_ := fun i => w.getD i 0
  let wlen := bits (at_ 2) 31 0
  let wdst := bits (at_ 2) 63 32
  let spm := bits (at_ 4) 25 16
  let nproc := bits (at_ 4) 8 0
  bits (at_ 1) 63 57 ≠ 0 || bits (at_ 1) 5 0 ≠ 0 || (wlen = 0 && at_ 1 ≠ 0) || wlen % 64 ≠ 0 || wdst % 64 ≠ 0 || bit (at_ 3) 0 ||
    bits (at_ 4) 63 49 ≠ 0 || bits (at_ 4) 47 43 ≠ 0 || bit (at_ 4) 39 || bits (at_ 4) 31 26 ≠ 0 || bits (at_ 4) 15 9 ≠ 0 ||
    spm = 0 || 512 < spm || nproc = 0 || 256 < nproc || bits (at_ 6) 63 57 ≠ 0 || bits (at_ 6) 5 0 ≠ 0 || bits (at_ 7) 63 32 ≠ 0 ||
    bits (at_ 7) 5 0 ≠ 0 || decide ((at_ 7 = 0) ≠ (at_ 6 = 0)) || spm * 65536 < wdst + wlen

/-- The channel that REP0 names: a receiving end of a team of the issuer's launch that can become replica 0. -/
def State.bindEnd (s : State) (pr : Proc) (h0 : Word) : Option (Nat × Nat × Endp) :=
  match s.unrelative pr h0 with
  | .error _ => none
  | .ok h =>
    if !handleOk h || hKind h ≠ 0 || hDir h || hDev h ≠ s.dev then none
    else match s.lookup (hIdx h) with
      | some (.ep cl k) =>
        match s.endp? cl k with
        | some n =>
          if n.reply || n.spn || n.closed || n.expert.isSome || n.efmt.toNat ≠ hEfmt h || n.sclass.toNat ≠ hSclass h ||
              (s.team? n.team).all (fun t => t.lid ≠ pr.lid) then none
          else some (cl, k, n)
        | none => none
      | _ => none

/-- Replica 0's buffer does not fit a replica's allotment, or meets the weights. -/
def badBindBuffer (n : Endp) (w : List Word) : Bool :=
  let size := n.depth * slotSize n
  let wlen := bits (w.getD 2 0) 31 0
  n.buffered && (bits (w.getD 4 0) 25 16 * 65536 < n.buf + size || (wlen ≠ 0 && meet (bits (w.getD 2 0) 63 32) wlen n.buf size))

/-- The table entry of a new expert. -/
def newExpert (s : State) (lid : Nat) (n : Endp) (w : List Word) : Expert :=
  let at_ := fun i => w.getD i 0
  { ver := 1, live := 1, stub := 0, pin := bit (at_ 4) 48, maxm1 := BitVec.ofNat 3 (bits (at_ 4) 42 40), cldc := 0
    mset := if at_ 6 = 0 then 0 else 1, wcnt := 0, cnt := 0, lid := lid, team0 := n.team, rh := [(0, endpHandle s n)]
    wsrc := at_ 1, wdst := bits (at_ 2) 63 32, wlen := bits (at_ 2) 31 0, entry := at_ 3
    prio := BitVec.ofNat 3 (bits (at_ 4) 34 32), stage := BitVec.ofNat 4 (bits (at_ 4) 38 35), spmsz := bits (at_ 4) 25 16
    nproc := bits (at_ 4) 8 0, hot := bits (at_ 5) 31 0, cold := bits (at_ 5) 63 32, gbase := at_ 6, glen := bits (at_ 7) 31 0
    efmt := n.efmt, sclass := n.sclass, switch := none, retireQ := [], pinQ := [], merging := none, unbound := false }

def execXbind (m : Mods) (d rs : SReg) (s : State) : Host.Outcome State Fault Refusal :=
  runExec m (lenOf m true false) true s fun p pr => do
    let ws ← loadBlock p (pr.ctx.rs rs)
    guardTrap (badBindFields ws) (trapExpert 1)
    let s ← get
    match s.bindEnd pr (ws.getD 0 0) with
    | none => raiseTrap (trapExpert 1)
    | some (cl, k, n) => do
      guardTrap (badBindBuffer n ws) (trapExpert 1)
      match Tab.freeKey s.experts 0 1024 with
      | none => raiseTrap (trapExpert 2)
      | some x => do
        let e := newExpert s pr.lid n ws
        let s := s.modEndp cl k fun n => { n with expert := some (x, 0) }
        set ({ s with experts := Tab.put x e s.experts } : State).armWindow
        setS p d (expertHandle s x e)
        pure {}

/-! ## XQRY and XPIN (R404, R406, R407) -/

/-- The expert a handle qualifies for. -/
def State.expertOf (s : State) (pr : Proc) (h : Word) : Option (Nat × Expert) :=
  if !handleOk h || hKind h ≠ 5 || hDev h ≠ s.dev then none
  else match s.expert? (hIdx h) with
    | some e => if e.unbound || e.lid ≠ pr.lid || e.efmt.toNat ≠ hEfmt h || e.sclass.toNat ≠ hSclass h then none else some (hIdx h, e)
    | none => none

/-- The result of XQRY. -/
def Expert.word (e : Expert) : Word :=
  field e.ver.toNat 32 ||| field e.live.toNat 24 ||| field e.stub.toNat 16 ||| field e.pin.toNat 15 ||| field e.busy.toNat 14 |||
    field (min e.wcnt.toNat 255) 0

def execXqry (m : Mods) (d rs : SReg) (s : State) : Host.Outcome State Fault Refusal :=
  runExec m (lenOf m true false) true s fun p pr => do
    let s ← get
    setS p d (match s.expertOf pr (pr.ctx.rs rs) with | some (_, e) => e.word | none => BitVec.allOnes 64)
    pure {}

/-- Keys of the operations of XPIN and XMERGE. -/
def xpinKey : Nat := 2 ^ 74
def xmergeKey : Nat := 2 ^ 74 + 1

/-- Where a waiting XPIN stands. -/
def xpinEnd (p : Pid) (o : Op) : Exec Done :=
  match o.res with
  | .trap cls kind _ => do
    modProcE p fun pr => { pr with op := none }
    raiseTrap { cls := cls, kind := kind }
  | .waiting => waitOn .other 0 0
  | _ => pure {}

def execXpin (m : Mods) (d rs : SReg) (s : State) : Host.Outcome State Fault Refusal :=
  runExec m (lenOf m true false) true s fun p pr => do
    match pr.op with
    | some o => xpinEnd p o
    | none => do
      let sn := pr.ctx.rs rs
      guardTrap (bits sn 63 7 ≠ 0 || 4 ≤ bits sn 3 0) (trapExpert 1)
      let s ← get
      match s.expertOf pr (pr.ctx.rs d) with
      | none => raiseTrap (trapExpert 3)
      | some (x, _) =>
        if bits sn 3 0 < 2 then do
          modS fun s => s.modExpert x fun e => { e with pin := bit sn 0 }
          pure {}
        else do
          modProcE p fun pr => { pr with op := some { id := x, key := xpinKey, res := .waiting } }
          modS fun s => (s.modExpert x fun e => { e with pinQ := e.pinQ ++ [(p, sn.toNat)] }).nextSwitch x
          let pr ← getProc p
          match pr.op with
          | some o => xpinEnd p o
          | none => pure {}

/-! ## XMERGE (R401, R402, R408) -/

/-- Replicas whose buffers a merge reads: 0, and those MSET marks. -/
def Expert.merged (e : Expert) : List Nat := (List.range 8).filter fun r => r = 0 || e.mset.getLsbD r

/-- Bytes of a gradient line: of the device, or of a host page asked for over the link. -/
def mergeLine (p : Pid) (ea : Word) (loc : Nat) : Exec (List Byte) := do
  if isDev loc then
    let s ← get
    let (_, s) := s.touchHome (lineOf loc)
    set s
    guardTrap (s.isPoison loc) (trapPoison ea false)
    pure (Memory.read s.mem loc 64)
  else do
    let l ← outsideLine p ea loc (hostAddr loc)
    pure (bytesLE 64 l.toNat)

/-- Lines of the buffers of a merge: address and location of each, with every page translated before anything is written. -/
def mergePlaces (p : Pid) (e : Expert) (r : Nat) : Exec (List (Word × Nat)) :=
  (List.range (e.glen / 64)).mapM fun i => do
    let ea := e.gbase + BitVec.ofNat 64 (r * e.glen + 64 * i)
    match ← resolve p ea 64 .write false with
    | .mem loc => do
      waitMove loc
      pure (ea, loc)
    | _ => raiseTrap (trapXlate xForm ea true)

/-- Element-wise sums of FP32 buffers in order (R402). -/
def mergeSum (acc : List Byte) (bs : List Byte) : List Byte :=
  (List.range (acc.length / 4)).flatMap fun i =>
    bytesLE 4 (redfAdd false (natLE ((acc.drop (4 * i)).take 4)) (natLE ((bs.drop (4 * i)).take 4)))

/-- Writes the lines of one buffer at their homes. -/
def mergeWrite (cl : Nat) (p : Pid) (places : List (Word × Nat)) (bs : List Byte) : Exec Unit :=
  modS fun s => ((List.range places.length).zip places).foldl (fun s e =>
    let line := (bs.drop (64 * e.1)).take 64
    if isDev e.2.2 then s.homeWriteBytes e.2.2 line else s.sendStore cl (some p) 2 e.2.2 (hostAddr e.2.2) line) s

def execXmerge (m : Mods) (d : SReg) (s : State) : Host.Outcome State Fault Refusal :=
  runExec m (lenOf m true false) true s fun p pr => do
    match pr.op.filter fun (o : Op) => o.key = xmergeKey with
    | some o =>
      match o.res with
      | .waiting => waitOn .other 0 0
      | _ =>
        if pr.outs.any fun x => x.space = 2 then waitOn .reply 0 0
        else do
          acquire p scDevice
          pure {}
    | none => do
      let s ← get
      match s.expertOf pr (pr.ctx.rs d) with
      | none => raiseTrap (trapExpert 3)
      | some (x, e) => do
        guardTrap (e.gbase = 0) (trapExpert 1)
        if e.busy || e.merging.isSome then waitOn .other 0 0
        release p scDevice false
        let places ← e.merged.mapM fun r => mergePlaces p e r
        let bufs ← places.mapM fun l => do
          let bs ← l.mapM fun a => mergeLine p a.1 a.2
          pure bs.flatten
        mergeWrite pr.cl p (places.headD []) ((bufs.drop 1).foldl mergeSum (bufs.headD []))
        (places.drop 1).forM fun l => mergeWrite pr.cl p l (List.replicate e.glen 0)
        modProcE p fun pr => { pr with op := some { id := x, key := xmergeKey, res := .waiting } }
        -- 256 GB/s of reads and writes together
        modS fun s => (s.modExpert x fun e => { e with mset := e.live, merging := some p }).sched
          (nsCycles (2 * places.length * e.glen / 256 + 1)) (.xmergeComplete p)
        waitOn .other 0 0

/-- The merge is over: its process returns, and switches of the expert may start. -/
def execXmergeComplete (pid : Pid) (s : State) : Host.Outcome State Fault Refusal :=
  match s.experts.find? fun e => e.2.merging = some pid with
  | none => .next s
  | some (x, _) =>
    let s := s.modExpert x fun e => { e with merging := none }
    let s := match s.proc? pid with
      | some pr => if pr.op.any fun (o : Op) => o.key = xmergeKey then s.endOp pid (.ok 0) 0 else s
      | none => s
    .next (s.nextSwitch x)

/-! ## Counting windows (R390, R391) -/

/-- The Chandler examines one expert at a window's end. A window that grows leaves CLDC as it is (log entry 88). -/
def State.examine (s : State) (x : Nat) : State :=
  match s.expert? x with
  | none => s
  | some e0 =>
    let c := e0.cnt
    let s := s.modExpert x fun e => { e with wcnt := BitVec.ofNat 32 (min c (2 ^ 32 - 1)), cnt := 0 }
    let cfg := s.reg 122
    if !bit cfg 0 || e0.pin || e0.busy || e0.merging.isSome || e0.retireQ ≠ [] || e0.unbound then s
    else
      let n := (liveList e0.live).length
      let clear := s.modExpert x fun e => { e with cldc := 0 }
      match if e0.hot ≠ 0 && e0.hot * n ≤ c && n ≤ e0.maxm1.toNat then e0.freeReplica else none with
      | some r => if e0.atLimit then s.refuseSwitch x else (s.startGrow x r none).2
      | none =>
        if 1 < n && c ≤ e0.cold * (n - 1) then
          let k := min (e0.cldc.toNat + 1) 255
          if k < bits cfg 31 24 then s.modExpert x fun e => { e with cldc := BitVec.ofNat 8 k }
          else if e0.atLimit then clear.refuseSwitch x
          else
            let r := (liveList e0.live).getLastD 0
            clear.startRetire x r ((clear.replicaTeam x r).getD 0) none
        else clear

def execChandlerWindowEnd (s : State) : Host.Outcome State Fault Refusal :=
  let s := (Tab.keys s.experts).foldl (fun s x => s.examine x) s
  .next (if s.experts = [] then s else s.armWindow)

/-! ## The later steps of a grow (R392) -/

/-- Steps 5 to 7: the replica's channel and processes are made, the version is published, and the processes become READY. -/
def State.growPublish (s : State) (x : Nat) : State :=
  match s.expert? x with
  | none => s
  | some e =>
    match e.switch with
    | none => s
    | some w =>
      match s.team? w.team, (s.replicaEnd e 0).bind fun q => s.endp? q.1 q.2 with
      | some t, some n0 =>
        match if 1 + e.nproc ≤ s.freeEnds t.cl then Tab.freeKey (s.cluster t.cl).endps 0 4096 else none with
        | none => s.rollback x 3 0 0
        | some k =>
          let n : Endp := {
            buffered := n0.buffered, depth := n0.depth, efmt := n0.efmt, sclass := n0.sclass, team := w.team, idx := s.nextEp
            buf := n0.buf, expert := some (x, w.rep) }
          let h := endpHandle s n
          let s := ({ s with nextEp := nextIdx s.nextEp, dir := Tab.put s.nextEp (t.cl, k) s.dir } : State).setEndp t.cl k n
          let s := s.modExpert x fun e => { e with
            rh := Tab.put w.rep h e.rh, mset := if e.gbase = 0 then e.mset else setBit8 e.mset w.rep true }
          let s := (List.range e.nproc).foldl (fun s i =>
            s.addProc (256 * w.team + i) w.team { entry := e.entry, code := 3, s1 := BitVec.ofNat 64 i } fun pr =>
              { pr with
                state := .suspended, prio := e.prio, stage := e.stage, acquireDue := true
                ctx := ((pr.ctx.ws 2 h).ws 3 (BitVec.ofNat 64 w.rep)).ws 4 (expertHandle s x e) }) s
          let s := s.publish x (setBit8 e.live w.rep true) e.stub { w with grow := some .switching, pin := none }
          let s := (List.range e.nproc).foldl (fun s i => s.makeReady (256 * w.team + i)) s
          (s.chEvent x 1 0 w.rep w.team 0 0).pinDone w
      | _, _ => s.rollback x 3 0 0

/-- The command of step 4: a FILL of replica r's gradient buffer with zeros, from the Chandler to a memory server. -/
def growFill (e : Expert) (x : Nat) (w : Switch) (vm : Word) : SrvCmd :=
  { bytes := wordsBytes [3, 0, e.gbase + BitVec.ofNat 64 (w.rep * e.glen), BitVec.ofNat 64 e.glen, 0, 0, 0, 0]
    bad := [], asid := asidOf vm, root := vm, sender := none, grow := some (x + 1024 * w.team) }

/-- The weight copy has ended; with no fault the gradient buffer is filled next. A grow that waited for a place of the copy
engine tries again. -/
def execGrowCopyComplete (x : Nat) (fault : Option (Nat × Nat × Word)) (s : State) : Host.Outcome State Fault Refusal :=
  match s.expert? x with
  | none => .next s
  | some e =>
    match e.switch with
    | none => .next s
    | some w =>
      match s.team? w.team with
      | none => .next s
      | some t =>
        if t.state ≠ .running then .next s
        else if w.grow = some .waiting then .next (s.growCopy x)
        else if w.grow ≠ some .copying || (s.cluster t.cl).copies.any fun c => c.2.team = w.team && c.2.batch.isNone && c.2.win.isNone then
          .next s
        else match fault with
          | some (_, kind, a) => .next (s.rollback x 1 a kind)
          | none =>
            if e.gbase = 0 then .next (s.growPublish x)
            else
              let vm := ((s.launch? e.lid).map fun l => l.vmctx).getD 0
              .next ((s.modExpert x fun e => { e with switch := some { w with grow := some .filling } }).srvAccept 0 (growFill e x w vm))

/-- The server's reply to the FILL; `x` is the expert's number plus 1,024 times the candidate team. -/
def execGrowFillReply (x : Nat) (status : Nat) (faddr : Word) (s : State) : Host.Outcome State Fault Refusal :=
  match s.expert? (x % 1024) with
  | none => .next s
  | some e =>
    match e.switch with
    | none => .next s
    | some w =>
      if w.grow ≠ some .filling || w.team ≠ x / 1024 then .next s
      else if status ≠ 0 then .next (s.rollback (x % 1024) 1 faddr 0)
      else .next (s.growPublish (x % 1024))

end Sys2Proof.Machine
end

