-- ==== Sys2Proof/Machine/Control.lean ====
section
/-! DEFINITION. Branches, jumps, REP, NOP, TFENCE and BKPT (R231 to R240). -/

namespace Sys2Proof.Machine

/-- A transfer to `tgt` when `taken`; a target with bit 0 set takes ILLEGAL_OP, cause 10 (R233). -/
def transfer (pr : Proc) (taken : Bool) (tgt : Word) : Except TrapInfo (Proc × Done) :=
  if !taken then .ok (pr, {})
  else if bit tgt 0 then .error (trapIllegal 10)
  else .ok (pr, { tgt := some tgt })

/-- Target of a PC-relative transfer (R231). -/
def relTarget (pr : Proc) (disp : Word) : Word := pr.pc + 2 * disp

def execB (m : Mods) (disp : Word) (st : State) : Host.Outcome State Fault Refusal :=
  runReg m (lenOf m false false) true st fun pr => transfer pr true (relTarget pr disp)
/-- BP takes its predicate as an operand. -/
def execBp (m : Mods) (disp : Word) (st : State) : Host.Outcome State Fault Refusal :=
  runReg m (lenOf m false false) false st fun pr => transfer pr (onOf m pr.ctx) (relTarget pr disp)
def execBz (m : Mods) (d : SReg) (disp : Word) (st : State) : Host.Outcome State Fault Refusal :=
  runReg m (lenOf m false false) true st fun pr => transfer pr (pr.ctx.rs d = 0) (relTarget pr disp)
def execBnz (m : Mods) (d : SReg) (disp : Word) (st : State) : Host.Outcome State Fault Refusal :=
  runReg m (lenOf m false false) true st fun pr => transfer pr (pr.ctx.rs d ≠ 0) (relTarget pr disp)
def execJ (m : Mods) (d : SReg) (st : State) : Host.Outcome State Fault Refusal :=
  runReg m (lenOf m false false) true st fun pr => transfer pr true (pr.ctx.rs d)
def execRet (m : Mods) (st : State) : Host.Outcome State Fault Refusal :=
  runReg m (lenOf m false false) true st fun pr => transfer pr true (pr.ctx.rs 63)

/-- JL writes the address after it to s63. -/
def execJl (m : Mods) (disp : Word) (st : State) : Host.Outcome State Fault Refusal :=
  runReg m (lenOf m false false) true st fun pr =>
    if bit (relTarget pr disp) 0 then .error (trapIllegal 10)
    else .ok ({ pr with ctx := pr.ctx.ws 63 (pr.pc + BitVec.ofNat 64 (lenOf m false false)) },
      { tgt := some (relTarget pr disp), outs := [outS 63 1] })

/-! ## REP (R235 to R238) -/

/-- Forms that a block must not hold (R237). -/
def noBlock (i : Instr) : Bool :=
  match enc i with
  | none => true
  | some f => 4 ≤ f.page || (f.page = 0 && 51 ≤ f.op && f.op ≤ 58)

/-- Fetches `n` instructions of a block from an address: the words by address and the address after the block. -/
def fetchBlock (p : Pid) : Nat → Word → Tab (BitVec 16) → Exec (Word × Tab (BitVec 16))
  | 0, a, ws => pure (a, ws)
  | n + 1, a, ws => do
    let c ← fetchChain p 5 a
    match decodeWords c with
    | .instr i _ => if noBlock i then raiseTrap { cls := 19, addr := a } else pure ()
    | _ => pure ()
    let ws := (List.range c.length).foldl (fun t k => Tab.put (a.toNat + 2 * k) (c.getD k 0) t) ws
    fetchBlock p n (a + BitVec.ofNat 64 (2 * c.length)) ws

def execRep (m : Mods) (d : SReg) (n : BitVec 7) (st : State) : Host.Outcome State Fault Refusal :=
  let len := lenOf m false false
  runExec m len true st fun p pr => do
    let start := pr.pc + BitVec.ofNat 64 len
    let b ← fetchBlock p n.toNat start []
    if pr.ctx.rs d = 0 then pure { tgt := some b.1 }
    else do
      modProcE p fun q => { q with loop := some { rep := pr.pc, start := start, stop := b.1, n := n, sreg := d, words := b.2 } }
      pure { busy := b.2.length }

/-! ## NOP, TFENCE, BKPT (R239, R240) -/

def execNop (m : Mods) (st : State) : Host.Outcome State Fault Refusal :=
  runReg m (lenOf m false false) true st fun pr => .ok (pr, {})

/-- TFENCE traps ARITH when an enabled flag is set (R215). -/
def execTfence (m : Mods) (st : State) : Host.Outcome State Fault Refusal :=
  runReg m (lenOf m false false) true st fun pr =>
    let en := enabledSet pr.ctx
    if en = 0 then .ok (pr, {})
    else .error { cls := 21, aux := field en.toNat 0 ||| field (enabledLanes pr.ctx) 16 }

/-- BKPT halts the cluster when software breakpoints are enabled and a debugger is attached, and takes BREAK otherwise. -/
def execBkpt (m : Mods) (n : BitVec 8) (st : State) : Host.Outcome State Fault Refusal :=
  runRaw m (lenOf m false false) st fun p pr =>
    if bit pr.dbgEn 0 && (st.cluster pr.cl).dm.att then (st.endChunk p).trigger pr.cl 3 0 (some p) false
    else st.takeTrap p (lenOf m false false) { cls := 20, aux := n.setWidth 64 }

end Sys2Proof.Machine
end

