-- ==== Sys2Proof/Machine/Snuffers.lean ====
section
/-! DEFINITION. The snuffers of the compute dies (R448): their registers, what they sample, firing and its actions. -/

namespace Sys2Proof.Machine

/-- A register of a compute die. -/
def State.dieReg (s : State) (die n : Nat) : Word := Tab.getD (256 * die + n) s.dieRegs 0
def State.setDieReg (s : State) (die n : Nat) (v : Word) : State := { s with dieRegs := Tab.set 0 (256 * die + n) v s.dieRegs }

/-- SNFAn and SNFBn. -/
def State.snfa (s : State) (die n : Nat) : Word := s.dieReg die (160 + 2 * n)
def State.snfb (s : State) (die n : Nat) : Word := s.dieReg die (161 + 2 * n)

/-- What a snuffer samples by its SRC. Free flit buffers and credits (3 and 4) are figures of the links that the spec does not
otherwise describe: the step carries them, and they are free (log entry 20). -/
def State.snufferValue (s : State) (die n value : Nat) : Option Nat :=
  let a := s.snfa die n
  match bits a 59 56 with
  | 1 => some (s.readyAt (8 * die + bits a 42 40) (bits a 39 35) (bits a 34 32)).length
  | 2 => match s.lookup (bits a 55 32) with
    | some (.ep cl e) => some (if cl / 8 = die then ((s.endp? cl e).map fun k => k.slots.length).getD 0 else 0)
    | _ => some 0
  | 3 | 4 => some value
  | 5 => some (s.bar (bits a 36 32)).high.toNat
  | _ => none

/-- Whether the relation value REL THR holds; 6 and 7 never fire. -/
def relHolds (rel v thr : Nat) : Bool :=
  match rel with
  | 0 => v < thr | 1 => v ≤ thr | 2 => v = thr | 3 => v ≠ thr | 4 => thr ≤ v | 5 => thr < v | _ => true

/-- The next sample, while the snuffer is armed and none is due. -/
def State.armSnuffer (s : State) (die n : Nat) : State :=
  let due := s.queue.any fun e => match e.2 with | .snufferSample d k _ => d = die && k = n | _ => false
  if !bit (s.snfa die n) 63 || due then s
  else if bits (s.snfa die n) 59 56 = 3 ∨ bits (s.snfa die n) 59 56 = 4 then
    let (v, s) := s.freeNat
    s.sched 16 (.snufferSample die n (v % 2 ^ 32))
  else s.sched 16 (.snufferSample die n 0)

/-- The core a snuffer packet names: that of a ready queue, and 0 for the other sources, which belong to no core. -/
def snufferCore (a : Word) : Nat := if bits a 59 56 = 1 then bits a 39 35 else 0

/-- A snuffer fires: its packet, then its actions in order. FILT restricts the capture when a core fired. -/
def State.fire (s : State) (die n v : Nat) : State :=
  let a := s.snfa die n
  let b := s.snfb die n
  let cl := 8 * die + bits b 10 8
  let s := (s.setDieReg die (161 + 2 * n) (b ||| field 1 63)).countDevice 197
  let s := s.pushPacket cl (snufferCore a) [packetHead s.timebase 0 (snufferCore a) 3, a, BitVec.ofNat 64 v]
  let s := if bit b 0 then s.setTrcfg cl (trcfg s cl ||| 2) else s
  let s := if bit b 1 then s.setTrcfg cl (trcfg s cl &&& ~~~2) else s
  let s := if bit b 2 then s.setTrcfg cl (trcfg s cl ||| 4) else s
  let s := if bit b 3 && bits a 59 56 = 1 then s.modCluster cl fun c => { c with trace := { c.trace with filt := some (snufferCore a) } } else s
  if bit b 4 then s.trigger cl 7 0 none false else s

/-- A snuffer samples its value, and fires once when the relation fails. -/
def execSnufferSample (die n : Nat) (value : Nat) (s : State) : Host.Outcome State Fault Refusal :=
  if !bit (s.snfa die n) 63 then .next s
  else
    let s := if bit (s.snfb die n) 63 then s
      else match s.snufferValue die n value with
        | some v => if relHolds (bits (s.snfa die n) 62 60) v (bits (s.snfa die n) 31 0) then s else s.fire die n v
        | none => s
    .next (s.armSnuffer die n)

/-- FIRED is cleared: the snuffer may fire again, and its filter ends. -/
def State.clearFired (s : State) (die n : Nat) : State :=
  let b := s.snfb die n
  let s := s.setDieReg die (161 + 2 * n) (b &&& ~~~(field 1 63))
  if bit b 63 && bit b 3 then s.modCluster (8 * die + bits b 10 8) fun c => { c with trace := { c.trace with filt := none } } else s

def execSnufferFiredClear (die n : Nat) (s : State) : Host.Outcome State Fault Refusal := .next (s.clearFired die n)

/-- A write of SNFAn (even) or SNFBn (odd). -/
def State.writeSnuffer (s : State) (die r : Nat) (v : Word) : State :=
  let n := (r - 160) / 2
  if r % 2 = 0 then (s.setDieReg die r v).armSnuffer die n
  else
    let s := if bit v 63 then s.clearFired die n else s
    s.setDieReg die r ((s.dieReg die r &&& field 1 63) ||| (v &&& (field 7 8 ||| 0x1F)))

end Sys2Proof.Machine
end

