-- ==== Sys2Proof/Machine/System.lean ====
section
/-! DEFINITION. System forms (R77, R78, R426 to R431): TRAP, SRET, the register table of R429, PHASE, CTXSYNC, TLBI and TLBP, and
register writes and walks as steps of their own. -/

namespace Sys2Proof.Machine

/-! ## Traps on purpose, and the return (R427, R428) -/

def execTrap (m : Mods) (n : BitVec 8) (s : State) : Host.Outcome State Fault Refusal :=
  runExec m (lenOf m true false) true s fun _ _ => raiseTrap { cls := 28, aux := BitVec.ofNat 64 n.toNat }

/-- Outside service mode SRET traps; a chunk still open commits before the context leaves its slot (DEDUCED, log entry 21). -/
def execSret (m : Mods) (s : State) : Host.Outcome State Fault Refusal :=
  runRaw m (lenOf m true false) s fun p pr =>
    match pr.svc with
    | none => s.takeTrap p (lenOf m true false) (trapPrivilege 1)
    | some k =>
      if ((Tab.getD k (s.cluster pr.cl).svc {}).ctx).isNone then s.takeTrap p (lenOf m true false) (trapPrivilege 2)
      else if pr.chunk.any fun c => c.count ≠ 0 then s.endChunk p
      else s.sret p k

/-! ## The register table (R429) -/

/-- Numbers that name a register. -/
def sysListed (n : Nat) : Bool :=
  n = 0 || (8 ≤ n && n ≤ 13) || n = 16 || (24 ≤ n && n ≤ 32) || (36 ≤ n && n ≤ 40) || (44 ≤ n && n ≤ 46) || (48 ≤ n && n ≤ 53) ||
    (56 ≤ n && n ≤ 58) || n = 60 || (64 ≤ n && n ≤ 83) || (88 ≤ n && n ≤ 126) ||
    (128 ≤ n && n ≤ 191)

/-- Registers of a service slot, which only service mode reads. -/
def sysSlot (n : Nat) : Bool := (8 ≤ n && n ≤ 13) || (24 ≤ n && n ≤ 31)

/-- Registers that only service mode reads: those, and MIGFRM (R81). -/
def sysSecret (n : Nat) : Bool := sysSlot n || n = 58

/-- Registers that nothing writes. -/
def sysReadOnly (n : Nat) : Bool :=
  n = 0 || n = 8 || (10 ≤ n && n ≤ 12) || n = 40 || n = 45 || n = 46 || (48 ≤ n && n ≤ 53) || n = 60

/-- Registers that any process writes. -/
def sysOpen (n : Nat) : Bool := n = 32 || (36 ≤ n && n ≤ 39) || n = 44

/-- CAPS (R2): the memory-side matrix units and the optical links are absent on the E part. -/
def State.caps (s : State) : Word :=
  let e := Part.isE s.phys.part
  field 1 32 ||| field 48 24 ||| field (s.mdies - s.phys.badMdie.length) 16 ||| field s.cdies.length 8 ||| field s.rows 4 |||
    (if e then 0 else 3)

/-- Written bits of a device, cluster or die register (R6): the others are reserved and read 0. -/
def sysMask (n : Nat) : Word :=
  if n = 16 then 0x01FFFFFFFFFFFFFE
  else if n = 57 then 0x000FFFFFFFFFFF01
  else if 64 ≤ n ∧ n ≤ 79 then (if n % 2 = 0 then 0x01FFFFFFFFFF0000 else 0x9C00FFFFFFFFFFFF)
  else if 80 ≤ n ∧ n ≤ 83 then 0xC00FF1FFFFFFFFFF
  else if 88 ≤ n ∧ n ≤ 119 then 0x800000000FFF07FF
  else if n = 120 then 0x0000FFFFFFFFFF07
  else if n = 121 then 0x0000FFFFFFFFFFFF
  else if n = 122 then 0x0000FFFFFF000001
  else if n = 124 then 0xFFFF
  else if n = 125 then 0xFFFFFFFFFFF00000
  else if 128 ≤ n ∧ n ≤ 159 then 0x800000000000003F
  else BitVec.allOnes 64

/-- A stitch figure of a die as it reads (R66): its own fused fields, with GMAX and GOFF the greatest of every compute die. -/
def State.stitchWord (s : State) (die i : Nat) : Word :=
  let fused := fun d => Tab.getD (8 * d + i) s.phys.stitch 0
  let dies := List.range s.cdies.length
  if i < 4 then (fused die &&& 0xFFFFFFFF) ||| field (dies.foldl (fun m d => max m (bits (fused d) 31 16)) 0) 32
  else (fused die &&& 0xFFFF) ||| field (dies.foldl (fun m d => max m ((fused d).setWidth 16).toInt.natAbs) 0) 16

/-- The value a register reads as, for a listed number. -/
def State.readSys (s : State) (pr : Proc) (n : Nat) : Word :=
  let die := pr.cl / 8
  let slot := match pr.svc with | some k => Tab.getD k (s.cluster pr.cl).svc {} | none => {}
  let f : Frame := match slot.ctx with | some x => x.frame | none => {}
  let c := pr.ctx
  if n = 0 then s.caps
  else if n = 8 then f.tcause
  else if n = 9 then f.tpc
  else if n = 10 then f.taddr
  else if n = 11 then f.taux
  else if n = 12 then f.tloop
  else if n = 13 then f.svcst
  else if 24 ≤ n ∧ n ≤ 31 then Tab.getD (n + 32) slot.ps 0
  else if n = 32 then c.pctl
  else if n = 36 then c.fctl
  else if n = 37 then c.srstate
  else if n = 38 then (c.flags.setWidth 40).setWidth 64
  else if n = 39 then ((c.flags >>> 40).setWidth 40).setWidth 64
  else if n = 40 then BitVec.ofNat 64 (((s.team? pr.team).map fun t => t.spmsz).getD 0)
  else if n = 44 then field c.frac.toNat 24 ||| field c.padd.toNat 0
  else if n = 45 then field c.phid.toNat 32 ||| field c.expect.toNat 0
  else if n = 46 then c.elapsed.setWidth 64
  else if n = 48 then c.plat &&& platMask
  else if 49 ≤ n ∧ n ≤ 53 then s.stitchWord die (n - 49)
  else if n = 56 then c.vmctx
  else if n = 58 then BitVec.ofNat 64 (s.memDie s.migDie).free.length
  else if n = 60 then s.phys.mdev &&& 0x00007F00000007FF
  else if n = 120 then s.clReg pr.cl 120
  else if n = 123 then 0
  else if n = 125 ∨ n = 126 then s.clReg pr.cl n
  else if 160 ≤ n ∧ n ≤ 191 then s.dieReg die n
  else s.reg n

/-- Writes a device, cluster or die register under its field map and its own rule. -/
def State.writeUnit (s : State) (cl n : Nat) (v : Word) : State :=
  let w := v &&& sysMask n
  if n = 57 then (s.setReg 57 w).startHalving
  else if n = 58 then s.writeMigfrm v
  else if n = 120 then
    let s := s.setClReg cl 120 (w &&& ~~~0xF8)
    let s := if bit v 7 then s.clearGrants cl else s
    s.kickGrant cl
  else if n = 123 then
    if bit v 8 then s.failCopy cl (bits v 39 16) (bits v 5 0) else s.resumeCopy cl (bits v 39 16) (bits v 5 0)
  else if n = 122 then
    let s := s.setReg 122 w
    if s.queue.any fun q => q.2 = .chandlerWindowEnd then
      ({ s with queue := s.queue.filter fun q => q.2 ≠ .chandlerWindowEnd } : State).armWindow
    else s
  else if n = 125 then s.setClReg cl 125 w
  else if n = 126 then s.setTrcfg cl v
  else if 160 ≤ n ∧ n ≤ 191 then s.writeSnuffer (cl / 8) n v
  else s.setReg n w

/-- Writes a register of the process itself. -/
def writeOwn (n : Nat) (v : Word) (c : Ctx) : Ctx :=
  if n = 32 then { c with pctl := v &&& 1 }
  else if n = 36 then
    { c with fctl := if 4 < bits v 2 0 then (v &&& fctlMask &&& ~~~7) ||| (c.fctl &&& 7) else v &&& fctlMask }
  else if n = 37 then { c with srstate := v }
  else if n = 38 then { c with flags := (c.flags >>> 40 <<< 40) ||| (v.setWidth 40).setWidth 80 }
  else if n = 39 then { c with flags := (c.flags.setWidth 40).setWidth 80 ||| ((v.setWidth 40).setWidth 80 <<< 40) }
  else if n = 44 then { c with frac := BitVec.ofNat 8 (bits v 31 24), padd := BitVec.ofNat 24 (bits v 23 0) }
  else if n = 56 then { c with vmctx := v &&& vmctxMask }
  else c

/-- Writes a register of the process's service slot: TPC (bit 0 of an instruction address is 0), SVCST, PS56 to PS63. -/
def State.writeSlot (s : State) (cl k n : Nat) (v : Word) : State :=
  s.modCluster cl fun c =>
    let slot := Tab.getD k c.svc {}
    let slot :=
      if 24 ≤ n then { slot with ps := Tab.set 0 (n + 32) v slot.ps }
      else { slot with ctx := slot.ctx.map fun x => { x with frame :=
        if n = 9 then { x.frame with tpc := v &&& ~~~1 } else { x.frame with svcst := v &&& 7 } } }
    { c with svc := Tab.put k slot c.svc }

def execMfsr (m : Mods) (d : SReg) (n : BitVec 12) (s : State) : Host.Outcome State Fault Refusal :=
  runExec m (lenOf m true false) true s fun p pr => do
    guardTrap (!sysListed n.toNat) (trapPrivilege 3)
    guardTrap (sysSecret n.toNat && pr.svc.isNone) (trapPrivilege 1)
    setS p d (s.readSys pr n.toNat)
    pure {}

def execMtsr (m : Mods) (d : SReg) (n : BitVec 12) (s : State) : Host.Outcome State Fault Refusal :=
  runExec m (lenOf m true false) true s fun p pr => do
    let v := pr.ctx.rs d
    let n := n.toNat
    guardTrap (!sysListed n) (trapPrivilege 3)
    guardTrap (pr.svc.isNone && (sysSecret n || !(sysOpen n || sysReadOnly n))) (trapPrivilege 1)
    if sysReadOnly n then pure {}
    else if sysOpen n || n = 56 then do
      modCtx p (writeOwn n v)
      pure {}
    else if sysSlot n then do
      match pr.svc with
      | some k => modS fun s => s.writeSlot pr.cl k n v
      | none => pure ()
      pure {}
    else do
      modS fun s => s.writeUnit pr.cl n v
      pure {}

/-! ## PHASE and CTXSYNC (R430, R431) -/

def execPhase (m : Mods) (d rs : SReg) (s : State) : Host.Outcome State Fault Refusal :=
  runExec m (lenOf m true false) true s fun p pr => do
    let i := pr.ctx.rs d
    let c := pr.ctx.rs rs
    modCtx p fun x => { x with
      phid := i.setWidth 32
      expect := if c.toNat < 2 ^ 32 then c.setWidth 32 else BitVec.allOnes 32
      elapsed := 0 }
    pure {}

/-- Words fetched ahead are dropped; a pinned block keeps its own. -/
def execCtxsync (m : Mods) (s : State) : Host.Outcome State Fault Refusal :=
  runExec m (lenOf m true false) true s fun p _ => do
    modS fun s => s.syncFetch p
    pure {}

/-! ## TLBI and TLBP (R76 to R78) -/

/-- Clusters a TLBI reaches. -/
def inReach (scope cl k : Nat) : Bool :=
  if scope = 2 ∨ scope = 3 then k = cl else if scope = 4 then k / 8 = cl / 8 else true

/-- Drops translations in reach: a core's, a cluster's, a die's or every one. -/
def State.invalReach (s : State) (i : Inval) (scope cl core : Nat) : State :=
  if scope = 2 then s.invalCore i cl core
  else if scope = 3 then s.modCluster cl (Cluster.inval i)
  else if scope = 4 then s.invalDie i (cl / 8)
  else s.invalDevice i

/-- Accesses in flight of the clusters in reach (R77): open chunks run again with fresh translations, dirty lines go home, and
answers still to come hold TLBI back, write-backs and writes that a page move holds among them. -/
def State.flightPending (s : State) (scope cl : Nat) (p : Pid) : Bool :=
  (s.clusters.any fun e => inReach scope cl e.1 && (e.2.wbacks ≠ [] || s.heldOf e.1 none)) || s.procs.any fun e => e.1 ≠ p && inReach scope cl e.2.cl &&
    (e.2.outs ≠ [] || (e.2.chunk.any fun c => c.ended) || (e.2.op.any fun o => amoKey ≤ o.key && o.key < amoKey + 2 && o.res = .waiting))

def State.settleFlight (s : State) (scope cl : Nat) (p : Pid) : State :=
  let s := (s.procs.filter fun e => e.1 ≠ p && inReach scope cl e.2.cl && (e.2.chunk.any fun c => !c.ended && c.count ≠ 0)).foldl
    (fun s e => s.squash e.1) s
  (s.clusters.filter fun e => inReach scope cl e.1).foldl (fun s e => s.writeBackAll e.1) s

/-- The kind of a TLBI with its operand. -/
def invalOf (kind : TlbiKind) (v : Word) : Inval :=
  match kind with
  | .va => .va (v.setWidth 16) (bits v 56 16 * 65536)
  | .vaall => .vaall (bits v 56 16 * 65536)
  | .asid => .asid (v.setWidth 16)
  | .all => .all

def execTlbi (m : Mods) (d : SReg) (kind : TlbiKind) (s : State) : Host.Outcome State Fault Refusal :=
  runRaw m (lenOf m true false) s fun p pr =>
    let len := lenOf m true false
    let scope := if scopeOf m = 0 then scDevice else scopeOf m
    if pr.svc.isNone then s.takeTrap p len (trapPrivilege 1)
    else
      let s := (s.invalReach (invalOf kind (pr.ctx.rs d)) scope pr.cl pr.unit).settleFlight scope pr.cl p
      if s.flightPending scope pr.cl p || pr.outs ≠ [] then s.modProc p fun pr => { pr with issueAt := s.cycles + 32 }
      else s.complete p pr.ctx m len { endChunk := true }

/-- The word of R78 for a leaf. -/
def probeWord (s : State) (e : TlbE) (va : Nat) : Word :=
  let loc := leafAddr e va
  let pa := if bit e.leaf 11 then loc - hostBase else loc
  field e.size 61 ||| field (bits e.leaf 2 2) 60 ||| field (bits e.leaf 3 3) 59 ||| field (bits e.leaf 4 4) 58 |||
    field (bits e.leaf 5 5) 57 ||| field (bits e.leaf 8 8) 56 ||| field ((s.moveOf loc).isSome || s.moveLands loc).toNat 55 |||
    field (bits e.leaf 9 9) 54 ||| field (bits e.leaf 11 11) 53 ||| field (pa % 2 ^ 52) 0

/-- TLBP translates as a one-byte load would, setting neither A nor D. -/
def State.probeVa (s : State) (pr : Proc) (a : Word) : Word × State :=
  let x := s.xctx { pr with svc := none } false
  let va := bits a 56 0
  if spaceOf a ≠ 0 then (field 1 63, s)
  else if bits a 61 57 ≠ 0 then (field 1 63 ||| BitVec.ofNat 64 xForm, s)
  else
    let (r, s) := match s.tlbHit x va with
      | (some e, s) => ((.ok e : Except Nat TlbE), s)
      | (none, s) => s.walk x va
    match r with
    | .error k => (field 1 63 ||| BitVec.ofNat 64 k, s)
    | .ok e => if permOk .read e.leaf then (probeWord s e va, s) else (field 1 63 ||| BitVec.ofNat 64 xPerm, s)

def execTlbp (m : Mods) (d rs : SReg) (s : State) : Host.Outcome State Fault Refusal :=
  runExec m (lenOf m true false) true s fun p pr => do
    let (w, s) := s.probeVa pr (pr.ctx.rs rs)
    set s
    setS p d w
    pure {}

/-- The result of a walk for one process that waits for it: its core and cluster TLBs are filled, A and D set as its access needs, and
the process returns to rotation. -/
def State.walkAnswer (w : Walk) (r : Except Nat TlbE) (s : State) (p : Pid) : State :=
  match s.proc? p with
  | none => s
  | some pr =>
    match pr.asked with
    | none => s
    | some q =>
      if q.asid ≠ w.asid ∨ q.page ≠ w.page ∨ q.ans.isSome then s
      else
        let x : XCtx := { cl := some pr.cl, core := pr.unit, walker := w.walker, asid := w.asid, root := w.root }
        let (k, s) := match r with
          | .error k => (some k, s)
          | .ok e => match s.walkEnd x (w.page * 2 ^ 16) (if q.fetch then .fetch else if q.write then .write else .read) e with
            | (.error k, s) => (some k, s)
            | (.ok _, s) => (none, s)
        s.modProc p fun pr => { pr with asked := some { q with ans := some k } }

/-- A walk completes (R75): its one result goes to every process that missed on the page, whatever its cluster, and the next walk of the
walker's queue begins. A walk that no process waits for fills the TLBs of the core and cluster named. -/
def execWalkComplete (cl core asid : Nat) (va : Word) (write : Bool) (s : State) : Host.Outcome State Fault Refusal :=
  let a : BitVec 16 := BitVec.ofNat 16 asid
  match s.walks.find? fun w => w.begun && w.walker = cl / 8 && w.asid = a && w.page = bits va 56 16 with
  | none =>
    let x : XCtx := { cl := some cl, core := core, walker := cl / 8, asid := a, root := rootOf (s.rootOfAsid a) }
    .next (s.walkFor x (bits va 56 0) (if write then .write else .read)).2
  | some w =>
    let x : XCtx := { cl := some cl, core := core, walker := w.walker, asid := w.asid, root := w.root }
    let s : State := { s with walks := s.walks.filter fun v => v ≠ w }
    let (r, s) := s.walk x (w.page * 2 ^ 16)
    let s := w.procs.foldl (State.walkAnswer w r) s
    .next (match s.walks.find? fun v => v.walker = w.walker && !v.begun with | some v => s.beginWalk v | none => s)

end Sys2Proof.Machine
end

