-- ==== Sys2Proof/Machine/Debug.lean ====
section
/-! DEFINITION. The debug module's halts, resumes and steps (R432 to R442, R473), TRMARK, EVREAD and EVGATHER (R451 to R453), the trace
unit's own steps (R445, R446), and twin mode (R449, R450). -/

namespace Sys2Proof.Machine

def State.modDm (s : State) (cl : Nat) (f : DebugMod → DebugMod) : State := s.modCluster cl fun c => { c with dm := f c.dm }

/-- Processes of a cluster. -/
def State.procsOf (s : State) (cl : Nat) : List (Nat × Proc) := s.procs.filter fun e => e.2.cl = cl

/-! ## Halting (R433, R434) -/

/-- An AMO or CAS that was sent and has not written its register (R290). -/
def Proc.amoOut (pr : Proc) : Bool := pr.op.any fun o => amoKey ≤ o.key && o.key < amoKey + 2

/-- The array's drains and zeroings of a cluster are over, and every MMA has finished its slice or pass (R272). -/
def State.arrayQuiet (s : State) (cl : Nat) : Bool :=
  (s.cluster cl).slots.all fun e => match e.2.cmd with
    | some (_, .drain ..) | some (_, .drained ..) | some (_, .zero) => false
    | some (_, .mma ..) => !(s.queue.any fun x => x.2 = Instr.sliceComplete cl e.1)
    | none => true

/-- What R434 asks for before HALTED. -/
def State.haltReady (s : State) (cl : Nat) : Bool :=
  s.arrayQuiet cl && (s.procsOf cl).all fun e => e.2.chunk.isNone && !e.2.amoOut

/-- A process shows HALTED, remembering what it was; those in service and suspended ones keep their state. -/
def Proc.freeze (pr : Proc) : Proc :=
  match pr.state with
  | .ready | .blocked => { pr with before := some pr.state, state := .halted }
  | .running => { pr with before := some (if pr.slot.isSome then .running else .ready), state := .halted }
  | _ => pr

/-- HALTED becomes 1. -/
def State.finishHalt (s : State) (cl : Nat) : State :=
  let s := { s with procs := s.procs.map fun (e : Nat × Proc) => (e.1, if e.2.cl = cl then e.2.freeze else e.2) }
  s.modDm cl fun d => { d with phase := .halted, haltAt := s.cycles, stepping := false, replay := none }

/-- A process is about to run one instruction as a solo chunk of length 1 (R442). -/
def State.armStep (s : State) (p : Pid) : State :=
  match s.proc? p with
  | none => s
  | some pr =>
    let st := if pr.state = .halted then pr.before.getD .ready else pr.state
    let st := if st = .ready then .running else st
    let s := s.setProc p { pr with
      state := st, before := none, solo := true, limit := some 1, chunk := none, skipIbp := true, issueAt := s.cycles }
    let s := s.modCluster pr.cl fun c => { c with token := some p }
    s.modDm pr.cl fun d => { d with stepping := true, trig := s.cycles }

/-- A step is over: the process is frozen again, and the cause is STEP. -/
def State.endStep (s : State) (cl : Nat) (p : Pid) (res : BitVec 2) : State :=
  let inrep := (s.proc? p).any fun pr => pr.loop.isSome
  let s := s.unsolo p
  let s := s.modProc p fun pr => ({ pr with chunk := if pr.chunk.any fun c => c.count = 0 then none else pr.chunk } : Proc).freeze
  s.modDm cl fun d => { d with stepping := false, stres := res, dbgstat := dbgWord 6 0 (some p) (s.slotNum p) inrep false }

/-- Looks whether the instruction stepped is over (R442): STRES DONE 0, WAIT 1, TRAP 2. -/
def State.stepCheck (s : State) (cl : Nat) : State :=
  let d := (s.cluster cl).dm
  let p := d.spid.toNat
  let again := s.sched 4 (.haltComplete cl)
  match s.proc? p with
  | none => s.endStep cl p 0
  | some pr =>
    if pr.cl ≠ cl then s.endStep cl p 0
    else if pr.chunk.any fun c => c.ended then again
    else if pr.state = .service then s.endStep cl p 2
    else if pr.issuedAt ≤ d.trig then
      -- its wait goes on: a barrier's release is held until the cluster resumes
      if pr.state = .blocked && pr.wkind = .barrier then s.endStep cl p 1 else again
    -- a reply to the instruction's own access comes while the step goes on
    else if pr.state = .blocked then (if pr.wkind = .reply then again else s.endStep cl p 1)
    else if pr.skipIbp && pr.state = .running then again
    else s.endStep cl p 0

/-- The process under watchpoint replay goes on by one instruction, alone (R473). The replay ends with the hit, or when the process
cannot run. -/
def State.replayStep (s : State) (cl : Nat) : State :=
  match (s.cluster cl).dm.replay with
  | none => s
  | some (p, _) =>
    let ended := s.modDm cl fun d => { d with replay := none, stepping := false }
    match s.proc? p with
    | none => ended
    | some pr =>
      if pr.cl ≠ cl || pr.state = .service || pr.state = .suspended || (pr.state = .blocked && !memWait pr.wkind) then ended
      else if pr.chunk.isNone && (pr.state = .running || pr.state = .ready) && !(s.cluster cl).dm.stepping then
        s.armStep p
      else s

def execWatchpointReplay (cl : Nat) (s : State) : Host.Outcome State Fault Refusal := .next (s.replayStep cl)

/-- The halt is complete once everything R434 lists has ended; while it is halted the step looks after a single step. -/
def execHaltComplete (cl : Nat) (s : State) : Host.Outcome State Fault Refusal :=
  let again : State → State := fun s => s.sched 4 (.haltComplete cl)
  let d := (s.cluster cl).dm
  match d.phase with
  | .running => .next s
  | .halted => .next (if d.stepping then s.stepCheck cl else s)
  | .stopping =>
    let spare := d.replay.map fun r => r.1
    let s := (s.procsOf cl).foldl (fun s e => if some e.1 = spare then s else s.endChunk e.1) s
    match d.replay with
    | some (p, _) =>
      if (s.procsOf cl).all fun e => e.1 = p || (e.2.chunk.isNone && !e.2.amoOut) then .next (again (s.replayStep cl))
      else .next (again s)
    | none => if s.haltReady cl then .next (s.finishHalt cl) else .next (again s)

/-- A write of DMCTL.HALT. -/
def State.debugHalt (s : State) (cl : Nat) : State := s.trigger cl 1 0 none false
def execDebugHalt (cl : Nat) (s : State) : Host.Outcome State Fault Refusal := .next (s.debugHalt cl)

/-! ## Resuming (R436) -/

/-- One process goes on, unless DBG.HOLD keeps it. -/
def State.thaw (s : State) (p : Pid) : State :=
  match s.proc? p with
  | none => s
  | some pr =>
    if pr.state ≠ .halted then s
    else if bit pr.dbgEn 9 then s.unready p
    else
      let b := pr.before.getD .ready
      let pr := { pr with state := b, before := none, skipIbp := true, issueAt := max pr.issueAt s.cycles }
      let s := s.setProc p pr
      match b with
      | .ready => if (s.readyAt pr.cl pr.core pr.prio.toNat).contains p then s else s.makeReady p
      | .running =>
        if pr.slice = 0 then s else s.schedNs (pr.slotAt + 1000 * pr.slice) (.timeSliceExpiry p)
      | .blocked =>
        let s := if pr.barOver then s.wake p else s
        let probe := bits (s.reg 124) 15 0
        if pr.deadline = 0 then (if probe = 0 then s else s.sched (nsCycles (1000 * probe)) (.probeTimer p))
        else if pr.wkind = .sleep then s.schedNs (s.timeFrom pr.cl pr.deadline.toNat) (.sleepWake p)
        else if pr.deadline = BitVec.allOnes 64 then s.sched 0 (.deadlineExpiry p)
        else s.schedNs (s.timeFrom pr.cl pr.deadline.toNat) (.deadlineExpiry p)
      | _ => s

/-- The grant scheduler goes on: a halt counts neither toward TEXP nor toward ORPH (R130). -/
def State.thawGrants (s : State) (cl ns : Nat) : State :=
  let s := s.modCluster cl fun c => { c with greqs := c.greqs.map fun (e : Nat × GReq) => (e.1, { e.2 with
    toks := e.2.toks.map fun t => { t with issued := t.issued + ns }
    lastAcc := e.2.lastAcc + ns }) }
  let s := (s.cluster cl).greqs.foldl (fun s e =>
    let s := e.2.toks.foldl (fun s t => if s.expires cl e.2 then s.schedNs (t.issued + t.texp) (.tokenExpiry cl e.1 t.serial) else s) s
    match e.2.src with
    | .msg _ => if e.2.granted = [] then s else s.schedNs (e.2.lastAcc + s.orph cl) (.orphanTimeout cl e.1)
    | .copy _ => s) s
  (Tab.keys (s.cluster cl).endps).foldl (fun s e => s.settle cl e) (s.kickGrant cl)

/-- The array goes on: the lease's time limit stopped (R267), and an MMA continues from its boundary. -/
def State.thawArray (s : State) (cl ns : Nat) : State :=
  let s := s.modCluster cl fun c => { c with lease := c.lease.map fun l => { l with start := l.start + ns } }
  let s := match (s.cluster cl).lease with
    | some l => s.schedNs (l.start + leaseNs) (.leaseTimeLimit cl)
    | none => s.sched 8 (.leaseGrant cl)
  (s.cluster cl).slots.foldl (fun s e => match e.2.cmd with
    | some (_, .mma id none) => s.sched (sliceCycles id.mode) (.sliceComplete cl e.1)
    | _ => s) s

/-- State logs go on: the first record's delta counts from the halt (R445). -/
def State.thawLogs (s : State) (cl haltAt : Nat) : State :=
  if !s.capturing cl then s
  else
    let n := s.cycles - haltAt
    (s.cluster cl).trace.last.foldl (fun s e =>
      let st := s.coreState cl e.1
      let s := s.modCluster cl fun c => { c with trace := { c.trace with last := Tab.put e.1 (st, s.cycles) c.trace.last } }
      let s := (List.range (n / 16383)).foldl (fun s _ => s.addRecord cl e.1 st 16383 (haltAt * 5 / 6)) s
      (s.addRecord cl e.1 st (n % 16383) (haltAt * 5 / 6)).sched 16383 (.stateLogExtension cl e.1)) s

/-- A write of DMCTL.RESUME on a halted cluster. -/
def State.debugResume (s : State) (cl : Nat) : State :=
  let d := (s.cluster cl).dm
  if d.phase ≠ .halted then s
  else
    let s := if d.stepping then s.endStep cl d.spid.toNat 1 else s
    let ns := s.timebase - d.haltAt * 5 / 6
    let s := s.modDm cl fun d => { d with phase := .running, stepping := false }
    let s := (s.procsOf cl).foldl (fun s e => s.thaw e.1) s
    let s := (s.thawGrants cl ns).thawArray cl ns
    let s := s.thawLogs cl d.haltAt
    let s := (List.range 31).foldl (fun s k =>
      if s.readyCount cl k = 0 then s else (s.sched 6 (.slotRefill cl k)).sched 7 (.priorityPreemption cl k)) s
    (((s.sched 1 (.serviceSlotStart cl)).sched 6 (.dispatchClaim (cl / 8))).sched 6 (.backlogResume (cl / 8))).wakeOthers

def execDebugResume (cl : Nat) (s : State) : Host.Outcome State Fault Refusal := .next (s.debugResume cl)

/-! ## Stepping (R442) -/

/-- A write of DMCTL.STEP. A process in service waits for the frozen Lamplighter and does not step. -/
def State.debugStep (s : State) (cl : Nat) : State :=
  let d := (s.cluster cl).dm
  let p := d.spid.toNat
  if d.phase ≠ .halted || d.stepping then s
  else match s.proc? p with
    | none => s.modDm cl fun d => { d with stres := 3 }
    | some pr =>
      if pr.cl ≠ cl || pr.state ≠ .halted then s.modDm cl fun d => { d with stres := if pr.cl = cl then 1 else 3 }
      else
        let s := if pr.before = some .ready then s.unready p else s
        let s := s.armStep p
        let s := if pr.deadline ≠ 0 ∧ pr.before = some .blocked then
            s.schedNs (if pr.deadline = BitVec.allOnes 64 then 0 else s.timeFrom pr.cl pr.deadline.toNat)
              (if pr.wkind = .sleep then .sleepWake p else .deadlineExpiry p)
          else s
        let s := (Tab.keys (s.cluster cl).endps).foldl (fun s e => s.settle cl e) (s.kickGrant cl)
        s.sched 2 (.haltComplete cl)

def execDebugStep (cl : Nat) (s : State) : Host.Outcome State Fault Refusal := .next (s.debugStep cl)

/-! ## Trace instructions (R451 to R453) -/

def execTrmark (m : Mods) (d : SReg) (s : State) : Host.Outcome State Fault Refusal :=
  runExec m (lenOf m true false) true s fun p pr => do
    let s ← get
    let w := pr.ctx.rs d
    if !bit (trcfg s pr.cl) 1 then pure ()
    else match pr.chunk with
      | some _ => modProcE p fun pr => { pr with chunk := pr.chunk.map fun c => { c with marks := c.marks ++ [w] } }
      | none =>
        modS fun s => s.pushPacket pr.cl pr.unit [packetHead s.timebase 0 pr.unit 2, w, BitVec.ofNat 64 (s.key p), field pr.stage.toNat 0]
    pure {}

/-- Counter n of a core. -/
def State.coreCounter (s : State) (cl core n : Nat) : Word :=
  let at_ := fun k => Tab.getD (256 * core + k) (s.cluster cl).events 0
  let all := s.cycles - s.mgmt.startCycle
  if n = 0 then BitVec.ofNat 64 all
  else if n = 9 then BitVec.ofNat 64 (all - ((at_ 6).toNat + (at_ 7).toNat + (at_ 8).toNat))
  else if n ≤ 13 then at_ n
  else 0

/-- Counter n as a core reads it: its own, its cluster's or the device's. -/
def State.counter (s : State) (cl core n : Nat) : Word :=
  if n < 128 then s.coreCounter cl core n
  else if n = 128 then Tab.getD (256 * 32 + 128) (s.cluster cl).events 0
  else if 192 ≤ n ∧ n ≤ 198 then Tab.getD n s.events 0
  else 0

def execEvread (m : Mods) (d : SReg) (n : BitVec 8) (s : State) : Host.Outcome State Fault Refusal :=
  runExec m (lenOf m true false) true s fun p pr => do
    let s ← get
    setS p d (s.counter pr.cl pr.unit n.toNat)
    pure {}

/-- Cores with members of a barrier, as cluster and core: the span of EVGATHER. -/
def State.barSpan (s : State) (n : Nat) : List (Nat × Nat) :=
  (s.barMembers n).foldl (fun l e =>
    let c := (e.2.1.cl, e.2.1.core)
    if e.2.1.barrierPlace < 65536 && !l.contains c then c :: l else l) []

/-- The 32 words EVGATHER writes. -/
def State.gathered (s : State) (n : Nat) : List Word :=
  let span := s.barSpan n
  (field (span.length % 65536) 0 ||| field n 16) :: BitVec.ofNat 64 s.timebase ::
    (List.range 30).map fun k =>
      BitVec.ofNat 64 (min (2 ^ 64 - 1) ((span.map fun c => (s.coreCounter c.1 c.2 k).toNat).sum))

def execEvgather (m : Mods) (d : SReg) (n : BitVec 5) (s : State) : Host.Outcome State Fault Refusal :=
  runExec m (lenOf m true false) true s fun p pr => do
    guardTrap ((Tab.get? n.toNat pr.bars).all fun b => b.k = 0) (trapBarrier 3)
    let ea := pr.ctx.rs d
    let pls ← resolveLines p (lineAddrs ea 4) .write
    waitPlaces p (pls.map fun e => e.2)
    let s ← get
    let bs := wordsBytes (s.gathered n.toNat)
    (pls.zip (List.range 4)).forM fun e =>
      match e.1.2 with
      | .mem loc | .acc _ loc => storeLoc p loc ((bs.drop (64 * e.2)).take 64)
      | _ => pure ()
    pure {}

/-! ## The trace unit's own steps (R445, R446) -/

def execTraceSpill (cl : Nat) (s : State) : Host.Outcome State Fault Refusal := .next (s.spillHalf cl)
def execStateLogExtension (cl core : Nat) (s : State) : Host.Outcome State Fault Refusal := .next (s.logExtension cl core)
/-- TRCFG is written with EN 1, or any value that opens or changes a session. -/
def execTraceSessionOpen (cl : Nat) (v : Word) (s : State) : Host.Outcome State Fault Refusal := .next (s.setTrcfg cl (v ||| 1))
/-- EN is cleared. -/
def execTraceSessionClose (cl : Nat) (s : State) : Host.Outcome State Fault Refusal := .next (s.setTrcfg cl (trcfg s cl &&& ~~~1))

/-! ## Twin mode (R449, R450) -/

/-- Every cluster of this partition halts with CAUSE TWIN; the other partition's do as well. -/
def State.twinHalt (s : State) : State :=
  (List.range s.clusterCount).foldl (fun s cl => s.triggerAt cl (dbgWord 8 0 none 255 false false)) s

/-- Each H of an episode is compared with the other partition's; local dies that differ are posted to the controller. -/
def execTwinCompare (epoch : Nat) (s : State) : Host.Outcome State Fault Refusal :=
  if s.phys.twin.isNone then .next s
  else
    let h := fun m => Tab.getD (64 * (epoch + 1) + m) s.twinH 0
    let bad := (List.range 16).filter fun m => h m ≠ Tab.getD (64 * epoch + m) s.phys.peerH 0
    let s := { s with twinH := s.twinH.filter fun e => !(64 * (epoch + 1) ≤ e.1 && e.1 < 64 * (epoch + 2)) }
    if bad = [] then .next s else .next (s.twinHalt.emit (.controller 8 (bad.map fun m => BitVec.ofNat 64 m)))

/-- A request of the shadow that stayed unpaired halts both partitions. -/
def execTwinUnpairedTimeout (key : Nat) (s : State) : Host.Outcome State Fault Refusal :=
  match Tab.get? key s.twinWait with
  | none => .next s
  | some t =>
    if s.cycles < t + nsCycles 100000 then .next s
    else .next { s.twinHalt with twinWait := Tab.del key s.twinHalt.twinWait }

end Sys2Proof.Machine
end

