-- ==== Sys2Proof/Machine/Dacc.lean ====
section
/-! DEFINITION. State access of a halted cluster through DACC and DBUF (R443, R444), and writes of device, cluster, die and debug-module
registers from outside (R6, R432). -/

namespace Sys2Proof.Machine

/-! ## DBUF -/

def State.dbuf (s : State) (cl i : Nat) : Word := Tab.getD i (s.cluster cl).dm.dbuf 0

/-- Puts words into DBUF from offset 0; the rest keeps what it held. -/
def State.fillBuf (s : State) (cl : Nat) (ws : List Word) : State :=
  s.modDm cl fun d => { d with dbuf := ((List.range ws.length).zip ws).foldl (fun t e => Tab.set 0 e.1 e.2 t) d.dbuf }

/-- The status of a request: 0 OK, 1 FAULT, 2 POISON, 3 BADARG. -/
def State.daccStatus (s : State) (cl n : Nat) : State :=
  s.modDm cl fun d => { d with dacc := (d.dacc &&& ~~~0xFF00) ||| field n 8 }

/-- A request about a process of the halted cluster. -/
def State.daccProc (s : State) (cl p : Nat) (f : Proc → State) : State :=
  match s.proc? p with
  | some pr => if s.isHalted cl && pr.cl = cl then (f pr).daccStatus cl 0 else s.daccStatus cl 3
  | none => s.daccStatus cl 3

/-- A request about an entry of the halted cluster. -/
def State.daccEntry (s : State) (cl : Nat) (ok : Bool) (f : State) : State :=
  if s.isHalted cl && ok then f.daccStatus cl 0 else s.daccStatus cl 3

/-- Items marked read only (R443). -/
def State.daccReadOnly (s : State) (cl : Nat) (write : Bool) (r : State) : State := if write then s.daccStatus cl 3 else r

/-! ## KIND 1: the continuation record (R321) -/

def PState.code : PState → Nat
  | .exited => 0 | .ready => 1 | .running => 2 | .blocked => 3 | .suspended => 4 | .service => 5 | .halted => 6

/-- The element after p in a list. -/
def nextOf (p : Pid) : List Pid → Option Pid
  | a :: b :: l => if a = p then some b else nextOf p (b :: l)
  | _ => none

/-- LINK: the next record of the ready queue or the wait list that holds p. -/
def State.link? (s : State) (p : Pid) (pr : Proc) : Nat :=
  let lists := ((s.cluster pr.cl).ready.map fun e => e.2) ++ ((s.cluster pr.cl).endps.map fun e => e.2.waiters)
  (lists.findSome? fun l => nextOf p l).getD 0xFFFFFFFF

def State.contRecord (s : State) (p : Pid) (pr : Proc) : List Word :=
  [field pr.state.code 61 ||| field pr.wkind.code 57 ||| BitVec.ofNat 64 (bits pr.pc 56 0),
   field (s.link? p pr) 32 ||| field pr.stage.toNat 12 ||| field pr.prio.toNat 8 ||| field pr.altnxt.toNat 4 ||| field pr.resv.isSome.toNat 0,
   field pr.incs.toNat 63 ||| field (pr.base / 1024) 10,
   field pr.lid 32 ||| field p 0,
   pr.wait, pr.deadline, pr.dbgEn,
   field pr.pol.toNat 62 ||| field pr.rtry.toNat 60 ||| field pr.fcls.toNat 52 ||| field pr.fkind.toNat 44 ||| field pr.fpcls.toNat 36 |||
     field pr.fpkind.toNat 28 ||| field pr.flvl.toNat 26]

/-- A written record: the fields that say what the process does next; STATE, WKIND, LINK, RSVD, LID and PID follow the machine's own
tables and keep their values. A process moved to another instruction leaves the wait it was in. -/
def State.writeRecord (s : State) (cl : Nat) (p : Pid) (pr : Proc) : State :=
  let w := s.dbuf cl
  let pc := BitVec.ofNat 64 (bits (w 0) 56 0) &&& ~~~1
  let moved := pc ≠ pr.pc
  let inLoop := pr.loop.any fun l => l.start.toNat ≤ pc.toNat && pc.toNat < l.stop.toNat
  let s := if moved && pr.before = some .blocked then s.unlist cl p else s
  let s := s.setProc p { pr with
    pc := pc
    loop := if moved && !inLoop then none else pr.loop
    op := if moved then none else pr.op
    before := if moved && pr.before = some .blocked then some (if pr.slot.isSome then .running else .ready) else pr.before
    wkind := if moved then .nothing else pr.wkind
    wait := if moved then 0 else pr.wait
    stage := BitVec.ofNat 4 (bits (w 1) 15 12)
    prio := BitVec.ofNat 3 (bits (w 1) 10 8)
    altnxt := BitVec.ofNat 4 (bits (w 1) 7 4)
    incs := bit (w 2) 63
    base := bits (w 2) 51 10 * 1024
    deadline := if moved then 0 else w 5
    dbgEn := w 6 &&& 0x3FF
    pol := BitVec.ofNat 2 (bits (w 7) 63 62)
    rtry := BitVec.ofNat 2 (bits (w 7) 61 60)
    fcls := BitVec.ofNat 8 (bits (w 7) 59 52)
    fkind := BitVec.ofNat 8 (bits (w 7) 51 44)
    fpcls := BitVec.ofNat 8 (bits (w 7) 43 36)
    fpkind := BitVec.ofNat 8 (bits (w 7) 35 28)
    flvl := BitVec.ofNat 2 (bits (w 7) 27 26) }
  let s := if pr.prio.toNat = bits (w 1) 10 8 || pr.before ≠ some .ready then s
    else s.unready p
  s.rearm p

def execDaccRecord (cl pid : Nat) (write : Bool) (s : State) : Host.Outcome State Fault Refusal :=
  .next (s.daccProc cl pid fun pr => if write then s.writeRecord cl pid pr else s.fillBuf cl (s.contRecord pid pr))

/-! ## KIND 2: the save area (R169 to R171, R137, R419, R438) -/

/-- The number n words starting at word i hold. -/
def wordsNat (w : Nat → Word) (i n : Nat) : Nat := ((List.range n).map fun k => (w (i + k)).toNat * 2 ^ (64 * k)).sum

/-- A table with n entries whose zeros are not listed. -/
def tabOf {α : Type} [DecidableEq α] (z : α) (n : Nat) (f : Nat → α) : Tab α :=
  ((List.range n).filter fun k => f k ≠ z).map fun k => (k, f k)

/-- The context a written save area holds; a short-stall entry keeps the old value of the producer it was, or takes the register's
present one. -/
def Ctx.ofImage (c : Ctx) (w : Nat → Word) : Ctx :=
  let slice := fun x lo n => x / 2 ^ lo % 2 ^ n
  let l169 := wordsNat w 1352 8
  let e16 := fun k => if k < 4 then bits (w 1383) (16 * k + 15) (16 * k) else
    bits (w (1392 + (k - 4) / 4)) (16 * ((k - 4) % 4) + 15) (16 * ((k - 4) % 4))
  let entry : Nat → Option Outstanding := fun k =>
    let x := e16 k
    if x = 0 then none
    else
      let cls := BitVec.ofNat 2 (x / 256)
      let reg := BitVec.ofNat 6 x
      let here := (c.short[k]?).filter fun o => o.cls = cls && o.reg = reg
      some (match here with
        | some o => { o with dist := x / 1024 }
        | none =>
          let v := c.snapshot cls reg
          { dist := x / 1024, cls := cls, reg := reg, old := v.1, oldTag := v.2.1, oldScale := v.2.2, settled := true
            readOld := false, keepNew := false })
  let c' : Ctx := { c with
    s := (tabOf 0 64 w).filter fun e => e.1 ≠ 0
    tscale := tabOf 0 8 fun k => BitVec.ofNat 8 (slice (w 0).toNat (8 * k) 8)
    v := tabOf 0 32 fun n => BitVec.ofNat 512 (wordsNat w (64 + 8 * n) 8)
    t := tabOf 0 8 fun n => BitVec.ofNat 8192 (wordsNat w (320 + 128 * n) 128)
    ttag := tabOf 0 8 fun k => BitVec.ofNat 4 (slice (w 1344).toNat (4 * k) 4)
    p := (tabOf 0 8 fun n => w (1344 + n)).filter fun e => e.1 ≠ 0
    vtag := tabOf 0 32 fun n => BitVec.ofNat 4 (slice l169 (4 * n) 4)
    vscale := tabOf 0 32 fun n => BitVec.ofNat 8 (slice l169 (128 + 8 * n) 8)
    flags := BitVec.ofNat 80 (slice l169 384 80)
    qbound := BitVec.ofNat 8 (packTab 1 8 fun q => slice l169 (464 + 6 * q) 1)
    qout := BitVec.ofNat 8 (packTab 1 8 fun q => slice l169 (465 + 6 * q) 1)
    dbg := tabOf 0 8 fun i => if i < 4 then w (1360 + i) &&& 0x01FFFFFFFFFFFFFE else w (1360 + i)
    rendez := tabOf 0 8 fun i => w (1368 + i)
    plat := w 1379 &&& platMask
    phid := BitVec.ofNat 32 (bits (w 1381) 63 32)
    expect := BitVec.ofNat 32 (bits (w 1381) 31 0)
    frac := BitVec.ofNat 8 (bits (w 1382) 63 56)
    padd := BitVec.ofNat 24 (bits (w 1382) 55 32)
    elapsed := BitVec.ofNat 32 (bits (w 1382) 31 0)
    qh := tabOf 0 8 fun q => w (1384 + q)
    short := (List.range 36).filterMap entry }
  writeOwn 56 (w 1380) (writeOwn 37 (w 1378) (writeOwn 36 (w 1377) (writeOwn 32 (w 1376) c')))

def execDaccSaveArea (cl pid : Nat) (write : Bool) (s : State) : Host.Outcome State Fault Refusal :=
  .next (s.daccProc cl pid fun pr =>
    if write then (s.setProc pid { pr with
      ctx := pr.ctx.ofImage (s.dbuf cl), rlines := pr.rlines.map fun (e : Nat × RLine) => (e.1, { e.2 with dirty := true }) }).rearm pid
    else s.fillBuf cl pr.ctx.image)

/-! ## KIND 3: the trap frame and the banked registers (R411, R413) -/

def Frame.words (f : Frame) : List Word := [f.tcause, f.tpc, f.taddr, f.taux, f.tloop, f.svcst]
def Frame.written (f : Frame) (w : Nat → Word) : Frame := { f with tpc := w 1 &&& ~~~1, svcst := w 5 &&& 7 }

/-- The service slot that serves a process, or its queued context with its own s56 to s63. -/
def State.frameAccess (s : State) (cl : Nat) (p : Pid) (pr : Proc) (write : Bool) : Option State :=
  let w := s.dbuf cl
  let ps : Tab Word → List Word := fun t => bankedRegs.map fun r => Tab.getD r t 0
  let put : Tab Word → Tab Word := fun t => bankedRegs.foldl (fun t r => Tab.set 0 r (w (r - 50)) t) t
  match pr.svc with
  | some k =>
    let slot := Tab.getD k (s.cluster cl).svc {}
    slot.ctx.map fun x =>
      if write then s.modCluster cl fun c => { c with
        svc := Tab.put k { slot with ctx := some { x with frame := x.frame.written w }, ps := put slot.ps } c.svc }
      else s.fillBuf cl (x.frame.words ++ ps slot.ps)
  | none =>
    ((s.cluster cl).svcQ.find? fun x => x.pid = p).map fun x =>
      if write then
        (s.modCluster cl fun c => { c with
          svcQ := c.svcQ.map fun y => if y.pid = p then { y with frame := y.frame.written w } else y }).modProc p fun pr =>
            { pr with ctx := { pr.ctx with s := put pr.ctx.s } }
      else s.fillBuf cl (x.frame.words ++ ps pr.ctx.s)

def execDaccTrapFrame (cl pid : Nat) (write : Bool) (s : State) : Host.Outcome State Fault Refusal :=
  match (s.proc? pid).bind fun pr => if s.isHalted cl && pr.cl = cl then s.frameAccess cl pid pr write else none with
  | some s => .next (s.daccStatus cl 0)
  | none => .next (s.daccStatus cl 3)

/-! ## KIND 4: region-table entries (R144) -/

def Window.words (w : Window) : List Word :=
  [BitVec.ofNat 64 w.base, w.src, field w.rowb 16 ||| field w.rows 0, w.stride,
   field w.fill.toNat 5 ||| field w.nosrc.toNat 4 ||| field w.fmt.toNat 0, w.word5, BitVec.ofNat 64 w.owner, 0]

/-- A written entry; STATE 0 frees it. -/
def Window.ofWords (team num : Nat) (w : Nat → Word) : Option Window :=
  let st : Option WState := match bits (w 5) 63 62 with | 1 => some .absent | 2 => some .filling | 3 => some .present | _ => none
  st.map fun st => { windowOf ((List.range 8).map w) team num (w 6).toNat with
    st := st, ovr := bit (w 5) 61, pend := bits (w 5) 25 0
    fst := match bits (w 5) 59 56 with | 3 => .pendFault | 4 => .failed | _ => .ok }

/-- The lowest window number a team does not use. -/
def State.freeWindowNum (s : State) (cl team : Nat) : Nat :=
  ((List.range 256).find? fun n => (s.windowNum cl team n).isNone).getD 0

/-- An entry keeps the team and number it is bound under; a free one takes its owner's team and a free number of it. -/
def execDaccRegionEntry (cl idx : Nat) (write : Bool) (s : State) : Host.Outcome State Fault Refusal :=
  let here := Tab.get? idx (s.cluster cl).windows
  .next (s.daccEntry cl (idx < 256)
    (if write then
      let team := (here.map fun w => w.team).getD ((s.dbuf cl 6).toNat / 256)
      let num := (here.map fun w => w.num).getD (s.freeWindowNum cl team)
      match Window.ofWords team num (s.dbuf cl) with
      | some w => s.setWindow cl idx w
      | none => s.modCluster cl fun c => { c with windows := Tab.del idx c.windows }
    else s.fillBuf cl ((here.map Window.words).getD (List.replicate 8 0))))

/-! ## KIND 5: endpoint-table entries (R328) -/

def Endp.words (n : Endp) : List Word :=
  let key : Option Nat → Word := fun k => match k with | some k => BitVec.ofNat 64 k | none => BitVec.allOnes 64
  [field 1 63 ||| field n.closed.toNat 62 ||| field n.buffered.toNat 61 ||| field n.spn.toNat 60 ||| field n.blk.toNat 59 |||
     field n.sprio.toNat 56 ||| field n.sstage.toNat 52 ||| field n.depth 44 ||| field n.slots.length 36 ||| field n.head 28 |||
     field n.efmt.toNat 22 ||| field n.sclass.toNat 17,
   field n.team 40 ||| field (n.idx % 2 ^ 32) 0, field (n.waiters.headD 0xFFFFFFFF) 32 ||| field n.buf 0,
   BitVec.ofNat 64 (bits n.entry 56 0), key n.lsnd, key n.lrcv, 0, 0]

/-- Bytes of the messages in the buffer, oldest first: a reply endpoint holds them itself, a channel in its team's scratchpad. -/
def State.bufferBytes (s : State) (n : Endp) (cl : Nat) : List Byte :=
  (List.range n.slots.length).flatMap fun i =>
    if n.reply then (((n.slots[i]?).map fun (b : BufSlot) => b.bytes).getD [] ++ List.replicate 64 0).take 64
    else Memory.read s.mem (sramLoc cl (s.slotOff n i)) (slotSize n)

/-- A written entry. V 0 frees it; COUNT keeps its value, and WHEAD follows the waiting list. -/
def Endp.written (n : Endp) (w : Nat → Word) : Endp :=
  let key : Word → Option Nat := fun k => if k = BitVec.allOnes 64 then none else some (bits k 42 0)
  { n with
    closed := bit (w 0) 62, buffered := bit (w 0) 61, spn := bit (w 0) 60, blk := bit (w 0) 59, sprio := BitVec.ofNat 3 (bits (w 0) 58 56)
    sstage := BitVec.ofNat 4 (bits (w 0) 55 52), depth := bits (w 0) 51 44, head := bits (w 0) 35 28
    efmt := BitVec.ofNat 6 (bits (w 0) 27 22), sclass := BitVec.ofNat 5 (bits (w 0) 21 17), team := bits (w 1) 63 40
    buf := bits (w 2) 24 0, entry := BitVec.ofNat 64 (bits (w 3) 56 0), lsnd := key (w 4), lrcv := key (w 5) }

/-- Writes the buffered messages back from DBUF, from word 8 on, as far as DBUF reaches. -/
def State.writeBuffer (s : State) (cl k : Nat) (n : Endp) : State :=
  let bs := wordsBytes ((List.range 2040).map fun i => s.dbuf cl (8 + i))
  let size := if n.reply then 64 else slotSize n
  (List.range n.slots.length).foldl (fun s i =>
    let one := (bs.drop (size * i)).take size
    if one.length < size then s
    else if n.reply then
      s.modEndp cl k fun n => { n with slots := (List.range n.slots.length).zipWith (fun j (b : BufSlot) => if j = i then { b with bytes := one } else b) n.slots }
    else s.homeWriteBytes (sramLoc cl (s.slotOff n i)) one) s

def execDaccEndpointEntry (cl idx : Nat) (write : Bool) (s : State) : Host.Outcome State Fault Refusal :=
  let here := s.endp? cl idx
  .next (s.daccEntry cl (idx < 4096)
    (match here with
    | none => if write then s else s.fillBuf cl (List.replicate 8 0)
    | some n =>
      if !write then
        s.fillBuf cl ((n.words ++ (let b := s.bufferBytes n cl; (List.range ((b.length + 7) / 8)).map fun i => wordAt b i)).take 2048)
      else if !bit (s.dbuf cl 0) 63 then s.freeEnd cl idx
      else
        let n' := n.written (s.dbuf cl)
        (s.setEndp cl idx n').writeBuffer cl idx n'))

/-! ## KIND 6 to 8: batches, barriers, accumulator slots (R152, R384, R264) -/

/-- Byte b of KIND 6: the status of batch b; then the open batch. -/
def State.batchWords (s : State) (p : Pid) (pr : Proc) : List Word :=
  let bs : List Byte := ((List.range 256).map fun b => BitVec.ofNat 8 (s.batchStat p pr b).code) ++ [pr.openBatch] ++ List.replicate 7 0
  (List.range 33).map fun i => wordAt bs i

def execDaccBatchStatus (cl pid : Nat) (write : Bool) (s : State) : Host.Outcome State Fault Refusal :=
  .next (s.daccReadOnly cl write (s.daccProc cl pid fun pr => s.fillBuf cl (s.batchWords pid pr)))

def execDaccBarrierState (cl pid : Nat) (write : Bool) (s : State) : Host.Outcome State Fault Refusal :=
  .next (s.daccReadOnly cl write (s.daccProc cl pid fun pr => s.fillBuf cl ((List.range 32).map fun n => s.barWord pr n)))

/-- The words of an accumulator slot. -/
def State.slotWords (s : State) (cl k : Nat) : List Word :=
  match Tab.get? k (s.cluster cl).slots with
  | none => List.replicate 8 0
  | some x =>
    let id := match x.st, x.ident with
      | .partialMma, some i => [field i.mode.code 0, i.sm, i.sa, i.sb]
      | _, _ => [0, 0, 0, 0]
    [s.slotHeader cl k x, field 1 63 ||| field x.tslot.toNat 24 ||| field x.team 0] ++ id ++ [0, 0] ++
      ((s.cluster cl).carry.filter fun e => e.slot = k).map fun e =>
        field (wrap 5 e.count) 0 ||| field e.index 5 ||| field k 24 ||| field 1 63

def execDaccAccumulatorSlot (cl idx : Nat) (write : Bool) (s : State) : Host.Outcome State Fault Refusal :=
  .next (s.daccReadOnly cl write (s.daccEntry cl (idx < 4) (s.fillBuf cl (s.slotWords cl idx))))

/-! ## KIND 9 to 11: request-store, replica-table and origin entries (R125, R388, R424) -/

/-- Free words: what a layout that the spec does not give shows (log entry 2). -/
def State.freeWords : Nat → State → List Word × State
  | 0, s => ([], s)
  | n + 1, s =>
    let (k, s) := s.freeNat
    let (ws, s) := State.freeWords n s
    (BitVec.ofNat 64 k :: ws, s)

/-- The spec gives a request-store entry no layout: a read shows free words and the prefix slot's, and a write changes nothing. -/
def execDaccGrantEntry (cl idx : Nat) (write : Bool) (s : State) : Host.Outcome State Fault Refusal :=
  let (ws, t) := State.freeWords 136 s
  .next (if write then s.daccEntry cl (idx < 512) s else s.daccEntry cl (idx < 512) (t.fillBuf cl ws))

def Expert.words (e : Expert) : List Word :=
  [field e.ver.toNat 32 ||| field e.live.toNat 24 ||| field e.stub.toNat 16 ||| field e.pin.toNat 15 ||| field e.busy.toNat 14 |||
     field e.maxm1.toNat 11,
   field e.cldc.toNat 8 ||| field e.mset.toNat 0, BitVec.ofNat 64 e.wcnt.toNat, BitVec.ofNat 64 e.lid, 0, 0, 0, 0] ++
    (List.range 8).map fun r => Tab.getD r e.rh 0

/-- A written replica-table entry; BUSY follows the switch in progress. -/
def Expert.written (e : Expert) (w : Nat → Word) : Expert :=
  { e with
    ver := BitVec.ofNat 32 (bits (w 0) 63 32), live := BitVec.ofNat 8 (bits (w 0) 31 24), stub := BitVec.ofNat 8 (bits (w 0) 23 16)
    pin := bit (w 0) 15, maxm1 := BitVec.ofNat 3 (bits (w 0) 13 11), cldc := BitVec.ofNat 8 (bits (w 1) 15 8)
    mset := BitVec.ofNat 8 (bits (w 1) 7 0), wcnt := BitVec.ofNat 32 (bits (w 2) 31 0), lid := bits (w 3) 31 0
    rh := tabOf 0 8 fun r => w (8 + r) }

def execDaccReplicaEntry (cl idx : Nat) (write : Bool) (s : State) : Host.Outcome State Fault Refusal :=
  .next (s.daccEntry cl (idx < 1024)
    (if write then s.modExpert idx fun e => e.written (s.dbuf cl)
    else s.fillBuf cl (((s.expert? idx).map Expert.words).getD (List.replicate 16 0))))

/-- The origin table: two words to a member, and TRTRY in the word after it. -/
def Team.originWords (k : Team) : List Word :=
  ((List.range 256).flatMap fun m => match Tab.get? m k.origins with
    | some o => [(o.entry &&& ~~~3) ||| field o.code.toNat 0, o.s1]
    | none => [0, 0]) ++ [field k.trtry.toNat 0]

def Team.originsWritten (k : Team) (w : Nat → Word) : Team :=
  { k with
    origins := k.origins.map fun (e : Nat × Origin) =>
      (e.1, { entry := w (2 * e.1) &&& ~~~3, code := BitVec.ofNat 2 (bits (w (2 * e.1)) 1 0), s1 := w (2 * e.1 + 1) })
    trtry := BitVec.ofNat 2 (bits (w 512) 1 0) }

def execDaccOriginTable (cl pid : Nat) (write : Bool) (s : State) : Host.Outcome State Fault Refusal :=
  .next (s.daccProc cl pid fun pr =>
    if write then s.modTeam pr.team fun k => k.originsWritten (s.dbuf cl)
    else s.fillBuf cl (((s.team? pr.team).map Team.originWords).getD []))

/-! ## KIND 12 and 13: memory (R444) -/

/-- How one line of a request ends. -/
inductive DaccLine where
  | at_ (loc : Nat)
  | outside (loc : Nat)
  | fault

/-- Where a line leads, as a load or a store of the process would reach it, without setting A or D. -/
def State.daccPlace (s : State) (pr : Proc) (ea : Word) (write : Bool) : DaccLine × State :=
  match spaceOf ea with
  | 0 =>
    if bits ea 61 57 ≠ 0 then (.fault, s)
    else
      let x := s.xctx { pr with svc := none } false
      let va := bits ea 56 0
      let (r, s) := match s.tlbHit x va with
        | (some e, s) => ((.ok e : Except Nat TlbE), s)
        | (none, s) => s.walk x va
      match r with
      | .error _ => (.fault, s)
      | .ok e =>
        if !permOk (if write then .write else .read) e.leaf then (.fault, s)
        else
          let loc := leafAddr e va
          (if hostBase ≤ loc then .outside loc else .at_ loc, s)
  | 3 =>
    match s.checkSpace pr ea 64 write false with
    | .ok (.inl (.mem loc)) | .ok (.inl (.acc _ loc)) => (.at_ loc, s)
    | _ => (.fault, s)
  | 1 =>
    match s.checkSpace pr ea 64 write false with
    | .error _ => (.fault, s)
    | .ok _ =>
      if s.noDev (bits ea 61 51) then (.fault, s)
      else if bits ea 61 51 ≠ s.dev then (.outside (remoteBase + bits ea 61 0), s)
      else match s.exportAt ea (if write then .write else .read) false with
        | (.ok h, s) => (if hostBase ≤ h then .outside h else .at_ h, s)
        | (.error _, s) => (.fault, s)
  | _ => if bits ea 61 52 ≠ 0 then (.fault, s) else (.outside (hostBase + bits ea 51 0), s)

/-- No process keeps fetched words of a line that a debugger has written: a resume at a BKPT whose instruction the debugger has
restored runs that instruction (R240). Words pinned in a loop buffer stay. -/
def State.dropWords (s : State) (line : Nat) : State :=
  { s with
    ilog := Tab.del line s.ilog
    procs := s.procs.map fun (e : Nat × Proc) => (e.1, { e.2 with iwords := e.2.iwords.filter fun w => w.1 / 32 ≠ line / 64 }) }

/-- The cluster's caches give up a line, its dirty bytes written back. -/
def State.flushLine (s : State) (cl line : Nat) : State :=
  if isDev line then
    s.dropLine cl line
  else s

/-- Reads line i on; what a line outside the device holds, and whether its fabric faults, comes from outside (log entry 2). The
status is the last line's that is not OK. -/
def State.daccRead (cl : Nat) (pr : Proc) : Nat → Nat → Nat → State → State
  | 0, _, st, s => s.daccStatus cl st
  | n + 1, i, st, s =>
    let ea := (s.cluster cl).dm.daddr + BitVec.ofNat 64 (64 * i)
    let stop : State → State := fun s => (s.modDm cl fun d => { d with daddr := ea }).daccStatus cl 1
    let put : State → List Word → State := fun s ws => s.modDm cl fun d =>
      { d with dbuf := ((List.range 8).zip ws).foldl (fun t e => Tab.set 0 (8 * i + e.1) e.2 t) d.dbuf }
    match s.daccPlace pr ea false with
    | (.fault, s) => stop s
    | (.outside _, s) =>
      let (bad, s) := s.freeBool
      if bad then stop s
      else let (ws, s) := State.freeWords 8 s; State.daccRead cl pr n (i + 1) st (put s ws)
    | (.at_ loc, s) =>
      let s := (((s.flushLine cl loc).foldLine (lineOf loc)).touchHome (lineOf loc)).2
      let s' := put s ((List.range 8).map fun k => Memory.read64 s.mem (loc + 8 * k))
      State.daccRead cl pr n (i + 1) (if s.isPoison (lineOf loc) then 2 else st) s'

/-- Writes line i on at its home, with a fresh check code. -/
def State.daccWrite (cl : Nat) (pr : Proc) : Nat → Nat → State → State
  | 0, _, s => s.daccStatus cl 0
  | n + 1, i, s =>
    let ea := (s.cluster cl).dm.daddr + BitVec.ofNat 64 (64 * i)
    let ws := (List.range 8).map fun k => s.dbuf cl (8 * i + k)
    let stop : State → State := fun s => (s.modDm cl fun d => { d with daddr := ea }).daccStatus cl 1
    match s.daccPlace pr ea true with
    | (.fault, s) => stop s
    | (.outside loc, s) =>
      let a := if remoteBase ≤ loc then remoteAddr loc else hostAddr loc
      State.daccWrite cl pr n (i + 1) (s.sendStore cl none (if remoteBase ≤ loc then 1 else 2) loc a (wordsBytes ws))
    | (.at_ loc, s) =>
      let s := s.modCluster cl fun c => { c with cache := Tab.del loc c.cache, dcache := c.dcache.map fun e => (e.1, Tab.del loc e.2) }
      State.daccWrite cl pr n (i + 1) (((s.foldLine (lineOf loc)).homeWriteBytes loc (wordsBytes ws)).dropWords (lineOf loc))

/-- What a request must meet (R444). -/
def State.daccMemOk (s : State) (cl pid count : Nat) : Option Proc :=
  if !s.isHalted cl || count = 0 || 256 < count || (s.cluster cl).dm.daddr.toNat % 64 ≠ 0 then none
  else (s.proc? pid).filter fun pr => pr.cl = cl

def execDaccMemoryRead (cl pid count : Nat) (s : State) : Host.Outcome State Fault Refusal :=
  match s.daccMemOk cl pid count with
  | some pr => .next (State.daccRead cl pr count 0 0 s)
  | none => .next (s.daccStatus cl 3)

def execDaccMemoryWrite (cl pid count : Nat) (s : State) : Host.Outcome State Fault Refusal :=
  match s.daccMemOk cl pid count with
  | some pr => .next (State.daccWrite cl pr count 0 s)
  | none => .next (s.daccStatus cl 3)

/-! ## Register writes from outside (R6, R432) -/

/-- Runs the request in DACC. -/
def State.daccRun (s : State) (cl : Nat) (write : Bool) : State :=
  let d := (s.cluster cl).dm.dacc
  let x := bits d 63 32
  let go : Host.Outcome State Fault Refusal → State := fun r => match r with | .next t => t | _ => s
  match bits d 7 0 with
  | 1 => go (execDaccRecord cl x write s)
  | 2 => go (execDaccSaveArea cl x write s)
  | 3 => go (execDaccTrapFrame cl x write s)
  | 4 => go (execDaccRegionEntry cl x write s)
  | 5 => go (execDaccEndpointEntry cl x write s)
  | 6 => go (execDaccBatchStatus cl x write s)
  | 7 => go (execDaccBarrierState cl x write s)
  | 8 => go (execDaccAccumulatorSlot cl x write s)
  | 9 => go (execDaccGrantEntry cl x write s)
  | 10 => go (execDaccReplicaEntry cl x write s)
  | 11 => go (execDaccOriginTable cl x write s)
  | 12 => if write then s else go (execDaccMemoryRead cl x (bits d 31 16) s)
  | 13 => if write then s else go (execDaccMemoryWrite cl x (bits d 31 16) s)
  | _ =>
    if write then s
    else if s.isHalted cl then (s.modDm cl fun d => { d with dbuf := [] }).daccStatus cl 0 else s.daccStatus cl 3

/-- A write of the debug module's aperture. A write of DACC makes its request, reading DBUF's item; a word then written to DBUF
writes the item. -/
def State.writeDebug (s : State) (cl off : Nat) (v : Word) : State :=
  if off = 0 then
    let s := s.modDm cl fun d => { d with spid := BitVec.ofNat 32 (bits v 63 32), xgrp := BitVec.ofNat 4 (bits v 7 4), att := bit v 0 }
    let s := if bit v 1 then s.debugHalt cl else s
    let s := if bit v 2 then s.debugResume cl else s
    if bit v 3 then s.debugStep cl else s
  else if off = 0x40 then (s.modDm cl fun d => { d with dacc := v &&& ~~~0xFF00 }).daccRun cl false
  else if off = 0x48 then s.modDm cl fun d => { d with daddr := v }
  else if 0x4000 ≤ off ∧ off < 0x8000 then
    (s.modDm cl fun d => { d with dbuf := Tab.set 0 ((off - 0x4000) / 8) v d.dbuf }).daccRun cl true
  else s

/-- A write from outside every instruction: a device, cluster or die register by firmware; for a cluster, numbers from 0x10000 are
the offsets of its debug module's aperture. -/
def execRegisterWrite (tgt : RegTarget) (n : Nat) (v : Word) (s : State) : Host.Outcome State Fault Refusal :=
  let per := if n = 120 ∨ n = 123 ∨ n = 125 ∨ n = 126 then 1 else if 160 ≤ n ∧ n ≤ 191 then 2 else 0
  if 0x10000 ≤ n then
    match tgt with
    | .cluster cl => .next (s.writeDebug cl (n - 0x10000) v)
    | _ => .next s
  else if !sysListed n || sysReadOnly n || sysOpen n || sysSlot n || n = 56 then .next s
  else match tgt with
    | .device => .next (if per = 0 then s.writeUnit 0 n v else s)
    | .cluster cl => .next (if per = 1 then s.writeUnit cl n v else s)
    | .die d => .next (if per = 2 then s.writeUnit (8 * d) n v else s)

end Sys2Proof.Machine
end

