-- ==== Sys2Proof/Machine/Marrun.lean ====
section
/-! DEFINITION. The panel mesh flit by flit (R52, R60 to R62), Marrun link recovery (R107 to R111), accesses of other devices to this
one (R112 to R114), and the answers of merge records (R119). -/

namespace Sys2Proof.Machine

/-! ## The panel mesh -/

/-- A packet is returned undeliverable (R62): a machine check of kind 4, and a fault for the access, its kind open (log entry 11). -/
def State.returnFlit (s : State) (site : Nat) (f : MeshFlit) : State :=
  let s := s.machineCheck 4 0 site f.pa
  match f.pid with
  | none => s
  | some p =>
    let (k, s) := s.freeNat
    match (s.proc? p).bind fun pr => pr.op with
    | some o =>
      if o.res = .waiting then (s.modProc p fun pr => { pr with op := some { o with res := .trap 8 (k % 256) 0 } }).wake p
      else s.holdFault p 8 (k % 256) 0 0 false (BitVec.ofNat 64 f.pa)
    | none => s.holdFault p 8 (k % 256) 0 0 false (BitVec.ofNat 64 f.pa)

/-- A flit has reached its die. The access it belongs to was performed as its instruction ran; a line that arrives poisoned is
poisoned where it arrives: at its home, or in the caches of the cluster that asked for it (R52; log entry 81). -/
def State.deliverFlit (s : State) (site : Nat) (f : MeshFlit) : State :=
  let s := s.putOut (.meshFlit site 0 f)
  let line := lineOf f.pa
  if !f.poison || f.pa = 0 then s
  else if s.paOk line && memSite (dieOf line) = site then s.homeWrite line f.line fullMask true
  else match f.pid.bind fun p => s.proc? p with
    | none => s
    | some pr =>
      if s.clusterSite pr.cl ≠ site then s
      else
        let bad : CLine → CLine := fun c => { c with poison := true, code := 0 }
        s.modCluster pr.cl fun c =>
          { c with cache := Tab.modify line bad c.cache, dcache := c.dcache.map fun e => (e.1, Tab.modify line bad e.2) }

/-- A flit leaves through a port; the link keeps it for a resend (R52). -/
def State.sendFlit (s : State) (site port : Nat) (f : MeshFlit) : State :=
  let k := 8 * site + port
  ({ s with meshReplay := Tab.put k (f :: (Tab.getD k s.meshReplay []).take 15) s.meshReplay } : State).putOut (.meshFlit site port f)

/-- The sender's copy of a flit that a link received: the latest of its packet's line. A flit that came from outside the model is
sent again as it came. -/
def State.sentFlit (s : State) (k : Nat) (f : MeshFlit) : MeshFlit :=
  ((Tab.getD k s.meshReplay []).find? fun g => g.src = f.src && g.dst = f.dst && g.pa = f.pa && g.hops = f.hops && g.pid = f.pid).getD f

/-- A checked flit goes on (R60 to R62): to the die here, or through a port. -/
def State.routeFlit (s : State) (site : Nat) (f : MeshFlit) : State :=
  if site = f.dst then s.deliverFlit site f
  else
    let port := s.portToward site f.dst
    let vn1 := decide (f.dst % 8 < f.src % 8)
    if 30 ≤ f.hops || !turnOk vn1 f.turned port || (s.beyond site port).isNone then s.returnFlit site f
    else s.sendFlit site port ({ f with
      hops := f.hops + 1, lastDir := port, turned := f.turned || turnsAt vn1 port, resends := 0 })

/-- A receiving link checks a flit (R52): on a mismatch the sender sends its copy again, and after the third resend that fails the line is
delivered poisoned. -/
def execMeshFlitReceive (site : Nat) (f : MeshFlit) (s : State) : Host.Outcome State Fault Refusal :=
  if f.poison || lineCode f.line = f.code then .next (s.routeFlit site f)
  else if f.resends < 3 then
    let from_ := if f.lastDir = 0 then site else (s.beyond site (opposite f.lastDir)).getD site
    .next ((s.countDevice 196).putOut (.meshFlit from_ f.lastDir { s.sentFlit (8 * from_ + f.lastDir) f with resends := f.resends + 1 }))
  else .next ((s.machineCheck 3 3 site f.pa).routeFlit site { f with poison := true })

/-- A routing-table entry is written (R62). -/
def execRoutingTableWrite (site dst port : Nat) (s : State) : Host.Outcome State Fault Refusal :=
  if site < 8 * s.rows ∧ dst < 64 then .next { s with routes := Tab.set 0 (64 * site + dst) (BitVec.ofNat 3 port) s.routes }
  else .next s

/-! ## Accesses of other devices (R112 to R114) -/

/-- An access to a HOST page goes on to the host, whose answer goes back (R86). -/
def State.relayOn (s : State) (src reply h : Nat) (req : RemoteReq) (addrs : List Word) (got : List SentLine) : State :=
  let id := s.nextReq
  let site := s.linkSite src
  let go : Output → State := fun o =>
    ({ s with nextReq := id + 1, relays := Tab.put id { src := src, reply := reply, addrs := addrs, got := got } s.relays } : State).emitAt site o
  match req with
  | .load len => go (.request relayPid id (hostAddr h) len)
  | .store bs => go (.store (some relayPid) id (hostAddr h) bs)
  | .storeLine d m x => go (.storeLine (some relayPid) id (hostAddr h) d m x)
  | .fetch _ => go (.request relayPid id (hostAddr h) 64)
  | .atomic op => if hostOp op then go (.atomic relayPid id (hostAddr h) 0 op) else s.answerAt site src reply (.fault 18 1 0) []
  | .close | .block _ => s

/-- What a request asks of its window and page. -/
def reqAcc : RemoteReq → Acc × Bool
  | .store _ | .storeLine _ _ _ => (.write, false)
  | .atomic op => (opAcc op, true)
  | _ => (.read, false)

/-- A store of another device is performed at its home, with what a fetch may still see of the line (R39). -/
def State.farStore (s : State) (h : Nat) (perform : State → State) : State := perform (s.keepOld 4096 h)

/-- A remote access is performed at its home (R113). A page that moves holds what its rules hold (R83, R84). -/
def State.serveRemote (s : State) (src : Nat) (addr : Word) (reply : Nat) (req : RemoteReq) : State :=
  match s.exportAt addr (reqAcc req).1 (reqAcc req).2 with
  | (.error (k, x), s) => s.answerAt (s.linkSite src) src reply (.fault 8 k x) []
  | (.ok h, s) =>
    let answer : Reply → List SentLine → State → State := fun r ls s => s.answerAt (memSite (dieOf h)) src reply r ls
    if hostBase ≤ h then s.relayOn src reply h req [] []
    else if s.moveBlocks h || ((s.moveOf h).isSome && (reqAcc req).1.isWrite) then s.sched 16 (.remoteAccessArrival src addr reply req)
    else match req with
      | .store bs => answer (.value 0) [] (s.farStore h fun s => s.homeWriteBytes h bs)
      | .storeLine d m x => answer (.value 0) [] (s.farStore h fun s => s.homeWrite (lineOf h) d m x)
      | .atomic op =>
        match s.homeAtomic h op with
        | (some v, s) =>
          answer (.value (if returns op then v.setWidth 8192 else 0)) []
            (s.watchAtomic h (opBytes op) (opRw op) (src * 2 ^ 32 + reply / 8 % 2 ^ 32))
        | (none, s) => answer (.fault 8 5 0) [] s
      | _ =>
        let s := ((s.maySpill none (lineOf h)).touchHome (lineOf h)).2
        if s.isPoison (lineOf h) then answer (.fault 8 5 0) [] s else answer (.value 0) [s.lineOut (lineOf h)] s

/-- The lines of a copy are read in order, each through its own check and translation (R112); a poisoned line goes poisoned (R151). A
fault goes back with the lines before it. -/
def State.serveFetch (src reply : Nat) : List Word → List SentLine → State → State
  | [], got, s => s.answerAt (s.linkSite src) src reply (.value 0) got
  | a :: as, got, s =>
    match s.exportAt a .read false with
    | (.error (k, x), s) => s.answerAt (s.linkSite src) src reply (.fault 8 k x) got
    | (.ok h, s) =>
      if hostBase ≤ h then s.relayOn src reply h (.fetch []) as got
      else if s.moveBlocks h then
        ({ s with
          nextReq := s.nextReq + 1
          relays := Tab.put s.nextReq { src := src, reply := reply, addrs := a :: as, got := got } s.relays } : State).sched 16
            (.remoteAccessArrival src a reply (.fetch (a :: as)))
      else
        let s := ((s.maySpill none (lineOf h)).touchHome (lineOf h)).2
        State.serveFetch src reply as (got ++ [s.lineOut (lineOf h)]) s

/-- A copy's lines are read on from where an earlier part of the same request stopped. -/
def State.fetchOn (s : State) (src reply : Nat) (addrs : List Word) : State :=
  match s.relays.find? fun e => e.2.src = src && e.2.reply = reply with
  | some (k, r) => State.serveFetch src reply addrs r.got { s with relays := Tab.del k s.relays }
  | none => State.serveFetch src reply addrs [] s

/-- CHCLOSE, TBLK and TUBLK of another device's process on an endpoint here (R341, R348, R355). -/
def State.serveEnd (s : State) (src : Nat) (h : Word) (reply : Nat) (req : RemoteReq) : State :=
  let answer : Reply → State → State := fun r s => s.answerAt (s.linkSite src) src reply r []
  match s.lookup (hIdx h) with
  | none => answer (.fault 11 2 0) s
  | some .pending => s.sched 16 (.remoteAccessArrival src h reply req)
  | some (.ep cl e) =>
    if (s.endp? cl e).any fun n => n.efmt.toNat ≠ hEfmt h || n.sclass.toNat ≠ hSclass h then answer (.fault 12 0 0) s
    else match req with
      | .block blk => answer (.value 0) (s.setBlk cl e blk)
      | _ => if (s.endp? cl e).any fun n => n.closed then answer (.fault 11 4 0) s else answer (.value 0) (s.closeEnd cl e)
  | some _ => answer (match req with | .block _ => .value 0 | _ => .fault 11 4 0) s

def State.serve (s : State) (src : Nat) (addr : Word) (reply : Nat) (req : RemoteReq) : State :=
  match req with
  | .fetch addrs => s.fetchOn src reply addrs
  | .close | .block _ => s.serveEnd src addr reply req
  | _ => s.serveRemote src addr reply req

def execRemoteAccessArrival (src : Nat) (addr : Word) (reply : Nat) (req : RemoteReq) (s : State) : Host.Outcome State Fault Refusal :=
  .next (s.serve src addr reply req)

/-! ## Answers (R119) -/

/-- The operation's result on the value that the first contributor found. -/
def Reply.after (op : HomeOp) (r : Reply) : Reply :=
  match r with
  | .value v => if returns op then .value ((BitVec.ofNat 64 (opNew op (v.toNat % 2 ^ 64))).setWidth 8192) else r
  | .fault _ _ _ => r

/-- The fault of an acknowledgement: kind 0 is POISON. -/
def Reply.ackFault : Reply → Option (Nat × Nat)
  | .value _ => none
  | .fault c k a => some (if c = 7 then 0 else k, a)

/-- A copy's read is answered (R129, R154). -/
def State.copyAnswer (s : State) (id : Nat) (r : Reply) (ls : List (Line × Bool)) : State :=
  let cl := id / 2 ^ 32 % 2 ^ 16
  let k := id / 2 ^ 16 % 2 ^ 16
  let serial := BitVec.ofNat 16 id
  match r with
  | .fault c x _ => s.copyFault id c x ls
  | .value _ =>
    let u := ((Tab.get? k (s.cluster cl).greqs).bind fun q => (q.toks.find? fun t => t.serial = serial).map fun t => t.unit).getD 256
    s.sched 0 (.chunkArrival cl k u serial ls)

/-- Answers a requester: of another device, a record, or a process or copy here. The latency that PLAT takes is free beyond what this
device fixes (log entry 9). Fuel as in `failTag`. -/
def State.answerTag : Nat → Nat → Nat → Reply → List SentLine → State → State
  | 0, _, _, _, _, s => s
  | n + 1, src, tag, r, ls, s =>
    let pid := tag / 8 % 2 ^ 32
    let id := tag / 8 / 2 ^ 32
    if src ≠ s.dev then s.answerAt (s.linkSite src) src tag r ls
    else if tag % 8 = 4 then
      match Tab.get? pid s.merges with
      | some m =>
        let s : State := { s with merges := Tab.del pid s.merges }
        State.answerTag n m.second.1 m.second.2 (Reply.after m.op r) [] (State.answerTag n m.first.1 m.first.2 r [] s)
      | none => s
    else if tag % 8 = 0 ∧ 2 ^ 48 ≤ id then s.copyAnswer id r (ls.map fun l => (l.1, l.2.2))
    else if tag % 8 = 3 then s.sched 0 (.reductionAck pid id (Reply.ackFault r))
    else
      let (k, s) := s.freeNat
      let plat : PlatInfo := { noPlat with lat := 20 + k }
      if tag % 8 = 2 then s.sched 0 (.amoReply pid id r (some plat))
      else if tag % 8 = 0 then
        let r : Reply := match r, ls with
          | .value _, l :: _ => if l.2.2 then .fault 7 0 0 else .value (l.1.setWidth 8192)
          | r, _ => r
        s.sched 0 (.loadReply pid id r plat)
      else s.sched 0 (.storeAck pid id (Reply.ackFault r) plat)

def execMergeRecordReply (rec : Nat) (r : Reply) (s : State) : Host.Outcome State Fault Refusal :=
  .next (State.answerTag (mergeRecords + 1) s.dev (replyTag 4 rec 0) r [] s)

/-- A packet's wait for a partner is over (R118). -/
def execMergeHoldExpiry (link : Nat) (s : State) : Host.Outcome State Fault Refusal := .next (s.sendLink link)

/-! ## Messages of other devices (R327, R341) -/

/-- A message of another device has come, with its prefix: it is resolved here and goes to its endpoint's cluster, or ends as R334
says. -/
def State.messageIn (s : State) (src site : Nat) (h : Word) (tag len : Nat) (bulk : Bool) (ls : List SentLine) : State :=
  let lines := ls.map fun l => (l.1, l.2.2)
  let m : Msg := {
    sender := none, kind := hKind h, idx := hIdx h, efmt := BitVec.ofNat 6 (hEfmt h), sclass := BitVec.ofNat 5 (hSclass h), len := len
    bytes := (lineList lines).take (min len 1024), bad := badOf lines, srcCl := 0, srcOff := 0, bulk := bulk, expert := none
    place := none, ended := false, dropped := [], origin := some (src, tag), site := some site }
  let id := s.nextMsg
  let s : State := { s with nextMsg := id + 1, msgs := Tab.put id m s.msgs }
  let key := if hKind h = 0 ∨ hKind h = 2 then some (dirKey h) else none
  match (if handleOk h then key.bind s.lookup else none) with
  | some (.ep cl _) => s.sched tripCycles (.grantRequestArrival cl id)
  | some .pending => s
  | some .gone => s.sendDone id (.status 4) 0
  | _ =>
    match (if handleOk h ∧ hKind h = 5 then s.expert? (hIdx h) else none) with
    | none => s.sendDone id (.trap 11 2 0) 0
    | some e =>
      match if e.unbound then none else replicaOf e.live (tokenOf m.bytes) with
      | none => s.sendDone id (.status 4) 0
      | some r =>
        let rh := Tab.getD r e.rh 0
        if hEfmt rh ≠ hEfmt h ∨ hSclass rh ≠ hSclass h then s.sendDone id (.trap 12 0 0) 0
        else
          let s := s.modExpert (hIdx h) fun e => { e with cnt := e.cnt + 1 }
          let s := s.modMsg id fun m => { m with kind := 0, idx := hIdx rh, expert := some (hIdx h, e.ver.toNat) }
          match s.lookup (hIdx rh) with
          | some (.ep cl _) => s.sched tripCycles (.grantRequestArrival cl id)
          | _ => s.sendDone id (.status 4) 0

/-- A withdrawal of another device's sender: the message ends TIMEOUT unless it is matched (R335); one whose sender is dead goes, and
a matched one is an orphan (R134). -/
def State.withdrawIn (s : State) (src tag : Nat) (dead : Bool) : State :=
  match s.msgs.find? fun e => e.2.origin = some (src, tag) with
  | none => s
  | some (id, _) =>
    if dead then s.senderDied id
    else match s.withdrawMsg id with
    | some s => s.sendBody (s.linkSite src) src true (.msgEnd tag (.fault 11 5 0)) []
    | none => s

/-! ## A packet has come (R107) -/

/-- A packet that is for this device is taken by the unit it is for. -/
def State.deliver (s : State) (l : Nat) (pk : Packet) : State :=
  match pk.body with
  | .access addr _ reply req =>
    s.serve pk.src addr reply (match req, pk.lines with | .storeLine _ m _, x :: _ => .storeLine x.1 m x.2.2 | r, _ => r)
  | .answer reply r => State.answerTag (mergeRecords + 1) s.dev reply r pk.lines s
  | .message h tag len bulk => s.messageIn pk.src (memSite (s.linkDie l)) h tag len bulk pk.lines
  | .msgEnd tag r => s.sendDone (tag / 2 ^ 32) (replyRes r) scSystem
  | .withdraw tag dead => s.withdrawIn pk.src tag dead
  | .token tag cl entry unit serial off len =>
    let n := (Tab.freeKey s.farTokens 0 (s.farTokens.length + 1)).getD 0
    let t : FarToken := {
      dev := pk.src, msg := tag / 2 ^ 32, cl := cl, entry := entry, unit := unit, serial := serial, off := off, len := len }
    ({ s with farTokens := Tab.put n t s.farTokens } : State).sched 0 (.tokenReceipt (2 ^ 32 + n) entry unit serial)
  | .chunk cl entry unit serial => s.sched 0 (.chunkArrival cl entry unit serial (pk.lines.map fun x => (x.1, x.2.2)))
  | .revoke tag serials => s.dropTokens (tag / 2 ^ 32) serials
  | .probe x origin path hops => s.probeIn x origin path hops
  | .arrive n epoch count => if n < 32 then s.barArrive n epoch count pk.src else s
  | .release n epoch => s.barReleased n epoch

/-! ## A link goes down (R110, R111) -/

/-- A lost packet: whoever waits for what it asked or answered gets the fabric fault LINK. Tokens and chunks are made good by the
token's expiry (R130). -/
def State.losePacket (s : State) (pk : Packet) : State :=
  let ended : Nat → Nat → State := fun dev tag =>
    if dev = s.dev then s.sendDone (tag / 2 ^ 32) (.trap 8 2 0) scSystem
    else s.sendBody (s.linkSite dev) dev true (.msgEnd tag (.fault 8 2 0)) []
  match pk.body with
  | .access _ _ reply _ => State.failTag 2 (mergeRecords + 1) pk.src reply s
  | .answer reply _ => State.failTag 2 (mergeRecords + 1) pk.dst reply s
  | .message _ tag _ _ | .withdraw tag false => ended pk.src tag
  | .msgEnd tag _ => ended pk.dst tag
  | _ => s

/-- The flits of whole packets at the front of a channel's buffer. -/
def wholePackets (fs : List MarrunFlit) : List MarrunFlit := (fs.reverse.dropWhile fun f => !f.tail).reverse

/-- The link is declared down: the receiver keeps the packets that it has passed on whole, and what the sender has not seen acknowledged
is lost, as is what waits behind it, since a route does not change (R106; DEDUCED, log entry 24). -/
def State.linkDown (s : State) (l : Nat) : State :=
  let k := s.link l
  let lost := ((k.sent.filter fun e => e.flit.tail).map fun e => e.pk) ++ ((k.ready.filter fun e => e.2.tail).map fun e => e.1) ++
    k.egress.map fun e => e.pk
  let s := s.modLink l fun k => { k with
    up := false, sent := [], held := [], egress := [], ready := [], unacked := 0, inq := k.inq.map fun e => (e.1, wholePackets e.2) }
  let s := if 32 ≤ l then s.setReg (96 + l) (s.reg (96 + l) &&& ~~~(field 1 63)) else s
  lost.foldl State.losePacket s.linkEvent

/-- Resends the flits that a test names; the sixteenth resend of one takes the link down (R110). -/
def State.resend (s : State) (l : Nat) (choose : SentFlit → Bool) : State :=
  let k := s.link l
  let again := k.sent.filter choose
  let bump : SentFlit → SentFlit := fun e =>
    if choose e then { e with resends := e.resends + 1, lastTx := s.cycles, again := some s.cycles } else e
  let s := s.modLink l fun k => { k with sent := k.sent.map bump }
  let s := again.foldl (fun s e => s.putOut (.flit l e.flit)) s
  if again.any (fun e => 15 ≤ e.resends) then s.linkDown l else s

/-! ## Sender (R108 to R110) -/

/-- Marks the flits that a MAP shows: bit i is the flit i + 1 after BASE. -/
def markGot (map : BitVec 64) : Nat → List SentFlit → List SentFlit
  | _, [] => []
  | i, e :: l => { e with got := decide (0 < i) && map.getLsbD (i - 1) } :: markGot map (i + 1) l

/-- Sequence numbers missing before a later one received. -/
def missingSeqs : List SentFlit → List (BitVec 12)
  | [] => []
  | e :: l => if !e.got && l.any (·.got) then e.flit.seq :: missingSeqs l else missingSeqs l

/-- Credits come back, by channel. -/
def takeCredits (credits : List Nat) (used : Tab Nat) : Tab Nat :=
  (List.range 10).foldl (fun t c => Tab.set 0 c (Tab.getD c t 0 - credits.getD c 0) t) used

/-- An acknowledgement whose check holds: flits before BASE are done, credits come back, and missing flits go again, each at most once
per LNKRTO/4. -/
def execMarrunAckFlit (link : Nat) (base : BitVec 12) (body : AckBody) (s : State) : Host.Outcome State Fault Refusal :=
  let k := s.link link
  let oldest := match k.sent with | e :: _ => e.flit.seq | [] => k.nextSeq
  let n := (base - oldest).toNat
  if !k.up || crc32c (ackBytes base body.map body.credits) ≠ body.check || k.sent.length < n then .next s
  else
    let sent := markGot body.map 0 (k.sent.drop n)
    let s := s.modLink link fun k => { k with sent := sent, used := takeCredits body.credits k.used }
    let gone := missingSeqs sent
    .next ((s.resend link fun e =>
      gone.contains e.flit.seq && (match e.again with | some t => decide (t + lnkrto / 4 ≤ s.cycles) | none => true)).sendLink link)

/-- The retry timer (R110). -/
def execLnkrtoExpiry (link : Nat) (s : State) : Host.Outcome State Fault Refusal :=
  match (s.link link).sent with
  | [] => .next s
  | e :: _ =>
    if s.cycles < e.lastTx + lnkrto then .next (s.sched (e.lastTx + lnkrto - s.cycles) (.lnkrtoExpiry link))
    else
      let s := s.resend link fun e => !e.got
      .next (if (s.link link).up then s.sched lnkrto (.lnkrtoExpiry link) else s)

/-! ## Receiver (R106, R108, R109) -/

/-- A held flit's distance from BASE. -/
def Link.ahead (k : Link) (f : MarrunFlit) : Nat := (f.seq - k.base).toNat

/-- A received flit that no acknowledgement can show yet: it lies beyond MAP. -/
def Link.beyondMap (k : Link) : Bool := k.held.any fun f => 64 < k.ahead f

/-- The timer of 200 ns runs. -/
def State.ackTimer (s : State) (l : Nat) : State :=
  if s.queue.any fun q => q.2 = Instr.ackIntervalTimer l then s else s.sched (nsCycles 200) (.ackIntervalTimer l)

/-- Sends an acknowledgement with the credits that are owed. -/
def State.sendAck (s : State) (l : Nat) : State :=
  let k := s.link l
  let map : BitVec 64 := k.held.foldl (fun m f =>
    let i := k.ahead f
    if 0 < i ∧ i ≤ 64 then m ||| ((1 : BitVec 64) <<< (i - 1)) else m) 0
  let credits := (List.range 10).map fun c => min 255 (Tab.getD c k.owed 0)
  let s := s.modLink l fun k => { k with unacked := 0, owed := takeCredits credits k.owed }
  let s := s.putOut (.ack l k.base map credits (crc32c (ackBytes k.base map credits)))
  if k.beyondMap then s.ackTimer l else s

/-- Flits that a channel's buffer at an egress holds. -/
def State.buffered (s : State) (l c : Nat) : Nat :=
  (((s.link l).egress.filter fun e => e.pk.chan = c).map fun e => e.pk.flits).sum + ((s.link l).ready.filter fun e => e.2.chan = c).length

/-- A packet in transit goes on: none while the next hop's channel has no room for all of it. It crosses the mesh to the die of its
next link, its lines as they are (R106, R107). -/
def State.goOn (s : State) (l : Nat) (pk : Packet) : Option State :=
  match s.onward pk with
  | none => some (s.losePacket pk)
  | some (k, via) =>
    let pk := { pk with via := via, hop := pk.hop + 1 }
    if s.phys.vcFlits < s.buffered k pk.chan + pk.flits then none
    else match s.refusedAt (memSite (s.linkDie l)) (memSite (s.linkDie k)) with
      | some x => some ((s.machineCheck 4 0 x 0).losePacket pk)
      | none => some (s.enqueueLink k pk)

/-- The whole packets of a channel's buffer at an ingress are taken in order; the credits of their flits are owed. Fuel counts
flits. -/
def State.drainChan (l c : Nat) : Nat → State → State
  | 0, s => s
  | n + 1, s =>
    let fs := Tab.getD c (s.link l).inq []
    let len := (fs.takeWhile fun f => !f.tail).length + 1
    if fs.length < len then s
    else
      let taken := fs.take len
      let s' := s.modLink l fun k => { k with
        inq := Tab.set [] c (fs.drop len) k.inq, owed := Tab.put c (Tab.getD c k.owed 0 + len) k.owed }
      match taken.findSome? fun f => f.packet with
      | none => State.drainChan l c n s'
      | some pk =>
        let pk := { pk with lines := taken.flatMap fun f => f.lines }
        if pk.dst = s.dev then State.drainChan l c n (s'.deliver l pk)
        else match s'.goOn l pk with
          | some s => State.drainChan l c n s
          | none => s

def State.drainAll (s : State) (l : Nat) : State :=
  (List.range 10).foldl (fun s c => State.drainChan l c (Tab.getD c (s.link l).inq []).length s) s

/-- A flit is passed to the die: the codes of its lines are verified (R51 point 6), one that fails makes its line poisoned, and the flit
waits in its channel's buffer for the packet it belongs to. -/
def State.passFlit (s : State) (l : Nat) (f : MarrunFlit) : State :=
  let wrong := f.lines.filter fun x => !x.2.2 && lineCode x.1 ≠ x.2.1
  let s := wrong.foldl (fun s _ => s.machineCheck 1 6 (memSite (s.linkDie l)) 0) s
  let f := { f with lines := f.lines.map fun x => (x.1, x.2.1, x.2.2 || lineCode x.1 ≠ x.2.1) }
  s.modLink l fun k => { k with inq := Tab.put f.chan (Tab.getD f.chan k.inq [] ++ [f]) k.inq }

/-- Passes on what is in order. Fuel counts flits. -/
def State.drainLink (l : Nat) : Nat → State → State
  | 0, s => s
  | n + 1, s =>
    let k := s.link l
    match k.held.find? fun f => f.seq = k.base with
    | none => s
    | some f =>
      let s := s.modLink l fun k => { k with base := k.base + 1, held := k.held.erase f }
      State.drainLink l n (s.passFlit l f)

/-- Something is left that an acknowledgement or another look has to settle: flits without one, credits owed, packets that wait. -/
def Link.unsettled (k : Link) : Bool := k.unacked ≠ 0 || k.owed.any (fun e => e.2 ≠ 0) || k.inq.any fun e => e.2 ≠ []

/-- A data flit arrives (R109). One that is dropped counts as missing; a duplicate still calls for an acknowledgement (DEDUCED, log
entry 24). -/
def execMarrunDataFlit (link : Nat) (f : MarrunFlit) (s : State) : Host.Outcome State Fault Refusal :=
  let k := s.link link
  if !k.up || !f.ok then .next s
  else
    let i := k.ahead f
    let fresh := decide (i < 128) && !(k.held.any fun g => g.seq = f.seq)
    let last := k.held.foldl (fun n g => max n (k.ahead g + 1)) 0
    let gap := fresh && decide (last < i)
    let s := s.modLink link fun k => { k with unacked := k.unacked + 1, held := if fresh then k.held ++ [f] else k.held }
    let s := (State.drainLink link 128 s).drainAll link
    let s := if gap || 16 ≤ (s.link link).unacked then s.sendAck link else s
    .next (if (s.link link).unsettled then s.ackTimer link else s)

/-- 200 ns have passed (R108): packets that waited for room go on, and what is unacknowledged or owed is acknowledged. -/
def execAckIntervalTimer (link : Nat) (s : State) : Host.Outcome State Fault Refusal :=
  let s := s.drainAll link
  let k := s.link link
  let s := if k.up && (k.unacked ≠ 0 || k.beyondMap || k.owed.any fun e => e.2 ≠ 0) then s.sendAck link else s
  .next (if (s.link link).inq.any fun e => e.2 ≠ [] then s.ackTimer link else s)

end Sys2Proof.Machine
end

