-- ==== Sys2Proof/Machine/HostLink.lean ====
section
/-! DEFINITION. The host link (R86 to R101): CXL.mem reads and writes, the command window, queue resets, the DOE mailbox, and the loss
of a secure session. -/

namespace Sys2Proof.Machine

/-! ## The host-managed range (R86, R87) -/

/-- The device physical address of a host offset; consecutive offsets may lie in two stacks. -/
def hostPa (h : Nat) : Nat := h / stackBytes * 2 ^ 47 + h % stackBytes
def State.inRange (s : State) (h len : Nat) : Bool := h + len ≤ s.mdies * stackBytes

/-- QCTL of a queue (R94). -/
def qctlWord (q : Queue) : Word := field q.rst.toNat 63 ||| field q.cause.toNat 48 ||| field q.ien.toNat 10 ||| field q.coal.toNat 0
def qctlBase : Nat := 0x180000

/-- The queue whose QCTL holds a byte. -/
def qctlOf (pa : Nat) : Option Nat := if qctlBase ≤ pa ∧ pa < qctlBase + 0x200 then some ((pa - qctlBase) / 8) else none

/-- A byte as the host reads it. -/
def State.hostByte (s : State) (pa : Nat) : Byte :=
  match qctlOf pa with
  | some q => (qctlWord (Tab.getD q s.queues {})).extractLsb' (8 * (pa % 8)) 8
  | none => Memory.get pa s.mem

/-- Logs a host access to a protected line (R98). -/
def State.logProtected (s : State) (pa : Nat) : State :=
  { s with mgmt := { s.mgmt with protLog := s.mgmt.protLog ++ [(pa, s.timebase)] } }

/-- The byte of a host offset as the host reads it: all-ones in a protected line (R98). -/
def State.hostSees (s : State) (h : Nat) : Byte :=
  let pa := hostPa h
  if s.protectedAt (lineOf pa) then 0xFF else s.hostByte pa

/-- A host read (R51 point 7, R53, R98); in the safe state it reads all-ones with poison (R456). An access that leaves the
host-managed range is no access of the device's memory: DESIGN CHOICE, a read gets no answer, and a write is dropped and answered
(log entry 82). -/
def execHostCxlMemRead (h len : Nat) (s : State) : Host.Outcome State Fault Refusal :=
  if s.mgmt.safe then .next (s.putOut (.readData (List.replicate len 0xFF) true))
  else if !s.inRange h len then .next s
  else
    let lines := (linesOf h len).map hostPa
    let shut := lines.filter s.protectedAt
    let seen := lines.filter fun l => !s.protectedAt l
    let s := shut.foldl State.logProtected s
    let s := seen.foldl (fun s l => ((s.maySpill none l).touchHome l).2.verifyAt 7 l) s
    .next (s.putOut (.readData ((List.range len).map fun i => s.hostSees (h + i)) (seen.any s.isPoison)))

/-! ## Queue reset (R96) -/

/-- Valid slots that wait to be forwarded are discarded, slots forwarded and launches without a record are killed, the launches' trace
sessions are closed, and ESEQ returns to 1. -/
def State.resetQueue (s : State) (q : Nat) : State :=
  let cause := (Tab.getD q s.queues {}).cause.toNat
  let due := (Tab.getD q s.queues {}).eseq
  let wait := (List.range (s.waitingSlots q)).map fun i => due + BitVec.ofNat 64 i
  let sent := (s.lreqs.filter fun e => e.2.queue = q && e.2.slot ≠ []).map fun e => e.2.slot
  let s := { s with lreqs := s.lreqs.filter fun (e : Nat × LaunchReq) => e.2.queue ≠ q }
  let s := sent.foldl (fun s x =>
    if s.badSlot x || bits (x.getD 0 0) 7 0 = 2 then s.takeSlot q x else s.complRecord q x 3 cause 0) s
  let lids := (s.launches.filter fun e => e.2.host.any fun h => h.1 = q).map fun e => e.1
  let s := lids.foldl (fun s l => s.abortLaunch l 3 cause) s
  let s := lids.foldl (fun s l => s.truncTrace cause l) s
  let s := wait.foldl (fun s x => s.homeWriteBytes (complAddr q (x.toNat % 256)) (List.replicate 32 0)) s
  let s := { s with queues := Tab.put q { Tab.getD q s.queues {} with eseq := 1, rst := false } s.queues }
  s.nextSlot

def execQueueReset (q : Nat) (s : State) : Host.Outcome State Fault Refusal := if q < 64 then .next (s.resetQueue q) else .next s

/-- A write of QCTL: the written fields, and a reset when RST is written 1. -/
def State.writeQctl (s : State) (q : Nat) (v : Word) : State :=
  let k := Tab.getD q s.queues {}
  let s := { s with queues := Tab.put q { k with
    cause := BitVec.ofNat 8 (bits v 55 48), ien := bit v 10, coal := BitVec.ofNat 10 (bits v 9 0) } s.queues }
  if bit v 63 then s.resetQueue q else s

/-! ## Launch slots and mailboxes (R90, R340) -/

/-- The slot of a queue whose word 7 is watched: the due one, or behind slots that wait to be forwarded, the next one. -/
def State.dueSlot (s : State) (q : Nat) : Nat :=
  dueAddr q ((Tab.getD q s.queues {}).eseq + BitVec.ofNat 64 (s.waitingSlots q))

/-- Whether `n` bytes at an address touch the word at another. -/
def touches (a n w : Nat) : Bool := decide (a < w + 8) && decide (w < a + n)

/-- Senders that wait for an outbound slot look again. -/
def State.mailCleared (s : State) (m : Nat) : State := (Tab.getD m s.mailboxes {}).senders.foldl (fun s p => s.wake p) s

/-- What a host write in the command window brings about once the device has started (R455). -/
def State.watchWindow (s : State) (pa n : Nat) : State :=
  if !s.mgmt.started then s
  else if pa < 0x100000 then
    let q := pa / 0x4000
    if touches pa n (s.dueSlot q + 56) then s.lookDue q else s
  else if 0x190000 ≤ pa ∧ pa < 0x200000 then
    let m := (pa - 0x190000) / 0x2000
    if touches pa n (mailSlot m false (Tab.getD m s.mailboxes {}).eseq.toNat + 56) then s.mailIn m
    else if touches pa n (mailSlot m true ((Tab.getD m s.mailboxes {}).outCount.toNat + 1) + 56) then s.mailCleared m
    else s
  else s

/-- One line's part of a host write. -/
def State.hostWriteLine (s : State) (p : Nat × Line × BitVec 64) : State :=
  let line := p.1
  if s.protectedAt line then s.logProtected line
  else
    match qctlOf line with
    | some q0 =>
      (List.range 8).foldl (fun s i =>
        let m := bits p.2.2 (8 * i + 7) (8 * i)
        if m = 0 then s
        else
          let old := qctlWord (Tab.getD (q0 + i) s.queues {})
          let v : Word := (List.range 8).foldl (fun v j =>
            if p.2.2.getLsbD (8 * i + j) then v ||| field ((p.2.1.extractLsb' (8 * (8 * i + j)) 8).toNat) (8 * j)
            else v ||| field ((old.extractLsb' (8 * j) 8).toNat) (8 * j)) 0
          s.writeQctl (q0 + i) v) s
    | none =>
      let s := s.homeWrite line p.2.1 p.2.2
      match (List.range 64).filter fun i => p.2.2.getLsbD i with
      | [] => s
      | i :: is => if line < 0x200000 then s.watchWindow (line + i) (is.length + 1) else s

/-- A host write (R50, R98); in the safe state it is dropped (R456). -/
def execHostCxlMemWrite (h : Nat) (bytes : List Byte) (s : State) : Host.Outcome State Fault Refusal :=
  if s.mgmt.safe || !s.inRange h bytes.length then .next (s.putOut .writeDone)
  else .next (((pieces h bytes (bytes.length / 64 + 2)).foldl (fun s p => s.hostWriteLine (hostPa p.1, p.2)) s).putOut .writeDone)

/-! ## Confidential mode (R97, R101) -/

/-- States of the TDISP interface by number. -/
def tdispOf (n : Nat) : Tdisp := if n = 0 then .unlocked else if n = 1 then .locked else if n = 2 then .run else .error

/-- The interface leaves RUN for another state, or in RUN the session ends. -/
def State.loseSession (s : State) (st : Nat) : State :=
  let s := s.abortSecure
  if st = 2 then { s with mgmt := { s.mgmt with session := false } } else { s with mgmt := { s.mgmt with tdisp := tdispOf st } }

def execSecureSessionLoss (st : Nat) (s : State) : Host.Outcome State Fault Refusal := .next (s.loseSession st)

/-- A hash as words. -/
def hashWords (h : BitVec 512) : List Word := (List.range 8).map fun i => h.extractLsb' (64 * i) 64

/-- The controller takes an SPDM request (R97, R458): a key exchange fills a key slot and makes the session live, a state change
moves the interface, and measurements are served; and the controller answers a program's message at the sender's reply endpoint (R341),
with a message of 64 bytes (log entry 45). R97 does not say how the key schedule reaches the slots: DESIGN CHOICE, one slot per
key-exchange request, which also makes the session live (log entry 84). -/
def execDoeMailboxRequest (r : DoeReq) (s : State) : Host.Outcome State Fault Refusal :=
  match r with
  | .keyExchange slot key salt =>
    if slot < 16 then
      .next { s with mgmt := { s.mgmt with session := true, keys := Tab.put slot (key, salt) s.mgmt.keys } }
    else .next s
  | .setState st =>
    if s.mgmt.tdisp = .run ∧ st ≠ 2 then .next (s.loseSession st)
    else .next { s with mgmt := { s.mgmt with tdisp := tdispOf st } }
  | .endSession => if s.mgmt.session then .next (s.loseSession 2) else .next s
  | .measurements => .next (s.putOut (.controller 9 (s.mgmt.measurements.flatMap hashWords)))
  | .reply p ws => .next (s.postMessage (mkHandle 63 6 2 true s.dev p) ((ws ++ List.replicate 8 0).take 8)).2

end Sys2Proof.Machine
end

