-- ==== Sys2Proof/Machine/Startup.lean ====
section
/-! DEFINITION. Start-up and management (R454 to R459): the steps of a cold, warm or degraded start, the safe state, temperature. -/

namespace Sys2Proof.Machine

/-! ## What a start clears (R454, R455) -/

/-- Whether a location is in a stack. -/
def isStack (loc : Nat) : Bool := isDev loc

/-- Scratchpads, caches, context and accumulator stores, queues, launches, endpoints, experts, event counters and registers are
cleared. With `keep` the stacks keep their contents, check codes and poison bits; sums that a home still holds are stored first. -/
def State.cleared (s : State) (keep : Bool) : State :=
  let s := if keep then ((s.redSlots.filter fun r => isStack r.loc).map fun r => r.loc).foldl State.foldLoc s else s
  let held : Nat → Bool := fun a => hostBase ≤ a || (keep && isStack a)
  { phys := { s.phys with flips := s.phys.flips.filter fun e => held e.1 }
    mgmt := { s.mgmt with started := false, safe := false, throttle := false, fstep := 0, fcode := 0, cmask := 0, mmask := 0 }
    cycles := s.cycles
    free := s.free
    mem := s.mem.filter fun e => held e.1
    poison := s.poison.filter held
    codeErr := s.codeErr.filter fun e => held e.1
    secLeaves := if keep then s.secLeaves else []
    memdies := s.memdies.map fun (e : Nat × MemDie) => (e.1, { ({} : MemDie) with training := e.2.training })
    outs := s.outs }

/-- The stacks are cleared, with fresh check codes (R454 step 4). -/
def State.clearStacks (s : State) : State :=
  { s with
    mem := s.mem.filter fun e => !isStack e.1
    poison := s.poison.filter fun a => !isStack a
    codeErr := s.codeErr.filter fun e => !isStack e.1
    phys := { s.phys with flips := s.phys.flips.filter fun e => !isStack e.1 } }

/-- A set of numbers as a mask. -/
def maskOfList (l : List Nat) : Word := l.foldl (fun w i => w ||| field 1 i) 0

/-- The safe state (R456): every compute die is held in reset; stack contents stay. -/
def State.enterSafe (s : State) (stepCode code : Nat) (cmask mmask : Word) : State :=
  let s := s.cleared true
  { s with mgmt := { s.mgmt with
    safe := true, step := 0, fstep := BitVec.ofNat 8 stepCode, fcode := BitVec.ofNat 8 code, cmask := cmask, mmask := mmask } }

/-- A start begins with step 1; steps follow each other in order (timing: log entry 6). -/
def State.begin (s : State) (warm keep : Bool) : State :=
  let s := s.cleared keep
  ({ s with mgmt := { s.mgmt with step := 1, warm := warm, preserve := keep } } : State).sched 1 .fuseLoad

def State.nextStart (s : State) (n : Nat) (i : Instr) : State :=
  ({ s with mgmt := { s.mgmt with step := n } } : State).sched 1 i

/-! ## The steps of R454 -/

def execColdStart (s : State) : Host.Outcome State Fault Refusal :=
  .next (({ s with mgmt := { s.mgmt with omitted := [] } } : State).begin false false)

/-- Step 1: identity, repair maps, key hash and stitch figures are facts of the part, which `phys` holds. -/
def execFuseLoad (s : State) : Host.Outcome State Fault Refusal :=
  if s.mgmt.step = 1 then .next (s.nextStart 2 .fullBist) else .next s

/-- Step 2. -/
def execFullBist (s : State) : Host.Outcome State Fault Refusal :=
  if s.mgmt.step ≠ 2 then .next s
  else
    let cd := s.phys.badCdie.filter fun x => !s.mgmt.omitted.contains x
    if cd = [] ∧ s.phys.badMdie = [] then .next (s.nextStart 3 .hbmTraining)
    else .next (s.enterSafe 2 1 (maskOfList cd) (maskOfList s.phys.badMdie))

/-- Step 3: a warm start loads the saved results instead. -/
def execHbmTraining (s : State) : Host.Outcome State Fault Refusal :=
  if s.mgmt.step ≠ 3 then .next s
  else if s.mgmt.warm then .next (s.nextStart 4 .memoryBist)
  else if s.phys.badTrain ≠ [] then .next (s.enterSafe 3 2 0 (maskOfList s.phys.badTrain))
  else
    let s := (List.range s.mdies).foldl (fun s d => s.modMemDie d fun m => { m with training := some true }) s
    .next (s.nextStart 4 .memoryBist)

/-- Step 4: a warm start skips the test, and clears the stacks unless PRESERVE is set. -/
def execMemoryBist (s : State) : Host.Outcome State Fault Refusal :=
  if s.mgmt.step ≠ 4 then .next s
  else if s.mgmt.warm then .next ((if s.mgmt.preserve then s else s.clearStacks).nextStart 5 .firmwareAuthentication)
  else if s.phys.badMem ≠ [] then .next (s.enterSafe 4 3 0 (maskOfList s.phys.badMem))
  else .next (s.clearStacks.nextStart 5 .firmwareAuthentication)

/-- Step 5 (R457). -/
def execFirmwareAuthentication (s : State) : Host.Outcome State Fault Refusal :=
  if s.mgmt.step ≠ 5 then .next s
  else if s.phys.keyHash ≠ s.phys.fusedHash then .next (s.enterSafe 5 5 0 0)
  else if !s.phys.sigOk then .next (s.enterSafe 5 4 0 0)
  else .next (s.nextStart 6 .attestationSetup)

/-- Step 6 (R458): measurements are recorded, the device has started, the scrubbers run (R48), and memory die 0 looks at the due slot
of each queue. -/
def execAttestationSetup (s : State) : Host.Outcome State Fault Refusal :=
  if s.mgmt.step ≠ 6 then .next s
  else
    let s := { s with mgmt := { s.mgmt with
      step := 0, started := true, reached6 := true, startCycle := s.cycles, measurements := s.phys.images } }
    let s := (List.range s.mdies).foldl (fun s d => s.nextScrub d 0) s.startHalving
    .next ((List.range 64).foldl State.lookDue s)

/-! ## Other starts (R455, R456) -/

/-- A warm start on command: a cold one when saved training results fail their code. -/
def execWarmStart (preserve : Bool) (s : State) : Host.Outcome State Fault Refusal :=
  if !s.mgmt.reached6 then .next s
  else if s.phys.badSaved ≠ [] then .next (s.begin false false)
  else .next (s.begin true preserve)

/-- After a failure in step 2 of compute dies alone, a start that omits them. -/
def execDegradedStart (s : State) : Host.Outcome State Fault Refusal :=
  if s.mgmt.safe ∧ s.mgmt.fstep = 2 ∧ s.mgmt.mmask = 0 then
    .next (({ s with mgmt := { s.mgmt with omitted := s.phys.badCdie } } : State).begin false false)
  else .next s

/-! ## Temperature (R459) -/

/-- The throttle limit stops the dispatchers; at the critical limit every cluster halts and a thermal event is posted. -/
def execThermalSample (level : Thermal) (s : State) : Host.Outcome State Fault Refusal :=
  match level with
  | .normal =>
    let s' : State := { s with mgmt := { s.mgmt with throttle := false } }
    .next (if s.mgmt.throttle then s'.callDispatch else s')
  | .throttle => .next { s with mgmt := { s.mgmt with throttle := true } }
  | .critical =>
    let s := { s with mgmt := { s.mgmt with throttle := true, fcode := 6 } }
    .next (((List.range (8 * s.cdies.length)).foldl State.debugHalt s).putOut (.controller 6 []))

/-- 100 ms after a critical halt. -/
def execCriticalRecheck (level : Thermal) (s : State) : Host.Outcome State Fault Refusal :=
  if s.mgmt.fcode ≠ 6 ∨ s.mgmt.safe then .next s
  else match level with
    | .critical => .next (s.enterSafe 0 6 0 0)
    | _ => .next s

end Sys2Proof.Machine
end

