-- ==== Sys2Proof/Machine/Dispatch.lean ====
section
/-! DEFINITION. The one dispatch over instructions: one arm per constructor of Instr, each a direct call of its meaning. -/

namespace Sys2Proof.Machine

def exec (i : Instr) (s : State) : Host.Outcome State Fault Refusal :=
  match i with
  | .add m d rs t => Sys2Proof.Machine.execAdd m d rs t s
  | .sub m d rs t => Sys2Proof.Machine.execSub m d rs t s
  | .mul m d rs t => Sys2Proof.Machine.execMul m d rs t s
  | .mulh m d rs t => Sys2Proof.Machine.execMulh m d rs t s
  | .mulhn m d rs t => Sys2Proof.Machine.execMulhn m d rs t s
  | .div m d rs t => Sys2Proof.Machine.execDiv m d rs t s
  | .divn m d rs t => Sys2Proof.Machine.execDivn m d rs t s
  | .rem m d rs t => Sys2Proof.Machine.execRem m d rs t s
  | .remn m d rs t => Sys2Proof.Machine.execRemn m d rs t s
  | .and m d rs t => Sys2Proof.Machine.execAnd m d rs t s
  | .or m d rs t => Sys2Proof.Machine.execOr m d rs t s
  | .xor m d rs t => Sys2Proof.Machine.execXor m d rs t s
  | .shl m d rs t => Sys2Proof.Machine.execShl m d rs t s
  | .shr m d rs t => Sys2Proof.Machine.execShr m d rs t s
  | .sar m d rs t => Sys2Proof.Machine.execSar m d rs t s
  | .rol m d rs t => Sys2Proof.Machine.execRol m d rs t s
  | .min m d rs t => Sys2Proof.Machine.execMin m d rs t s
  | .max m d rs t => Sys2Proof.Machine.execMax m d rs t s
  | .minn m d rs t => Sys2Proof.Machine.execMinn m d rs t s
  | .maxn m d rs t => Sys2Proof.Machine.execMaxn m d rs t s
  | .sel m d rs t => Sys2Proof.Machine.execSel m d rs t s
  | .lea m d rs t sc imm => Sys2Proof.Machine.execLea m d rs t sc imm s
  | .neg m d rs => Sys2Proof.Machine.execNeg m d rs s
  | .not m d rs => Sys2Proof.Machine.execNot m d rs s
  | .clz m d rs => Sys2Proof.Machine.execClz m d rs s
  | .ctz m d rs => Sys2Proof.Machine.execCtz m d rs s
  | .popc m d rs => Sys2Proof.Machine.execPopc m d rs s
  | .sext m d rs sz => Sys2Proof.Machine.execSext m d rs sz s
  | .zext m d rs sz => Sys2Proof.Machine.execZext m d rs sz s
  | .mov m d rs => Sys2Proof.Machine.execMov m d rs s
  | .addi m d imm => Sys2Proof.Machine.execAddi m d imm s
  | .andi m d imm => Sys2Proof.Machine.execAndi m d imm s
  | .ori m d imm => Sys2Proof.Machine.execOri m d imm s
  | .xori m d imm => Sys2Proof.Machine.execXori m d imm s
  | .movi m d imm => Sys2Proof.Machine.execMovi m d imm s
  | .movhi m d imm => Sys2Proof.Machine.execMovhi m d imm s
  | .cmp m d rs t c => Sys2Proof.Machine.execCmp m d rs t c s
  | .cmpi m d rs c imm => Sys2Proof.Machine.execCmpi m d rs c imm s
  | .ld m d rs sz off => Sys2Proof.Machine.execLd m d rs sz off s
  | .lds m d rs sz off => Sys2Proof.Machine.execLds m d rs sz off s
  | .st m d rs sz off => Sys2Proof.Machine.execSt m d rs sz off s
  | .ldv m d rs lf off => Sys2Proof.Machine.execLdv m d rs lf off s
  | .stv m d rs off => Sys2Proof.Machine.execStv m d rs off s
  | .ldt m d rs lf tx off => Sys2Proof.Machine.execLdt m d rs lf tx off s
  | .stt m d rs off => Sys2Proof.Machine.execStt m d rs off s
  | .ldg m d rs t lf => Sys2Proof.Machine.execLdg m d rs t lf s
  | .stx m d rs t => Sys2Proof.Machine.execStx m d rs t s
  | .lda m d rs sz => Sys2Proof.Machine.execLda m d rs sz s
  | .stl m d rs sz => Sys2Proof.Machine.execStl m d rs sz s
  | .pref m rs lvl off => Sys2Proof.Machine.execPref m rs lvl off s
  | .b m disp => Sys2Proof.Machine.execB m disp s
  | .bp m disp => Sys2Proof.Machine.execBp m disp s
  | .bz m d disp => Sys2Proof.Machine.execBz m d disp s
  | .bnz m d disp => Sys2Proof.Machine.execBnz m d disp s
  | .j m d => Sys2Proof.Machine.execJ m d s
  | .jl m disp => Sys2Proof.Machine.execJl m disp s
  | .ret m => Sys2Proof.Machine.execRet m s
  | .rep m d n => Sys2Proof.Machine.execRep m d n s
  | .nop m => Sys2Proof.Machine.execNop m s
  | .tfence m => Sys2Proof.Machine.execTfence m s
  | .bkpt m n => Sys2Proof.Machine.execBkpt m n s
  | .vadd m d rs t sat => Sys2Proof.Machine.execVadd m d rs t sat s
  | .vsub m d rs t sat => Sys2Proof.Machine.execVsub m d rs t sat s
  | .vmul m d rs t sat => Sys2Proof.Machine.execVmul m d rs t sat s
  | .vfma m d rs t => Sys2Proof.Machine.execVfma m d rs t s
  | .vfms m d rs t => Sys2Proof.Machine.execVfms m d rs t s
  | .vmin m d rs t => Sys2Proof.Machine.execVmin m d rs t s
  | .vmax m d rs t => Sys2Proof.Machine.execVmax m d rs t s
  | .vabs m d rs sat => Sys2Proof.Machine.execVabs m d rs sat s
  | .vneg m d rs sat => Sys2Proof.Machine.execVneg m d rs sat s
  | .vand m d rs t => Sys2Proof.Machine.execVand m d rs t s
  | .vor m d rs t => Sys2Proof.Machine.execVor m d rs t s
  | .vxor m d rs t => Sys2Proof.Machine.execVxor m d rs t s
  | .vnot m d rs => Sys2Proof.Machine.execVnot m d rs s
  | .vshl m d rs t => Sys2Proof.Machine.execVshl m d rs t s
  | .vshr m d rs t => Sys2Proof.Machine.execVshr m d rs t s
  | .vsar m d rs t => Sys2Proof.Machine.execVsar m d rs t s
  | .vcmp m d rs t c => Sys2Proof.Machine.execVcmp m d rs t c s
  | .vsel m d rs t => Sys2Proof.Machine.execVsel m d rs t s
  | .vcvt m d rs fmt rnd => Sys2Proof.Machine.execVcvt m d rs fmt rnd s
  | .vred m d rs fop => Sys2Proof.Machine.execVred m d rs fop s
  | .vscan m d rs fop => Sys2Proof.Machine.execVscan m d rs fop s
  | .vperm m d rs t => Sys2Proof.Machine.execVperm m d rs t s
  | .vbcast m d rs lane => Sys2Proof.Machine.execVbcast m d rs lane s
  | .vsplat m d rs fmt => Sys2Proof.Machine.execVsplat m d rs fmt s
  | .vext m d rs lane => Sys2Proof.Machine.execVext m d rs lane s
  | .vins m d rs lane => Sys2Proof.Machine.execVins m d rs lane s
  | .vrcp m d rs => Sys2Proof.Machine.execVrcp m d rs s
  | .vrsq m d rs => Sys2Proof.Machine.execVrsq m d rs s
  | .vexp2 m d rs => Sys2Proof.Machine.execVexp2 m d rs s
  | .vlog2 m d rs => Sys2Proof.Machine.execVlog2 m d rs s
  | .vtanh m d rs => Sys2Proof.Machine.execVtanh m d rs s
  | .vdot4 m d rs t sat => Sys2Proof.Machine.execVdot4 m d rs t sat s
  | .vmac m d rs t sat => Sys2Proof.Machine.execVmac m d rs t sat s
  | .vclamp m d rs t => Sys2Proof.Machine.execVclamp m d rs t s
  | .pand m d rs t => Sys2Proof.Machine.execPand m d rs t s
  | .por m d rs t => Sys2Proof.Machine.execPor m d rs t s
  | .pnot m d rs => Sys2Proof.Machine.execPnot m d rs s
  | .pmov m o => Sys2Proof.Machine.execPmov m o s
  | .tzero m d => Sys2Proof.Machine.execTzero m d s
  | .tmma m d rs t => Sys2Proof.Machine.execTmma m d rs t s
  | .tadd m d rs t sat => Sys2Proof.Machine.execTadd m d rs t sat s
  | .tcvt m d rs fmt rnd => Sys2Proof.Machine.execTcvt m d rs fmt rnd s
  | .ttrn m d rs x16 => Sys2Proof.Machine.execTtrn m d rs x16 s
  | .tscl m d rs => Sys2Proof.Machine.execTscl m d rs s
  | .ttag m d fmt scale => Sys2Proof.Machine.execTtag m d fmt scale s
  | .tmov m d rs => Sys2Proof.Machine.execTmov m d rs s
  | .mlease m n => Sys2Proof.Machine.execMlease m n s
  | .mrel m => Sys2Proof.Machine.execMrel m s
  | .mma m d rs t slot mode => Sys2Proof.Machine.execMma m d rs t slot mode s
  | .mdrain m d slot fmt => Sys2Proof.Machine.execMdrain m d slot fmt s
  | .mzero m slot => Sys2Proof.Machine.execMzero m slot s
  | .mstat m d slot => Sys2Proof.Machine.execMstat m d slot s
  | .mcarry m trap => Sys2Proof.Machine.execMcarry m trap s
  | .mwait m slot => Sys2Proof.Machine.execMwait m slot s
  | .mvmq m d rs t mode => Sys2Proof.Machine.execMvmq m d rs t mode s
  | .amo m d rs t op wide => Sys2Proof.Machine.execAmo m d rs t op wide s
  | .cas m d rs t wide => Sys2Proof.Machine.execCas m d rs t wide s
  | .red m d rs op wide => Sys2Proof.Machine.execRed m d rs op wide s
  | .redf m d rs fop bf16 => Sys2Proof.Machine.execRedf m d rs fop bf16 s
  | .waitred m => Sys2Proof.Machine.execWaitred m s
  | .fence m kind => Sys2Proof.Machine.execFence m kind s
  | .wset m d rs => Sys2Proof.Machine.execWset m d rs s
  | .wclr m d => Sys2Proof.Machine.execWclr m d s
  | .wprobe m d rs => Sys2Proof.Machine.execWprobe m d rs s
  | .wwait m d => Sys2Proof.Machine.execWwait m d s
  | .cpy m d rs t => Sys2Proof.Machine.execCpy m d rs t s
  | .cpy2 m d rs t => Sys2Proof.Machine.execCpy2 m d rs t s
  | .cpyb m d => Sys2Proof.Machine.execCpyb m d s
  | .waitb m n => Sys2Proof.Machine.execWaitb m n s
  | .cpys m d rs t => Sys2Proof.Machine.execCpys m d rs t s
  | .cpyq m d rs => Sys2Proof.Machine.execCpyq m d rs s
  | .chnew m d rs => Sys2Proof.Machine.execChnew m d rs s
  | .chclose m d st => Sys2Proof.Machine.execChclose m d st s
  | .chbind m d rs => Sys2Proof.Machine.execChbind m d rs s
  | .send m d x t st => Sys2Proof.Machine.execSend m d x t st s
  | .sendt m d rs t st => Sys2Proof.Machine.execSendt m d rs t st s
  | .recv m x rs t st => Sys2Proof.Machine.execRecv m x rs t st s
  | .recvt m d rs t st => Sys2Proof.Machine.execRecvt m d rs t st s
  | .alt m d rs cnt t fair => Sys2Proof.Machine.execAlt m d rs cnt t fair s
  | .qbind m d rs => Sys2Proof.Machine.execQbind m d rs s
  | .qunbind m d => Sys2Proof.Machine.execQunbind m d s
  | .spawn m d rs t => Sys2Proof.Machine.execSpawn m d rs t s
  | .prio m n => Sys2Proof.Machine.execPrio m n s
  | .stage m n => Sys2Proof.Machine.execStage m n s
  | .sleep m d => Sys2Proof.Machine.execSleep m d s
  | .tblk m d => Sys2Proof.Machine.execTblk m d s
  | .tublk m d => Sys2Proof.Machine.execTublk m d s
  | .self m d item => Sys2Proof.Machine.execSelf m d item s
  | .exit m => Sys2Proof.Machine.execExit m s
  | .yield m => Sys2Proof.Machine.execYield m s
  | .launch m d rs t => Sys2Proof.Machine.execLaunch m d rs t s
  | .lstat m d rs => Sys2Proof.Machine.execLstat m d rs s
  | .barjoin m d rs => Sys2Proof.Machine.execBarjoin m d rs s
  | .bararv m n => Sys2Proof.Machine.execBararv m n s
  | .barwait m n => Sys2Proof.Machine.execBarwait m n s
  | .bar m n => Sys2Proof.Machine.execBar m n s
  | .barq m d n => Sys2Proof.Machine.execBarq m d n s
  | .trap m n => Sys2Proof.Machine.execTrap m n s
  | .sret m => Sys2Proof.Machine.execSret m s
  | .mfsr m d n => Sys2Proof.Machine.execMfsr m d n s
  | .mtsr m d n => Sys2Proof.Machine.execMtsr m d n s
  | .tlbi m d kind => Sys2Proof.Machine.execTlbi m d kind s
  | .tlbp m d rs => Sys2Proof.Machine.execTlbp m d rs s
  | .phase m d rs => Sys2Proof.Machine.execPhase m d rs s
  | .ctxsync m => Sys2Proof.Machine.execCtxsync m s
  | .xbind m d rs => Sys2Proof.Machine.execXbind m d rs s
  | .xqry m d rs => Sys2Proof.Machine.execXqry m d rs s
  | .xpin m d rs => Sys2Proof.Machine.execXpin m d rs s
  | .xmerge m d => Sys2Proof.Machine.execXmerge m d s
  | .gpri m d rs => Sys2Proof.Machine.execGpri m d rs s
  | .gqry m d rs => Sys2Proof.Machine.execGqry m d rs s
  | .gcan m d => Sys2Proof.Machine.execGcan m d s
  | .trmark m d => Sys2Proof.Machine.execTrmark m d s
  | .evread m d n => Sys2Proof.Machine.execEvread m d n s
  | .evgather m d n => Sys2Proof.Machine.execEvgather m d n s
  | .coalescingWindowClose vec => Sys2Proof.Machine.execCoalescingWindowClose vec s
  | .pageMoveStart die => Sys2Proof.Machine.execPageMoveStart die s
  | .pageMoveCopyDone die => Sys2Proof.Machine.execPageMoveCopyDone die s
  | .pageMoveCasReply die => Sys2Proof.Machine.execPageMoveCasReply die s
  | .shootdownComplete die => Sys2Proof.Machine.execShootdownComplete die s
  | .scrub die line => Sys2Proof.Machine.execScrub die line s
  | .serverCommandAccept die msg => Sys2Proof.Machine.execServerCommandAccept die msg s
  | .gather die => Sys2Proof.Machine.execGather die s
  | .scatter die => Sys2Proof.Machine.execScatter die s
  | .fill die => Sys2Proof.Machine.execFill die s
  | .check die => Sys2Proof.Machine.execCheck die s
  | .mvm die => Sys2Proof.Machine.execMvm die s
  | .ackIntervalTimer link => Sys2Proof.Machine.execAckIntervalTimer link s
  | .lnkrtoExpiry link => Sys2Proof.Machine.execLnkrtoExpiry link s
  | .mergeHoldExpiry link => Sys2Proof.Machine.execMergeHoldExpiry link s
  | .grantRequestArrival cl msg => Sys2Proof.Machine.execGrantRequestArrival cl msg s
  | .busyResend cl msg => Sys2Proof.Machine.execBusyResend cl msg s
  | .grantNext cl => Sys2Proof.Machine.execGrantNext cl s
  | .tokenReceipt cl entry unit serial => Sys2Proof.Machine.execTokenReceipt cl entry unit serial s
  | .chunkArrival cl entry unit serial lines => Sys2Proof.Machine.execChunkArrival cl entry unit serial lines s
  | .tokenExpiry cl entry serial => Sys2Proof.Machine.execTokenExpiry cl entry serial s
  | .orphanTimeout cl entry => Sys2Proof.Machine.execOrphanTimeout cl entry s
  | .chunkCommit pid => Sys2Proof.Machine.execChunkCommit pid s
  | .storeAck pid id fault plat => Sys2Proof.Machine.execStoreAck pid id fault plat s
  | .amoReply pid id r plat => Sys2Proof.Machine.execAmoReply pid id r plat s
  | .reductionAck pid id fault => Sys2Proof.Machine.execReductionAck pid id fault s
  | .atomicAtHome loc op key => Sys2Proof.Machine.execAtomicAtHome loc op key s
  | .redfAddArrival loc bf16 x cn => Sys2Proof.Machine.execRedfAddArrival loc bf16 x cn s
  | .messageArrival cl entry => Sys2Proof.Machine.execMessageArrival cl entry s
  | .deadlineExpiry pid => Sys2Proof.Machine.execDeadlineExpiry pid s
  | .withdrawalArrival pid => Sys2Proof.Machine.execWithdrawalArrival pid s
  | .sleepWake pid => Sys2Proof.Machine.execSleepWake pid s
  | .probeTimer pid => Sys2Proof.Machine.execProbeTimer pid s
  | .probeArrival x origin path hops => Sys2Proof.Machine.execProbeArrival x origin path hops s
  | .launchAcceptance req => Sys2Proof.Machine.execLaunchAcceptance req s
  | .dispatchClaim die => Sys2Proof.Machine.execDispatchClaim die s
  | .teamFirm cls => Sys2Proof.Machine.execTeamFirm cls s
  | .slotRefill cl core => Sys2Proof.Machine.execSlotRefill cl core s
  | .workSteal cl core => Sys2Proof.Machine.execWorkSteal cl core s
  | .priorityPreemption cl core => Sys2Proof.Machine.execPriorityPreemption cl core s
  | .timeSliceExpiry pid => Sys2Proof.Machine.execTimeSliceExpiry pid s
  | .classPreemption die => Sys2Proof.Machine.execClassPreemption die s
  | .advertisement die => Sys2Proof.Machine.execAdvertisement die s
  | .advertisementReceipt die toCl => Sys2Proof.Machine.execAdvertisementReceipt die toCl s
  | .backlogResume die => Sys2Proof.Machine.execBacklogResume die s
  | .registerLineFetch pid line => Sys2Proof.Machine.execRegisterLineFetch pid line s
  | .barrierAndRise n => Sys2Proof.Machine.execBarrierAndRise n s
  | .leaseGrant cl => Sys2Proof.Machine.execLeaseGrant cl s
  | .leaseTimeLimit cl => Sys2Proof.Machine.execLeaseTimeLimit cl s
  | .sliceComplete cl slot => Sys2Proof.Machine.execSliceComplete cl slot s
  | .mdrainComplete cl slot => Sys2Proof.Machine.execMdrainComplete cl slot s
  | .mzeroComplete cl slot => Sys2Proof.Machine.execMzeroComplete cl slot s
  | .serviceSlotStart cl => Sys2Proof.Machine.execServiceSlotStart cl s
  | .phaseOverrun pid => Sys2Proof.Machine.execPhaseOverrun pid s
  | .haltComplete cl => Sys2Proof.Machine.execHaltComplete cl s
  | .snufferSample die n value => Sys2Proof.Machine.execSnufferSample die n value s
  | .traceSpill cl => Sys2Proof.Machine.execTraceSpill cl s
  | .stateLogExtension cl core => Sys2Proof.Machine.execStateLogExtension cl core s
  | .twinCompare epoch => Sys2Proof.Machine.execTwinCompare epoch s
  | .twinUnpairedTimeout key => Sys2Proof.Machine.execTwinUnpairedTimeout key s
  | .growCopyComplete x fault => Sys2Proof.Machine.execGrowCopyComplete x fault s
  | .growFillReply x status faddr => Sys2Proof.Machine.execGrowFillReply x status faddr s
  | .versionAck x point => Sys2Proof.Machine.execVersionAck x point s
  | .teamMigrationArrival team toCl => Sys2Proof.Machine.execTeamMigrationArrival team toCl s
  | .xmergeComplete pid => Sys2Proof.Machine.execXmergeComplete pid s
  | .loadReply pid id r plat => Sys2Proof.Machine.execLoadReply pid id r plat s
  | .remoteAccessArrival src addr reply req => Sys2Proof.Machine.execRemoteAccessArrival src addr reply req s
  | .walkComplete cl core asid va write => Sys2Proof.Machine.execWalkComplete cl core asid va write s
  | .migfrmPush pa => Sys2Proof.Machine.execMigfrmPush pa s
  | .warmStart preserve => Sys2Proof.Machine.execWarmStart preserve s
  | .thermalSample level => Sys2Proof.Machine.execThermalSample level s
  | .criticalRecheck level => Sys2Proof.Machine.execCriticalRecheck level s
  | .hostCxlMemRead h len => Sys2Proof.Machine.execHostCxlMemRead h len s
  | .hostCxlMemWrite h bytes => Sys2Proof.Machine.execHostCxlMemWrite h bytes s
  | .launchSlotLaunch q slot => Sys2Proof.Machine.execLaunchSlotLaunch q slot s
  | .launchSlotNop q slot => Sys2Proof.Machine.execLaunchSlotNop q slot s
  | .queueReset q => Sys2Proof.Machine.execQueueReset q s
  | .hostMailboxInbound mb => Sys2Proof.Machine.execHostMailboxInbound mb s
  | .secureSessionLoss st => Sys2Proof.Machine.execSecureSessionLoss st s
  | .memorySideAccess line who op => Sys2Proof.Machine.execMemorySideAccess line who op s
  | .meshFlitReceive site f => Sys2Proof.Machine.execMeshFlitReceive site f s
  | .marrunDataFlit link f => Sys2Proof.Machine.execMarrunDataFlit link f s
  | .marrunAckFlit link base body => Sys2Proof.Machine.execMarrunAckFlit link base body s
  | .mergeRecordReply rec r => Sys2Proof.Machine.execMergeRecordReply rec r s
  | .barrierArriveMessage n epoch count dev => Sys2Proof.Machine.execBarrierArriveMessage n epoch count dev s
  | .barrierReleaseMessage n epoch => Sys2Proof.Machine.execBarrierReleaseMessage n epoch s
  | .revokedSerialsReceipt msg serials => Sys2Proof.Machine.execRevokedSerialsReceipt msg serials s
  | .grctlClear cl => Sys2Proof.Machine.execGrctlClear cl s
  | .engineLineWrite cl off data poison => Sys2Proof.Machine.execEngineLineWrite cl off data poison s
  | .cpyctlResume cl team place => Sys2Proof.Machine.execCpyctlResume cl team place s
  | .cpyctlEndFailed cl team place => Sys2Proof.Machine.execCpyctlEndFailed cl team place s
  | .debugHalt cl => Sys2Proof.Machine.execDebugHalt cl s
  | .debugResume cl => Sys2Proof.Machine.execDebugResume cl s
  | .debugStep cl => Sys2Proof.Machine.execDebugStep cl s
  | .watchpointReplay cl => Sys2Proof.Machine.execWatchpointReplay cl s
  | .daccRecord cl pid write => Sys2Proof.Machine.execDaccRecord cl pid write s
  | .daccSaveArea cl pid write => Sys2Proof.Machine.execDaccSaveArea cl pid write s
  | .daccTrapFrame cl pid write => Sys2Proof.Machine.execDaccTrapFrame cl pid write s
  | .daccRegionEntry cl idx write => Sys2Proof.Machine.execDaccRegionEntry cl idx write s
  | .daccEndpointEntry cl idx write => Sys2Proof.Machine.execDaccEndpointEntry cl idx write s
  | .daccBatchStatus cl pid write => Sys2Proof.Machine.execDaccBatchStatus cl pid write s
  | .daccBarrierState cl pid write => Sys2Proof.Machine.execDaccBarrierState cl pid write s
  | .daccAccumulatorSlot cl idx write => Sys2Proof.Machine.execDaccAccumulatorSlot cl idx write s
  | .daccGrantEntry cl idx write => Sys2Proof.Machine.execDaccGrantEntry cl idx write s
  | .daccReplicaEntry cl idx write => Sys2Proof.Machine.execDaccReplicaEntry cl idx write s
  | .daccOriginTable cl pid write => Sys2Proof.Machine.execDaccOriginTable cl pid write s
  | .daccMemoryRead cl pid count => Sys2Proof.Machine.execDaccMemoryRead cl pid count s
  | .daccMemoryWrite cl pid count => Sys2Proof.Machine.execDaccMemoryWrite cl pid count s
  | .snufferFiredClear die n => Sys2Proof.Machine.execSnufferFiredClear die n s
  | .traceSessionOpen cl v => Sys2Proof.Machine.execTraceSessionOpen cl v s
  | .traceSessionClose cl => Sys2Proof.Machine.execTraceSessionClose cl s
  | .registerWrite tgt n v => Sys2Proof.Machine.execRegisterWrite tgt n v s
  | .doeMailboxRequest r => Sys2Proof.Machine.execDoeMailboxRequest r s
  | .routingTableWrite site dst port => Sys2Proof.Machine.execRoutingTableWrite site dst port s
  | .coldStart => Sys2Proof.Machine.execColdStart s
  | .fuseLoad => Sys2Proof.Machine.execFuseLoad s
  | .fullBist => Sys2Proof.Machine.execFullBist s
  | .hbmTraining => Sys2Proof.Machine.execHbmTraining s
  | .memoryBist => Sys2Proof.Machine.execMemoryBist s
  | .firmwareAuthentication => Sys2Proof.Machine.execFirmwareAuthentication s
  | .attestationSetup => Sys2Proof.Machine.execAttestationSetup s
  | .degradedStart => Sys2Proof.Machine.execDegradedStart s
  | .counterHalving => Sys2Proof.Machine.execCounterHalving s
  | .chandlerWindowEnd => Sys2Proof.Machine.execChandlerWindowEnd s

end Sys2Proof.Machine
end

