-- ==== Sys2Proof/Machine/Issue.lean ====
section
/-! DEFINITION. Issuing one instruction of a process: who may issue, fetch and decode, breakpoints (R439), where chunks begin and
end (R303), short stalls (R32), and the passing of time. -/

namespace Sys2Proof.Machine

/-! ## Who may issue -/

/-- Whether a process is the one a halted or stopping cluster steps (R442, R441). -/
def DebugMod.steps (dm : DebugMod) (p : Pid) : Bool :=
  dm.stepping && (match dm.replay with | some r => r.1 = p | none => dm.spid.toNat = p)

/-- Whether an AMO or CAS of a process has its answer, which a stopping cluster still writes (R434). -/
def Proc.answered (pr : Proc) : Bool := pr.op.any fun o => amoKey ≤ o.key && o.key < amoKey + 2 && o.res ≠ .waiting

/-- Whether nothing keeps a process out of barrel rotation: no register line on its way (R173) and no walk that it waits for (R75). -/
def Proc.inRotation (pr : Proc) : Bool := pr.fetching.isEmpty && !(pr.asked.any fun q => q.ans.isNone)

/-- Whether a process may issue once its issue delay has passed (R13, R305, R433, R442). -/
def State.mayIssue (s : State) (p : Pid) (pr : Proc) : Bool :=
  let dm := (s.cluster pr.cl).dm
  -- a step is over once its instruction has completed, which clears the mark that `armStep` left
  let stepped := dm.phase ≠ .running && dm.steps p && pr.skipIbp
  pr.inRotation && !(pr.chunk.any fun c => c.ended) && !(pr.leaving && pr.loop.isNone) &&
    ((pr.state = .running && (pr.slot.isSome || stepped) &&
        (dm.phase = .running || stepped || (dm.phase = .stopping && pr.answered))) ||
      (pr.state = .service && pr.svc.isSome && pr.wkind = .nothing && dm.phase = .running))

/-- Processes that may issue, in order of PID. -/
def State.issuers (s : State) : List (Nat × Proc) := s.procs.filter fun e => s.mayIssue e.1 e.2

/-- The slot in which a process stands in its core's barrel, or in the Lamplighter. -/
def Proc.place (pr : Proc) : Nat := (pr.slot.orElse fun _ => pr.svc).getD 0

/-- The barrel of a process's core: the first cycle in which it issues again, and the slot that issued last. -/
def State.barrel (s : State) (pr : Proc) : Nat × Nat := Tab.getD pr.unit (s.cluster pr.cl).rot (0, 7)

/-- The cycle from which a process may issue: its own delay has passed, and its core has not issued in that cycle (R20). -/
def State.dueAt (s : State) (pr : Proc) : Nat := max pr.issueAt (s.barrel pr).1

/-- The process whose turn it is among those of one core: the barrel rotates over its ready slots (R20). -/
def State.turnOf (s : State) (l : List (Nat × Proc)) (e : Nat × Proc) : Nat × Proc :=
  let after := fun (x : Nat × Proc) => (x.2.place + 7 - (s.barrel x.2).2) % 8
  (l.filter fun x => x.2.cl = e.2.cl && x.2.unit = e.2.unit).foldl (fun b x => if after x < after b then x else b) e

/-- The process that issues now. Cores that issue in the same cycle take turns: the first by PID after the last issuer names the core
(log entry 12). -/
def State.nextIssuer (s : State) : Option Pid :=
  let l := s.issuers.filter fun e => s.dueAt e.2 ≤ s.cycles
  ((l.find? fun e => s.last < e.1).orElse fun _ => l.head?).map fun e => (s.turnOf l e).1

/-! ## Asynchronous traps (R409, R421) -/

/-- A trap raised by no instruction, taken before the process's next instruction. -/
def State.asyncTrap (s : State) (p : Pid) (t : TrapInfo) : State :=
  match s.proc? p with
  | none => s
  | some pr => if pr.pend ≠ 0 then s.block p .reply 0 0 else s.enterService p 0 { t with noLen := true }

/-- PHASE_OVERRUN is due at a chunk start. -/
def Proc.phaseTrap (pr : Proc) : Bool := pr.svc.isNone && (pr.phaseDue || pr.ctx.overrun)

/-! ## Short stalls (R32) -/

/-- Outstanding producers whose register an instruction uses. -/
def shortHits (c : Ctx) (u : Uses) : List Outstanding :=
  c.short.filter fun o => (u.reads ++ u.writes).contains (o.cls, o.reg)

/-- Whether PFX.Q gates a form as a whole (R29, R241): not one that writes a vector or tile register, and not BP, SEL or VRED. -/
def gatesWhole (i : Instr) : Bool :=
  match enc i with
  | none => false
  | some f =>
    f.q.isSome && !((f.page, f.op) = (0, 52) || (f.page, f.op) = (0, 21) || (f.page, f.op) = (1, 20)) &&
      !(f.page ≤ 2 && (specOf f.page f.op).any fun sp => sp.rd = .v || sp.rd = .t)

/-- The registers an instruction uses as it issues: one that is gated off uses its predicate alone (R29). -/
def usedNow (c : Ctx) (i : Instr) : Uses :=
  match (enc i).bind fun f => f.q with
  | some q => if gatesWhole i && (c.rp q.pred).getLsbD 0 = q.neg then ⟨[(3, q.pred.setWidth 6)], []⟩ else usesOf i
  | none => usesOf i

/-- PCTL.SCB = 0: each short stall reads the old or the new value, and keeps the producer's or the instruction's own result, by
free choice; a producer that completed while its process was away is simply over. -/
def chooseShort (u : Uses) : List Outstanding → State → List Outstanding × State
  | [], s => ([], s)
  | o :: os, s =>
    let r := (o.cls, o.reg)
    let (o, s) :=
      if o.settled then (o, s)
      else
        let (a, s) := if u.reads.contains r then s.freeBool else (false, s)
        let (b, s) := if u.writes.contains r then s.freeBool else (false, s)
        ({ o with readOld := a, keepNew := b }, s)
    let (os, s) := chooseShort u os s
    (o :: os, s)

/-! ## Chunks (R303) -/

/-- A fresh chunk at the process's next instruction. -/
def State.newChunk (s : State) (pr : Proc) : Chunk :=
  { count := 0, pc0 := pr.pc, ctx0 := pr.ctx, loop0 := pr.loop, buf := [], reds := [], rsig := [], wsig := [], shadow := [],
    seq0 := (s.cluster pr.cl).seq, ended := false, marks := [] }

/-- Lines of two rising lists together. -/
def unionNat (a b : List Nat) : List Nat := a.foldl (fun l n => insertNat n l) b

/-- Debug stops after an instruction outside every chunk whose access hit a watchpoint (R441): DWHIT and the trigger. -/
def State.watchStop (s : State) (p : Pid) : State :=
  match s.proc? p with
  | none => s
  | some pr =>
    match pr.hits with
    | [] => s
    | (owner, w, kind) :: _ =>
      if pr.chunk.isSome then s
      else ((s.setProc p { pr with hits := [] }).watchHit pr.cl w kind owner (s.key p) (some p)).replayed p pr.cl true

/-! ## One instruction -/

abbrev Answer := Host.Outcome State Fault Refusal

/-- What follows the meaning of an instruction. -/
def after (p : Pid) : Answer → Answer
  | .next s => .next (({ s with cur := none } : State).watchStop p)
  | r => r

/-- Performs a decoded instruction: the open chunk ends first where R303 says so, a short stall is settled, and the instruction's
meaning follows. -/
def State.perform (s : State) (p : Pid) (i : Instr) (len : Nat) : Answer :=
  match s.proc? p with
  | none => .next s
  | some pr =>
    let u := usedNow pr.ctx i
    let lines := writeLines i
    let busy := pr.chunk.any fun c => c.count ≠ 0
    let crowded := pr.chunk.any fun c => c.count ≠ 0 && 32 < (unionNat lines c.shadow).length
    let outside := endsBefore pr.ctx i
    let turn := (s.replayTurn pr.cl).any fun t => t.1 = p && pr.chunk.any fun c => c.count = t.2
    let token := (s.cluster pr.cl).token
    if busy && (outside || crowded || turn) then .next ({ s with cur := none }.endChunk p)
    else if pr.solo && !outside && token.any (fun q => q ≠ p) then
      .next ({ s with cur := none }.modProc p fun pr => { pr with issueAt := s.cycles + 1 })
    else
      let s := if !pr.solo then s else if outside then s.unsolo p else s.modCluster pr.cl fun c => { c with token := some p }
      let pr := (s.proc? p).getD pr
      let c := if outside then none else
        let c := pr.chunk.getD (s.newChunk pr)
        some { c with shadow := unionNat lines c.shadow }
      let s := s.setProc p (({ pr with chunk := c } : Proc).useRegs i s.cycles)
      match shortHits pr.ctx u with
      | [] => after p (exec i s)
      | o :: _ =>
        if bit pr.ctx.pctl 0 then
          .next (s.takeTrap p len { cls := 4, aux := field o.cls.toNat 6 ||| field o.reg.toNat 0 })
        else
          let (l, s) := chooseShort u pr.ctx.short s
          after p (exec i (s.modProc p fun pr => { pr with ctx := { pr.ctx with short := l } }))

/-- The instruction breakpoint that words of `n` bytes at an address hit, with whether it names a later word (R438, R439). -/
def State.breakpoint (s : State) (pr : Proc) (n : Nat) : Option (Nat × Bool) :=
  if pr.skipIbp || !(s.cluster pr.cl).dm.att then none
  else
    ((List.range 4).find? fun b => bit pr.dbgEn (b + 1) &&
      (let a := (Tab.getD b pr.ctx.dbg 0).toNat
       pr.pc.toNat ≤ a && a < pr.pc.toNat + n)).map fun b => (b, (Tab.getD b pr.ctx.dbg 0) ≠ pr.pc)

/-- The asynchronous trap that is due is taken before the first instruction of a chunk: PHASE_OVERRUN before CHILD (R409). -/
def State.takeAsync (s : State) (p : Pid) (pr : Proc) : Answer :=
  if pr.phaseTrap then after p (exec (.phaseOverrun p) s)
  else
    match pr.childDue with
    | [] => .next s
    | (l, cls) :: rest =>
      .next ({ (s.modProc p fun pr => { pr with childDue := rest }).asyncTrap p
        { cls := 29, addr := BitVec.ofNat 64 l, aux := BitVec.ofNat 64 cls } with cur := none })

/-- Fetches, decodes and performs the next instruction of a process, once the lines of its registers are resident (R173). -/
def State.issue (s : State) (p : Pid) : Answer :=
  match s.proc? p with
  | none => .next s
  | some pr =>
    let s := (({ s with cur := some p, last := p } : State).modProc p fun pr => { pr with issuedAt := s.cycles + 1 }).modCluster pr.cl
      fun c => { c with rot := Tab.put pr.unit (s.cycles + 1, pr.place) c.rot }
    let start := pr.op.isNone && !(pr.chunk.any fun c => c.count ≠ 0) && pr.svc.isNone
    let due := start && (pr.phaseTrap || pr.childDue ≠ [])
    let s0 := s
    let s := if pr.acquireDue then (s.modProc p fun pr => { pr with acquireDue := false }).invalClean pr.cl pr.unit else s
    match fetchChain p 5 pr.pc s with
    | .error (.trap t s) => if due then s0.takeAsync p pr else .next ({ s.takeTrap p 0 t with cur := none })
    | .error (.wait k obj deadline s) => .next ({ s.block p k obj deadline with cur := none })
    | .error (.stall s) => .next { s with cur := none }
    | .ok (ws, s) =>
      let d := decodeWords ws
      let outside := match d with | .instr i _ => endsBefore pr.ctx i | _ => false
      if due && !outside then s0.takeAsync p pr
      else
        match s.breakpoint pr (2 * ws.length) with
        | some (b, inch) => .next ({ (s.endChunk p).trigger pr.cl 4 b (some p) inch with cur := none })
        | none =>
          match d with
          | .illegal c _ => .next ({ s.takeTrap p 0 (trapIllegal c) with cur := none })
          | .short => .next ({ s.takeTrap p 0 (trapIllegal 4) with cur := none })
          | .instr i n =>
            match pr.missing i with
            | [] => s.perform p i (2 * n)
            | ls => .next { s.fetchRegs p pr ls with cur := none }

/-! ## Time -/

/-- Core cycles go by: state logs and counters (R445, R451), and phase counts of processes that hold a slot (R419). -/
def State.tick (s : State) (n : Nat) : State :=
  let count : Proc → Proc := fun pr =>
    if pr.slot.isSome && pr.state ≠ .service && pr.state ≠ .halted then
      { pr with ctx := { pr.ctx with elapsed := BitVec.ofNat 32 (min (pr.ctx.elapsed.toNat + n) (2 ^ 32 - 1)) } }
    else pr
  let s := s.logIdle.logTick n
  { s with cycles := s.cycles + n, procs := s.procs.map fun e => (e.1, count e.2) }

/-- The cycles until something can happen: a process may issue, or a step is due. -/
def State.idleFor (s : State) : Nat :=
  let l := (s.issuers.map fun e => s.dueAt e.2) ++ (match s.queue with | [] => [] | e :: _ => [e.1])
  match l with
  | [] => 1
  | t :: ts => max 1 (ts.foldl min t - s.cycles)

end Sys2Proof.Machine
end

