-- ==== Sys2Proof/Machine/Step.lean ====
section
/-! DEFINITION. One step of the device: a step of an agent that is due, or one instruction of a process, or the passing of time. -/

namespace Sys2Proof.Machine

/-- One step. -/
def step (s : State) : Host.Outcome State Fault Refusal :=
  match s.queue with
  | (due, i) :: q =>
    if due ≤ s.cycles then exec i { s with queue := q, cur := none }
    else
      match s.nextIssuer with
      | some p => s.issue p
      | none => .next (s.tick s.idleFor)
  | [] =>
    match s.nextIssuer with
    | some p => s.issue p
    | none => .next (s.tick s.idleFor)

/-! ## Placing an instruction -/

/-- The leaf of the page that `bootTables` maps: a frame of memory die 0, valid, with every permission, A and D. -/
def bootLeaf : Word := field 0x300000 0 ||| 0xDF

/-- The root table and the tables that map VA 0x10000, one 64 KiB page, to the frame at 0x300000 of memory die 0; all lie outside the
command window (R87). -/
def bootTables : Memory :=
  let m := Memory.write64 [] 0x241000 (field 0x242000 0 ||| 1)
  let m := Memory.write64 m 0x242000 (field 0x243000 0 ||| 1)
  let m := Memory.write64 m 0x243000 (field 0x244000 0 ||| 1)
  let m := Memory.write64 m 0x244000 (field 0x245000 0 ||| 1)
  Memory.write64 m 0x245008 bootLeaf

/-- A started device that runs one process, PID 256, in barrel slot 0 of core 0 of cluster 0, at VA 0x10000, with its registers and
its page's translation resident (log entry 7). -/
def State.withFetchWord (s : State) (nbits w : Nat) : State :=
  let root : Word := field 1 48 ||| 0x241000
  let page : TlbE := { asid := 1, va := 1, size := 0, leaf := bootLeaf, leafPa := 0x245008 }
  let pr : Proc := { state := .running, pc := 0x10000, slot := some 0, team := 1, lid := 1, hasRun := true, prio := 4,
                     rcore := some 0, rlines := (List.range 170).map fun l => (l, { dirty := false, used := 0 }),
                     ctx := { vmctx := root } }
  let team : Team := { lid := 1, index := 0, state := .running, nproc := 1, spmsz := 1, entry := 0x10000 }
  let launch : Launch := {
    host := none, issuer := none, die := 0, cls := 2, span := false, vmctx := root, mbox := 0, notify := 0,
    args := [], lpol := 0, lrtry := 0, record := 0, phys := true, recVm := 0, chans := [], decls := [], teams := [1], ended := none }
  ({ s with
    mgmt := { s.mgmt with started := true, step := 0, reached6 := true }
    queue := []
    cur := none
    last := 0
    mem := Memory.write bootTables 0x300000 (bytesOf (tableWords nbits w))
    procs := [(256, pr)]
    teams := [(1, team)]
    launches := [(1, launch)] } : State).modCluster 0 fun c => { c with tlb := [page], ctlb := [(0, [page])] }

end Sys2Proof.Machine
end

