-- ==== Sys2Proof/Safety.lean ====
section
/-! DEFINITION. What claims use: the canonical form of memory, a step that goes on, and the words in which statements say that an
instruction completes and what it leaves alone. -/

namespace Sys2Proof.Machine

/-- Memory is in its canonical form. -/
def State.MemWf (s : State) : Prop := Memory.wf s.mem = true

/-- The tables keep their canonical form too: keys strictly rising, so that what is removed is gone. -/
structure State.Canon (s : State) : Prop where
  mem : s.MemWf
  procs : Tab.sorted s.procs = true
  clusters : Tab.sorted s.clusters = true
  memdies : Tab.sorted s.memdies = true
  teams : Tab.sorted s.teams = true
  launches : Tab.sorted s.launches = true
  msgs : Tab.sorted s.msgs = true
  regs : Tab.sorted s.regs = true
  dieRegs : Tab.sorted s.dieRegs = true
  links : Tab.sorted s.links = true
  merges : Tab.sorted s.merges = true
  coalesce : Tab.sorted s.coalesce = true
  codeErr : Tab.sorted s.codeErr = true
  twinH : Tab.sorted s.twinH = true
  twinWait : Tab.sorted s.twinWait = true
  poison : s.poison.Nodup
  cluster : ∀ cl, Tab.sorted (s.cluster cl).greqs = true ∧ Tab.sorted (s.cluster cl).copies = true ∧
    Tab.sorted (s.cluster cl).endps = true ∧ Tab.sorted (s.cluster cl).windows = true ∧ Tab.sorted (s.cluster cl).slots = true ∧
    Tab.sorted (s.cluster cl).regs = true
  proc : ∀ p pr, s.proc? p = some pr → Tab.sorted pr.ctx.s = true ∧ Tab.sorted pr.bars = true

/-- A step ends in a next state. -/
def Outcome.goesOn (o : Host.Outcome State Fault Refusal) : Prop := ∃ s, o = .next s

/-! ## Before an instruction -/

/-- A context apart from its short-stall record (R171), which completion itself keeps up. -/
def Ctx.plain (c : Ctx) : Ctx := { c with short := [] }

/-- No short stall of this context is being resolved: every register reads as it stands and takes what is written (R32). -/
def Ctx.Settled (c : Ctx) : Prop := ∀ o ∈ c.short, o.readOld = false ∧ o.keepNew = false

/-- An instruction of `len` bytes here is not the last one of a pinned block's iteration (R236). -/
def Proc.Inside (pr : Proc) (len : Nat) : Prop := ∀ l, pr.loop = some l → pr.pc + BitVec.ofNat 64 len ≠ l.stop

/-- Process p issues an instruction of `len` bytes, pr being its record, and no short stall is being resolved. -/
structure Issues (s : State) (p : Pid) (pr : Proc) (len : Nat) : Prop where
  cur : s.cur = some p
  proc : s.proc? p = some pr
  settled : pr.ctx.Settled
  inside : pr.Inside len

/-- What registers a form with prefixes m sees as its gate: bit 0 of the predicate is 1, or there is no PFX.Q (R29). -/
def On (m : Mods) (pr : Proc) : Prop := onOf m pr.ctx = true

/-! ## After an instruction -/

/-- What a claim sees of a process: where it is, its registers and system block, and its loop state. -/
def Proc.view (pr : Proc) : Word × Ctx × Option Loop := (pr.pc, pr.ctx.plain, pr.loop)

/-- Every byte of memory, every poison bit and check code, every register of the device, its dies and its clusters, every other
process's view, and every object of the control plane is as it was. -/
structure FrameOf (s t : State) (p : Pid) : Prop where
  mem : ∀ k, Memory.get k t.mem = Memory.get k s.mem
  poison : t.poison = s.poison
  codeErr : t.codeErr = s.codeErr
  others : ∀ q, q ≠ p → (t.proc? q).map Proc.view = (s.proc? q).map Proc.view
  regs : t.regs = s.regs
  dieRegs : t.dieRegs = s.dieRegs
  clRegs : ∀ cl n, t.clReg cl n = s.clReg cl n
  cycles : t.cycles = s.cycles
  memdies : t.memdies = s.memdies
  teams : t.teams = s.teams
  launches : t.launches = s.launches
  experts : t.experts = s.experts
  msgs : t.msgs = s.msgs
  bars : t.bars = s.bars
  outs : t.outs = s.outs

/-- The outcome is a next state t in which process p stands at pc with context c (its short-stall record apart) and loop state l,
and all else is as it was in s. -/
def Completes (s : State) (p : Pid) (pc : Word) (c : Ctx) (l : Option Loop) (o : Host.Outcome State Fault Refusal) : Prop :=
  ∃ t, o = .next t ∧ (t.proc? p).map Proc.view = some (pc, c.plain, l) ∧ FrameOf s t p

/-- The outcome is a next state in which process p has gone on by `len` bytes, in its loop state, with context c. -/
def GoesOn (s : State) (p : Pid) (pr : Proc) (len : Nat) (c : Ctx) (o : Host.Outcome State Fault Refusal) : Prop :=
  Completes s p (pr.pc + BitVec.ofNat 64 len) c pr.loop o

/-- The outcome is a next state in which process p has gone on by `len` bytes with context c, `P` holds, and every byte of memory,
every poison bit, every register of the device, its dies and its clusters and every other process's view is as it was. -/
def GoesWith (s : State) (p : Pid) (pr : Proc) (len : Nat) (c : Ctx) (P : State → Prop) (o : Host.Outcome State Fault Refusal) : Prop :=
  ∃ t, o = .next t ∧ (t.proc? p).map Proc.view = some (pr.pc + BitVec.ofNat 64 len, c.plain, pr.loop) ∧
    (∀ k, Memory.get k t.mem = Memory.get k s.mem) ∧ t.poison = s.poison ∧ t.regs = s.regs ∧ t.dieRegs = s.dieRegs ∧
    (∀ cl n, t.clReg cl n = s.clReg cl n) ∧ (∀ q, q ≠ p → (t.proc? q).map Proc.view = (s.proc? q).map Proc.view) ∧ P t

/-- The outcome is a next state in which process p waits at the instruction with wait kind k, its registers as they were, `P` holds,
and what `GoesWith` leaves alone is as it was. -/
def Waits (s : State) (p : Pid) (pr : Proc) (k : WKind) (P : State → Prop) (o : Host.Outcome State Fault Refusal) : Prop :=
  ∃ t q, o = .next t ∧ t.proc? p = some q ∧ q.state = .blocked ∧ q.wkind = k ∧ q.view = pr.view ∧
    (∀ k, Memory.get k t.mem = Memory.get k s.mem) ∧ t.poison = s.poison ∧ t.regs = s.regs ∧ t.dieRegs = s.dieRegs ∧
    (∀ cl n, t.clReg cl n = s.clReg cl n) ∧ (∀ q, q ≠ p → (t.proc? q).map Proc.view = (s.proc? q).map Proc.view) ∧ P t

/-! ## Vector and tile registers -/

/-- `x` is `new` in the bytes whose predicate bit is 1 and `old` in the others (R241). -/
def Merged (mask : Word) (old new x : Line) : Prop :=
  ∀ i < 512, x.getLsbD i = if mask.getLsbD (i / 8) then new.getLsbD i else old.getLsbD i

/-- The same for a tile, whose rows of 32 bytes share predicate bits 31:0. -/
def MergedTile (mask : Word) (old new x : TileData) : Prop :=
  ∀ i < 8192, x.getLsbD i = if mask.getLsbD (i / 8 % 32) then new.getLsbD i else old.getLsbD i

/-- The outcome goes on with v register d holding `new` where the predicate says so, under this tag and scale; nothing else of the
context has changed. -/
def PutsV (s : State) (p : Pid) (pr : Proc) (len : Nat) (m : Mods) (d : VReg) (new : Line) (tag : BitVec 4) (scale : BitVec 8)
    (o : Host.Outcome State Fault Refusal) : Prop :=
  ∃ x, Merged (maskOf m pr.ctx) (pr.ctx.rv d) new x ∧ GoesOn s p pr len (pr.ctx.wv d x tag scale) o

/-- The same, with flags raised besides. -/
def PutsVF (s : State) (p : Pid) (pr : Proc) (len : Nat) (m : Mods) (d : VReg) (new : Line) (tag : BitVec 4) (scale : BitVec 8)
    (o : Host.Outcome State Fault Refusal) : Prop :=
  ∃ x fl, Merged (maskOf m pr.ctx) (pr.ctx.rv d) new x ∧ (nfOf m = true → fl = 0) ∧
    GoesOn s p pr len { pr.ctx.wv d x tag scale with flags := pr.ctx.flags ||| fl } o

/-- The same for a tile register. -/
def PutsT (s : State) (p : Pid) (pr : Proc) (len : Nat) (m : Mods) (d : TReg) (new : TileData) (tag : BitVec 4) (scale : BitVec 8)
    (o : Host.Outcome State Fault Refusal) : Prop :=
  ∃ x, MergedTile (maskOf m pr.ctx) (pr.ctx.rt d) new x ∧ GoesOn s p pr len (pr.ctx.wt d x tag scale) o

/-! ## The scratchpad -/

/-- A byte as a process sees it: as its open chunk has stored it, or as memory holds it (R185). -/
def seen (s : State) (pr : Proc) (loc : Nat) : Byte := Tab.getD loc pr.buf (Memory.get loc s.mem)

/-- `n` bytes from a location on as one number, least significant first. -/
def seenNat (s : State) (pr : Proc) (loc n : Nat) : Nat := natLE ((List.range n).map fun i => seen s pr (loc + i))

/-- Word i of the 64 bytes from a location on, as a process sees them. -/
def seenWord (s : State) (pr : Proc) (loc i : Nat) : Word := BitVec.ofNat 64 (seenNat s pr (loc + 8 * i) 8)

/-- `ea` names `n` bytes of the process's own scratchpad allotment (R183, R184), aligned, in one line, in no bound window; `loc` is
where they are, on a line without poison, bit errors or pending sums. -/
structure Local (s : State) (pr : Proc) (ea : Word) (n loc : Nat) : Prop where
  space : spaceOf ea = 3
  high : bits ea 61 32 = 0
  inside : bits ea 31 0 + n ≤ s.spmBytes pr.team
  loc_eq : loc = sramLoc pr.cl (s.spmOf pr.team + bits ea 31 0)
  low : s.spmOf pr.team + bits ea 31 0 + n ≤ 0x02000000
  sram : isSram loc = true
  align : ea.toNat % n = 0
  inLine : loc % 64 + n ≤ 64
  clear : s.windowAt pr.cl (s.spmOf pr.team + bits ea 31 0) = none
  clean : s.poison.contains (lineOf loc) = false
  code : Tab.getD (lineOf loc) s.codeErr 0 = 0
  ecc : Tab.getD (lineOf loc) s.phys.flips 0 = 0
  sums : ∀ r ∈ s.redSlots, lineOf r.loc ≠ lineOf loc

/-- Nothing of the process is under way outside its core, and no debugger is attached to its cluster. -/
structure Quiet (s : State) (pr : Proc) : Prop where
  outs : pr.outs = []
  held : pr.held = []
  reds : ∀ c, pr.chunk = some c → c.reds = []
  att : (s.cluster pr.cl).dm.att = false

/-- No line of a cluster's cache is dirty, and no write-back of its is under way or held by a page move: a release there waits for no
line (R84, R189). -/
def Drained (s : State) (cl : Nat) : Prop :=
  (∀ e ∈ (s.cluster cl).cache, e.2.dirty = 0) ∧ (s.cluster cl).wbacks = [] ∧ s.heldOf cl none = false

/-- The outcome is a next state in which process p has gone on by `len` bytes with its registers as they were, and sees in each
byte that `f` names the byte f gives, in every other byte what it saw; memory itself is as it was. -/
def Buffers (s : State) (p : Pid) (pr : Proc) (len : Nat) (f : Nat → Option Byte) (o : Host.Outcome State Fault Refusal) : Prop :=
  ∃ t q, o = .next t ∧ t.proc? p = some q ∧ q.view = (pr.pc + BitVec.ofNat 64 len, pr.ctx.plain, pr.loop) ∧
    (∀ k, seen t q k = (f k).getD (seen s pr k)) ∧ FrameOf s t p

/-! ## Links -/

/-- A packet from a site to a device has a route: the mesh leads to the first link, which is up, holds nothing back, and has a credit
for the packet's class. -/
def Linked (s : State) (site dst : Nat) (rep : Bool) (l : Nat) : Prop :=
  (∃ via, s.chooseRoute dst = some (l, via)) ∧ s.refusedAt site (memSite (s.linkDie l)) = none ∧ (s.link l).up = true ∧
    (s.link l).egress = [] ∧ (s.link l).ready = [] ∧ (s.link l).sent.length < 128 ∧
    Tab.getD (channel rep 0) (s.link l).used 0 < s.phys.vcFlits

/-- From s to t the device has sent a packet of one flit over link l: the flit's check holds, its number is the link's next one, its header
names this device, the destination and what the packet is for, and its lines are these (R106 to R108). -/
def SendsFlit (s t : State) (l dst : Nat) (rep : Bool) (body : Body) (lines : List SentLine) : Prop :=
  ∃ f pk, t.outs = s.outs ++ [.flit l f] ∧ f.ok = true ∧ f.seq = (s.link l).nextSeq ∧ f.head = true ∧ f.tail = true ∧ f.rep = rep ∧
    f.lines = lines ∧ f.packet = some pk ∧ pk.src = s.dev ∧ pk.dst = dst ∧ pk.rep = rep ∧ pk.body = body

/-! ## Memory servers -/

/-- For a command, the server of a die reaches these addresses in order and reads `n` bytes at each, from state s to state t; an item
is whether the line is poisoned, and the bytes. -/
def SrvReads (die : Nat) (c : SrvCmd) (n : Nat) : List Word → List (Bool × List Byte) → State → State → Prop
  | [], l, s, t => l = [] ∧ t = s
  | a :: as, l, s, t => ∃ loc u r, s.srvReach die c a .read = (.ok loc, u) ∧
      l = ((u.srvRead die (lineOf loc)).1, Memory.read (u.srvRead die (lineOf loc)).2.mem loc n) :: r ∧
      SrvReads die c n as r (u.srvRead die (lineOf loc)).2 t

/-- For a command, the server of a die reaches these addresses in order and writes these bytes at each with `write`, from state s to
state t; no translation changes memory, and `ws` is where the bytes go. -/
def SrvWrites (die : Nat) (c : SrvCmd) (write : State → Nat → List Byte → State) :
    List (Word × List Byte) → List (Nat × List Byte) → State → State → Prop
  | [], ws, s, t => ws = [] ∧ t = s
  | (a, bs) :: as, ws, s, t => ∃ loc u r, s.srvReach die c a .write = (.ok loc, u) ∧ u.mem = s.mem ∧ ws = (loc, bs) :: r ∧
      SrvWrites die c write as r (write u loc bs) t

/-- Memory with bytes written at several places in turn. -/
def writtenAt (m : Memory) (ws : List (Nat × List Byte)) : Memory := ws.foldl (fun m w => Memory.write m w.1 w.2) m

/-- No sums are pending, no line is poisoned or in error, and no cluster holds a line of memory. -/
structure Calm (s : State) : Prop where
  sums : s.redSlots = []
  poison : s.poison = []
  code : s.codeErr = []
  flips : s.phys.flips = []
  caches : ∀ e ∈ s.clusters, e.2.cache = []

/-! ## Traps -/

/-- A precise trap raised here is taken at once (R307, R298, R415): the process is not being served, has no reductions pending, and
its open chunk, if any, holds no earlier instruction. -/
def Proc.TrapsHere (pr : Proc) : Prop := pr.svc = none ∧ pr.pend = 0 ∧ ∀ c, pr.chunk = some c → c.count = 0

/-- The outcome is a next state in which process p, its registers and program counter as they were, is in service with the class
and kind in FINFO, off its core, and its context is queued last for the Lamplighter with the frame of R413; and all else is as it
was. -/
def TakesTrap (s : State) (p : Pid) (pr : Proc) (cls kind len : Nat) (addr aux : Word)
    (o : Host.Outcome State Fault Refusal) : Prop :=
  ∃ t q x, o = .next t ∧ t.proc? p = some q ∧ q.state = .service ∧ q.slot = none ∧ q.pc = pr.pc ∧ q.ctx.plain = pr.ctx.plain ∧
    q.fcls = BitVec.ofNat 8 cls ∧ q.fkind = BitVec.ofNat 8 kind ∧
    (t.cluster pr.cl).svcQ = (s.cluster pr.cl).svcQ ++ [x] ∧ x.pid = p ∧ x.loop = pr.loop ∧
    bits x.frame.tcause 7 0 = cls ∧ bits x.frame.tcause 15 8 = kind ∧ bits x.frame.tcause 19 16 = len % 16 ∧
    bit x.frame.tcause 28 = pr.loop.isSome ∧ x.frame.tpc = pr.pc ∧ x.frame.taddr = addr ∧ x.frame.taux = aux ∧
    x.frame.svcst = 0 ∧ FrameOf s t p

end Sys2Proof.Machine
end

