-- ==== Sys2Proof/Certificates/Slice0/Obligations.lean ====
section
/-! DEFINITION. The statements of this model, each a named proposition: what instructions do, what taking a trap saves, what the
device's own agents do, and what every step keeps. Each docstring cites the rules it formalises. -/

open Sys2Proof Sys2Proof.Machine


/-! ## Scalar instructions -/

/-- R28: s0 reads 0 and p0 all ones; a write reaches exactly its register, and a write to s0 or p0 is discarded. -/
def Obligations.RegisterFile : Prop :=
  ∀ (c : Ctx) (x : Word), c.Settled → Tab.sorted c.s = true → Tab.sorted c.p = true →
    c.rs 0 = 0 ∧ c.rp 0 = BitVec.allOnes 64 ∧
    (∀ d r : SReg, (c.ws d x).rs r = if r = d ∧ d ≠ 0 then x else c.rs r) ∧
    (∀ d r : PReg, (c.wp d x).rp r = if r = d ∧ d ≠ 0 then x else c.rp r) ∧
    c.ws 0 x = c ∧ c.wp 0 x = c

/-- R221: the sixteen two-source forms that do not divide, over the sources of the mould.

R222: quotients toward zero and remainders of the dividend's sign; by zero all ones and the dividend; none of them traps. -/
def Obligations.TwoSourceResults : Prop :=
  (∀ (s : State) (p : Pid) (pr : Proc) (m : Mods) (d r : SReg) (t : Option SReg),
    Issues s p pr (lenOf m false t.isSome) → On m pr →
    let a := match t with | none => pr.ctx.rs d | some _ => pr.ctx.rs r
    let b := match t with | none => pr.ctx.rs r | some t => pr.ctx.rs t
    let n := b &&& 63
    let gives := fun (v : Word) => GoesOn s p pr (lenOf m false t.isSome) (pr.ctx.ws d v)
    gives (a + b) (exec (.add m d r t) s) ∧
    gives (a - b) (exec (.sub m d r t) s) ∧
    gives (a * b) (exec (.mul m d r t) s) ∧
    gives ((a.signExtend 128 * b.signExtend 128).extractLsb' 64 64) (exec (.mulh m d r t) s) ∧
    gives ((a.setWidth 128 * b.setWidth 128).extractLsb' 64 64) (exec (.mulhn m d r t) s) ∧
    gives (a &&& b) (exec (.and m d r t) s) ∧
    gives (a ||| b) (exec (.or m d r t) s) ∧
    gives (a ^^^ b) (exec (.xor m d r t) s) ∧
    gives (a <<< n) (exec (.shl m d r t) s) ∧
    gives (a >>> n) (exec (.shr m d r t) s) ∧
    gives (a.sshiftRight' n) (exec (.sar m d r t) s) ∧
    gives ((a <<< n) ||| (a >>> (64 - n))) (exec (.rol m d r t) s) ∧
    gives (if a.slt b then a else b) (exec (.min m d r t) s) ∧
    gives (if a.slt b then b else a) (exec (.max m d r t) s) ∧
    gives (if a.ult b then a else b) (exec (.minn m d r t) s) ∧
    gives (if a.ult b then b else a) (exec (.maxn m d r t) s)) ∧
  (∀ (s : State) (p : Pid) (pr : Proc) (m : Mods) (d r : SReg) (t : Option SReg),
    Issues s p pr (lenOf m false t.isSome) → On m pr →
    let a := match t with | none => pr.ctx.rs d | some _ => pr.ctx.rs r
    let b := match t with | none => pr.ctx.rs r | some t => pr.ctx.rs t
    let gives := fun (v : Word) => GoesOn s p pr (lenOf m false t.isSome) (pr.ctx.ws d v)
    gives (if b = 0 then 0xFFFFFFFFFFFFFFFF else a.sdiv b) (exec (.div m d r t) s) ∧
    gives (if b = 0 then 0xFFFFFFFFFFFFFFFF else a.udiv b) (exec (.divn m d r t) s) ∧
    gives (if b = 0 then a else a.srem b) (exec (.rem m d r t) s) ∧
    gives (if b = 0 then a else a.umod b) (exec (.remn m d r t) s))

/-- R223 and R224: the one-source group and the immediates.

R226 and R227: LEA in both forms, and SEL, which its predicate never gates. -/
def Obligations.OneSourceResults : Prop :=
  (∀ (s : State) (p : Pid) (pr : Proc) (m : Mods) (d r : SReg) (v : Word),
    Issues s p pr (lenOf m false false) → On m pr →
    let a := pr.ctx.rs r
    let e := pr.ctx.rs d
    let gives := fun (x : Word) => GoesOn s p pr (lenOf m false false) (pr.ctx.ws d x)
    gives (0 - a) (exec (.neg m d r) s) ∧
    gives (a ^^^ BitVec.allOnes 64) (exec (.not m d r) s) ∧
    (∃ n : Nat, n ≤ 64 ∧ gives (BitVec.ofNat 64 n) (exec (.clz m d r) s) ∧
      (∀ i < 64, 64 - n ≤ i → a.getLsbD i = false) ∧ (n < 64 → a.getLsbD (63 - n) = true)) ∧
    (∃ n : Nat, n ≤ 64 ∧ gives (BitVec.ofNat 64 n) (exec (.ctz m d r) s) ∧
      (∀ i < n, a.getLsbD i = false) ∧ (n < 64 → a.getLsbD n = true)) ∧
    gives (BitVec.ofNat 64 ((List.range 64).filter fun i => a.getLsbD i).length) (exec (.popc m d r) s) ∧
    gives ((a.setWidth 32).signExtend 64) (exec (.sext m d r .w) s) ∧
    gives ((a.setWidth 16).signExtend 64) (exec (.sext m d r .h) s) ∧
    gives ((a.setWidth 8).signExtend 64) (exec (.sext m d r .b) s) ∧
    gives (a &&& 0xFFFFFFFF) (exec (.zext m d r .w) s) ∧
    gives (a &&& 0xFFFF) (exec (.zext m d r .h) s) ∧
    gives (a &&& 0xFF) (exec (.zext m d r .b) s) ∧
    gives a (exec (.mov m d r) s) ∧
    gives (e + v) (exec (.addi m d v) s) ∧
    gives (e &&& v) (exec (.andi m d v) s) ∧
    gives (e ||| v) (exec (.ori m d v) s) ∧
    gives (e ^^^ v) (exec (.xori m d v) s) ∧
    gives v (exec (.movi m d v) s) ∧
    gives ((v <<< 32) ||| (e &&& 0xFFFFFFFF)) (exec (.movhi m d v) s)) ∧
  (∀ (s : State) (p : Pid) (pr : Proc) (m : Mods) (d r t : SReg) (sc : BitVec 2) (v : Word),
    (Issues s p pr (lenOf m false false) → On m pr →
      GoesOn s p pr (lenOf m false false) (pr.ctx.ws d (pr.ctx.rs r + v)) (exec (.lea m d r none sc v) s)) ∧
    (Issues s p pr (lenOf m false true) → On m pr →
      GoesOn s p pr (lenOf m false true) (pr.ctx.ws d (pr.ctx.rs r + pr.ctx.rs t * 2 ^ sc.toNat + v))
        (exec (.lea m d r (some t) sc v) s)) ∧
    (Issues s p pr (lenOf m false true) →
      GoesOn s p pr (lenOf m false true)
        (pr.ctx.ws d (if (maskOf m pr.ctx).getLsbD 0 then pr.ctx.rs r else pr.ctx.rs t)) (exec (.sel m d r t) s)))

/-- R228 and R229: compares and the forms that write a predicate or move one. -/
def Obligations.PredicateResults : Prop :=
  ∀ (s : State) (p : Pid) (pr : Proc) (m : Mods) (d q : PReg) (r e : SReg) (t : Option SReg) (u : Option PReg) (v : Word),
    On m pr →
    let ones : Word := BitVec.allOnes 64
    let b := match t with | none => 0 | some t => pr.ctx.rs t
    let cmp := fun (c : Cnd) (h : Bool) => Issues s p pr (lenOf m false t.isSome) →
      GoesOn s p pr (lenOf m false t.isSome) (pr.ctx.wp d (if h then ones else 0)) (exec (.cmp m d r t c) s)
    let cmpi := fun (c : Cnd) (h : Bool) => Issues s p pr (lenOf m false false) →
      GoesOn s p pr (lenOf m false false) (pr.ctx.wp d (if h then ones else 0)) (exec (.cmpi m d r c v) s)
    let x := match u with | none => pr.ctx.rp d | some _ => pr.ctx.rp q
    let y := match u with | none => pr.ctx.rp q | some u => pr.ctx.rp u
    let a := pr.ctx.rs r
    (cmp .eq (a == b) ∧ cmp .ne (a != b) ∧ cmp .lt (a.slt b) ∧ cmp .ge (b.sle a) ∧ cmp .ltn (a.ult b) ∧ cmp .gen (b.ule a)) ∧
    (cmpi .eq (a == v) ∧ cmpi .ne (a != v) ∧ cmpi .lt (a.slt v) ∧ cmpi .ge (v.sle a) ∧ cmpi .ltn (a.ult v) ∧
      cmpi .gen (v.ule a)) ∧
    (Issues s p pr (lenOf m true u.isSome) →
      GoesOn s p pr (lenOf m true u.isSome) (pr.ctx.wp d (x &&& y)) (exec (.pand m d q u) s) ∧
      GoesOn s p pr (lenOf m true u.isSome) (pr.ctx.wp d (x ||| y)) (exec (.por m d q u) s)) ∧
    (Issues s p pr (lenOf m true false) →
      GoesOn s p pr (lenOf m true false) (pr.ctx.wp d (pr.ctx.rp q ^^^ ones)) (exec (.pnot m d q) s) ∧
      GoesOn s p pr (lenOf m true false) (pr.ctx.wp d (pr.ctx.rp q)) (exec (.pmov m (.pp d q)) s) ∧
      GoesOn s p pr (lenOf m true false) (pr.ctx.wp d a) (exec (.pmov m (.ps d r)) s) ∧
      GoesOn s p pr (lenOf m true false) (pr.ctx.ws e (pr.ctx.rp q)) (exec (.pmov m (.sp e q)) s))

/-- R29: an instruction that its predicate gates off changes no register and no memory, and the process goes on past it. -/
def Obligations.GatedOff : Prop :=
  ∀ (s : State) (p : Pid) (pr : Proc) (m : Mods) (d r : SReg) (t : Option SReg) (v disp : Word) (z : Sz),
    onOf m pr.ctx = false →
    (Issues s p pr (lenOf m false t.isSome) →
      GoesOn s p pr (lenOf m false t.isSome) pr.ctx (exec (.add m d r t) s) ∧
      GoesOn s p pr (lenOf m false t.isSome) pr.ctx (exec (.div m d r t) s)) ∧
    (Issues s p pr (lenOf m false false) →
      GoesOn s p pr (lenOf m false false) pr.ctx (exec (.movi m d v) s) ∧
      GoesOn s p pr (lenOf m false false) pr.ctx (exec (.b m disp) s) ∧
      GoesOn s p pr (lenOf m false false) pr.ctx (exec (.st m d r z v) s) ∧
      GoesOn s p pr (lenOf m false false) pr.ctx (exec (.ld m d r z v) s))


/-! ## Control -/

/-- R231 to R233: every transfer to an even target, taken and not taken; JL leaves the address after it in s63.

R233: a transfer to an odd target takes ILLEGAL_OP, cause 10, and writes nothing, s63 included. -/
def Obligations.Transfers : Prop :=
  (∀ (s : State) (p : Pid) (pr : Proc) (m : Mods) (d : SReg) (v : Word),
    Issues s p pr (lenOf m false false) →
    let len := lenOf m false false
    let rel := pr.pc + 2 * v
    let lands := fun (a : Word) (c : Ctx) => Completes s p a c pr.loop
    (rel.getLsbD 0 = false →
      (On m pr → lands rel pr.ctx (exec (.b m v) s)) ∧
      (if (maskOf m pr.ctx).getLsbD 0 then lands rel pr.ctx (exec (.bp m v) s) else GoesOn s p pr len pr.ctx (exec (.bp m v) s)) ∧
      (On m pr → if pr.ctx.rs d = 0 then lands rel pr.ctx (exec (.bz m d v) s) else GoesOn s p pr len pr.ctx (exec (.bz m d v) s)) ∧
      (On m pr → if pr.ctx.rs d ≠ 0 then lands rel pr.ctx (exec (.bnz m d v) s) else GoesOn s p pr len pr.ctx (exec (.bnz m d v) s)) ∧
      (On m pr → lands rel (pr.ctx.ws 63 (pr.pc + BitVec.ofNat 64 len)) (exec (.jl m v) s))) ∧
    ((pr.ctx.rs d).getLsbD 0 = false → On m pr → lands (pr.ctx.rs d) pr.ctx (exec (.j m d) s)) ∧
    ((pr.ctx.rs 63).getLsbD 0 = false → On m pr → lands (pr.ctx.rs 63) pr.ctx (exec (.ret m) s))) ∧
  (∀ (s : State) (p : Pid) (pr : Proc) (m : Mods) (d : SReg) (v : Word),
    Issues s p pr (lenOf m false false) → On m pr → pr.TrapsHere →
    let ill := TakesTrap s p pr 1 10 0 0 0
    ((pr.pc + 2 * v).getLsbD 0 = true → ill (exec (.b m v) s) ∧ ill (exec (.bp m v) s) ∧ ill (exec (.jl m v) s) ∧
      (if pr.ctx.rs d = 0 then ill (exec (.bz m d v) s) else ill (exec (.bnz m d v) s))) ∧
    ((pr.ctx.rs d).getLsbD 0 = true → ill (exec (.j m d) s)) ∧
    ((pr.ctx.rs 63).getLsbD 0 = true → ill (exec (.ret m) s)))

/-- R235 to R237: REP whose block can be fetched skips it when the count register is 0, and pins it otherwise.

R236: at the end of an iteration of a pinned block the count register steps down and the block runs again, or it reads 0 and
the loop is over; the test uses the value the register holds then, also when the last instruction wrote it. -/
def Obligations.RepBlocks : Prop :=
  (∀ (s s' : State) (p : Pid) (pr pr' : Proc) (m : Mods) (d : SReg) (n : BitVec 7) (stop : Word) (words : Tab (BitVec 16)),
    Issues s p pr (lenOf m false false) → On m pr →
    let start := pr.pc + BitVec.ofNat 64 (lenOf m false false)
    fetchBlock p n.toNat start [] s = .ok ((stop, words), s') → s'.proc? p = some pr' → pr'.pc = pr.pc → stop ≠ start →
    if pr.ctx.rs d = 0 then Completes s' p stop pr'.ctx pr'.loop (exec (.rep m d n) s)
    else Completes s' p start pr'.ctx
      (some { rep := pr.pc, start := start, stop := stop, n := n, sreg := d, words := words }) (exec (.rep m d n) s)) ∧
  (∀ (s : State) (p : Pid) (pr : Proc) (m : Mods) (d r : SReg) (l : Loop),
    s.cur = some p → s.proc? p = some pr → pr.ctx.Settled → On m pr → pr.leaving = false → pr.loop = some l → l.sreg ≠ 0 →
    pr.pc + BitVec.ofNat 64 (lenOf m false false) = l.stop →
    let ends := fun (c : Ctx) =>
      let v := Tab.getD l.sreg.toNat c.s 0
      if v.ule 1 then Completes s p l.stop { c with s := Tab.del l.sreg.toNat c.s } none
      else Completes s p l.start { c with s := Tab.put l.sreg.toNat (v - 1) c.s } (some l)
    ends pr.ctx (exec (.nop m) s) ∧
    ends (pr.ctx.ws d (pr.ctx.rs d + pr.ctx.rs r)) (exec (.add m d r none) s))

/-- R239, R215: NOP has no effect; TFENCE goes on when no enabled flag of any lane is set, and takes ARITH otherwise.

R240, R433: BKPT with software breakpoints enabled and a debugger attached stops its cluster at the BKPT, with cause BKPT and
the process in DBGSTAT, and the halt is complete after 12 core cycles; otherwise it takes BREAK with n. -/
def Obligations.NopTfenceAndBkpt : Prop :=
  (∀ (s : State) (p : Pid) (pr : Proc) (m : Mods), Issues s p pr (lenOf m false false) → On m pr →
    let set := fun (f : Nat) => (List.range 16).any fun l => pr.ctx.flags.getLsbD (5 * l + f) && pr.ctx.fctl.getLsbD (8 + f)
    GoesOn s p pr (lenOf m false false) pr.ctx (exec (.nop m) s) ∧
    ((∀ f < 5, set f = false) → GoesOn s p pr (lenOf m false false) pr.ctx (exec (.tfence m) s)) ∧
    (pr.TrapsHere → (∃ f < 5, set f = true) →
      ∃ aux : Word, (∀ f < 5, aux.getLsbD f = set f) ∧
        TakesTrap s p pr 21 0 (lenOf m false false) 0 aux (exec (.tfence m) s))) ∧
  (∀ (s : State) (p : Pid) (pr : Proc) (m : Mods) (n : BitVec 8), Issues s p pr (lenOf m false false) → On m pr →
    (pr.dbgEn.getLsbD 0 = true → (s.cluster pr.cl).dm.att = true → (s.cluster pr.cl).dm.phase = .running →
      8 ≤ (s.cluster pr.cl).dm.xgrp.toNat →
      ∃ t, exec (.bkpt m n) s = .next t ∧ (t.proc? p).map Proc.view = some pr.view ∧
        (t.cluster pr.cl).dm.phase = .stopping ∧ bits (t.cluster pr.cl).dm.dbgstat 7 0 = 3 ∧
        (s.cycles + 12, Instr.haltComplete pr.cl) ∈ t.queue ∧ FrameOf s t p) ∧
    (pr.dbgEn.getLsbD 0 = false → pr.TrapsHere →
      TakesTrap s p pr 20 0 (lenOf m false false) 0 (n.setWidth 64) (exec (.bkpt m n) s)))

/-- R307: a precise trap inside a chunk that holds earlier instructions gives them up: the process is back at the chunk's start
with its registers, and will run as many instructions again, alone, before it meets the trap.

R426, R428, R415: TRAP takes class 28 with n; SRET outside service mode takes PRIVILEGE MODE; SRET with DISP 0 gives the
context its own s56 to s63 back, resumes it at TPC and frees the service slot. -/
def Obligations.TrapsAndReturns : Prop :=
  (∀ (s : State) (p : Pid) (pr : Proc) (m : Mods) (v : Word) (c : Chunk),
    Issues s p pr (lenOf m false false) → On m pr → pr.chunk = some c → c.count ≠ 0 → (pr.pc + 2 * v).getLsbD 0 = true →
    ∃ t q, exec (.b m v) s = .next t ∧ t.proc? p = some q ∧ q.pc = c.pc0 ∧ q.loop = c.loop0 ∧ q.chunk = none ∧ q.solo = true ∧
      q.limit = some c.count ∧ q.state = pr.state ∧
      q.ctx = { c.ctx0 with plat := pr.ctx.plat, phid := pr.ctx.phid, expect := pr.ctx.expect, elapsed := pr.ctx.elapsed } ∧
      FrameOf s t p) ∧
  (∀ (s : State) (p : Pid) (pr : Proc) (m : Mods) (n : BitVec 8), Issues s p pr (lenOf m true false) → On m pr →
    (pr.TrapsHere → TakesTrap s p pr 28 0 (lenOf m true false) 0 (n.setWidth 64) (exec (.trap m n) s)) ∧
    (pr.TrapsHere → TakesTrap s p pr 3 1 (lenOf m true false) 0 0 (exec (.sret m) s)) ∧
    (∀ k x, pr.svc = some k → Tab.sorted pr.ctx.s = true →
      (Tab.getD k (s.cluster pr.cl).svc {}).ctx = some x → pr.chunk = none →
      bits x.frame.svcst 2 1 = 0 →
      ∃ t q, exec (.sret m) s = .next t ∧ t.proc? p = some q ∧ q.state = .ready ∧ q.svc = none ∧ q.pc = x.frame.tpc ∧
        (∀ r, 56 ≤ r → r ≤ 63 → Tab.getD r q.ctx.s 0 = Tab.getD r (Tab.getD k (s.cluster pr.cl).svc {}).ps 0) ∧
        (∀ r, r < 56 → Tab.getD r q.ctx.s 0 = Tab.getD r pr.ctx.s 0) ∧
        (Tab.getD k (t.cluster pr.cl).svc {}).ctx = none ∧ (∀ a, Memory.get a t.mem = Memory.get a s.mem)))

/-! ## Vectors -/

/-- R246, R241: bitwise forms over whole registers, any tags; tag and scale are those of the first source.

R247, R248: an integer compare sets the predicate bits of the lanes where it holds; VSEL chooses byte by byte and its
predicate gates nothing. -/
def Obligations.VectorBitwiseAndCompare : Prop :=
  (∀ (s : State) (p : Pid) (pr : Proc) (m : Mods) (d r : VReg) (t : Option VReg),
    let a := match t with | none => d | some _ => r
    let b := match t with | none => r | some t => t
    let c := pr.ctx
    c.rvtag a ≤ 13 → c.rvtag b ≤ 13 → c.rvtag r ≤ 13 →
    (Issues s p pr (lenOf m true t.isSome) →
      PutsV s p pr (lenOf m true t.isSome) m d (c.rv a &&& c.rv b) (c.rvtag a) (c.rvscale a) (exec (.vand m d r t) s) ∧
      PutsV s p pr (lenOf m true t.isSome) m d (c.rv a ||| c.rv b) (c.rvtag a) (c.rvscale a) (exec (.vor m d r t) s) ∧
      PutsV s p pr (lenOf m true t.isSome) m d (c.rv a ^^^ c.rv b) (c.rvtag a) (c.rvscale a) (exec (.vxor m d r t) s)) ∧
    (Issues s p pr (lenOf m true false) →
      PutsV s p pr (lenOf m true false) m d (~~~(c.rv r)) (c.rvtag r) (c.rvscale r) (exec (.vnot m d r) s))) ∧
  (∀ (s : State) (p : Pid) (pr : Proc) (m : Mods) (dp : PReg) (d r q : VReg) (tag : Tag),
    Issues s p pr (lenOf m true true) →
    let w := Tag.bits tag
    let c := pr.ctx
    let val := fun (q : VReg) (i : Nat) => Tag.int tag (elt w (c.rv q).toNat i)
    c.rvtag q = c.rvtag r → c.rvscale q = c.rvscale r →
    (Tag.isI tag = true → On m pr → c.rvtag r = BitVec.ofNat 4 tag.code →
      let sets := fun (cnd : Cnd) (f : Nat → Bool) => ∃ x : Word, (∀ b < 64, x.getLsbD b = f (b / (w / 8))) ∧
        GoesOn s p pr (lenOf m true true) (c.wp dp x) (exec (.vcmp m dp r q cnd) s)
      sets .eq (fun i => val r i == val q i) ∧ sets .ne (fun i => val r i != val q i) ∧
      sets .lt (fun i => decide (val r i < val q i)) ∧ sets .ge (fun i => decide (val q i ≤ val r i))) ∧
    (c.rvtag r ≤ 13 → ∃ x : Line,
      (∀ i < 512, x.getLsbD i = if (maskOf m c).getLsbD (i / 8) then (c.rv r).getLsbD i else (c.rv q).getLsbD i) ∧
      GoesOn s p pr (lenOf m true true) (c.wv d x (c.rvtag r) (c.rvscale r)) (exec (.vsel m d r q) s)))

/-- R243, R245: integer lanes of every width, wrapped or under .sat clamped, with scales as the forms require; no flag changes. -/
def Obligations.VectorIntegerLanes : Prop :=
  ∀ (s : State) (p : Pid) (pr : Proc) (m : Mods) (d r : VReg) (t : Option VReg) (sat : Bool) (tag : Tag),
    Tag.isI tag = true →
    let w := Tag.bits tag
    let c := pr.ctx
    let ra := match t with | none => d | some _ => r
    let rb := match t with | none => r | some t => t
    let val := fun (q : VReg) (i : Nat) => Tag.int tag (elt w (c.rv q).toNat i)
    let fit := fun (b : Bool) (x : Int) => (if b then max (Tag.lo tag) (min (Tag.hi tag) x) else x) % (2 ^ w : Nat)
    c.rvtag ra = BitVec.ofNat 4 tag.code → c.rvtag rb = BitVec.ofNat 4 tag.code →
    let puts := fun (sc : BitVec 8) (b : Bool) (f : Nat → Int) (o : Host.Outcome State Fault Refusal) =>
      ∃ new : Line, (∀ i < 512 / w, (elt w new.toNat i : Int) = fit b (f i)) ∧
        PutsV s p pr (lenOf m true t.isSome) m d new (BitVec.ofNat 4 tag.code) sc o
    (Issues s p pr (lenOf m true t.isSome) → c.rvscale ra = c.rvscale rb →
      puts (c.rvscale ra) sat (fun i => val ra i + val rb i) (exec (.vadd m d r t sat) s) ∧
      puts (c.rvscale ra) sat (fun i => val ra i - val rb i) (exec (.vsub m d r t sat) s) ∧
      puts (c.rvscale ra) false (fun i => min (val ra i) (val rb i)) (exec (.vmin m d r t) s) ∧
      puts (c.rvscale ra) false (fun i => max (val ra i) (val rb i)) (exec (.vmax m d r t) s)) ∧
    (Issues s p pr (lenOf m true t.isSome) →
      let sum := (c.rvscale ra).toInt + (c.rvscale rb).toInt
      (-128 ≤ sum ∧ sum ≤ 127 →
        puts (BitVec.ofInt 8 sum) sat (fun i => val ra i * val rb i) (exec (.vmul m d r t sat) s))) ∧
    (Issues s p pr (lenOf m true t.isSome) →
      let amt := fun (i : Nat) => elt w (c.rv rb).toNat i
      puts (c.rvscale ra) false (fun i => if w ≤ amt i then 0 else elt w (c.rv ra).toNat i * 2 ^ amt i) (exec (.vshl m d r t) s) ∧
      puts (c.rvscale ra) false (fun i => if w ≤ amt i then 0 else elt w (c.rv ra).toNat i / 2 ^ amt i) (exec (.vshr m d r t) s) ∧
      puts (c.rvscale ra) false (fun i => toSigned w (elt w (c.rv ra).toNat i) / 2 ^ min (amt i) w) (exec (.vsar m d r t) s))

/-- R243: VABS and VNEG of integers, and VMAC and VCLAMP, whose destination is an operand as well. -/
def Obligations.VectorIntegerForms : Prop :=
  ∀ (s : State) (p : Pid) (pr : Proc) (m : Mods) (d r q : VReg) (sat : Bool) (tag : Tag),
    Tag.isI tag = true →
    let w := Tag.bits tag
    let c := pr.ctx
    let val := fun (q : VReg) (i : Nat) => Tag.int tag (elt w (c.rv q).toNat i)
    let fit := fun (b : Bool) (x : Int) => (if b then max (Tag.lo tag) (min (Tag.hi tag) x) else x) % (2 ^ w : Nat)
    c.rvtag r = BitVec.ofNat 4 tag.code →
    let puts := fun (len : Nat) (sc : BitVec 8) (b : Bool) (f : Nat → Int) (o : Host.Outcome State Fault Refusal) =>
      ∃ new : Line, (∀ i < 512 / w, (elt w new.toNat i : Int) = fit b (f i)) ∧
        PutsV s p pr len m d new (BitVec.ofNat 4 tag.code) sc o
    (Issues s p pr (lenOf m true false) →
      puts (lenOf m true false) (c.rvscale r) sat (fun i => (val r i).natAbs) (exec (.vabs m d r sat) s) ∧
      puts (lenOf m true false) (c.rvscale r) sat (fun i => -(val r i)) (exec (.vneg m d r sat) s)) ∧
    (Issues s p pr (lenOf m true true) → c.rvtag d = c.rvtag r → c.rvtag q = c.rvtag r →
      ((c.rvscale d).toInt = (c.rvscale r).toInt + (c.rvscale q).toInt →
        puts (lenOf m true true) (c.rvscale d) sat (fun i => val d i + val r i * val q i) (exec (.vmac m d r q sat) s)) ∧
      (c.rvscale r = c.rvscale d → c.rvscale q = c.rvscale d →
        puts (lenOf m true true) (c.rvscale d) false (fun i => min (max (val d i) (val r i)) (val q i)) (exec (.vclamp m d r q) s)))

/-- R243, R252, R241, R214: float forms complete on every float tag, write d under the predicate with the sources' tag and raise
flags at most; an FP32 lane with a NaN operand gives the canonical NaN. -/
def Obligations.VectorFloatForms : Prop :=
  ∀ (s : State) (p : Pid) (pr : Proc) (m : Mods) (d r q : VReg) (sat : Bool) (tag : Tag),
    Tag.isF tag = true →
    let c := pr.ctx
    let code := BitVec.ofNat 4 tag.code
    let nan := fun (v : VReg) (i : Nat) =>
      (elt 32 (c.rv v).toNat i / 2 ^ 23 % 256 = 255 ∧ elt 32 (c.rv v).toNat i % 2 ^ 23 ≠ 0)
    let puts := fun (len : Nat) (vs : List VReg) (sc : BitVec 8) (o : Host.Outcome State Fault Refusal) =>
      ∃ new : Line, (tag = .fp32 → ∀ i < 16, (∃ v ∈ vs, nan v i) → elt 32 new.toNat i = 0x7FC00000) ∧
        PutsVF s p pr len m d new code sc o
    c.rvtag r = code →
    (Issues s p pr (lenOf m true false) →
      puts (lenOf m true false) [r] (c.rvscale r) (exec (.vabs m d r sat) s) ∧
      puts (lenOf m true false) [r] (c.rvscale r) (exec (.vneg m d r sat) s) ∧
      puts (lenOf m true false) [r] 0 (exec (.vrcp m d r) s) ∧
      puts (lenOf m true false) [r] 0 (exec (.vrsq m d r) s) ∧
      puts (lenOf m true false) [r] 0 (exec (.vexp2 m d r) s) ∧
      puts (lenOf m true false) [r] 0 (exec (.vlog2 m d r) s) ∧
      puts (lenOf m true false) [r] 0 (exec (.vtanh m d r) s)) ∧
    (Issues s p pr (lenOf m true true) → c.rvtag q = code →
      (c.rvscale r = c.rvscale q →
        puts (lenOf m true true) [r, q] (c.rvscale r) (exec (.vadd m d r (some q) sat) s) ∧
        puts (lenOf m true true) [r, q] (c.rvscale r) (exec (.vsub m d r (some q) sat) s)) ∧
      (c.rvtag d = code → (c.rvscale d).toInt = (c.rvscale r).toInt + (c.rvscale q).toInt →
        puts (lenOf m true true) [d, r, q] (c.rvscale d) (exec (.vfma m d r q) s) ∧
        puts (lenOf m true true) [d, r, q] (c.rvscale d) (exec (.vfms m d r q) s)))

/-- R250: integer reductions and scans over the lanes whose lowest byte's predicate bit is 1.

R253: VDOT4 adds to each INT32 lane the products of the four signed or unsigned bytes there. -/
def Obligations.VectorReductions : Prop :=
  (∀ (s : State) (p : Pid) (pr : Proc) (m : Mods) (ds : SReg) (d r : VReg) (tag : Tag),
    Issues s p pr (lenOf m true false) → Tag.isI tag = true → pr.ctx.rvtag r = BitVec.ofNat 4 tag.code →
    let w := Tag.bits tag
    let c := pr.ctx
    let val := fun (i : Nat) => Tag.int tag (elt w (c.rv r).toNat i)
    let act := fun (i : Nat) => (maskOf m c).getLsbD (i * (w / 8))
    let lanes := (List.range (512 / w)).filter act
    GoesOn s p pr (lenOf m true false) (c.ws ds (BitVec.ofInt 64 ((lanes.map val).sum))) (exec (.vred m ds r .add) s) ∧
    ∃ x : Line,
      (∀ i < 512 / w, elt w x.toNat i =
        if act i then ((((lanes.filter (· ≤ i)).map val).sum) % (2 ^ w : Nat)).toNat else elt w (c.rv d).toNat i) ∧
      GoesOn s p pr (lenOf m true false) (c.wv d x (c.rvtag r) (c.rvscale r)) (exec (.vscan m d r .add) s)) ∧
  (∀ (s : State) (p : Pid) (pr : Proc) (m : Mods) (d r q : VReg) (sat : Bool) (ta tb : Tag),
    Issues s p pr (lenOf m true true) → ta ∈ [Tag.int8, .nat8] → tb ∈ [Tag.int8, .nat8] →
    let c := pr.ctx
    c.rvtag d = 5 → c.rvtag r = BitVec.ofNat 4 ta.code → c.rvtag q = BitVec.ofNat 4 tb.code →
    (c.rvscale d).toInt = (c.rvscale r).toInt + (c.rvscale q).toInt →
    let sum := fun (i : Nat) => toSigned 32 (elt 32 (c.rv d).toNat i) +
      ((List.range 4).map fun k => Tag.int ta (elt 8 (c.rv r).toNat (4 * i + k)) * Tag.int tb (elt 8 (c.rv q).toNat (4 * i + k))).sum
    ∃ new : Line, (∀ i < 16, (elt 32 new.toNat i : Int) =
        (if sat then max (-(2 ^ 31)) (min (2 ^ 31 - 1) (sum i)) else sum i) % 2 ^ 32) ∧
      PutsV s p pr (lenOf m true true) m d new 5 (c.rvscale d) (exec (.vdot4 m d r q sat) s))

/-- R251: lane movement between vector and scalar registers for tags with byte lanes or wider, ACC20 apart. -/
def Obligations.VectorLaneMoves : Prop :=
  ∀ (s : State) (p : Pid) (pr : Proc) (m : Mods) (ds : SReg) (d r q : VReg) (lane : BitVec 6) (tag : Tag),
    tag ≠ .acc20 →
    let w := match tag with | .raw | .int4x2 => 8 | t => Tag.bits t
    let c := pr.ctx
    let len := lenOf m true false
    let all := fun (x : Nat) (new : Line) => ∀ i < 512 / w, elt w new.toNat i = x % 2 ^ w
    (Issues s p pr len → c.rvtag r = BitVec.ofNat 4 tag.code → lane.toNat < 512 / w →
      (∃ new : Line, all (elt w (c.rv r).toNat lane.toNat) new ∧
        PutsV s p pr len m d new (c.rvtag r) (c.rvscale r) (exec (.vbcast m d r lane) s)) ∧
      (On m pr → GoesOn s p pr len (c.ws ds (match tag with
        | .int8 | .int16 | .int32 => BitVec.ofInt 64 (toSigned w (elt w (c.rv r).toNat lane.toNat))
        | _ => BitVec.ofNat 64 (elt w (c.rv r).toNat lane.toNat))) (exec (.vext m ds r lane) s))) ∧
    (Issues s p pr len →
      ∃ new : Line, all (c.rs ds).toNat new ∧ PutsV s p pr len m d new (BitVec.ofNat 4 tag.code) 0 (exec (.vsplat m d ds tag) s)) ∧
    (Issues s p pr len → c.rvtag d = BitVec.ofNat 4 tag.code → lane.toNat < 512 / w →
      ∃ new : Line, (∀ i < 512 / w, elt w new.toNat i = if i = lane.toNat then (c.rs ds).toNat % 2 ^ w else elt w (c.rv d).toNat i) ∧
        PutsV s p pr len m d new (c.rvtag d) (c.rvscale d) (exec (.vins m d ds lane) s)) ∧
    (Issues s p pr (lenOf m true true) → c.rvtag r ≤ 13 → c.rvtag q ≤ 2 →
      ∃ new : Line, (∀ i < 64, elt 8 new.toNat i =
          if 128 ≤ elt 8 (c.rv q).toNat i then 0 else elt 8 (c.rv r).toNat (elt 8 (c.rv q).toNat i % 64)) ∧
        PutsV s p pr (lenOf m true true) m d new (c.rvtag r) (c.rvscale r) (exec (.vperm m d r q) s))

/-- R249, R209, R212: a conversion to INT32 of integer elements at scale 0 gives each value, leaves the scale 0 and draws nothing; a
conversion of any tag but RAW completes with the target's tag and scale 0.

R242: a vector form whose sources carry different tags takes FORMAT, with the position of the operand that differs in OPND and
its tag in TAG, and writes nothing. -/
def Obligations.VectorConversionsAndTags : Prop :=
  (∀ (s : State) (p : Pid) (pr : Proc) (m : Mods) (d r : VReg) (fmt tag : Tag) (rnd : Rnd),
    Issues s p pr (lenOf m true false) → tag ≠ .raw → pr.ctx.rvtag r = BitVec.ofNat 4 tag.code →
    let c := pr.ctx
    (∃ new x fl sr, Merged (maskOf m c) (c.rv d) new x ∧ (rnd ≠ .sr → rnd ≠ .fctl → sr = c.srstate) ∧
      GoesOn s p pr (lenOf m true false)
        { c.wv d x (BitVec.ofNat 4 fmt.code) 0 with flags := c.flags ||| fl, srstate := sr } (exec (.vcvt m d r fmt rnd) s)) ∧
    (Tag.isI tag = true → c.rvscale r = 0 → maskOf m c = BitVec.allOnes 64 →
      ∃ new : Line, (∀ i < 16, elt 32 new.toNat i = (Tag.int tag (elt (Tag.bits tag) (c.rv r).toNat i) % 2 ^ 32).toNat) ∧
        GoesOn s p pr (lenOf m true false) (c.wv d new 5 0) (exec (.vcvt m d r .int32 .rtz) s))) ∧
  (∀ (s : State) (p : Pid) (pr : Proc) (m : Mods) (d r q : VReg) (sat : Bool) (tag : Tag),
    Issues s p pr (lenOf m true true) → pr.TrapsHere → (Tag.isI tag || Tag.isF tag) = true →
    pr.ctx.rvtag r = BitVec.ofNat 4 tag.code → pr.ctx.rvtag q ≠ pr.ctx.rvtag r → lenOf m true true < 16 →
    ∀ i ∈ [Instr.vadd m d r (some q) sat, .vsub m d r (some q) sat, .vmul m d r (some q) sat, .vmin m d r (some q),
           .vmax m d r (some q)],
      ∃ t x, exec i s = .next t ∧ (t.cluster pr.cl).svcQ = (s.cluster pr.cl).svcQ ++ [x] ∧ x.pid = p ∧ x.frame.tpc = pr.pc ∧
        bits x.frame.tcause 7 0 = 9 ∧ bits x.frame.tcause 23 20 = 3 ∧ bits x.frame.tcause 27 24 = (pr.ctx.rvtag q).toNat ∧
        (t.proc? p).map (fun k => k.ctx.plain) = some pr.ctx.plain ∧ FrameOf s t p)

/-! ## Tiles -/

/-- R256: clearing, copying, tagging and scaling a tile; TTAG and TSCL are not predicated and keep the bytes.

R257, R258: the products of TMMA, integer TADD, and the transposition of TTRN byte by byte or by two-byte elements. -/
def Obligations.TileForms : Prop :=
  (∀ (s : State) (p : Pid) (pr : Proc) (m : Mods) (d r : TReg) (q : SReg) (fmt : Tag) (sc : BitVec 8),
    Issues s p pr (lenOf m true false) →
    let c := pr.ctx
    let len := lenOf m true false
    PutsT s p pr len m d 0 (c.rttag d) (c.rtscale d) (exec (.tzero m d) s) ∧
    (c.rttag r ≤ 13 → PutsT s p pr len m d (c.rt r) (c.rttag r) (c.rtscale r) (exec (.tmov m d r) s)) ∧
    GoesOn s p pr len (c.wt d (c.rt d) (BitVec.ofNat 4 fmt.code) sc) (exec (.ttag m d fmt sc) s) ∧
    (let sum := (c.rtscale d).toInt + (c.rs q).toInt
     c.rttag d ≠ 0 → c.rttag d ≤ 13 → -128 ≤ sum → sum ≤ 127 →
      GoesOn s p pr len (c.wt d (c.rt d) (c.rttag d) (BitVec.ofInt 8 sum)) (exec (.tscl m d q) s))) ∧
  (∀ (s : State) (p : Pid) (pr : Proc) (m : Mods) (d r q : TReg) (sat : Bool) (ta tb tag : Tag),
    let c := pr.ctx
    (Issues s p pr (lenOf m true true) → ta ∈ [Tag.int8, .nat8] → tb ∈ [Tag.int8, .nat8] →
      c.rttag d = 5 → c.rttag r = BitVec.ofNat 4 ta.code → c.rttag q = BitVec.ofNat 4 tb.code →
      (c.rtscale d).toInt = (c.rtscale r).toInt + (c.rtscale q).toInt →
      ∃ new : TileData, (∀ i < 16, ∀ j < 16, (elt 32 new.toNat (16 * i + j) : Int) =
          (toSigned 32 (elt 32 (c.rt d).toNat (16 * i + j)) + ((List.range 32).map fun k =>
            Tag.int ta (elt 8 (c.rt r).toNat (32 * i + k)) * Tag.int tb (elt 8 (c.rt q).toNat (32 * k + j))).sum) % 2 ^ 32) ∧
        PutsT s p pr (lenOf m true true) m d new 5 (c.rtscale d) (exec (.tmma m d r q) s)) ∧
    (Issues s p pr (lenOf m true true) → Tag.isI tag = true → c.rttag r = BitVec.ofNat 4 tag.code → c.rttag q = c.rttag r →
      c.rtscale q = c.rtscale r →
      let w := Tag.bits tag
      ∃ new : TileData, (∀ i < 8192 / w, (elt w new.toNat i : Int) =
          (let x := Tag.int tag (elt w (c.rt r).toNat i) + Tag.int tag (elt w (c.rt q).toNat i)
           if sat then max (Tag.lo tag) (min (Tag.hi tag) x) else x) % (2 ^ w : Nat)) ∧
        PutsT s p pr (lenOf m true true) m d new (c.rttag r) (c.rtscale r) (exec (.tadd m d r (some q) sat) s)) ∧
    (Issues s p pr (lenOf m true false) → c.rttag r = 0 →
      (∃ new : TileData, (∀ i < 32, ∀ j < 32, elt 8 new.toNat (32 * i + j) = elt 8 (c.rt r).toNat (32 * j + i)) ∧
        PutsT s p pr (lenOf m true false) m d new 0 (c.rtscale r) (exec (.ttrn m d r false) s)) ∧
      (∃ new : TileData, (∀ i < 32, ∀ j < 16, elt 16 new.toNat (16 * i + j) = elt 16 (c.rt r).toNat (32 * j + i)) ∧
        PutsT s p pr (lenOf m true false) m d new 0 (c.rtscale r) (exec (.ttrn m d r true) s))) ∧
    (Issues s p pr (lenOf m true false) → tag ≠ .raw → c.rttag r = BitVec.ofNat 4 tag.code → ∀ fmt rnd,
      ∃ new x fl sr, MergedTile (maskOf m c) (c.rt d) new x ∧ (rnd ≠ .sr → rnd ≠ .fctl → sr = c.srstate) ∧
        GoesOn s p pr (lenOf m true false)
          { c.wt d x (BitVec.ofNat 4 fmt.code) 0 with flags := c.flags ||| fl, srstate := sr } (exec (.tcvt m d r fmt rnd) s)))

/-! ## Loads and stores -/

/-- R190, R193, R185: scalar loads from the scratchpad read the bytes the process itself sees, least significant first, zero- or
sign-extended; TIMEBASE reads the nanoseconds (R14, R183).

R194 to R196, R178: vector and tile loads and gathers from the scratchpad; `lf` gives the tag, RAW without it, and the scale
is 0. -/
def Obligations.ScratchpadLoading : Prop :=
  (∀ (s : State) (p : Pid) (pr : Proc) (m : Mods) (d r : SReg) (sz : Sz) (off : Word) (loc : Nat),
    Issues s p pr (lenOf m false false) → On m pr → Quiet s pr →
    let len := lenOf m false false
    let n := szBits sz / 8
    (Local s pr (pr.ctx.rs r + off) n loc →
      GoesOn s p pr len (pr.ctx.ws d (BitVec.ofNat 64 (seenNat s pr loc n))) (exec (.ld m d r sz off) s) ∧
      GoesOn s p pr len (pr.ctx.ws d (BitVec.ofInt 64 (toSigned (8 * n) (seenNat s pr loc n)))) (exec (.lds m d r sz off) s)) ∧
    (Local s pr (pr.ctx.rs r) n loc →
      GoesOn s p pr len (pr.ctx.ws d (BitVec.ofNat 64 (seenNat s pr loc n))) (exec (.lda m d r sz) s)) ∧
    (pr.ctx.rs r + off = 0xC000000004000000 → regionOf pr.cl = 0 → s.spmBytes pr.team ≤ 0x04000000 →
      GoesOn s p pr len (pr.ctx.ws d (BitVec.ofNat 64 (s.cycles * 5 / 6))) (exec (.ld m d r .d off) s))) ∧
  (∀ (s : State) (p : Pid) (pr : Proc) (m : Mods) (d t : VReg) (td : TReg) (r : SReg) (lf : Option Tag) (tx : Tx) (off : Word)
      (loc : Nat) (locs : Nat → Nat),
    Quiet s pr →
    let c := pr.ctx
    let ea := c.rs r + off
    let tag : BitVec 4 := match lf with | some f => BitVec.ofNat 4 f.code | none => 0
    let len := lenOf m false false
    (Issues s p pr len → Local s pr ea 64 loc →
      ∃ new : Line, (∀ i < 64, elt 8 new.toNat i = (seen s pr (loc + i)).toNat) ∧
        PutsV s p pr len m d new tag 0 (exec (.ldv m d r lf off) s)) ∧
    (Issues s p pr len → (∀ i < 16, Local s pr (ea + BitVec.ofNat 64 (64 * i)) 64 (loc + 64 * i)) → (lf = none ∨ tx = .none) →
      let src := fun (i b : Nat) => match tx with
        | .none => 32 * i + b | .x8 => 32 * b + i | .x16 => 64 * (b / 2) + 2 * i + b % 2
      ∃ new : TileData, (∀ i < 32, ∀ b < 32, elt 8 new.toNat (32 * i + b) = (seen s pr (loc + src i b)).toNat) ∧
        PutsT s p pr len m td new tag 0 (exec (.ldt m td r lf tx off) s)) ∧
    (Issues s p pr (lenOf m false true) → c.rvtag t = 0 →
      let on := fun (i : Nat) => (maskOf m c).getLsbD (4 * i)
      (∀ i < 16, on i = true → Local s pr (c.rs r + ((c.rv t).extractLsb' (32 * i) 32).setWidth 64) 4 (locs i)) →
      (lf = none → on 0 = true) →
      ∃ x : Line, (∀ i < 16, elt 32 x.toNat i = if on i then seenNat s pr (locs i) 4 else elt 32 (c.rv d).toNat i) ∧
        GoesOn s p pr (lenOf m false true) (c.wv d x tag 0) (exec (.ldg m d r t lf) s)))

/-- R190, R193 to R196, R185, R188: inside a chunk every store to the scratchpad changes what the process sees in exactly its bytes,
and memory stays as it was until the chunk commits.

R188, R193: outside every chunk a store to the scratchpad changes memory in exactly its bytes, STL at a scope wider than the
cluster among them. -/
def Obligations.ScratchpadStores : Prop :=
  (∀ (s : State) (p : Pid) (pr : Proc) (m : Mods) (d r : SReg) (v t : VReg) (td : TReg) (sz : Sz) (off : Word) (loc : Nat)
      (locs : Nat → Nat) (c : Chunk),
    Quiet s pr → pr.chunk = some c →
    let n := szBits sz / 8
    let x := pr.ctx
    let ea := x.rs r + off
    let len := lenOf m false false
    let word := fun (k : Nat) => if loc ≤ k ∧ k < loc + n then some (BitVec.ofNat 8 ((x.rs d).toNat / 256 ^ (k - loc))) else none
    (Issues s p pr len → On m pr → Local s pr ea n loc → Buffers s p pr len word (exec (.st m d r sz off) s)) ∧
    (Issues s p pr len → On m pr → Local s pr (x.rs r) n loc → scopeOf m ≤ 3 →
      Buffers s p pr len word (exec (.stl m d r sz) s)) ∧
    (Issues s p pr len → Local s pr ea 64 loc →
      Buffers s p pr len (fun k => if loc ≤ k ∧ k < loc + 64 ∧ (maskOf m x).getLsbD (k - loc) = true then
        some ((x.rv v).extractLsb' (8 * (k - loc)) 8) else none) (exec (.stv m v r off) s)) ∧
    (Issues s p pr len → (∀ i < 16, Local s pr (ea + BitVec.ofNat 64 (64 * i)) 64 (loc + 64 * i)) →
      Buffers s p pr len (fun k => if loc ≤ k ∧ k < loc + 1024 ∧ (maskOf m x).getLsbD ((k - loc) % 32) = true then
        some ((x.rt td).extractLsb' (8 * (k - loc)) 8) else none) (exec (.stt m td r off) s)) ∧
    (Issues s p pr (lenOf m false true) → x.rvtag t = 0 →
      let on := fun (i : Nat) => (maskOf m x).getLsbD (4 * i)
      (∀ i < 16, on i = true → Local s pr (x.rs r + ((x.rv t).extractLsb' (32 * i) 32).setWidth 64) 4 (locs i)) →
      (∀ i < 16, ∀ j < 16, on i = true → on j = true → i ≠ j → locs i + 4 ≤ locs j ∨ locs j + 4 ≤ locs i) →
      Buffers s p pr (lenOf m false true) (fun k =>
        ((List.range 16).find? fun i => on i && decide (locs i ≤ k) && decide (k < locs i + 4)).map fun i =>
          BitVec.ofNat 8 ((x.rv v).toNat / 2 ^ (32 * i) / 256 ^ (k - locs i))) (exec (.stx m v r t) s))) ∧
  (∀ (s : State) (p : Pid) (pr : Proc) (m : Mods) (d r : SReg) (sz : Sz) (off : Word) (loc : Nat),
    Issues s p pr (lenOf m false false) → On m pr → Quiet s pr → pr.chunk = none → s.MemWf → Drained s pr.cl →
    let n := szBits sz / 8
    let stores := fun (o : Host.Outcome State Fault Refusal) =>
      ∃ t, o = .next t ∧ (t.proc? p).map Proc.view = some (pr.pc + BitVec.ofNat 64 (lenOf m false false), pr.ctx.plain, pr.loop) ∧
        ∀ k, Memory.get k t.mem =
          if loc ≤ k ∧ k < loc + n then BitVec.ofNat 8 ((pr.ctx.rs d).toNat / 256 ^ (k - loc)) else Memory.get k s.mem
    (Local s pr (pr.ctx.rs r + off) n loc → stores (exec (.st m d r sz off) s)) ∧
    (Local s pr (pr.ctx.rs r) n loc → 4 ≤ scopeOf m → stores (exec (.stl m d r sz) s)))

/-- R191, R43: a scratchpad access that is not aligned takes ALIGN and one with address bits 61:32 set takes XLATE FORM, each with the
address in TADDR and, for a store, bit 61 of TAUX; nothing is loaded or stored.

R197: PREF changes no register, no byte of memory and no poison bit, whatever it names. -/
def Obligations.AccessFaults : Prop :=
  (∀ (s : State) (p : Pid) (pr : Proc) (m : Mods) (d r : SReg) (sz : Sz) (off : Word),
    Issues s p pr (lenOf m false false) → On m pr → pr.TrapsHere →
    let ea := pr.ctx.rs r + off
    let n := szBits sz / 8
    spaceOf ea = 3 →
    (bits ea 61 32 = 0 → bits ea 31 0 + n ≤ s.spmBytes pr.team → ea.toNat % n ≠ 0 →
      TakesTrap s p pr 6 0 (lenOf m false false) ea 0 (exec (.ld m d r sz off) s) ∧
      TakesTrap s p pr 6 0 (lenOf m false false) ea (2 ^ 61) (exec (.st m d r sz off) s)) ∧
    (bits ea 61 32 ≠ 0 →
      TakesTrap s p pr 5 1 (lenOf m false false) ea 0 (exec (.ld m d r sz off) s) ∧
      TakesTrap s p pr 5 1 (lenOf m false false) ea (2 ^ 61) (exec (.st m d r sz off) s))) ∧
  (∀ (s : State) (p : Pid) (pr : Proc) (m : Mods) (r : SReg) (lvl : BitVec 2) (off : Word),
    Issues s p pr (lenOf m false false) → On m pr → (s.cluster pr.cl).cache.length < cacheLines →
    ∃ t, exec (.pref m r lvl off) s = .next t ∧
      (t.proc? p).map Proc.view = some (pr.pc + BitVec.ofNat 64 (lenOf m false false), pr.ctx.plain, pr.loop) ∧
      t.mem = s.mem ∧ t.poison = s.poison ∧ t.codeErr = s.codeErr ∧ t.regs = s.regs)

/-! ## Atomics, reductions and commits -/

/-- R287 to R289: AMO and CAS on the scratchpad inside a chunk return the old value and buffer the new one; a CAS that does not match
leaves it.

R285, R286, R288: an operation at its home in a scratchpad changes exactly its element and sends the old value back; the reply is
kept for the process, which runs on; and an AMO or CAS whose value has come completes with it. -/
def Obligations.Atomics : Prop :=
  (∀ (s : State) (p : Pid) (pr : Proc) (m : Mods) (d r t : SReg) (wide : Bool) (loc : Nat) (c : Chunk),
    let n := if wide then 8 else 4
    Issues s p pr (lenOf m true true) → On m pr → Quiet s pr → pr.chunk = some c → pr.op = none → scopeOf m ≤ 3 →
    Local s pr (pr.ctx.rs r) n loc →
    let old := seenNat s pr loc n
    let x := (pr.ctx.rs t).toNat % 256 ^ n
    let sg := fun (v : Nat) => toSigned (8 * n) v
    let gives := fun (new : Nat) (o : Host.Outcome State Fault Refusal) =>
      ∃ u q, o = .next u ∧ u.proc? p = some q ∧
        q.view = (pr.pc + BitVec.ofNat 64 (lenOf m true true), (pr.ctx.ws d (BitVec.ofNat 64 old)).plain, pr.loop) ∧
        (∀ k, seen u q k = if loc ≤ k ∧ k < loc + n then BitVec.ofNat 8 (new / 256 ^ (k - loc)) else seen s pr k) ∧ FrameOf s u p
    gives ((old + x) % 256 ^ n) (exec (.amo m d r t .add wide) s) ∧
    gives (Nat.land old x) (exec (.amo m d r t .and wide) s) ∧
    gives (Nat.lor old x) (exec (.amo m d r t .or wide) s) ∧
    gives (Nat.xor old x) (exec (.amo m d r t .xor wide) s) ∧
    gives (if sg x < sg old then x else old) (exec (.amo m d r t .min wide) s) ∧
    gives (if sg old < sg x then x else old) (exec (.amo m d r t .max wide) s) ∧
    gives (min old x) (exec (.amo m d r t .minn wide) s) ∧
    gives (max old x) (exec (.amo m d r t .maxn wide) s) ∧
    gives x (exec (.amo m d r t .swap wide) s) ∧
    gives (if old = (pr.ctx.rs d).toNat % 256 ^ n then x else old) (exec (.cas m d r t wide) s)) ∧
  (∀ (s : State) (p : Pid) (pr : Proc) (m : Mods) (d r t : SReg) (wide : Bool) (loc : Nat) (ea : Word) (x : Word) (o : Op) (a : AOp)
      (v : TileData),
    s.proc? p = some pr → pr.op = some o →
    let n := if wide then 8 else 4
    (p < 2 ^ 32 → Local s pr ea n loc → s.memdies = [] → (s.cluster pr.cl).dm.att = false → (s.cluster ((loc - sramBase) / 2 ^ 32)).armed = [] →
      s.MemWf → ∃ u, exec (.atomicAtHome loc (.amo .add wide x) p) s = .next u ∧
        (∀ k, Memory.get k u.mem = if loc ≤ k ∧ k < loc + n then
          BitVec.ofNat 8 (((natLE (Memory.read s.mem loc n) + x.toNat) % 256 ^ n) / 256 ^ (k - loc)) else Memory.get k s.mem) ∧
        (s.cycles, Instr.amoReply p o.id (.value (BitVec.ofNat 8192 (natLE (Memory.read s.mem loc n)))) none) ∈ u.queue) ∧
    (o.res = .waiting → amoKey ≤ o.key → pr.state = .blocked → pr.slot.isSome = true →
      ∃ u q, exec (.amoReply p o.id (.value v) none) s = .next u ∧ u.proc? p = some q ∧ q.op = some { o with res := .ok v } ∧
        q.state = .running ∧ q.view = pr.view ∧ FrameOf s u p) ∧
    (o.res = .ok v → Issues s p pr (lenOf m true true) → On m pr → (s.cluster pr.cl).dm.att = false → scopeOf m ≤ 3 →
      GoesOn s p pr (lenOf m true true) (pr.ctx.ws d (v.setWidth 64)) (exec (.amo m d r t a wide) s) ∧
      GoesOn s p pr (lenOf m true true) (pr.ctx.ws d (v.setWidth 64)) (exec (.cas m d r t wide) s)))

/-- R291, R292, R295: RED and REDF inside a chunk are held for its commit in program order, with the contributor's number in REDF;
the process goes on with no register changed.

R294: the first REDF.add to a location takes a slot at its home with its operand, and a second one of its contributor adds to that
slot; memory keeps its bytes.

R299, R300: WAITRED and FENCE go on at once when nothing of the process is outstanding and no fault is held; with a reduction
outstanding WAITRED leaves the process waiting at the instruction. -/
def Obligations.ReductionsAndFences : Prop :=
  ((∀ (s : State) (p : Pid) (pr : Proc) (m : Mods) (d r : SReg) (op : AOp) (wide : Bool) (fop : Fop) (bf16 : Bool) (loc : Nat) (c : Chunk),
    Issues s p pr (lenOf m true false) → On m pr → pr.chunk = some c → pr.pend + c.reds.length < 16 → pr.outs = [] →
    (s.cluster pr.cl).dm.att = false →
    let holds := fun (op : HomeOp) (o : Host.Outcome State Fault Refusal) =>
      ∃ u q k, o = .next u ∧ u.proc? p = some q ∧ q.view = (pr.pc + BitVec.ofNat 64 (lenOf m true false), pr.ctx.plain, pr.loop) ∧
        q.chunk = some k ∧ k.reds = c.reds ++ [{ loc := loc, op := op }] ∧ k.buf = c.buf ∧ FrameOf s u p
    (Local s pr (pr.ctx.rs d) (if wide then 8 else 4) loc →
      holds (.red op wide (pr.ctx.rs r)) (exec (.red m d r op wide) s)) ∧
    (Local s pr (pr.ctx.rs d) (if bf16 then 2 else 4) loc →
      holds (.redf fop bf16 (pr.ctx.rs r) (s.contributor pr.cl pr.unit)) (exec (.redf m d r fop bf16) s))) ∧
  (∀ (s : State) (loc cn : Nat) (b : Bool) (x : Word),
    s.moveOf loc = none → s.isPoison (lineOf loc) = false → Tab.getD (lineOf loc) s.codeErr 0 = 0 →
    Tab.getD (lineOf loc) s.phys.flips 0 = 0 →
    let v := x.toNat % 2 ^ (if b then 16 else 32)
    ((∀ r ∈ s.redSlots, r.loc ≠ loc) → s.slotsUsed loc < slotLimit loc → ∃ t, exec (.redfAddArrival loc b x cn) s = .next t ∧
      t.mem = s.mem ∧ t.redSlots = s.redSlots ++ [{ loc := loc, cn := cn, bf16 := b, val := BitVec.ofNat 32 v }]) ∧
    ((∀ r ∈ s.redSlots, r.loc = loc → r.bf16 = b) → (∃ r ∈ s.redSlots, r.loc = loc ∧ r.cn = cn) →
      ∃ t, exec (.redfAddArrival loc b x cn) s = .next t ∧ t.mem = s.mem ∧ t.redSlots = s.redSlots.map fun r =>
        if r.loc = loc ∧ r.cn = cn then { r with val := BitVec.ofNat 32 (redfAdd b r.val.toNat v) } else r))) ∧
  (∀ (s : State) (p : Pid) (pr : Proc) (m : Mods) (k : FenceKind), Issues s p pr (lenOf m true false) → On m pr →
    (pr.pend = 0 → pr.held = [] → GoesOn s p pr (lenOf m true false) pr.ctx (exec (.waitred m) s)) ∧
    (pr.outs = [] → pr.held = [] → Drained s pr.cl →
      GoesOn s p pr (lenOf m true false) pr.ctx (exec (.fence m k) s)) ∧
    (pr.pend ≠ 0 → pr.svc = none → ∃ t q, exec (.waitred m) s = .next t ∧ t.proc? p = some q ∧ q.state = .blocked ∧
      q.wkind = .reply ∧ q.view = pr.view ∧ FrameOf s t p))

/-- R113 to R116, R64, R292: the answer to an access that left the cluster. A load's value is kept and its process runs on; a store's
or a reduction's acknowledgement takes it off the list of outstanding accesses, and a reduction's off the count. -/
def Obligations.AnswersFromOutside : Prop :=
  ∀ (s : State) (p : Pid) (pr : Proc) (o : Op) (a : OutAcc) (v : TileData),
    s.proc? p = some pr →
    (pr.op = some o → o.res = .waiting → pr.state = .blocked → pr.slot.isSome = true →
      o.id < 2 ^ 48 → s.prefetches = [] → ∃ t q, exec (.loadReply p o.id (.value v) noPlat) s = .next t ∧ t.proc? p = some q ∧ q.op = some { o with res := .ok v } ∧
        q.state = .running ∧ q.view = pr.view ∧ t.mem = s.mem) ∧
    (pr.outs = [a] → a.take = [] → pr.leaving = false → pr.wkind ≠ .reply → s.leftWrites = [] → (∀ e ∈ s.clusters, e.2.wbacks = []) →
      (a.red = false → ∃ t q, exec (.storeAck p a.id none noPlat) s = .next t ∧ t.proc? p = some q ∧ q.outs = [] ∧ q.pend = pr.pend ∧
        q.view = pr.view ∧ t.mem = s.mem) ∧
      (a.red = true → ∃ t q, exec (.reductionAck p a.id none) s = .next t ∧ t.proc? p = some q ∧ q.outs = [] ∧
        q.pend = pr.pend - 1 ∧ q.view = pr.view ∧ t.mem = s.mem))

/-- R304 to R306: an ended chunk that no other commit overlaps stores its bytes into the scratchpad and leaves the process without a
chunk, its registers as they are; one that read a line written since it began is given up and starts again from its registers. -/
def Obligations.ChunkCommits : Prop :=
  ∀ (s : State) (p : Pid) (pr : Proc) (c : Chunk),
    s.proc? p = some pr → pr.chunk = some c → c.ended = true → (s.cluster pr.cl).token = none → (s.cluster pr.cl).commitAt ≤ s.cycles → pr.wkind ≠ .reply →
    (overlaps c (s.cluster pr.cl).wsets = false → pr.hits = [] → s.replayTurn pr.cl = none → c.reds = [] → c.marks = [] →
      s.MemWf → Tab.sorted c.buf = true →
      (∀ e ∈ c.buf, sramLoc pr.cl 0 ≤ e.1 ∧ e.1 < sramLoc pr.cl 0x02000000 ∧ isSram e.1 = true) → s.redSlots = [] →
      s.poison = [] → s.codeErr = [] →
      ∃ t q, exec (.chunkCommit p) s = .next t ∧ t.proc? p = some q ∧ q.chunk = none ∧ q.solo = false ∧ q.squashes = 0 ∧
        q.view = pr.view ∧ (t.cluster pr.cl).seq = (s.cluster pr.cl).seq + 1 ∧
        ∀ k, Memory.get k t.mem = Tab.getD k c.buf (Memory.get k s.mem)) ∧
    (overlaps c (s.cluster pr.cl).wsets = true → pr.solo = false →
      ∃ t q, exec (.chunkCommit p) s = .next t ∧ t.proc? p = some q ∧ q.chunk = none ∧ q.squashes = pr.squashes + 1 ∧
        q.solo = decide (3 ≤ pr.squashes + 1) ∧ q.pc = c.pc0 ∧ q.loop = c.loop0 ∧
        q.ctx = { c.ctx0 with plat := pr.ctx.plat, phid := pr.ctx.phid, expect := pr.ctx.expect, elapsed := pr.ctx.elapsed } ∧
        FrameOf s t p)

/-! ## Windows, copies and grants -/

/-- R159 to R163, R150: WSET with a sound descriptor in the scratchpad binds the window its words describe and clears the full bits of
its lines; WCLR frees it; WPROBE reads its state; WWAIT on a present window goes on, and on an unbound one takes WINDOW UNBOUND. -/
def Obligations.Windows : Prop :=
  ∀ (s : State) (p : Pid) (pr : Proc) (m : Mods) (d r : SReg) (loc k : Nat) (w : Window),
    Issues s p pr (lenOf m true false) → On m pr → Quiet s pr → pr.op = none →
    let c := pr.ctx
    let len := lenOf m true false
    let cl := s.cluster pr.cl
    let word := seenWord s pr loc
    bits (c.rs d) 63 8 = 0 →
    (Local s pr (c.rs r) 64 loc → badWindow ((List.range 8).map word) = false → bit (word 4) 5 = false →
      let new := windowOf ((List.range 8).map word) pr.team (bits (c.rs d) 7 0) p
      s.windowBad pr.cl new = 0 → Tab.freeKey cl.windows 0 256 = some k →
      new.base = bits (word 0) 24 0 ∧ new.src = word 1 ∧ new.rowb = bits (word 2) 47 16 ∧ new.rows = bits (word 2) 15 0 ∧
      new.stride = word 3 ∧ new.nosrc = bit (word 4) 4 ∧ new.fmt = BitVec.ofNat 4 (bits (word 4) 3 0) ∧
      GoesWith s p pr len c (fun t => (t.cluster pr.cl).windows = Tab.put k new cl.windows ∧
        ∀ l, (t.cluster pr.cl).full.contains l = (cl.full.contains l &&
          !(decide ((s.spmOf pr.team + new.base) / 64 ≤ l) && decide (l < (s.spmOf pr.team + new.base) / 64 + new.bytes / 64))))
        (exec (.wset m d r) s)) ∧
    (s.windowNum pr.cl pr.team (bits (c.rs d) 7 0) = none →
      GoesOn s p pr len c (exec (.wclr m d) s) ∧ (pr.TrapsHere → TakesTrap s p pr 13 7 len 0 0 (exec (.wwait m d) s))) ∧
    (s.windowNum pr.cl pr.team (bits (c.rs d) 7 0) = some (k, w) → Tab.get? k cl.windows = some w →
      (w.st = .present → w.ovr = false → GoesOn s p pr len c (exec (.wwait m d) s)) ∧
      ((∀ e ∈ cl.copies, e.2.win ≠ some k) →
        GoesWith s p pr len c (fun t => (t.cluster pr.cl).windows = Tab.del k cl.windows) (exec (.wclr m d) s))) ∧
    (bits (c.rs r) 63 8 = 0 →
      (s.windowNum pr.cl pr.team (bits (c.rs r) 7 0) = none → GoesOn s p pr len (c.ws d 0) (exec (.wprobe m d r) s)) ∧
      (s.windowNum pr.cl pr.team (bits (c.rs r) 7 0) = some (k, w) → w.pend < 2 ^ 26 →
        ∃ v, bits v 63 62 = (match w.st with | .absent => 1 | .filling => 2 | .present => 3) ∧ bit v 61 = w.ovr ∧
          bits v 60 56 = (match w.fst with | .ok => 0 | .pendFault => 3 | .failed => 4) ∧ bits v 51 48 = w.fmt.toNat ∧
          bits v 55 52 = 0 ∧ bits v 47 26 = 0 ∧ bits v 25 0 = w.pend ∧ GoesOn s p pr len (c.ws d v) (exec (.wprobe m d r) s)))

/-- R164, R151, R157: CPY, CPY2 and CPYS from device memory put the copy they describe into a free place of the copy engine as part of
the open batch; CPYS without a session in state RUN refuses it as SEC_REFUSED and goes on; and misaligned operands take COPY_ARG. -/
def Obligations.CopyCommands : Prop :=
  ∀ (s : State) (p : Pid) (pr : Proc) (m : Mods) (d r t : SReg) (loc place : Nat),
    Issues s p pr (lenOf m true true) → On m pr → Quiet s pr → Drained s pr.cl →
    let c := pr.ctx
    let len := lenOf m true true
    let dst := c.rs d
    let src := c.rs r
    let word := seenWord s pr loc
    let placed := fun (sec : Option Secure) (rows rowb : Nat) (sstr dstr : Word) => GoesWith s p pr len c fun u =>
      ∃ y, Tab.get? place (u.cluster pr.cl).copies = some y ∧ y.pid = p ∧ y.batch = some pr.openBatch.toNat ∧ y.src = src ∧
        y.dst = dst ∧ y.rows = rows ∧ y.rowb = rowb ∧ y.sstr = sstr ∧ y.dstr = dstr ∧ y.secure = sec ∧ y.written = [] ∧
        y.stopped = none ∧ y.vmctx = c.vmctx
    dst.toNat % 64 = 0 → src.toNat % 64 = 0 → Tab.freeKey (s.cluster pr.cl).copies 0 64 = some place →
    (spaceOf src = 0 → spaceOf dst = 3 → bits dst 61 32 = 0 → bits dst 31 0 < 0x02000000 →
      let n := (c.rs t).toNat
      (n % 64 = 0 → 0 < n → n ≤ 0xFFFFFFC0 → bits dst 31 0 + n ≤ s.spmBytes pr.team →
        placed none 1 n 0 0 (exec (.cpy m d r t) s)) ∧
      (Local s pr (c.rs t) 64 loc → badShape ((List.range 8).map word) = false →
        s.endBad pr.team dst (bits (word 0) 15 0) (bits (word 0) 47 16) (word 2) false = 0 →
        placed none (bits (word 0) 15 0) (bits (word 0) 47 16) (word 1) (word 2) (exec (.cpy2 m d r t) s))) ∧
    (spaceOf src = 2 → spaceOf dst = 0 → Local s pr (c.rs t) 64 loc → (c.rs (t + 1)).toNat % 64 = 0 → 0 < (c.rs (t + 1)).toNat →
      (c.rs (t + 1)).toNat ≤ 0xFFFFFFC0 → badSession ((List.range 8).map word) = false → bit (word 0) 4 = false →
      (s.mgmt.tdisp = .run → s.mgmt.session = true →
        placed (some { kslot := bits (word 0) 3 0, encrypt := false, tags := word 1, ivbase := word 2 }) 1 (c.rs (t + 1)).toNat 0 0
          (exec (.cpys m d r t) s)) ∧
      (s.mgmt.session = false → GoesWith s p pr len c (fun u => (u.cluster pr.cl).copyEnds = (s.cluster pr.cl).copyEnds ++
          [{ pid := p, batch := pr.openBatch.toNat, order := (s.cluster pr.cl).copySeq, stat := .secRefused }])
        (exec (.cpys m d r t) s)))

/-- R166 to R168: CPYB seals the open batch and gives its number; WAITB goes on once no more than n batches are unfinished and waits
otherwise; CPYQ reads a batch's status, with the unfinished batches beside it. -/
def Obligations.Batches : Prop :=
  ∀ (s : State) (p : Pid) (pr : Proc) (m : Mods) (d r : SReg) (n : BitVec 8),
    Issues s p pr (lenOf m true false) → On m pr →
    let len := lenOf m true false
    let c := pr.ctx
    let unf := (pr.batches.filter fun e => e.2 = .running).length
    (unf < 255 → GoesWith s p pr len (c.ws d (pr.openBatch.setWidth 64))
      (fun t => (t.proc? p).map Proc.openBatch = some (pr.openBatch + 1)) (exec (.cpyb m d) s)) ∧
    (unf ≤ n.toNat → GoesOn s p pr len c (exec (.waitb m n) s)) ∧
    (n.toNat < unf → pr.svc = none → ∃ t q, exec (.waitb m n) s = .next t ∧ t.proc? p = some q ∧ q.state = .blocked ∧
      q.wkind = .batch ∧ q.view = pr.view ∧ FrameOf s t p) ∧
    (bits (c.rs r) 63 8 = 0 → unf < 256 →
      (bits (c.rs r) 7 0 = pr.openBatch.toNat → (s.cluster pr.cl).copies = [] →
        GoesOn s p pr len (c.ws d (BitVec.ofNat 64 (256 * unf + 1))) (exec (.cpyq m d r) s)) ∧
      (bits (c.rs r) 7 0 ≠ pr.openBatch.toNat → Tab.get? (bits (c.rs r) 7 0) pr.batches = none →
        GoesOn s p pr len (c.ws d (BitVec.ofNat 64 (256 * unf))) (exec (.cpyq m d r) s)))

/-- R139 to R142: GPRI gives an endpoint of the process and the requests addressed to it a class; GQRY reads the cluster's counters;
GCAN on an endpoint without requests goes on; a handle that does not qualify takes GRANT_ARG, or reads all ones in GQRY. -/
def Obligations.Grants : Prop :=
  ∀ (s : State) (p : Pid) (pr : Proc) (m : Mods) (d r : SReg) (e : Nat) (n : Endp),
    Issues s p pr (lenOf m true false) → On m pr →
    let len := lenOf m true false
    let c := pr.ctx
    let cl := s.cluster pr.cl
    (s.qualifies p pr (c.rs d) = some e → Tab.get? e cl.endps = some n → n.reply = false → bits (c.rs r) 63 2 = 0 →
      GoesWith s p pr len c (fun t =>
        Tab.get? e (t.cluster pr.cl).endps = some { n with gcls := (c.rs r).setWidth 2 } ∧
        ∀ k q, Tab.get? k (t.cluster pr.cl).greqs = some q → q.ep = some e → q.cls = (c.rs r).setWidth 2) (exec (.gpri m d r) s)) ∧
    (s.qualifies p pr (c.rs d) = some e → Tab.get? e cl.endps = some n → n.reply = false → n.unm = [] → n.waiters = [] → n.slots = [] →
      (∀ q ∈ cl.greqs, q.2.ep ≠ some e) → GoesOn s p pr len c (exec (.gcan m d) s)) ∧
    (s.qualifies p pr (c.rs d) = none → pr.TrapsHere → TakesTrap s p pr 22 0 len 0 0 (exec (.gcan m d) s) ∧
      (bits (c.rs r) 63 2 = 0 → TakesTrap s p pr 22 0 len 0 0 (exec (.gpri m d r) s))) ∧
    (c.rs r = 0 → cl.out < 2 ^ 22 → ∃ v, bits v 63 48 = min cl.gExp 65535 ∧ bits v 47 32 = min cl.gDisc 65535 ∧
      bits v 31 24 = min cl.gOrph 255 ∧ bits v 23 16 = min cl.gBusy 255 ∧ bits v 15 0 = cl.out / 64 ∧
      GoesOn s p pr len (c.ws d v) (exec (.gqry m d r) s)) ∧
    (c.rs r ≠ 0 → s.qualifies p pr (c.rs r) = none → GoesOn s p pr len (c.ws d (BitVec.allOnes 64)) (exec (.gqry m d r) s))


/-! ## The matrix array -/

/-- R265, R266, R264, R283, R275: MLEASE of a process that holds the array renews its command count, and otherwise queues a request and
waits; MREL gives the array up; MCARRY sets the holder's response to a full carry buffer; MSTAT reads a slot's header, and 0 where the
team has no such slot; MWAIT goes on when the slot is not locked and waits while it is. -/
def Obligations.ArrayLeases : Prop :=
  ∀ (s : State) (p : Pid) (pr : Proc) (m : Mods) (d : SReg) (n : BitVec 5) (tr : Bool) (a : ASlot) (l : Lease) (k : Nat) (x : Slot),
    Issues s p pr (lenOf m true false) → On m pr →
    let c := pr.ctx
    let len := lenOf m true false
    let cl := s.cluster pr.cl
    (cl.lease = some l → l.pid = p →
      GoesWith s p pr len c (fun t => (t.cluster pr.cl).lease = some { l with left := n.toNat }) (exec (.mlease m n) s) ∧
      GoesWith s p pr len c (fun t => (t.cluster pr.cl).lease = none ∧ (s.cycles + 8, Instr.leaseGrant pr.cl) ∈ t.queue)
        (exec (.mrel m) s) ∧
      GoesWith s p pr len c (fun t => (t.cluster pr.cl).lease = some { l with trapMode := tr }) (exec (.mcarry m tr) s)) ∧
    ((∀ l, cl.lease = some l → l.pid ≠ p) →
      GoesOn s p pr len c (exec (.mrel m) s) ∧
      (pr.TrapsHere → TakesTrap s p pr 16 5 len 0 0 (exec (.mcarry m tr) s)) ∧
      (pr.svc = none → (∀ r ∈ cl.leaseQ, r.pid ≠ p) → Waits s p pr .lease (fun t =>
        (t.cluster pr.cl).leaseQ = cl.leaseQ ++ [{ pid := p, n := n.toNat, time := s.cycles }]) (exec (.mlease m n) s))) ∧
    (s.teamSlot pr a = none → GoesOn s p pr len (c.ws d 0) (exec (.mstat m d a) s) ∧ GoesOn s p pr len c (exec (.mwait m a) s)) ∧
    (s.teamSlot pr a = some (k, x) →
      (cl.carry.length ≤ 1024 → ∃ v, bit v 63 = x.lock ∧ bit v 62 = x.sat ∧
        bits v 61 60 = (match x.st with | .empty => 1 | .active => 2 | .partialMma => 3) ∧
        bits v 59 56 = (match x.mode with | some md => md.code | none => 15) ∧ bits v 55 47 = x.mm1.toNat ∧ bits v 46 37 = x.nm1.toNat ∧
        bits v 36 26 = (cl.carry.filter fun e => e.slot = k).length ∧
        bits v 25 24 = (if x.st = .partialMma then x.pass.toNat else 0) ∧
        bits v 23 0 = (if x.st = .partialMma then x.mprog.toNat else 0) ∧
        GoesOn s p pr len (c.ws d v) (exec (.mstat m d a) s)) ∧
      (x.lock = false → GoesOn s p pr len c (exec (.mwait m a) s)) ∧
      (x.lock = true → pr.svc = none → Waits s p pr .lease (fun _ => True) (exec (.mwait m a) s)))

/-- R262, R268, R270, R274, R279: an MMA, MDRAIN or MZERO of the holder of the array, on a slot that is not locked, locks the slot,
begins there and waits at the instruction; when the array has answered, the process goes on past it, its registers as they are.

R280, R281: MVMQ of a checked vector sends the command and the vector to the memory die of its page and goes on. -/
def Obligations.ArrayCommands : Prop :=
  (∀ (s : State) (p : Pid) (pr : Proc) (m : Mods) (d r t : SReg) (a : ASlot) (md : Mode) (fmt : Tag) (k : Nat) (x : Slot) (l : Lease) (o : Op)
      (v : TileData),
    let c := pr.ctx
    let cl := s.cluster pr.cl
    let id : MmaId := { mode := md, sa := c.rs d, sb := c.rs r, sm := c.rs t }
    let begun := fun (cmd : ArrCmd) (at_ : Nat) (i : Instr) => Waits s p pr .lease fun u =>
      ∃ y, Tab.get? k (u.cluster pr.cl).slots = some y ∧ y.lock = true ∧ y.cmd = some (p, cmd) ∧ (at_, i) ∈ u.queue ∧
        (u.cluster pr.cl).lease = some { l with busy := true }
    On m pr → pr.svc = none →
    (pr.op = none → Quiet s pr → cl.lease = some l → l.pid = p → s.teamSlot pr a = some (k, x) → x.lock = false →
      (Issues s p pr (lenOf m true true) → s.mmaCheck pr a id = none →
        begun (.mma id none) (s.cycles + (if md = .bf16 then 64 else 96)) (.sliceComplete pr.cl k) (exec (.mma m d r t a md) s)) ∧
      (Issues s p pr (lenOf m true false) → begun .zero (s.cycles + 128) (.mzeroComplete pr.cl k) (exec (.mzero m a) s)) ∧
      (Issues s p pr (lenOf m true false) → spaceOf (c.rs d) = 3 → bits (c.rs d) 61 32 = 0 → (c.rs d).toNat % 64 = 0 →
        bits (c.rs d) 31 0 + x.drainBytes fmt ≤ s.spmBytes pr.team → s.poison = [] → s.codeErr = [] → s.phys.flips = [] →
        s.redSlots = [] →
        begun (.drain (c.rs d) fmt (nfOf m)) (s.cycles + 32 + x.drainBytes fmt / 256) (.mdrainComplete pr.cl k)
          (exec (.mdrain m d a fmt) s))) ∧
    (pr.op = some o → o.res = .ok v → o.key = arrKey →
      (Issues s p pr (lenOf m true true) → GoesOn s p pr (lenOf m true true) c (exec (.mma m d r t a md) s)) ∧
      (Issues s p pr (lenOf m true false) → GoesOn s p pr (lenOf m true false) c (exec (.mzero m a) s) ∧
        GoesOn s p pr (lenOf m true false) c (exec (.mdrain m d a fmt) s)))) ∧
  (∀ (s : State) (p : Pid) (pr : Proc) (m : Mods) (d r t : SReg) (md : Mode), Issues s p pr (lenOf m true true) → On m pr → Quiet s pr →
    let c := pr.ctx
    let len := lenOf m true true
    (Part.isE s.phys.part = true → pr.TrapsHere → TakesTrap s p pr 2 0 len 0 0 (exec (.mvmq m d r t md) s)) ∧
    (Part.isE s.phys.part = false → s.mvmArg pr md (c.rs d) (c.rs r) (c.rs t) = true → pr.TrapsHere →
      TakesTrap s p pr 16 1 len 0 0 (exec (.mvmq m d r t md) s)) ∧
    (∀ loc, Part.isE s.phys.part = false → s.mvmArg pr md (c.rs d) (c.rs r) (c.rs t) = false →
      resolve p (c.rs r) 64 .read false s = .ok (.mem loc, s) → isDev loc = true → Drained s pr.cl →
      (s.cluster pr.cl).windows = [] → s.poison = [] → s.codeErr = [] → s.phys.flips = [] → s.redSlots = [] →
      GoesWith s p pr len c (fun u => ∃ x, Tab.get? s.nextMsg u.msgs = some x ∧ x.sender = some p ∧ x.kind = 1 ∧ x.idx = dieOf loc ∧
        x.bytes = mvmBlock s p md (c.rs d) (c.rs r) (c.rs t) ++ pad64 (Memory.read s.mem
          (sramLoc pr.cl (s.spmOf pr.team + bits (c.rs d) 31 0)) (rowBytes md (bits (c.rs t) 38 19 + 1))) ∧
        (s.cycles + 60, Instr.serverCommandAccept (dieOf loc) s.nextMsg) ∈ u.queue) (exec (.mvmq m d r t md) s)))

/-- R266, R267, R271, R273, R262: the array's own steps. A grant gives the array to the best request and wakes its process; a lease whose
time is over ends while no command runs; an MMA with its last slice behind it leaves the slot ACTIVE and unlocked, and a zeroing
leaves it EMPTY with every cell 0; a drain leaves it EMPTY; each answers its process. -/
def Obligations.ArraySteps : Prop :=
  ∀ (s : State) (cl k : Nat) (x : Slot) (p : Pid) (pr : Proc) (o : Op) (l : Lease) (r : LeaseReq),
    s.Canon → (s.cluster cl).dm.phase = .running →
    (∀ e ∈ (s.cluster cl).slots, ∀ q i n, e.2.cmd ≠ some (q, .mma i (some n))) →
    ((s.cluster cl).lease = none → (s.cluster cl).leaseAt ≤ s.cycles → s.bestLease cl = some r → ∃ t, exec (.leaseGrant cl) s = .next t ∧
      (t.cluster cl).lease = some { pid := r.pid, left := r.n, start := s.timebase, trapMode := false, busy := false } ∧
      (t.cluster cl).leaseQ = (s.cluster cl).leaseQ.filter (fun y => y.pid ≠ r.pid) ∧
      (∀ q, s.proc? r.pid = some q → q.state = .blocked → q.slot.isSome = true →
        (t.proc? r.pid).map Proc.state = some .running) ∧ t.mem = s.mem) ∧
    ((s.cluster cl).lease = some l → l.busy = false → l.start + 50000 ≤ s.timebase → ∃ t, exec (.leaseTimeLimit cl) s = .next t ∧
      (t.cluster cl).lease = none ∧ (s.cycles + 8, Instr.leaseGrant cl) ∈ t.queue ∧ t.mem = s.mem) ∧
    (Tab.get? k (s.cluster cl).slots = some x → s.proc? p = some pr → pr.op = some o →
      let answers := fun (t : State) => (t.proc? p).map (fun q => q.op.map Op.res) = some (some (.ok 0))
      (∀ id, x.cmd = some (p, .mma id none) → o.key = arrKey → o.res = .waiting → (shapeOf id.sm).slices id.mode ≤ x.mprog.toNat →
        ∃ t y, exec (.sliceComplete cl k) s = .next t ∧ Tab.get? k (t.cluster cl).slots = some y ∧ y.st = .active ∧ y.lock = false ∧
          y.mprog = 0 ∧ y.pass = 0 ∧ y.cmd = none ∧ answers t ∧ t.mem = s.mem) ∧
      (x.cmd = some (p, .zero) → ∃ t y, exec (.mzeroComplete cl k) s = .next t ∧ Tab.get? k (t.cluster cl).slots = some y ∧
        y.st = .empty ∧ y.lock = false ∧ y.sat = false ∧ y.mode = none ∧ y.cmd = none ∧ answers t ∧
        (∀ e ∈ (t.cluster cl).carry, e.slot ≠ k) ∧
        ∀ b, Memory.get b t.mem = if accLoc cl k ≤ b ∧ b < accLoc cl k + 0x140000 then Memory.get b [] else Memory.get b s.mem) ∧
      (∀ dst nf md, x.cmd = some (p, .drain dst .int32 nf) → x.st ≠ .empty → x.mode = some md → modeFloat md = false → pr.cl = cl →
        s.heldOf cl none = false → spaceOf dst = 3 → bits dst 61 32 = 0 → dst.toNat % 64 = 0 →
        s.spmOf pr.team + bits dst 31 0 + x.drainBytes .int32 ≤ 0x02000000 → s.spmOf pr.team % 64 = 0 → k < 4 →
        bits dst 31 0 + x.drainBytes .int32 < 2 ^ 32 → (s.cluster cl).windows = [] → s.poison = [] → s.codeErr = [] → s.redSlots = [] →
        ∃ t y, exec (.mdrainComplete cl k) s = .next t ∧ Tab.get? k (t.cluster cl).slots = some y ∧ y.st = .empty ∧ y.lock = false ∧
          y.mode = none ∧ y.cmd = none ∧ answers t ∧ (∀ e ∈ (t.cluster cl).carry, e.slot ≠ k) ∧
          (∀ i < x.drainM, ∀ j < x.drainN,
            natLE (Memory.read t.mem (sramLoc cl (s.spmOf pr.team + bits dst 31 0 + i * up64 (4 * x.drainN) + 4 * j)) 4) =
              wrap 32 (max (-(2 ^ 31)) (min (s.intValue cl k i j) (2 ^ 31 - 1)))) ∧
          ∀ b, (b < sramLoc cl (s.spmOf pr.team + bits dst 31 0) ∨
              sramLoc cl (s.spmOf pr.team + bits dst 31 0) + x.drainBytes .int32 ≤ b) →
            (b < accLoc cl k ∨ accLoc cl k + 0x140000 ≤ b) → Memory.get b t.mem = Memory.get b s.mem))

/-- R271, R272, R218, R276: a slice of an MMA whose rows of A and B are fetched, and of BF16 one pass over 128 rows of outputs. In an integer mode every output's exact value (its 20-bit
accumulator with its carries) grows by the slice's exact sum of products; in an 8-bit float mode every FP32 accumulator takes the
slice's exact sum with one rounding; and the slice counter steps on. -/
def Obligations.MmaSlices : Prop :=
  ∀ (s : State) (cl k : Nat) (x : Slot) (p : Pid) (pr : Proc) (o : Op) (id : MmaId) (as bs : List Nat),
    s.Canon → (s.cluster cl).dm.phase = .running → Tab.get? k (s.cluster cl).slots = some x → s.proc? p = some pr → pr.op = some o →
    x.cmd = some (p, .mma id none) → o.key = arrKey → o.res = .waiting → (s.cluster cl).leaseQ = [] →
    x.mprog.toNat < (shapeOf id.sm).slices id.mode → (shapeOf id.sm).slices id.mode < 2 ^ 24 →
    s.fetchSlice p pr o id x.mprog.toNat = (.ok (as, bs), s) → pr.leaving = false →
    ((Tab.get? aheadKey o.got).isSome = true ∨ s.readCycles pr
      (id.sb + BitVec.ofNat 64 (modeSlice id.mode * x.mprog.toNat * (shapeOf id.sm).strideB id.mode)) = 0) → s.poison = [] → s.codeErr = [] → s.phys.flips = [] → s.redSlots = [] →
    let next := fun (t : State) => ∃ y, Tab.get? k (t.cluster cl).slots = some y ∧ y.mprog.toNat = x.mprog.toNat + 1 ∧ y.pass = 0 ∧
      y.lock = x.lock
    (modeFloat id.mode = false →
      carriesNeeded k (s.cluster cl).carry (s.intOutputs cl k id.mode (shapeOf id.sm).m (shapeOf id.sm).n as bs) ≤ s.freeCarry cl →
      ∃ t, exec (.sliceComplete cl k) s = .next t ∧ next t ∧ ∀ i < (shapeOf id.sm).m, ∀ j < (shapeOf id.sm).n,
        t.intValue cl k i j = s.intValue cl k i j + intSlice id.mode (slicePairs id.mode i j as bs)) ∧
    (id.mode = .bf16 → (shapeOf id.sm).n ≤ 512 → let lo := 128 * x.pass.toNat
      ∃ t y, exec (.sliceComplete cl k) s = .next t ∧ Tab.get? k (t.cluster cl).slots = some y ∧ y.lock = x.lock ∧
        (if x.pass = 3 then y.mprog.toNat = x.mprog.toNat + 1 ∧ y.pass = 0 else y.mprog = x.mprog ∧ y.pass = x.pass + 1) ∧
        ∀ i < (shapeOf id.sm).m, ∀ j < (shapeOf id.sm).n, t.cell cl k i j = if lo ≤ i ∧ i < lo + 128 then
          floatSlice id.mode (s.cell cl k i j % 2 ^ 32) (slicePairs id.mode i j as bs) % 2 ^ 40 else s.cell cl k i j) ∧
    (modeFloat id.mode = true → id.mode ≠ .bf16 → (shapeOf id.sm).n ≤ 512 →
      ∃ t, exec (.sliceComplete cl k) s = .next t ∧ next t ∧ ∀ i < (shapeOf id.sm).m, ∀ j < (shapeOf id.sm).n,
        t.cell cl k i j = floatSlice id.mode (s.cell cl k i j % 2 ^ 32) (slicePairs id.mode i j as bs) % 2 ^ 40)


/-! ## Channels -/

/-- R346 to R349, R336, R355, R351: CHNEW with a sound descriptor makes the endpoint it describes and gives its handle; a full table
takes CHAN kind 3. CHCLOSE of an idle open end closes it with status 0, of a closed one gives status 4. CHBIND puts a handle into the
launch's channel list without its direction. QBIND binds a free port to an end and QUNBIND frees it; a bound port takes PORT kind 3.
TBLK and TUBLK set and clear the block of a spawn entry. -/
def Obligations.ChannelEnds : Prop :=
  ∀ (s : State) (p : Pid) (pr : Proc) (m : Mods) (d r : SReg) (q : QReg) (loc e cl : Nat) (h h' : Word) (n : Endp) (l : Launch),
    s.Canon → Issues s p pr (lenOf m true false) → On m pr → Quiet s pr → pr.op = none → Drained s pr.cl →
    let c := pr.ctx
    let len := lenOf m true false
    let word := seenWord s pr loc
    (s.nextEp < 2 ^ 32 → Local s pr (c.rs r) 64 loc → badChan (word 0) (word 1) (word 2) (s.spmBytes pr.team) = false →
      (∀ i, 3 ≤ i → i < 8 → word i = 0) →
      (Tab.freeKey (s.cluster pr.cl).endps 0 4096 = some e → ∃ hd y, hEfmt hd = bits (word 0) 22 17 ∧ hSclass hd = bits (word 0) 16 12 ∧
        hKind hd = 0 ∧ hDir hd = false ∧ hDev hd = s.dev ∧ hIdx hd = s.nextEp ∧
        y.buffered = bit (word 0) 31 ∧ y.depth = bits (word 0) 30 23 ∧ y.efmt.toNat = bits (word 0) 22 17 ∧
        y.sclass.toNat = bits (word 0) 16 12 ∧ y.spn = bit (word 0) 11 ∧ y.blk = bit (word 0) 10 ∧ y.buf = (word 1).toNat ∧
        y.entry = word 2 ∧ y.team = pr.team ∧ y.idx = s.nextEp ∧ y.closed = false ∧ y.unm = [] ∧ y.slots = [] ∧
        GoesWith s p pr len (c.ws d hd) (fun t => Tab.get? e (t.cluster pr.cl).endps = some y ∧
          Tab.get? s.nextEp t.dir = some (pr.cl, e) ∧ t.nextEp = nextIdx s.nextEp) (exec (.chnew m d r) s)) ∧
      (Tab.freeKey (s.cluster pr.cl).endps 0 4096 = none → pr.TrapsHere → TakesTrap s p pr 11 3 len 0 0 (exec (.chnew m d r) s))) ∧
    (s.unrelative pr (c.rs d) = .ok h → hKind h = 0 → s.resolveEnd pr (h ||| field 1 49) true = .ok (h', .ep cl e) →
      s.endp? cl e = some n → n.efmt.toNat = hEfmt h' → n.sclass.toNat = hSclass h' →
      (n.closed = false → n.unm = [] → n.waiters = [] → ∀ st, GoesWith s p pr len (if st then c.ws d 0 else c)
        (fun t => ∀ y, t.endp? cl e = some y → y.closed = true) (exec (.chclose m d st) s)) ∧
      (n.closed = true → GoesOn s p pr len (c.ws d 4) (exec (.chclose m d true) s) ∧
        (pr.TrapsHere → TakesTrap s p pr 11 4 len 0 0 (exec (.chclose m d false) s))) ∧
      (n.spn = true → n.closed = false → n.unm = [] → n.waiters = [] → n.expert = none →
        GoesWith s p pr len c (fun t => t.endp? cl e = some { n with blk := true }) (exec (.tblk m d) s) ∧
        GoesWith s p pr len c (fun t => t.endp? cl e = some { n with blk := false }) (exec (.tublk m d) s))) ∧
    (s.handleExists pr (c.rs d) = true → hKind (c.rs d) ≠ 7 → bits (c.rs r) 63 8 = 0 → s.launch? pr.lid = some l →
      GoesWith s p pr len c (fun t => t.launch? pr.lid =
        some { l with chans := Tab.set 0 (bits (c.rs r) 7 0) (c.rs d &&& ~~~(field 1 49)) l.chans }) (exec (.chbind m d r) s)) ∧
    (let one : BitVec 8 := 1 <<< q.toNat
     (c.qbound.getLsbD q.toNat = false → s.unrelative pr (c.rs r) = .ok h → hKind h = 0 →
       s.resolveEnd pr h (hDir h) = .ok (h', .ep cl e) → s.endp? cl e = some n → n.efmt.toNat = hEfmt h' → n.sclass.toNat = hSclass h' →
       (hSclass h' ≤ 3 ∨ hSclass h' = 6) →
       GoesOn s p pr len { c with
         qbound := c.qbound ||| one, qout := if hDir h then c.qout ||| one else c.qout &&& ~~~one, qh := Tab.set 0 q.toNat h' c.qh }
         (exec (.qbind m q r) s)) ∧
     (c.qbound.getLsbD q.toNat = true → pr.TrapsHere → TakesTrap s p pr 10 3 len 0 0 (exec (.qbind m q r) s)) ∧
     GoesOn s p pr len { c with qbound := c.qbound &&& ~~~one, qout := c.qout &&& ~~~one, qh := Tab.set 0 q.toNat 0 c.qh }
       (exec (.qunbind m q) s))

/-- R350, R334, R338: a SEND to an endpoint of the device starts a message with its register's bytes and waits. A channel operation that has
ended goes on with what it was answered: SEND and SENDT with status 0, RECV with the message in its register, zero-extended or under the
channel's tag, RECVT with the area written, ALT with its index; a status other than 0 is the value of the handle's register under .s and a
CHAN trap without. -/
def Obligations.Messages : Prop :=
  ∀ (s : State) (p : Pid) (pr : Proc) (m : Mods) (d r : SReg) (v : VReg) (t : Option SReg) (x : DataReg) (cnt : BitVec 4) (fair : Bool)
      (o : Op) (val : TileData) (n cl e : Nat),
    Issues s p pr (lenOf m true t.isSome) → On m pr →
    let c := pr.ctx
    let len := lenOf m true t.isSome
    (pr.op = none → Quiet s pr → pr.svc = none → Drained s pr.cl → hSclass (c.rs d) ≤ 3 →
      s.resolveEnd pr (c.rs d) true = .ok (c.rs d, .ep cl e) → Waits s p pr .send (fun u => ∃ y q, Tab.get? s.nextMsg u.msgs = some y ∧
        u.proc? p = some q ∧ (q.op.map fun o => (o.id, o.res)) = some (s.nextMsg, .waiting) ∧ y.sender = some p ∧
        y.idx = hIdx (c.rs d) ∧ y.len = 2 ^ hSclass (c.rs d) ∧
        natLE y.bytes = (c.rs r).toNat % 256 ^ 2 ^ hSclass (c.rs d) ∧ q.deadline = (match t with | some z => c.rs z | none => 0) ∧
        (s.cycles + 60, Instr.grantRequestArrival cl s.nextMsg) ∈ u.queue) (exec (.send m d (.sc r) t false) s)) ∧
    (pr.op = some o → o.res = .ok val → ∀ st,
      GoesOn s p pr len (if st then c.ws d 0 else c) (exec (.send m d x t st) s) ∧
      GoesOn s p pr len (if st then c.ws d 0 else c) (exec (.sendt m d r t st) s) ∧
      GoesOn s p pr len (if st then c.ws d 0 else c) (exec (.recvt m r d t st) s) ∧
      (handleOk (c.rs r) = true → hKind (c.rs r) ≠ 7 →
        (let w := c.ws d (BitVec.ofNat 64 (val.toNat % 2 ^ (8 * 2 ^ min (hSclass (c.rs r)) 3)))
         GoesOn s p pr len (if st then w.ws r 0 else w) (exec (.recv m (.sc d) r t st) s)) ∧
        (let w := c.wv v (val.setWidth 512) (if hEfmt (c.rs r) ≤ 13 then BitVec.ofNat 4 (hEfmt (c.rs r)) else 0) 0
         GoesOn s p pr len (if st then w.ws r 0 else w) (exec (.recv m (.vec v) r t st) s)))) ∧
    (pr.op = some o → o.res = .status n → n ≠ 0 →
      GoesOn s p pr len (c.ws d (BitVec.ofNat 64 n)) (exec (.alt m d r cnt t fair) s) ∧
      GoesOn s p pr len (c.ws d (BitVec.ofNat 64 n)) (exec (.send m d x t true) s) ∧
      GoesOn s p pr len (c.ws d (BitVec.ofNat 64 n)) (exec (.sendt m d r t true) s) ∧
      GoesOn s p pr len (c.ws d (BitVec.ofNat 64 n)) (exec (.recv m x d t true) s) ∧
      GoesOn s p pr len (c.ws d (BitVec.ofNat 64 n)) (exec (.recvt m r d t true) s) ∧
      ((n = 4 ∨ n = 5) → pr.TrapsHere → TakesTrap s p pr 11 n len 0 0 (exec (.send m d x t false) s) ∧
        TakesTrap s p pr 11 n len 0 0 (exec (.recv m x d t false) s)))

/-- R330, R331, R350: the steps of a message. One that reaches its endpoint's cluster takes a request-store entry there and arrives at
once; an arrived one that no receiver waits for stands last in its rendezvous endpoint's line; and a RECV that waits there when a small
message arrives takes it, and its sender is answered. -/
def Obligations.MessageSteps : Prop :=
  ∀ (s : State) (cl e k id : Nat) (x : Msg) (n : Endp) (rq : GReq),
    s.Canon → s.endp? cl e = some n → n.reply = false → n.closed = false → n.expert = none → n.buffered = false → n.spn = false → n.filter = none →
    s.frozen cl = false → s.endAway cl e = false →
    (s.msg? id = some x → x.kind = 0 → s.lookup x.idx = some (.ep cl e) → n.efmt = x.efmt → n.sclass = x.sclass →
      (∀ k, Tab.freeKey (s.cluster cl).greqs 0 512 = some k → ∀ i, (i = .grantRequestArrival cl id ∨ i = .busyResend cl id ∧ id < 2 ^ 32) →
        ∃ t y, exec i s = .next t ∧ Tab.get? k (t.cluster cl).greqs = some y ∧ y.src = .msg id ∧
        y.ep = some e ∧ y.matched = false ∧ y.cls = n.gcls ∧ y.len = x.len ∧ (s.cycles, Instr.messageArrival cl k) ∈ t.queue ∧
        t.mem = s.mem) ∧
      (Tab.freeKey (s.cluster cl).greqs 0 512 = none → ∃ t, exec (.grantRequestArrival cl id) s = .next t ∧
        (t.cluster cl).gBusy = (s.cluster cl).gBusy + 1 ∧ (t.cluster cl).greqs = (s.cluster cl).greqs ∧ t.mem = s.mem)) ∧
    (Tab.get? k (s.cluster cl).greqs = some rq → rq.ep = some e →
      (n.waiters = [] → ∃ t y, exec (.messageArrival cl k) s = .next t ∧ t.endp? cl e = some y ∧
        y.unm = n.unm.filter (· ≠ k) ++ [k] ∧ t.mem = s.mem) ∧
      (∀ p pr o q qr, n.waiters = [p] → n.unm = [] → s.proc? p = some pr → pr.wkind = .recv → pr.op = some o → o.got = [] → o.id ≠ id →
        rq.src = .msg id → s.msg? id = some x → x.bad = [] → rq.len ≤ 64 → x.sender = some q → x.ended = false → s.proc? q = some qr →
        qr.op.map Op.id = some id → ∃ t, exec (.messageArrival cl k) s = .next t ∧ t.mem = s.mem ∧
          (t.proc? p).map (fun z => z.op.map Op.res) = some (some (.ok (BitVec.ofNat 8192 (natLE x.bytes)))) ∧
          (t.proc? q).map (fun z => z.op.map Op.res) = some (some (.ok 0)) ∧ t.msg? id = none ∧
          Tab.get? k (t.cluster cl).greqs = none))


/-! ## Processes and launches -/

/-- R352 to R357: SPAWN makes a READY process of the issuer's team at the entry, its registers 0 but for s1, with the issuer's priority and
stage and the team's controls; an odd entry and a full team take PROC. PRIO and STAGE set the process's own; SELF writes the value of its item
(R356); SLEEP goes on once TIMEBASE has reached its operand and waits till then otherwise; YIELD goes past itself; EXIT of a process with
nothing outstanding ends it, its team still having others. -/
def Obligations.Processes : Prop :=
  ∀ (s : State) (p : Pid) (pr : Proc) (m : Mods) (d r : SReg) (t : Option SReg) (n : BitVec 3) (st : BitVec 4) (k : Team) (ch : Nat),
    s.Canon → On m pr → Quiet s pr →
    let c := pr.ctx
    (Issues s p pr (lenOf m true t.isSome) → s.team? pr.team = some k →
      let len := lenOf m true t.isSome
      (bit (c.rs r) 0 = false → s.freeMember pr.team = some ch → ∃ u y, exec (.spawn m d r t) s = .next u ∧
        (u.proc? p).map Proc.view = some (pr.pc + BitVec.ofNat 64 len, (c.ws d (BitVec.ofNat 64 ch)).plain, pr.loop) ∧
        u.proc? ch = some y ∧ y.pc = c.rs r ∧ y.ctx.rs 1 = (match t with | some z => c.rs z | none => 0) ∧
        (∀ i, i ≠ 1 → y.ctx.rs i = 0) ∧ y.prio = pr.prio ∧ y.stage = pr.stage ∧ y.state = .ready ∧ y.team = pr.team ∧ y.lid = k.lid ∧
        y.ctx.fctl = k.fctl ∧ y.ctx.pctl = k.pctl ∧ u.mem = s.mem ∧
        ∀ q, q ≠ p → q ≠ ch → (u.proc? q).map Proc.view = (s.proc? q).map Proc.view) ∧
      (pr.TrapsHere → (bit (c.rs r) 0 = true → TakesTrap s p pr 23 1 len 0 0 (exec (.spawn m d r t) s)) ∧
        (bit (c.rs r) 0 = false → s.freeMember pr.team = none → TakesTrap s p pr 23 2 len 0 0 (exec (.spawn m d r t) s)))) ∧
    (Issues s p pr (lenOf m true false) →
      let len := lenOf m true false
      GoesWith s p pr len c (fun u => (u.proc? p).map Proc.prio = some n) (exec (.prio m n) s) ∧
      GoesWith s p pr len c (fun u => (u.proc? p).map Proc.stage = some st) (exec (.stage m st) s) ∧
      GoesOn s p pr len (c.ws d (BitVec.ofNat 64 (s.dev * 2 ^ 32 + p))) (exec (.self m d .pid) s) ∧
      GoesOn s p pr len (c.ws d (BitVec.ofNat 64 pr.team)) (exec (.self m d .team) s) ∧
      GoesOn s p pr len (c.ws d (pr.stage.setWidth 64)) (exec (.self m d .stage) s) ∧
      GoesOn s p pr len (c.ws d (pr.prio.setWidth 64)) (exec (.self m d .prio) s) ∧
      (p < 2 ^ 32 → GoesOn s p pr len (c.ws d (0xFCC8000000000000 + BitVec.ofNat 64 (s.dev * 2 ^ 38 + p))) (exec (.self m d .reply) s)) ∧
      ((c.rs d).toNat ≤ s.timeAt pr.cl → GoesOn s p pr len c (exec (.sleep m d) s)) ∧
      (s.timeAt pr.cl < (c.rs d).toNat → pr.svc = none →
        Waits s p pr .sleep (fun u => (u.proc? p).map Proc.deadline = some (c.rs d)) (exec (.sleep m d) s)) ∧
      GoesOn s p pr len c (exec (.yield m) s) ∧
      (pr.pend = 0 → pr.batches = [] → (s.cluster pr.cl).copies = [] → Drained s pr.cl → pr.resv = none →
        (∀ e ∈ (s.cluster pr.cl).endps, e.2.spn = false) → (∀ e ∈ s.teams, e.2.replica = none) →
        (∃ e ∈ s.procs, e.1 ≠ p ∧ e.2.team = pr.team) → ∃ u, exec (.exit m) s = .next u ∧ u.proc? p = none ∧ u.mem = s.mem ∧
          ∀ q, q ≠ p → (u.proc? q).isSome = (s.proc? q).isSome))

/-- R363, R374 to R376: LAUNCH of a sound record accepts a launch with as many teams as the record has and gives its id; a malformed
record takes LAUNCH kind 1; with every place of the die taken, LAUNCH.t gives 0. LSTAT reports a launch of its own address space by the
states of its teams, and 0 for an id that was never given. -/
def Obligations.Launches : Prop :=
  ∀ (s : State) (p : Pid) (pr : Proc) (m : Mods) (d r : SReg) (t : Bool) (rec : LaunchRec) (l : Launch),
    Issues s p pr (lenOf m true false) → On m pr → Quiet s pr → Drained s pr.cl →
    let c := pr.ctx
    let len := lenOf m true false
    let reads := fun x => readRecord (loadBlock p) (wlistLine p c.vmctx) false c.vmctx (c.rs r) s = .ok (x, s)
    (reads (some rec) → recVmctx c.vmctx rec.hdr = c.vmctx → s.launch? pr.lid = some l →
      l.cls.toNat ≤ bits (rec.hdr.getD 0 0) 20 19 →
      (s.placesUsed (some (pr.cl / 8)) < 64 → s.waitLaunch = [] →
        GoesWith s p pr len (c.ws d (BitVec.ofNat 64 s.nextLid)) (fun u => u.nextLid = nextLidOf s.nextLid ∧
          ∃ y, u.launch? s.nextLid = some y ∧ y.issuer = some p ∧ y.vmctx = c.vmctx ∧ y.cls.toNat = bits (rec.hdr.getD 0 0) 20 19 ∧
            y.teams.length = rec.teams.length ∧ y.notify = rec.hdr.getD 3 0 ∧ y.decls.length = rec.chans.length)
          (exec (.launch m d r t) s)) ∧
      (64 ≤ s.placesUsed (some (pr.cl / 8)) → GoesOn s p pr len (c.ws d 0) (exec (.launch m d r true) s) ∧
        (pr.svc = none → Waits s p pr .other (fun u => p ∈ u.waitLaunch) (exec (.launch m d r false) s)))) ∧
    (reads none → pr.TrapsHere → TakesTrap s p pr 24 1 len 0 0 (exec (.launch m d r t) s)) ∧
    (∀ y, s.launch? (c.rs r).toNat = some y → asidOf y.vmctx = asidOf c.vmctx → s.teams.length ≤ 1023 →
      let ts := s.teams.filter fun e => e.2.lid = (c.rs r).toNat
      ∃ v, bits v 29 20 = (ts.filter fun e => e.2.state = .queued || e.2.state = .claimed || e.2.state = .backlog).length ∧
        bits v 19 10 = (ts.filter fun e => e.2.state = .running || e.2.state = .suspended || e.2.state = .draining).length ∧
        bits v 9 0 = (ts.filter fun e => e.2.state = .ended).length ∧ (bits v 63 62 = 1 ∨ bits v 63 62 = 2) ∧
        GoesOn s p pr len (c.ws d v) (exec (.lstat m d r) s)) ∧
    (s.launch? (c.rs r).toNat = none → (∀ e ∈ s.history, e.1 ≠ (c.rs r).toNat) → s.nextLid ≤ (c.rs r).toNat →
      GoesOn s p pr len (c.ws d 0) (exec (.lstat m d r) s))

/-! ## Barriers -/

/-- R377 to R382, R384: BARJOIN makes the process a member with its count, or with 0 takes it out; BARARV counts an arrival, and BAR counts
one and waits past the instruction; an arrival beyond the count is deferred to the next episode; BARWAIT waits only when the process has
arrived; BARQ reads the barrier and the membership; what R384 refuses takes BARRIER.

R379, R121: an episode without a group ends when the AND line rises: the epoch steps on, every member's arrivals go back to 0, or to its
deferred one, and no process's registers change. With a group, a device that is not the root tells the root, an arrival short of the
count is noted there, and the root's release message ends the episode. -/
def Obligations.Barriers : Prop :=
  (∀ (s : State) (p : Pid) (pr : Proc) (m : Mods) (d r : SReg) (n : BitVec 5) (b : BarMem),
    s.Canon → Issues s p pr (lenOf m true false) → On m pr → Quiet s pr → Drained s pr.cl →
    let c := pr.ctx
    let len := lenOf m true false
    let mem := fun (t : State) (n : Nat) => (t.proc? p).bind fun q => Tab.get? n q.bars
    let past := fun (x : BarMem) (o : Host.Outcome State Fault Refusal) => GoesWith s p pr len c (fun t => mem t n.toNat = some x ∧
      (pr.svc = none → (t.proc? p).map Proc.state = some .blocked ∧ (t.proc? p).map Proc.wkind = some .barrier)) o
    (c.rs d = n.setWidth 64 →
      ((s.bar n.toNat).owner = none ∨ (s.bar n.toNat).owner = some pr.lid) →
      (∀ k, c.rs r = BitVec.ofNat 64 k → 0 < k → k < 256 → GoesWith s p pr len c (fun t => (mem t n.toNat).map BarMem.k = some k ∧
        (t.bar n.toNat).owner = some pr.lid) (exec (.barjoin m d r) s)) ∧
      (c.rs r = 0 → GoesWith s p pr len c (fun t => mem t n.toNat = none) (exec (.barjoin m d r) s))) ∧
    (pr.TrapsHere →
      (32 ≤ (c.rs d).toNat ∨ 256 ≤ (c.rs r).toNat → TakesTrap s p pr 25 1 len 0 0 (exec (.barjoin m d r) s)) ∧
      (∀ l, c.rs d = n.setWidth 64 → (c.rs r).toNat < 256 → (s.bar n.toNat).owner = some l → l ≠ pr.lid →
        TakesTrap s p pr 25 2 len 0 0 (exec (.barjoin m d r) s)) ∧
      (Tab.get? n.toNat pr.bars = none → TakesTrap s p pr 25 3 len 0 0 (exec (.bararv m n) s) ∧
        TakesTrap s p pr 25 3 len 0 0 (exec (.bar m n) s))) ∧
    (Tab.get? n.toNat pr.bars = none → GoesOn s p pr len c (exec (.barwait m n) s)) ∧
    (Tab.get? n.toNat pr.bars = some b →
      (b.arr < b.k → GoesWith s p pr len c (fun t => mem t n.toNat = some { b with arr := b.arr + 1, waiting := false })
          (exec (.bararv m n) s) ∧
        past { b with arr := b.arr + 1, waiting := true } (exec (.bar m n) s)) ∧
      (b.k ≤ b.arr → past { b with deferred := true, waiting := false } (exec (.bararv m n) s) ∧
        past { b with deferred := true, waiting := true } (exec (.bar m n) s)) ∧
      (b.arr = 0 → GoesOn s p pr len c (exec (.barwait m n) s)) ∧
      (b.arr ≠ 0 → past { b with waiting := true } (exec (.barwait m n) s)) ∧
      (b.k < 256 → b.arr < 256 → ∃ v, bits v 63 48 = (s.bar n.toNat).epoch.toNat ∧ bit v 47 = decide (b.k ≠ 0) ∧
        bit v 46 = decide ((s.bar n.toNat).owner = some pr.lid) ∧ bit v 45 = mbgOn s n.toNat ∧
        bit v 44 = (decide (b.arr ≠ 0) || b.deferred) ∧ bits v 15 8 = b.arr ∧ bits v 7 0 = b.k ∧
        GoesOn s p pr len (c.ws d v) (exec (.barq m d n) s)))) ∧
  (∀ (s : State) (n : Nat) (ep : Bool) (count dev : Nat), n < 32 → s.Canon → s.phys.twin = none →
    let ends := fun (o : Host.Outcome State Fault Refusal) => ∃ t, o = .next t ∧ (t.bar n).epoch = (s.bar n).epoch + 1 ∧ t.mem = s.mem ∧
      ∀ p, (t.proc? p).map Proc.view = (s.proc? p).map Proc.view ∧
        ((t.proc? p).bind fun q => Tab.get? n q.bars) = (((s.proc? p).bind fun q => Tab.get? n q.bars).map fun (b : BarMem) =>
          if b.deferred then { b with arr := 1, deferred := false } else { b with arr := 0, waiting := false })
    (mbgOn s n = false → ends (exec (.barrierAndRise n) s)) ∧
    (∀ l, mbgOn s n = true → bits (mbg s n) 10 0 ≠ s.dev →
      Linked s (s.linkSite (bits (mbg s n) 10 0)) (bits (mbg s n) 10 0) true l →
      ∃ t, exec (.barrierAndRise n) s = .next t ∧ t.procs = s.procs ∧ t.mem = s.mem ∧
        SendsFlit s t l (bits (mbg s n) 10 0) true (.arrive n (s.bar n).mEpoch (bits (mbg s n) 27 16)) []) ∧
    (mbgOn s n = true → (s.bar n).mEpoch = ep → ends (exec (.barrierReleaseMessage n ep) s)) ∧
    ((s.bar n).mEpoch ≠ ep → exec (.barrierReleaseMessage n ep) s = .next s) ∧
    (mbgOn s n = true → bits (mbg s n) 10 0 = s.dev → count = bits (mbg s n) 27 16 → (s.bar n).mEpoch = ep →
      ((insertNat dev (s.bar n).arrivals).length < count ∨ s.dev ∉ insertNat dev (s.bar n).arrivals) → ∃ t, exec (.barrierArriveMessage n ep count dev) s = .next t ∧
        (t.bar n).arrivals = insertNat dev (s.bar n).arrivals ∧ t.procs = s.procs ∧ t.mem = s.mem))

/-! ## System registers, translations, tracing and counters -/

/-- R429, R426: MFSR and MTSR of the registers a process has of its own, in every mode; a number that names no register takes PRIVILEGE NOREG and
one that only service mode reaches takes PRIVILEGE MODE outside it; in service mode MTSR writes the device's registers under their
field maps, and MFSR reads the trap frame. -/
def Obligations.SystemRegisters : Prop :=
  ∀ (s : State) (p : Pid) (pr : Proc) (m : Mods) (d : SReg) (n : BitVec 12) (k : Nat) (sl : SvcSlot) (x : SvcCtx),
    s.Canon → Issues s p pr (lenOf m true false) → On m pr →
    let c := pr.ctx
    let len := lenOf m true false
    let v := c.rs d
    let reads := fun (n : BitVec 12) (w : Word) => GoesOn s p pr len (c.ws d w) (exec (.mfsr m d n) s)
    let writes := fun (n : BitVec 12) (c' : Ctx) => GoesOn s p pr len c' (exec (.mtsr m d n) s)
    reads 32 c.pctl ∧ reads 36 c.fctl ∧ reads 37 c.srstate ∧ reads 38 (c.flags.extractLsb' 0 40 |>.setWidth 64) ∧
    reads 39 (c.flags.extractLsb' 40 40 |>.setWidth 64) ∧ reads 46 (c.elapsed.setWidth 64) ∧ reads 48 c.plat ∧ reads 56 c.vmctx ∧
    writes 32 { c with pctl := v &&& 1 } ∧
    (bits v 2 0 ≤ 4 → writes 36 { c with fctl := v &&& 0x1F17 }) ∧
    writes 37 { c with srstate := v } ∧
    writes 38 { c with flags := (c.flags.extractLsb' 40 40 ++ v.extractLsb' 0 40 : BitVec 80) } ∧
    writes 39 { c with flags := (v.extractLsb' 0 40 ++ c.flags.extractLsb' 0 40 : BitVec 80) } ∧
    writes 44 { c with frac := v.extractLsb' 24 8, padd := v.extractLsb' 0 24 } ∧
    writes 40 c ∧ writes 46 c ∧ writes 48 c ∧
    (pr.TrapsHere →
      (sysListed n.toNat = false → TakesTrap s p pr 3 3 len 0 0 (exec (.mfsr m d n) s) ∧
        TakesTrap s p pr 3 3 len 0 0 (exec (.mtsr m d n) s)) ∧
      ((8 ≤ n.toNat ∧ n.toNat ≤ 13 ∨ 24 ≤ n.toNat ∧ n.toNat ≤ 31) → TakesTrap s p pr 3 1 len 0 0 (exec (.mfsr m d n) s)) ∧
      ((n = 16 ∨ n = 56 ∨ n = 57 ∨ 64 ≤ n.toNat ∧ n.toNat ≤ 83 ∨ 88 ≤ n.toNat ∧ n.toNat ≤ 126) →
        TakesTrap s p pr 3 1 len 0 0 (exec (.mtsr m d n) s))) ∧
    (pr.svc = some k →
      writes 56 { c with vmctx := v &&& vmctxMask } ∧
      ((n = 16 ∨ n = 121 ∨ n = 124 ∨ 64 ≤ n.toNat ∧ n.toNat ≤ 83 ∨ 88 ≤ n.toNat ∧ n.toNat ≤ 119) → ∃ t, exec (.mtsr m d n) s = .next t ∧
        (t.proc? p).map Proc.view = some (pr.pc + BitVec.ofNat 64 len, c.plain, pr.loop) ∧ t.mem = s.mem ∧
        t.reg n.toNat = v &&& sysMask n.toNat ∧ ∀ j, j ≠ n.toNat → t.reg j = s.reg j) ∧
      (Tab.get? k (s.cluster pr.cl).svc = some sl → sl.ctx = some x →
        reads 8 x.frame.tcause ∧ reads 9 x.frame.tpc ∧ reads 10 x.frame.taddr ∧ reads 11 x.frame.taux ∧ reads 12 x.frame.tloop ∧
        reads 13 x.frame.svcst ∧ reads 24 (Tab.getD 56 sl.ps 0) ∧ reads 31 (Tab.getD 63 sl.ps 0)))

/-- R430, R431, R77, R78, R444, R443: PHASE starts a phase with its id and expected cycles; CTXSYNC goes on; TLBI of service mode leaves no
translation that its operand names in any TLB, and takes PRIVILEGE elsewhere; TLBP answers bit 63 with the fault's kind outside space 0;
TRMARK puts a packet into an open trace; EVREAD reads a counter.

R450: EVGATHER inside a chunk stores 32 words: the number of cores with members of the barrier and the barrier's number, TIMEBASE, and
the sums of counters 0 to 29 over those cores; a process that is no member takes BARRIER kind 3. -/
def Obligations.SystemForms : Prop :=
  (∀ (s : State) (p : Pid) (pr : Proc) (m : Mods) (d r : SReg) (kind : TlbiKind) (n : BitVec 8),
    Issues s p pr (lenOf m true false) → On m pr →
    let c := pr.ctx
    let len := lenOf m true false
    let cl := s.cluster pr.cl
    GoesOn s p pr len { c with
      phid := (c.rs d).setWidth 32, expect := BitVec.ofNat 32 (min (c.rs r).toNat (2 ^ 32 - 1)), elapsed := 0 } (exec (.phase m d r) s) ∧
    GoesOn s p pr len c (exec (.ctxsync m) s) ∧
    (pr.TrapsHere → TakesTrap s p pr 3 1 len 0 0 (exec (.tlbi m d kind) s)) ∧
    (pr.svc ≠ none → scopeOf m = 0 → pr.outs = [] → (∀ e ∈ s.procs, e.1 ≠ p → e.2.outs = [] ∧ e.2.chunk = none ∧ e.2.op = none) →
      (∀ e ∈ s.clusters, e.2.cache = []) → GoesWith s p pr len c (fun t => ∀ k,
        (t.cluster k).tlb = (s.cluster k).tlb.filter fun e => !(match kind with
          | .va => (bit e.leaf 5 || e.asid = (c.rs d).setWidth 16) && e.va = bits (c.rs d) 56 16 * 65536 / 2 ^ sizeShift e.size
          | .vaall => e.va = bits (c.rs d) 56 16 * 65536 / 2 ^ sizeShift e.size
          | .asid => e.asid = (c.rs d).setWidth 16 && !bit e.leaf 5
          | .all => true)) (exec (.tlbi m d kind) s)) ∧
    (spaceOf (c.rs r) ≠ 0 → GoesOn s p pr len (c.ws d (field 1 63)) (exec (.tlbp m d r) s)) ∧
    (spaceOf (c.rs r) = 0 → bits (c.rs r) 61 57 ≠ 0 → GoesOn s p pr len (c.ws d (field 1 63 ||| 1)) (exec (.tlbp m d r) s)) ∧
    (bit (trcfg s pr.cl) 1 = false → GoesOn s p pr len c (exec (.trmark m d) s)) ∧
    (s.capturing pr.cl = true → pr.chunk = none → cl.trace.filt = none → cl.trace.buf.length < 16384 → pr.unit < 32 →
      GoesWith s p pr len c (fun t => ∃ h, bits h 7 0 = 2 ∧ bits h 12 8 = pr.unit ∧ bits h 63 18 = s.timebase % 2 ^ 46 ∧
        (t.cluster pr.cl).trace.buf = cl.trace.buf ++
          [packetOf [h, c.rs d, BitVec.ofNat 64 (s.dev * 2 ^ 32 + p), pr.stage.setWidth 64]]) (exec (.trmark m d) s)) ∧
    GoesOn s p pr len (c.ws d (BitVec.ofNat 64 (s.cycles - s.mgmt.startCycle))) (exec (.evread m d 0) s) ∧
    (1 ≤ n.toNat → n.toNat ≤ 13 → n ≠ 9 →
      GoesOn s p pr len (c.ws d (Tab.getD (256 * pr.unit + n.toNat) cl.events 0)) (exec (.evread m d n) s)) ∧
    (14 ≤ n.toNat → n.toNat < 128 → GoesOn s p pr len (c.ws d 0) (exec (.evread m d n) s)) ∧
    (192 ≤ n.toNat → n.toNat ≤ 198 → GoesOn s p pr len (c.ws d (Tab.getD n.toNat s.events 0)) (exec (.evread m d n) s))) ∧
  (∀ (s : State) (p : Pid) (pr : Proc) (m : Mods) (d : SReg) (n : BitVec 5) (loc : Nat) (b : BarMem),
    Issues s p pr (lenOf m true false) → On m pr → Quiet s pr →
    let len := lenOf m true false
    let span := s.barSpan n.toNat
    let words := (BitVec.ofNat 64 (span.length % 65536 + 65536 * n.toNat)) :: BitVec.ofNat 64 s.timebase ::
      (List.range 30).map fun k => BitVec.ofNat 64 (min (2 ^ 64 - 1) ((span.map fun c => (s.coreCounter c.1 c.2 k).toNat).sum))
    (Tab.get? n.toNat pr.bars = none → pr.TrapsHere → TakesTrap s p pr 25 3 len 0 0 (exec (.evgather m d n) s)) ∧
    (Tab.get? n.toNat pr.bars = some b → b.k ≠ 0 → pr.chunk ≠ none →
      (∀ i < 4, Local s pr (pr.ctx.rs d + BitVec.ofNat 64 (64 * i)) 64 (loc + 64 * i)) →
      Buffers s p pr len (fun k => if loc ≤ k ∧ k < loc + 256 then some ((wordsBytes words).getD (k - loc) 0) else none)
        (exec (.evgather m d n) s)))

/-! ## Experts -/

/-- R386, R404 to R408: XBIND with a sound descriptor takes a place of the replica table for the channel's endpoint and gives the expert's
handle; XQRY reads the table entry, and all ones for a handle that does not qualify; XPIN 0 and 1 set PIN; an XPIN or XMERGE of such a
handle takes EXPERT OWNER; and an XPIN or XMERGE that has been answered goes on. -/
def Obligations.Experts : Prop :=
  ∀ (s : State) (p : Pid) (pr : Proc) (m : Mods) (d r : SReg) (loc x cl k : Nat) (e : Expert) (n : Endp) (o : Op),
    Issues s p pr (lenOf m true false) → On m pr →
    let c := pr.ctx
    let len := lenOf m true false
    let ws := (List.range 8).map (seenWord s pr loc)
    (pr.op = none → Quiet s pr → Local s pr (c.rs r) 64 loc → badBindFields ws = false → s.bindEnd pr (ws.getD 0 0) = some (cl, k, n) →
      s.endp? cl k = some n → badBindBuffer n ws = false → Tab.freeKey s.experts 0 1024 = some x →
      ∃ h y, hKind h = 5 ∧ hIdx h = x ∧ hEfmt h = n.efmt.toNat ∧ hSclass h = n.sclass.toNat ∧ hDev h = s.dev ∧
        y.ver = 1 ∧ y.live = 1 ∧ y.stub = 0 ∧ y.pin = bit (ws.getD 4 0) 48 ∧ y.lid = pr.lid ∧ y.team0 = n.team ∧ y.wsrc = ws.getD 1 0 ∧
        y.entry = ws.getD 3 0 ∧ y.hot = bits (ws.getD 5 0) 31 0 ∧ y.cold = bits (ws.getD 5 0) 63 32 ∧ y.switch = none ∧
        GoesWith s p pr len (c.ws d h) (fun t => t.expert? x = some y ∧ (t.endp? cl k).map Endp.expert = some (some (x, 0)))
          (exec (.xbind m d r) s)) ∧
    (s.expertOf pr (c.rs r) = some (x, e) → ∃ v, bits v 63 32 = e.ver.toNat ∧ bits v 31 24 = e.live.toNat ∧ bits v 23 16 = e.stub.toNat ∧
      bit v 15 = e.pin ∧ bit v 14 = e.switch.isSome ∧ bits v 7 0 = min e.wcnt.toNat 255 ∧
      GoesOn s p pr len (c.ws d v) (exec (.xqry m d r) s)) ∧
    (s.expertOf pr (c.rs r) = none → GoesOn s p pr len (c.ws d (BitVec.allOnes 64)) (exec (.xqry m d r) s)) ∧
    (pr.op = none → s.expertOf pr (c.rs d) = some (x, e) →
      (c.rs r = 0 → GoesWith s p pr len c (fun t => t.expert? x = some { e with pin := false }) (exec (.xpin m d r) s)) ∧
      (c.rs r = 1 → GoesWith s p pr len c (fun t => t.expert? x = some { e with pin := true }) (exec (.xpin m d r) s))) ∧
    (pr.op = none → s.expertOf pr (c.rs d) = none → pr.TrapsHere → TakesTrap s p pr 26 3 len 0 0 (exec (.xmerge m d) s) ∧
      (c.rs r = 0 → TakesTrap s p pr 26 3 len 0 0 (exec (.xpin m d r) s))) ∧
    (pr.op = some o → o.res = .ok 0 → pr.outs = [] → (o.key = 2 ^ 74 → GoesOn s p pr len c (exec (.xpin m d r) s)) ∧
      (o.key = 2 ^ 74 + 1 → GoesOn s p pr len c (exec (.xmerge m d) s)))


/-! ## Steps of the hardware's own agents -/

/-- R127 to R137, R148, R154, R425: the grant scheduler gives the best request's next unit a token when the outstanding bytes allow it, and its
sender answers with the unit's lines. A chunk whose token is outstanding is written and its unit counted; any other is discarded and
counted. A token expires after its time and an orphan is reclaimed after its own, both counted. GRCTL.CLR clears the counters, revoked
serials are remembered with their message, an engine's line is written, and a stopped copy is resumed or ended. -/
def Obligations.GrantSteps : Prop :=
  ∀ (s : State) (cl k u id place : Nat) (r : GReq) (tk : Token) (x : Msg) (ls : List (Line × Bool)) (c : Copy),
    s.Canon → s.frozen cl = false →
    let d := s.cluster cl
    (s.grantBest cl = some (k, r) → missingUnit r = some u → d.out + unitBytes r u ≤ 262144 → ∃ t y, exec (.grantNext cl) s = .next t ∧
      Tab.get? k (t.cluster cl).greqs = some y ∧ y.toks = r.toks ++ [{
        serial := d.serial, unit := u, bytes := unitBytes r u, issued := s.timebase, texp := s.texp cl }] ∧
      (t.cluster cl).out = d.out + unitBytes r u ∧ (t.cluster cl).serial = d.serial + 1 ∧ t.mem = s.mem ∧
      (s.cycles + s.tokenTrip r, Instr.tokenReceipt cl k u d.serial) ∈ t.queue) ∧
    (s.grantBest cl = none → exec (.grantNext cl) s = .next s) ∧
    (Tab.get? k d.greqs = some r →
      (r.src = .msg id → s.msg? id = some x →
        (x.sender.isSome = true → x.dropped = [] → s.earlierToken cl k tk.serial = false → s.frozen x.srcCl = false →
          (s.cluster x.srcCl).windows = [] → s.poison = [] → s.codeErr = [] → s.phys.flips = [] → s.redSlots = [] →
          ∃ t, exec (.tokenReceipt cl k u tk.serial) s = .next t ∧ t.mem = s.mem ∧ (s.cycles + 60, Instr.chunkArrival cl k u tk.serial
            ((linesOf (sramLoc x.srcCl (x.srcOff + (unitSpan r u).1)) (unitSpan r u).2).map fun l => (s.lineData l, false))) ∈ t.queue) ∧
        (r.toks.find? (fun t => t.serial = tk.serial && t.unit = u) = some tk → u ≠ 0 → (∃ v ∈ neededUnits r, v ≠ u ∧ ¬ r.rcv.contains v) →
          r.dest % 64 = 0 → sramLoc cl 0 ≤ r.dest → unitBytes r u = 64 * ls.length → (∀ l ∈ ls, l.2 = false) → d.windows = [] →
          s.redSlots = [] → ∃ t y, exec (.chunkArrival cl k u tk.serial ls) s = .next t ∧ Tab.get? k (t.cluster cl).greqs = some y ∧
            y.toks = r.toks.erase tk ∧ y.rcv = insertNat u r.rcv ∧ (t.cluster cl).out = d.out - tk.bytes ∧
            (∀ i < 64 * ls.length, Memory.get (r.dest + 4096 * u + i) t.mem =
              (ls.getD (i / 64) (0, false)).1.extractLsb' (8 * (i % 64)) 8) ∧
            ∀ a, (a < r.dest + 4096 * u ∨ r.dest + 4096 * u + 64 * ls.length ≤ a) → Memory.get a t.mem = Memory.get a s.mem) ∧
        (r.toks.find? (fun t => t.serial = tk.serial) = some tk → tk.issued + tk.texp ≤ s.timebase →
          ∃ t y, exec (.tokenExpiry cl k tk.serial) s = .next t ∧ Tab.get? k (t.cluster cl).greqs = some y ∧ y.toks = r.toks.erase tk ∧
            (t.cluster cl).out = d.out - tk.bytes ∧ (t.cluster cl).gExp = min (d.gExp + 1) 65535 ∧ t.mem = s.mem) ∧
        (r.granted ≠ [] → r.lastAcc + s.orph cl ≤ s.timebase → ∀ p q pr qr o o', r.rcvr = some p → x.sender = some q → x.ended = false →
          s.proc? p = some pr → s.proc? q = some qr → pr.op = some o → qr.op = some o' → o.id ≠ id → o'.id = id →
          ∃ t, exec (.orphanTimeout cl k) s = .next t ∧ Tab.get? k (t.cluster cl).greqs = none ∧
            (t.cluster cl).gOrph = min (d.gOrph + 1) 255 ∧ t.mem = s.mem ∧
            (t.proc? p).map (fun z => z.op.map Op.res) = some (some (.status 3)) ∧
            (t.proc? q).map (fun z => z.op.map Op.res) = some (some (.status 1)))) ∧
      (r.toks = [] → ∃ t, exec (.chunkArrival cl k u tk.serial ls) s = .next t ∧ (t.cluster cl).gDisc = d.gDisc + 1 ∧ t.mem = s.mem)) ∧
    (∃ t, exec (.grctlClear cl) s = .next t ∧ (t.cluster cl).gExp = 0 ∧ (t.cluster cl).gDisc = 0 ∧ (t.cluster cl).gOrph = 0 ∧
      (t.cluster cl).gBusy = 0 ∧ (t.cluster cl).out = d.out ∧ t.mem = s.mem) ∧
    (s.msg? id = some x → ∃ t, exec (.revokedSerialsReceipt id [tk.serial]) s = .next t ∧
      t.msg? id = some { x with dropped := x.dropped ++ [tk.serial] } ∧ t.mem = s.mem ∧ t.procs = s.procs) ∧
    (u % 64 = 0 → u < 0x02000000 → s.windowAt cl u = none → s.redSlots = [] → ∀ data : Line,
      ∃ t, exec (.engineLineWrite cl u data false) s = .next t ∧ t.procs = s.procs ∧
        ∀ a, Memory.get a t.mem = if sramLoc cl u ≤ a ∧ a < sramLoc cl u + 64 then data.extractLsb' (8 * (a - sramLoc cl u)) 8
          else Memory.get a s.mem) ∧
    (Tab.get? place d.copies = some c → c.stopped.isSome = true →
      (∃ t, exec (.cpyctlResume cl c.team place) s = .next t ∧
        Tab.get? place (t.cluster cl).copies = some { c with stopped := none } ∧ t.mem = s.mem) ∧
      ((∀ e ∈ d.windows, e.2.want = false) → ∃ t, exec (.cpyctlEndFailed cl c.team place) s = .next t ∧
        Tab.get? place (t.cluster cl).copies = none ∧ t.mem = s.mem ∧
        ∀ w z, c.win = some w → Tab.get? w d.windows = some z → (Tab.get? w (t.cluster cl).windows).map Window.fst = some .failed))


/-- R367 to R369, R371: a free slot of a core takes the head of the core's best queue, or steals from the fullest core when the core has
none; a higher priority pre-empts the weakest running process and an ended slice the running one, unless a slice of its MMA is under way
(R273); a pre-empted process is READY with its view as it was. A team of a higher class claims the cluster of one it pre-empts. -/
def Obligations.SchedulerSteps : Prop :=
  ∀ (s : State) (cl core k q f : Nat) (p : Pid) (pr : Proc) (l : List Pid),
    s.Canon → s.proc? p = some pr → pr.cl = cl → (s.cluster cl).dm.phase = .running → core < 31 →
    let runs := fun (o : Host.Outcome State Fault Refusal) => ∃ t y, o = .next t ∧ t.proc? p = some y ∧ y.state = .running ∧ y.slot = some k ∧
      y.core = core ∧ y.view = pr.view ∧ (∀ c q, p ∉ t.readyAt cl c q) ∧ t.mem = s.mem
    let waits := fun (o : Host.Outcome State Fault Refusal) => ∃ t y, o = .next t ∧ t.proc? p = some y ∧ y.state = .ready ∧ y.slot = none ∧
      y.view = pr.view ∧ FrameOf s t p
    (s.bestPrio cl core = some q → s.readyAt cl core q = p :: l → s.freeSlot cl core = some k → runs (exec (.slotRefill cl core) s)) ∧
    (s.bestPrio cl core = none → s.freeSlot cl core = some k → (List.range 8).find? (fun q => (s.richest cl core q).isSome) = some q →
      s.richest cl core q = some f → s.readyAt cl f q = p :: l → runs (exec (.workSteal cl core) s)) ∧
    (s.bestPrio cl core = some q → s.freeSlot cl core = none → (∀ e ∈ s.procs, e.2.yieldsSlot = false) →
      s.weakest cl core = some (p, pr) → q < pr.prio.toNat → pr.loop = none → pr.pend = 0 → s.inSlice p pr = false →
      waits (exec (.priorityPreemption cl core) s)) ∧
    (pr.slot.isSome = true → pr.leaving = false → s.sliceOver p pr = true → pr.loop = none → pr.pend = 0 → s.inSlice p pr = false →
      waits (exec (.timeSliceExpiry p) s)) ∧
    (∀ die t v a b, (∀ e ∈ s.teams, e.2.state ≠ .claimed) → s.claimable die = none → s.preemptable die = some (t, v) → t ≠ v →
      s.team? t = some a → s.team? v = some b → ∃ u, exec (.classPreemption die) s = .next u ∧ u.mem = s.mem ∧
        (u.team? t).map Team.state = some .claimed ∧ (u.team? t).map Team.victim = some (some v) ∧
        (u.team? v).map Team.state = some .suspended ∧ (s.cycles + 8, Instr.classPreemption die) ∈ u.queue)

/-- R335, R343, R345, R354, R75, R412, R410, R430: a deadline that has passed withdraws its operation: at once, or after the message's way; a
withdrawn receive or unmatched send ends with status 5 and an ALT with its count; a sleeper wakes. A probe that comes back to its origin
is reported once to the team's fault endpoint. A walk puts its leaf, with A and D set as the access needs, into the cluster's TLB and answers the process that waits
for it. A
service slot starts the oldest context of the queue at SVEC with its own s56 to s63 in exchange, and an overrun phase takes its trap. -/
def Obligations.ProcessSteps : Prop :=
  ∀ (s : State) (p : Pid) (pr : Proc) (o : Op), s.Canon → s.proc? p = some pr →
    let woken := fun (t : State) => pr.state = .blocked → pr.slot.isSome = true → (t.proc? p).map Proc.state = some .running
    let past := s.deadlinePast p = some pr
    let ends := fun (n : Nat) (o : Host.Outcome State Fault Refusal) => ∃ t, o = .next t ∧ woken t ∧
      (t.proc? p).map (fun z => z.op.map Op.res) = some (some (.status n)) ∧ t.mem = s.mem
    (past → (pr.wkind = .send ∨ pr.wkind = .sendt → ∃ t, exec (.deadlineExpiry p) s = .next t ∧ t.procs = s.procs ∧
        (s.cycles + 61, Instr.withdrawalArrival p) ∈ t.queue) ∧
      (pr.wkind = .recv ∨ pr.wkind = .recvt ∨ pr.wkind = .alt → ∃ t, exec (.deadlineExpiry p) s = .next t ∧ t.procs = s.procs ∧
        (s.cycles, Instr.withdrawalArrival p) ∈ t.queue) ∧
      (pr.op = some o → o.res = .waiting →
        (pr.wkind = .recv → (∀ c ∈ s.clusters, ∀ r ∈ c.2.greqs, r.2.matched = false) → ends 5 (exec (.withdrawalArrival p) s)) ∧
        (pr.wkind = .alt → ends (o.key % 32) (exec (.withdrawalArrival p) s)) ∧
        (∀ m, pr.wkind = .send → s.msg? o.id = some m → m.sender = some p → m.place = none →
          ends 5 (exec (.withdrawalArrival p) s) ∧ ∀ t, exec (.withdrawalArrival p) s = .next t → t.msg? o.id = none)) ∧
      (pr.wkind = .sleep → ∃ t, exec (.sleepWake p) s = .next t ∧ woken t ∧ t.mem = s.mem ∧ (t.proc? p).map Proc.view = some pr.view)) ∧
    ((∀ z, s.deadlinePast p ≠ some z) → exec (.deadlineExpiry p) s = .next s ∧ exec (.withdrawalArrival p) s = .next s ∧
      exec (.sleepWake p) s = .next s) ∧
    (∀ every k, every = nsCycles (1000 * bits (s.reg 124) 15 0) → every ≠ 0 → pr.wkind ≠ .nothing → pr.deadline = 0 → pr.reported = false →
      pr.since + every ≤ s.cycles → s.edges p = [k] → k / 2 ^ 32 = s.dev → ∃ t, exec (.probeTimer p) s = .next t ∧ t.procs = s.procs ∧
        (s.cycles + 60, Instr.probeArrival (k % 2 ^ 32) (s.key p) [s.pathWord p] 1) ∈ t.queue ∧
        (s.cycles + every, Instr.probeTimer p) ∈ t.queue) ∧
    (∀ path hops, s.edges p ≠ [] → pr.reported = false → ∃ t, exec (.probeArrival p (s.key p) path hops) s = .next t ∧
      (t.proc? p).map Proc.reported = some true ∧ Tab.getD (faultIdx pr.team) t.svcMsgs [] =
        Tab.getD (faultIdx pr.team) s.svcMsgs [] ++ [deadlockRecord s pr path hops] ∧ t.mem = s.mem) ∧
    (∀ line, (line ∉ pr.fetching → exec (.registerLineFetch p line) s = .next s) ∧
      (line ∈ pr.fetching → s.redSlots = [] → (s.regLinesOn pr.cl pr.unit).length < 1024 →
        ∃ t y, exec (.registerLineFetch p line) s = .next t ∧ t.proc? p = some y ∧ (Tab.get? line y.rlines).map RLine.dirty = some false ∧
          y.fetching = pr.fetching.filter (· ≠ line) ∧ y.view = pr.view ∧ t.mem = s.mem)) ∧
    (∀ (cl core asid : Nat) (va : Word) (write : Bool) (e : TlbE) (u : State),
      let x : XCtx := { cl := some cl, core := core, walker := cl / 8, asid := BitVec.ofNat 16 asid
                        root := rootOf (s.rootOfAsid (BitVec.ofNat 16 asid)) }
      (∀ w ∈ s.walks, w.begun = false) → s.walk x (bits va 56 0) = (.ok e, u) →
        permOk (if write then .write else .read) e.leaf = true →
        ∃ t z, exec (.walkComplete cl core asid va write) s = .next t ∧ z ∈ (t.cluster cl).tlb ∧ z.va = e.va ∧ z.size = e.size ∧
          z.asid = e.asid ∧ z.leaf = e.leaf ||| (field 1 6 ||| if write then field 1 7 else 0)) ∧
    (∀ (w : Walk) (q : Asked) (e : TlbE) (u : State),
      let x : XCtx := { cl := some pr.cl, core := pr.unit, walker := w.walker, asid := w.asid, root := w.root }
      s.walks = [w] → w.begun = true → w.walker = pr.cl / 8 → w.procs = [p] → w.page < 2 ^ 41 → pr.asked = some q → q.asid = w.asid →
        q.page = w.page → q.ans = none → q.fetch = false → ({ s with walks := [] } : State).walk x (w.page * 2 ^ 16) = (.ok e, u) →
        permOk (if q.write then .write else .read) e.leaf = true →
        ∃ t z y, exec (.walkComplete pr.cl pr.unit w.asid.toNat (BitVec.ofNat 64 (w.page * 2 ^ 16)) q.write) s = .next t ∧
          z ∈ (t.cluster pr.cl).tlb ∧ z.va = e.va ∧ z.size = e.size ∧ z.asid = e.asid ∧
          z.leaf = e.leaf ||| (field 1 6 ||| if q.write then field 1 7 else 0) ∧ t.proc? p = some y ∧
          y.asked = some { q with ans := some none } ∧ y.view = pr.view ∧ t.walks = []) ∧
    (∀ x rest k, (s.cluster pr.cl).dm.phase = .running → (s.cluster pr.cl).svcQ = x :: rest → x.pid = p → x.second = none → s.reg 16 ≠ 0 →
      (List.range 8).find? (fun k => ((Tab.getD k (s.cluster pr.cl).svc {}).ctx).isNone) = some k → ∃ t y,
        exec (.serviceSlotStart pr.cl) s = .next t ∧ t.proc? p = some y ∧ y.state = .service ∧ y.svc = some k ∧ y.pc = s.reg 16 ∧
        (∀ r, r < 56 → Tab.getD r y.ctx.s 0 = Tab.getD r pr.ctx.s 0) ∧
        (∀ r, 56 ≤ r → r ≤ 63 → Tab.getD r y.ctx.s 0 = Tab.getD r (Tab.getD k (s.cluster pr.cl).svc {}).priv 0 ∧
          Tab.getD r (Tab.getD k (t.cluster pr.cl).svc {}).ps 0 = Tab.getD r pr.ctx.s 0) ∧
        (Tab.getD k (t.cluster pr.cl).svc {}).ctx = some x ∧ (t.cluster pr.cl).svcQ = rest ∧ t.mem = s.mem) ∧
    (pr.ctx.overrun = true → pr.svc = none → pr.state = .running → pr.chunk = none → pr.op = none → pr.pend = 0 → ∃ t y x,
      exec (.phaseOverrun p) s = .next t ∧ t.proc? p = some y ∧ y.state = .service ∧ y.pc = pr.pc ∧ y.fcls = 27 ∧ y.ctx.expect = 0 ∧
      (t.cluster pr.cl).svcQ = (s.cluster pr.cl).svcQ ++ [x] ∧ x.pid = p ∧ bits x.frame.tcause 7 0 = 27 ∧ x.frame.tpc = pr.pc ∧
      x.frame.taddr = pr.ctx.phid.setWidth 64 ∧ x.frame.taux = pr.ctx.elapsed.setWidth 64 ∧ t.mem = s.mem)


/-- R90 to R95, R340, R363, R365, R366, R371: the launch logic's and dispatchers' steps. A NOP slot is completed with status 0 and a malformed
one with status 2; a LAUNCH slot waits for its place and a sound record becomes a launch of its queue; a queue reset starts the queue
anew; a coalescing window ends with one interrupt; a host mailbox slot is delivered and cleared. A claimed team gets its cluster and its
initial processes at its entry; a head of a queue becomes firm; a backlog team is advertised, migrates and resumes. -/
def Obligations.LaunchSteps : Prop :=
  ∀ (s : State) (q : Nat) (slot : List Word) (tm die cl : Nat) (k : Team), s.Canon → s.redSlots = [] → s.codeErr = [] → s.memdies = [] → q < 64 →
    let record := fun (st : Nat) (t : State) => (∀ i < 4, Memory.read64 t.mem (0x100000 + 0x2000 * q + 0x20 * ((slot.getD 7 0).toNat % 256) + 8 * i) =
        [BitVec.ofNat 64 (st + bits (slot.getD 0 0) 63 32 * 2 ^ 32), slot.getD 7 0, 0, BitVec.ofNat 64 s.timebase].getD i 0) ∧
      ∀ a, (a < 0x100000 + 0x2000 * q + 0x20 * ((slot.getD 7 0).toNat % 256) ∨
        0x100020 + 0x2000 * q + 0x20 * ((slot.getD 7 0).toNat % 256) ≤ a) → Memory.get a t.mem = Memory.get a s.mem
    (∃ t, exec (.launchSlotNop q slot) s = .next t ∧ record (if s.badSlot slot = true then 2 else 0) t) ∧
    (s.badSlot slot = true → ∃ t, exec (.launchSlotLaunch q slot) s = .next t ∧ record 2 t) ∧
    (s.badSlot slot = false → ∃ t, exec (.launchSlotLaunch q slot) s = .next t ∧ t.mem = s.mem ∧
      Tab.get? s.nextReq t.lreqs = some { queue := q, slot := slot } ∧ (s.cycles, Instr.launchAcceptance s.nextReq) ∈ t.queue) ∧
    (∀ req x u, s.lreqs = [(req, { queue := q, slot := slot })] → s.badSlot slot = false → bits (slot.getD 0 0) 7 0 = 1 →
      s.placesUsed none < 64 → ({ s with lreqs := [] } : State).readAgain (hostLaunch q slot) = some (some x, u) →
      ∃ t y, exec (.launchAcceptance req) s = .next t ∧ t.launch? u.nextLid = some y ∧ y.host.map Prod.fst = some q ∧
        y.cls.toNat = bits (slot.getD 0 0) 9 8 ∧ y.record = slot.getD 1 0 ∧ y.teams.length = x.teams.length ∧ t.lreqs = u.lreqs ∧
        t.mem = u.mem ∧ t.nextLid = nextLidOf u.nextLid) ∧
    ((∀ e ∈ s.launches, ∀ h, e.2.host = some h → h.1 ≠ q) → (∀ e ∈ s.lreqs, e.2.queue ≠ q) → ∃ t, exec (.queueReset q) s = .next t ∧
      (Tab.getD q t.queues {}).eseq = 1 ∧ t.mem = s.mem ∧ t.launches = s.launches ∧ t.procs = s.procs) ∧
    (∀ vec n, Tab.get? vec s.coalesce = some n → s.phys.shadow = false → ∃ t, exec (.coalescingWindowClose vec) s = .next t ∧
      t.outs = s.outs ++ [.msix vec] ∧ Tab.get? vec t.coalesce = none ∧ t.mem = s.mem) ∧
    (∀ mb b, mb < 56 → Tab.get? mb s.mailboxes = some b → b.waiters = [] → b.inbound.length < 64 →
      let a := mailSlot mb false b.eseq.toNat
      Memory.read64 s.mem (a + 56) = b.eseq → ∃ t, exec (.hostMailboxInbound mb) s = .next t ∧
        Tab.get? mb t.mailboxes = some { b with eseq := b.eseq + 1, inbound := b.inbound ++ [Memory.read s.mem a 32] } ∧
        Memory.read64 t.mem (a + 56) = 0 ∧ ∀ x, (x < a + 56 ∨ a + 64 ≤ x) → Memory.get x t.mem = Memory.get x s.mem) ∧
    (s.team? tm = some k →
      (∀ c, die < s.cdies.length → s.mgmt.throttle = false → (∀ l, s.tryEndLaunch l = s) → s.claimable die = some (c, tm, cl) →
        k.presets = [] → (∀ e ∈ s.procs, e.1 / 256 ≠ tm) → ∃ t, exec (.dispatchClaim die) s = .next t ∧
          (t.team? tm).map Team.state = some .running ∧ (t.team? tm).map Team.cl = some cl ∧
          ∀ i, i < k.nproc → i < 256 → ∃ y, t.proc? (256 * tm + i) = some y ∧ y.state = .ready ∧ y.pc = k.entry ∧ y.team = tm ∧
            y.cl = cl ∧ y.ctx.rs 1 = BitVec.ofNat 64 i ∧ y.ctx.rs 6 = BitVec.ofNat 64 k.index ∧ y.ctx.fctl = k.fctl) ∧
      (∀ c a, (Tab.getD c s.classQ []).head? = some tm → k.firmIn ≠ 0 → k.headAt = some a →
        a + 1000 * k.firmIn ≤ s.timebase → (∀ d < s.cdies.length, s.holder d tm = none) → ∃ t, exec (.teamFirm c) s = .next t ∧
          t.team? tm = some { k with firm := true } ∧ t.mem = s.mem) ∧
      (∀ d rest, s.backlog = [(d, tm :: rest)] → d ≠ die → die < s.cdies.length →
        (clustersOf die).find? (fun cl => s.canLand tm cl) = some cl → ∃ t, exec (.advertisement die) s = .next t ∧
          (s.cycles + 180, Instr.advertisementReceipt d cl) ∈ t.queue ∧ t.mem = s.mem ∧ t.procs = s.procs) ∧
      (∀ d rest, Tab.getD d s.backlog [] = tm :: rest → k.susp + 1000 * k.advIn < s.timebase →
        s.canLand tm cl = true → s.lander d tm = none → (s.cluster k.cl).cache = [] → ∃ t, exec (.advertisementReceipt d cl) s = .next t ∧
          (s.cycles + 600, Instr.teamMigrationArrival tm cl) ∈ t.queue ∧ ((t.team? tm).bind Team.luggage).isSome = true) ∧
      (k.state = .backlog → k.cl = cl → k.luggage = none → s.canLand tm cl = true → (∀ e ∈ s.procs, e.2.team ≠ tm) →
        (∀ e ∈ (s.cluster cl).endps, e.2.team ≠ tm) → (∀ e ∈ s.procs, e.2.wkind ≠ .other) →
        let back := fun (t : State) => (t.team? tm).map Team.state = some .running ∧ (∀ d, tm ∉ Tab.getD d t.backlog []) ∧ t.mem = s.mem
        (∃ t, exec (.teamMigrationArrival tm cl) s = .next t ∧ back t) ∧
        (∀ rest, Tab.getD (cl / 8) s.backlog [] = tm :: rest → (∀ e ∈ s.procs, e.2.state ≠ .blocked) →
          ∃ t, exec (.backlogResume (cl / 8)) s = .next t ∧ back t)))

/-- R389 to R394, R397, R402, R57: the Chandler's steps. A window's end keeps each expert's count and starts the next; an acknowledgement
takes its point off a publication; the weight copy's end starts the gradient fill, or rolls the grow back when it met a fault; the
fill's end publishes the next version with the replica live, or rolls back; a merge's end answers XMERGE. A counter-halving step halves
every remote-access counter. -/
def Obligations.ExpertSteps : Prop :=
  ∀ (s : State) (x : Nat) (e : Expert) (w : Switch) (k : Team), s.Canon → x < 1024 → s.expert? x = some e → e.pinQ = [] → e.retireQ = [] →
    let rolledBack := fun (o : Host.Outcome State Fault Refusal) => ∃ t y, o = .next t ∧ t.expert? x = some y ∧ y.switch = none ∧
      y.ver = e.ver ∧ y.live = e.live ∧ t.team? w.team = none ∧ t.mem = s.mem
    (s.experts = [(x, e)] → bit (s.reg 122) 0 = false → ∃ t d, exec .chandlerWindowEnd s = .next t ∧
      t.expert? x = some { e with wcnt := BitVec.ofNat 32 (min e.cnt (2 ^ 32 - 1)), cnt := 0 } ∧
      (d, Instr.chandlerWindowEnd) ∈ t.queue ∧ t.mem = s.mem) ∧
    (∀ pt, pt < 2 ^ 20 → e.switch = some w → pt ∈ w.pending → w.pending.filter (· ≠ pt) ≠ [] → s.msgs = [] →
      ∃ t, exec (.versionAck x pt) s = .next t ∧
        t.expert? x = some { e with switch := some { w with pending := w.pending.filter (· ≠ pt) } } ∧ t.mem = s.mem) ∧
    (e.switch = some w → s.team? w.team = some k → k.state = .running → w.pin = none → w.team ≠ 0 → e.merging = none →
      (w.grow = some .copying → (∀ c ∈ (s.cluster k.cl).copies, c.2.team ≠ w.team) →
        (∀ cls kd a, rolledBack (exec (.growCopyComplete x (some (cls, kd, a))) s)) ∧
        (e.gbase ≠ 0 → (s.memDie 0).queue ≠ [] → ∃ t y c, exec (.growCopyComplete x none) s = .next t ∧ t.expert? x = some y ∧
          y.switch = some { w with grow := some .filling } ∧ y.ver = e.ver ∧ y.live = e.live ∧
          (t.memDie 0).queue = (s.memDie 0).queue ++ [c] ∧ wordAt c.bytes 0 = 3 ∧
          wordAt c.bytes 2 = e.gbase + BitVec.ofNat 64 (w.rep * e.glen) ∧ wordAt c.bytes 3 = BitVec.ofNat 64 e.glen ∧ t.mem = s.mem)) ∧
      (w.grow = some .filling →
        (∀ st a, st ≠ 0 → rolledBack (exec (.growFillReply (x + 1024 * w.team) st a) s)) ∧
        (∀ cl j n0 f, s.replicaEnd e 0 = some (cl, j) → s.endp? cl j = some n0 → 1 + e.nproc ≤ s.freeEnds k.cl →
          Tab.freeKey (s.cluster k.cl).endps 0 4096 = some f → ∃ t y, exec (.growFillReply (x + 1024 * w.team) 0 0) s = .next t ∧
            t.expert? x = some y ∧ y.ver = e.ver + 1 ∧ y.live = e.live ||| ((1 : BitVec 8) <<< w.rep) ∧
            y.switch.map Switch.pending = some (List.range s.clusterCount)))) ∧
    (∀ p pr o, s.experts = [(x, e)] → e.merging = some p → s.proc? p = some pr → pr.op = some o → o.key = 2 ^ 74 + 1 →
      ∃ t, exec (.xmergeComplete p) s = .next t ∧ t.expert? x = some { e with merging := none } ∧
        (t.proc? p).map (fun z => z.op.map Op.res) = some (some (.ok 0)) ∧ t.mem = s.mem) ∧
    (bits (s.reg 57) 31 16 ≠ 0 → ∃ t d, exec .counterHalving s = .next t ∧ (d, Instr.counterHalving) ∈ t.queue ∧ t.mem = s.mem ∧
      ∀ m f, Tab.sorted (s.memDie m).rac = true → Tab.getD f (t.memDie m).rac 0 = Tab.getD f (s.memDie m).rac 0 / 2)



/-- R55 to R59, R281, R50: a memory server runs the command at the head of its queue and answers it. GATHER answers the elements its
indices name, SCATTER stores its elements there, FILL stores its pattern over lines, CHECK counts poisoned lines, and MVM multiplies its
vector by the rows it reads. A refused command, a poisoned line and an address out of reach are answered with their status. -/
def Obligations.MemoryServers : Prop :=
  ∀ (s u v : State) (die : Nat) (c : SrvCmd) (h : Word), s.Canon → Calm s → (∀ e ∈ s.memdies, e.2.move = none) →
    (s.memDie die).queue = [c] → (s.memDie die).waiting = [] → c.bad = [] → c.grow = none → c.sender = none → c.word 1 = h →
    handleOk h = true → hDev h = s.dev → hKind h = 2 → hEfmt h = 63 → 6 ≤ hSclass h →
    let answers := fun (u t : State) (e : SrvEnd) => (t.memDie die).queue = [] ∧
      ∀ cl k n, u.dev = s.dev → u.lookup (dirKey h) = some (.ep cl k) → u.endp? cl k = some n → n.closed = false → n.reply = true →
        (u.cycles + 60, Instr.grantRequestArrival cl u.nextMsg) ∈ t.queue ∧
        ∃ x, Tab.get? u.nextMsg t.msgs = some x ∧ x.bytes = c.reply e ∧ x.sender = none ∧ x.kind = 2 ∧ x.idx = hIdx h
    let ends := fun (o : Host.Outcome State Fault Refusal) (u : State) (e : SrvEnd) => ∃ t, o = .next t ∧ t.mem = u.mem ∧ answers u t e
    let stored := fun (o : Host.Outcome State Fault Refusal) (ws : List (Nat × List Byte)) (done : Nat) => ∃ t, o = .next t ∧
      answers u t { status := 0, done := done } ∧ ∀ k, Memory.get k t.mem = Memory.get k (writtenAt s.mem ws)
    let indexed := c.indices.map c.elemAddr
    let lines := (List.range ((c.word 3).toNat / 64)).map fun i => c.word 2 + BitVec.ofNat 64 (64 * i)
    (c.cmd = 1 →
      (c.badIndexed false = true → ends (exec (.gather die) s) s { status := 2 }) ∧
      (c.badIndexed false = false → ∀ as bs a rest items loc f,
        (SrvReads die c (2 ^ c.esz) indexed items s u → (∀ x ∈ items, x.1 = false) → ends (exec (.gather die) s) u {
          status := 0, done := c.count, data := pad64 (items.flatMap (·.2)) }) ∧
        (indexed = as ++ a :: rest → SrvReads die c (2 ^ c.esz) as bs s u → (∀ x ∈ bs, x.1 = false) →
          (u.srvReach die c a .read = (.error f, v) → ends (exec (.gather die) s) v {
            status := 3, done := as.length, faddr := f, data := pad64 (bs.flatMap (·.2)) }) ∧
          (u.srvReach die c a .read = (.ok loc, v) → (v.srvRead die (lineOf loc)).1 = true →
            ends (exec (.gather die) s) (v.srvRead die (lineOf loc)).2 {
              status := 4, done := as.length, faddr := a, data := pad64 (bs.flatMap (·.2)) })))) ∧
    (c.cmd = 2 →
      (c.badIndexed true = true → ends (exec (.scatter die) s) s { status := 2 }) ∧
      (c.badIndexed true = false → ∀ ws, SrvWrites die c (fun v => v.srvWrite die) ((List.range c.count).map fun i =>
          (indexed.getD i 0, ((c.operand.drop (up64 (4 * c.count))).drop (i * 2 ^ c.esz)).take (2 ^ c.esz))) ws s u →
        stored (exec (.scatter die) s) ws c.count)) ∧
    (c.cmd = 3 →
      (c.badRange true = true → ends (exec (.fill die) s) s { status := 2 }) ∧
      (c.badRange true = false → ∀ ws, SrvWrites die c (fun v => v.srvFill die) (lines.map fun a =>
          (a, (List.range 8).flatMap fun _ => bytesLE 8 (c.word 4).toNat)) ws s u →
        stored (exec (.fill die) s) ws (c.word 3).toNat)) ∧
    (c.cmd = 4 →
      (c.badRange false = true → ends (exec (.check die) s) s { status := 2 }) ∧
      (c.badRange false = false → ∀ items, SrvReads die c 64 lines items s u → ends (exec (.check die) s) u {
        status := 0, done := (c.word 3).toNat, nbad := (items.filter (·.1)).length
        faddr := ((lines.zip items).find? (·.2.1)).elim 0 (·.1) })) ∧
    (c.cmd = 5 →
      (Part.isE s.phys.part = true → ends (exec (.mvm die) s) s { status := 5 }) ∧
      (Part.isE s.phys.part = false → ∀ md, c.mode? = some md →
        (c.badMvm md = true → ends (exec (.mvm die) s) s { status := 2 }) ∧
        (c.badMvm md = false → ∀ items, let x := c.shape; let per := (rowBytes md x.n + 63) / 64
          let rows := (List.range x.k).map fun k => natLE (((items.drop (per * k)).take per).flatMap (·.2))
          let vec := (List.range x.k).map fun k => elt (modeWidth md) (natLE c.operand) k
          let outs := (List.range x.n).map fun n => mvmOut md vec rows n
          SrvReads die c 64 ((List.range x.k).flatMap fun k => (List.range per).map fun l =>
            c.word 2 + BitVec.ofNat 64 (k * x.strideB md) + BitVec.ofNat 64 (64 * l)) items s u → (∀ y ∈ items, y.1 = false) →
          ends (exec (.mvm die) s) u { status := 0, done := x.n, nbad := (outs.filter (·.2)).length
                                       data := pad64 (outs.flatMap fun o => bytesLE 4 o.1) })))

/-- R81 to R85, R47, R48, R79, R50: a page move takes a frame, copies its 64 KiB, rewrites the leaf unless software changed it, and after
the shootdown sends held writes to the new frame and frees the old; each end sends its event. A push adds a frame to its die's free
list. A command's acceptance queues it and completes its send. Requests at a die use its memory-side cache and are counted there, writes change their bytes alone, and scrubbing corrects a
single bit and poisons a line with more. -/
def Obligations.MemoryDieSteps : Prop :=
  ∀ (s : State) (die : Nat) (m : Move), s.Canon →
    let d := s.memDie die
    let event := fun (t : State) (n : Nat) (m : Move) => ∃ w, Tab.getD 1 t.svcMsgs [] = Tab.getD 1 s.svcMsgs [] ++ [w] ∧ w.length = 8 ∧
      w.getD 0 0 = BitVec.ofNat 64 (n + m.quad * 2 ^ 8 + m.rev.asid.toNat * 2 ^ 32) ∧ w.getD 1 0 = BitVec.ofNat 64 m.rev.va ∧
      w.getD 2 0 = BitVec.ofNat 64 m.old
    (Calm s →
      (∀ old q rest r, d.move = none → d.cands = (old, q) :: rest → Tab.get? (frameOf old) d.rev = some r →
        let x := { r with leaf := Memory.read64 s.mem r.leafPa }
        (∀ f fs, (s.memDie (migTarget (s.reg 57) q)).free = f :: fs → ∃ t, exec (.pageMoveStart die) s = .next t ∧ t.mem = s.mem ∧
          (t.memDie die).move = some { step := 2, quad := q, old := old, new := f, rev := x, held := [] } ∧
          (t.memDie die).cands = rest ∧ (t.memDie (migTarget (s.reg 57) q)).free = fs ∧
          ∃ c, (c, Instr.pageMoveCopyDone die) ∈ t.queue) ∧
        ((s.memDie (migTarget (s.reg 57) q)).free = [] → ∃ t, exec (.pageMoveStart die) s = .next t ∧ t.mem = s.mem ∧
          (t.memDie die).move = none ∧ event t 3 { step := 1, quad := q, old := old, new := 0, rev := x, held := [] })) ∧
      (d.move = some m → m.old % 65536 = 0 → m.new % 65536 = 0 →
        (m.step = 2 → ∃ t, exec (.pageMoveCopyDone die) s = .next t ∧ (t.memDie die).move = some { m with step := 3 } ∧
          (s.cycles + nsCycles 60, Instr.pageMoveCasReply die) ∈ t.queue ∧
          (∀ i < 65536, Memory.get (m.new + i) t.mem = Memory.get (m.old + i) s.mem) ∧
          ∀ a, (a < m.new ∨ m.new + 65536 ≤ a) → Memory.get a t.mem = Memory.get a s.mem) ∧
        (m.step = 3 → m.rev.leafPa % 8 = 0 →
          (∀ x, s.moveOf m.rev.leafPa = some x → x.old = m.old) →
          (Memory.read64 s.mem m.rev.leafPa = m.rev.leaf → bits m.rev.leaf 1 0 = 3 → bits m.rev.leaf 51 16 * 65536 = m.old →
            bit m.rev.leaf 9 = false → bit m.rev.leaf 11 = false → ∃ t, exec (.pageMoveCasReply die) s = .next t ∧
              (t.memDie die).move = some { m with step := 4 } ∧ (s.cycles + nsCycles 150, Instr.shootdownComplete die) ∈ t.queue ∧
              Memory.read64 t.mem m.rev.leafPa = (m.rev.leaf &&& ~~~(field 0xFFFFFFFFF 16)) ||| field (m.new / 65536) 16 ∧
              ∀ a, (a < m.rev.leafPa ∨ m.rev.leafPa + 8 ≤ a) → Memory.get a t.mem = Memory.get a s.mem) ∧
          (Memory.read64 s.mem m.rev.leafPa ≠ m.rev.leaf → m.held = [] → s.recs = [] → s.paOk m.new = true → 0x200000 ≤ m.new →
            (s.memDie (dieOf m.new)).free.length < 256 → ∃ t, exec (.pageMoveCasReply die) s = .next t ∧ t.mem = s.mem ∧
            (t.memDie die).move = none ∧ (t.memDie (dieOf m.new)).free = (s.memDie (dieOf m.new)).free ++ [m.new] ∧ event t 2 m)) ∧
        (m.step = 4 → s.onTheWay m.old = false → (∀ e ∈ s.procs, e.2.chunk = none) → s.recs = [] →
          let frees := fun (t : State) => (t.memDie die).move = none ∧ event t 1 m ∧ (s.paOk m.old = true → 0x200000 ≤ m.old → dieOf m.old = die →
            d.free.length < 256 → m.old ∈ (t.memDie die).free) ∧
            ∀ cl, ∀ z ∈ (t.cluster cl).tlb, ¬ (z.asid = m.rev.asid ∧ z.va = m.rev.va / 2 ^ sizeShift z.size)
          (m.held = [] → ∃ t, exec (.shootdownComplete die) s = .next t ∧ frees t ∧ t.mem = s.mem) ∧
          (∀ line data, m.held = [.write none none line data fullMask false] → m.old ≤ line → (∀ e ∈ s.memdies, e.1 ≠ die → e.2.move = none) →
            ∃ t, exec (.shootdownComplete die) s = .next t ∧ frees t ∧
              ∀ a, Memory.get a t.mem = if line - m.old + m.new ≤ a ∧ a < line - m.old + m.new + 64
                then data.extractLsb' (8 * (a - (line - m.old + m.new))) 8 else Memory.get a s.mem))) ∧
      (∀ line site data mask, line % 64 = 0 → s.paOk line = true → (∀ e ∈ s.memdies, e.2.move = none) →
        let k := 4 * frameOf line + s.quadrant site
        let counted := fun (t : State) => line ∈ (t.memDie (dieOf line)).msc ∧
          (Tab.getD k (t.memDie (dieOf line)).rac 0).toNat = min 255 ((Tab.getD k (s.memDie (dieOf line)).rac 0).toNat + 1)
        (∃ t, exec (.memorySideAccess line (.site site) .read) s = .next t ∧ counted t ∧ t.mem = s.mem) ∧
        (∃ t, exec (.memorySideAccess line (.site site) .prefetch) s = .next t ∧ counted t ∧ t.mem = s.mem) ∧
        (∃ t, exec (.memorySideAccess line (.site site) (.write data mask)) s = .next t ∧ (mask ≠ 0 → counted t) ∧
          (∀ i < 64, Memory.get (line + i) t.mem =
            if mask.getLsbD i then data.extractLsb' (8 * i) 8 else Memory.get (line + i) s.mem) ∧
          ∀ a, (a < line ∨ line + 64 ≤ a) → Memory.get a t.mem = Memory.get a s.mem))) ∧
    (∀ pa : Word, let f := pa.toNat / 65536 * 65536
      (s.paOk f = true → 0x200000 ≤ f → (s.memDie (dieOf f)).free.length < 256 → ∃ t, exec (.migfrmPush pa) s = .next t ∧
        (t.memDie (dieOf f)).free = (s.memDie (dieOf f)).free ++ [f] ∧ t.mem = s.mem) ∧
      ((s.paOk f = false ∨ f < 0x200000 ∨ 256 ≤ (s.memDie (dieOf f)).free.length) → ∃ t, exec (.migfrmPush pa) s = .next t ∧
        t.memdies = s.memdies ∧ Tab.getD 195 t.events 0 = satInc (Tab.getD 195 s.events 0) ∧ t.mem = s.mem)) ∧
    (∀ msg x p pr o, s.msg? msg = some x → 64 ≤ x.bytes.length → x.sender = some p → x.ended = false → x.origin = none → s.proc? p = some pr →
      pr.op = some o → o.id = msg → d.queue.length < s.phys.srvDepth → d.waiting = [] → (d.queue ≠ [] ∨ (srvStep die (bits (wordAt x.bytes 0) 7 0)).isSome = true) →
      ∃ t q, exec (.serverCommandAccept die msg) s = .next t ∧ t.mem = s.mem ∧ t.msg? msg = none ∧ (t.memDie die).queue = d.queue ++ [q] ∧
        q.bytes = x.bytes ∧ q.bad = x.bad ∧ q.sender = some p ∧ (t.proc? p).map (fun z => z.op.map Op.res) = some (some (.ok 0)) ∧
        ∀ i, d.queue = [] → srvStep die (bits (wordAt x.bytes 0) 7 0) = some i → (s.cycles + nsCycles 110, i) ∈ t.queue) ∧
    (∀ line, line % 64 = 0 → s.paOk line = true → dieOf line = die → Tab.sorted s.phys.flips = true → Tab.getD line s.codeErr 0 = 0 →
      s.isPoison line = false →
      (Tab.getD line s.phys.flips 0 = 0 → ∃ t, exec (.scrub die line) s = .next t ∧ t.mem = s.mem ∧ t.poison = s.poison ∧
        t.phys = s.phys ∧ t.memdies = s.memdies ∧ ∃ c l, (c, Instr.scrub die l) ∈ t.queue) ∧
      (Tab.getD line s.phys.flips 0 = 1 → ∃ t, exec (.scrub die line) s = .next t ∧ (t.memDie die).corrected = d.corrected + 1 ∧
        Tab.getD line t.phys.flips 0 = 0 ∧ t.mem = s.mem ∧ t.poison = s.poison) ∧
      (2 ≤ Tab.getD line s.phys.flips 0 → ∃ t w, exec (.scrub die line) s = .next t ∧ line ∈ t.poison ∧ t.mem = s.mem ∧
        Tab.getD 0 t.svcMsgs [] = Tab.getD 0 s.svcMsgs [] ++ [w] ∧ bits (w.getD 0 0) 7 0 = 2 ∧ bits (w.getD 0 0) 15 8 = 1 ∧
        w.getD 1 0 = BitVec.ofNat 64 line))



/-- R52, R60 to R62: the mesh routes a checked flit to its die or through a port, whose link keeps a copy; it asks the sender for its copy of
one that fails its check, and delivers it poisoned after the third resend; a routing-table entry names a port. R106 to R114, R117 to
R119: a Marrun receiver passes flits on in order, acknowledges and reports gaps; a sender drops what is acknowledged, resends what is
missing or late, and goes down at the sixteenth resend; a held packet is sent when its time is over; a merge record answers both
contributors; an access of another device is performed at its home and answered. -/
def Obligations.LinkSteps : Prop :=
  ∀ (s : State) (l site : Nat) (f : MarrunFlit) (g : MeshFlit), s.Canon →
    let k := s.link l
    let emits := fun (o : Host.Outcome State Fault Refusal) (os : List Output) => ∃ t, o = .next t ∧ t.outs = s.outs ++ os ∧ t.mem = s.mem
    ((g.poison = true ∨ lineCode g.line = g.code) →
      (g.dst = site → g.poison = false → emits (exec (.meshFlitReceive site g) s) [.meshFlit site 0 g]) ∧
      (g.dst = site → g.poison = true → g.pa ≠ 0 → g.pa % 64 = 0 → s.paOk g.pa = true → memSite (dieOf g.pa) = site → s.moveOf g.pa = none →
        s.redSlots = [] → ∃ t, exec (.meshFlitReceive site g) s = .next t ∧ g.pa ∈ t.poison ∧
          (∀ i < 64, Memory.get (g.pa + i) t.mem = g.line.extractLsb' (8 * i) 8) ∧
          ∀ a, (a < g.pa ∨ g.pa + 64 ≤ a) → Memory.get a t.mem = Memory.get a s.mem) ∧
      (∀ b, g.dst ≠ site → g.hops < 30 → turnOk (decide (g.dst % 8 < g.src % 8)) g.turned (s.portToward site g.dst) = true →
        s.beyond site (s.portToward site g.dst) = some b → let p := s.portToward site g.dst
        let next := { g with
          hops := g.hops + 1, lastDir := p, turned := g.turned || turnsAt (decide (g.dst % 8 < g.src % 8)) p, resends := 0 }
        ∃ t, exec (.meshFlitReceive site g) s = .next t ∧ t.outs = s.outs ++ [.meshFlit site p next] ∧ t.mem = s.mem ∧
          ∀ line n, t.sentFlit (8 * site + p) { next with line := line, resends := n } = next)) ∧
    (g.poison = false → lineCode g.line ≠ g.code →
      (∀ b, g.resends < 3 → (g.lastDir = 0 ∧ b = site ∨ g.lastDir ≠ 0 ∧ s.beyond site (opposite g.lastDir) = some b) →
        emits (exec (.meshFlitReceive site g) s) [.meshFlit b g.lastDir { (s.sentFlit (8 * b + g.lastDir) g) with resends := g.resends + 1 }]) ∧
      (3 ≤ g.resends → g.dst = site → g.pa = 0 → emits (exec (.meshFlitReceive site g) s) [.meshFlit site 0 { g with poison := true }])) ∧
    (∀ dst port, site < 8 * s.rows → dst < 64 → site ≠ dst → 1 ≤ port → port ≤ 4 → ∃ t, exec (.routingTableWrite site dst port) s = .next t ∧
      t.portToward site dst = port ∧ t.mem = s.mem ∧ ∀ a b, a < 64 → b < 64 → (a, b) ≠ (site, dst) → t.portToward a b = s.portToward a b) ∧
    (k.up = true → k.held = [] → k.inq = [] → k.owed = [] → f.ok = true → f.packet = none → f.lines = [] →
      (f.seq = k.base → k.unacked = 0 → ∃ t c, exec (.marrunDataFlit l f) s = .next t ∧ (t.link l).base = k.base + 1 ∧
        (t.link l).unacked = 1 ∧ (c, Instr.ackIntervalTimer l) ∈ t.queue ∧ t.outs = s.outs ∧ t.mem = s.mem) ∧
      (∀ i, 1 ≤ i → i ≤ 64 → f.seq = k.base + BitVec.ofNat 12 i → ∃ t check, exec (.marrunDataFlit l f) s = .next t ∧
        (t.link l).held = [f] ∧ (t.link l).base = k.base ∧ (t.link l).unacked = 0 ∧ t.mem = s.mem ∧
        t.outs = s.outs ++ [.ack l k.base ((1 : BitVec 64) <<< (i - 1)) (List.replicate 10 0) check] ∧
        check = crc32c (ackBytes k.base ((1 : BitVec 64) <<< (i - 1)) (List.replicate 10 0)))) ∧
    (∀ pk, k.up = true → k.held = [] → k.inq = [] → k.owed = [] → k.unacked = 0 → f.ok = true → f.seq = k.base → f.head = true →
      f.tail = true → f.packet = some pk → f.lines = [] → pk.dst = s.dev →
      (∀ n ep, pk.body = .release n ep → (s.bar n).mEpoch ≠ ep → ∃ t, exec (.marrunDataFlit l f) s = .next t ∧
        (t.link l).base = k.base + 1 ∧ Tab.getD f.chan (t.link l).owed 0 = 1 ∧ t.outs = s.outs ∧ t.bars = s.bars ∧ t.mem = s.mem) ∧
      (∀ p id a, pk.body = .answer (replyTag 3 p id) (.fault 8 a 0) → p < 2 ^ 32 → ∃ t, exec (.marrunDataFlit l f) s = .next t ∧
        (s.cycles, Instr.reductionAck p id (some (a, 0))) ∈ t.queue ∧ t.outs = s.outs ∧ t.mem = s.mem)) ∧
    ((k.up = false ∨ f.ok = false) → exec (.marrunDataFlit l f) s = .next s) ∧
    (k.inq = [] → k.owed = [] →
      (k.unacked = 0 → k.beyondMap = false → exec (.ackIntervalTimer l) s = .next s) ∧
      (k.up = true → k.unacked ≠ 0 → k.held = [] →
        emits (exec (.ackIntervalTimer l) s)
          [.ack l k.base 0 (List.replicate 10 0) (crc32c (ackBytes k.base 0 (List.replicate 10 0)))])) ∧
    (∀ e r, k.sent = e :: r → k.up = true → k.egress = [] → k.ready = [] →
      let acks := fun (base : BitVec 12) (map : BitVec 64) =>
        exec (.marrunAckFlit l base ⟨map, [], crc32c (ackBytes base map [])⟩) s
      (∀ n : Nat, n ≤ k.sent.length → n < 4096 → ∃ t, acks (e.flit.seq + BitVec.ofNat 12 n) 0 = .next t ∧
        (t.link l).sent.map SentFlit.flit = (k.sent.drop n).map SentFlit.flit ∧ t.outs = s.outs ∧ t.mem = s.mem) ∧
      (∀ base map check, check ≠ crc32c (ackBytes base map []) → exec (.marrunAckFlit l base ⟨map, [], check⟩) s = .next s) ∧
      (∀ x, r = [x] → x.flit.seq ≠ e.flit.seq → (∀ c, e.again = some c → c + lnkrto / 4 ≤ s.cycles) →
        (e.resends < 15 → emits (acks e.flit.seq 1) [.flit l e.flit]) ∧
        (15 ≤ e.resends → ∃ t, acks e.flit.seq 1 = .next t ∧ (t.link l).up = false ∧ (t.link l).sent = [])) ∧
      (s.cycles < e.lastTx + lnkrto → ∃ t, exec (.lnkrtoExpiry l) s = .next t ∧ (e.lastTx + lnkrto, Instr.lnkrtoExpiry l) ∈ t.queue ∧
        t.outs = s.outs ∧ t.links = s.links) ∧
      (e.lastTx + lnkrto ≤ s.cycles → (∀ x ∈ k.sent, x.got = false) →
        ((∀ x ∈ k.sent, x.resends < 15) → emits (exec (.lnkrtoExpiry l) s) (k.sent.map fun x => .flit l x.flit)) ∧
        ((∃ x ∈ k.sent, 15 ≤ x.resends) → ∃ t, exec (.lnkrtoExpiry l) s = .next t ∧ (t.link l).up = false))) ∧
    (∀ e, k.egress = [e] → k.ready = [] → k.up = true → k.sent.length < 128 →
      (s.holding e = true → exec (.mergeHoldExpiry l) s = .next s) ∧
      (s.holding e = false → e.pk.lines = [] → Tab.getD e.pk.chan k.used 0 < s.phys.vcFlits →
        ∃ t x, exec (.mergeHoldExpiry l) s = .next t ∧ t.outs = s.outs ++ [.flit l x] ∧ x.packet = some e.pk ∧ x.ok = true ∧
          x.seq = k.nextSeq ∧ (t.link l).egress = [] ∧ (t.link l).ready = [] ∧ (t.link l).nextSeq = k.nextSeq + 1 ∧ t.mem = s.mem)) ∧
    (∀ n x r, n < 2 ^ 32 → Tab.get? n s.merges = some x → x.first.1 ≠ s.dev → x.second.1 ≠ s.dev → ∃ u v : State,
      exec (.mergeRecordReply n r) s = .next (v.answerAt (v.linkSite x.second.1) x.second.1 x.second.2 (Reply.after x.op r) []) ∧
      v = u.answerAt (u.linkSite x.first.1) x.first.1 x.first.2 r [] ∧ Tab.get? n u.merges = none ∧ u.mem = s.mem ∧ u.links = s.links ∧
      u.outs = s.outs) ∧
    (∀ dst tag r, Linked s site dst true l → let t := s.answerAt site dst tag r []
      SendsFlit s t l dst true (.answer tag r) [] ∧ t.mem = s.mem ∧ t.procs = s.procs) ∧
    (∀ src addr reply req u h v w, (∀ e ∈ u.memdies, e.2.move = none ∧ e.2.armed = []) → (∀ e ∈ u.clusters, e.2.armed = []) → Calm u →
      let a := exec (.remoteAccessArrival src addr reply req) s
      let answers := fun (r : Reply) (ls : List SentLine) (P : State → Prop) => ∃ (t : State) (site : Nat),
        a = .next (t.answerAt site src reply r ls) ∧ t.outs = u.outs ∧ t.links = u.links ∧ P t
      (reqAcc req ≠ (.read, false) ∨ (∃ n, req = .load n)) →
      (∀ x y, s.exportAt addr (reqAcc req).1 (reqAcc req).2 = (.error (x, y), u) → answers (.fault 8 x y) [] fun t => t.mem = u.mem) ∧
      (s.exportAt addr (reqAcc req).1 (reqAcc req).2 = (.ok h, u) → h < hostBase → u.mem = s.mem →
        (∀ n, req = .load n → answers (.value 0) [u.lineOut (lineOf h)] fun t => t.mem = s.mem) ∧
        (∀ bs, req = .store bs → answers (.value 0) [] fun t => ∀ k, Memory.get k t.mem = Memory.get k (Memory.write s.mem h bs)) ∧
        (∀ d m x, req = .storeLine d m x → h % 64 = 0 → answers (.value 0) [] fun t =>
          (∀ i < 64, Memory.get (h + i) t.mem = if m.getLsbD i then d.extractLsb' (8 * i) 8 else Memory.get (h + i) s.mem) ∧
          ∀ a, (a < h ∨ h + 64 ≤ a) → Memory.get a t.mem = Memory.get a s.mem) ∧
        (∀ op, req = .atomic op → u.homeAtomic h op = (some v, w) → ∃ (t : State) (site : Nat), t.mem = w.mem ∧
          a = .next (t.answerAt site src reply (.value (if returns op then v.setWidth 8192 else 0)) []))))

/-- R86, R87, R94, R97, R98, R101, R458: a host read answers the bytes of memory, or all ones for a protected line and in the safe state; a host
write changes its bytes alone, writes QCTL, or is dropped; the controller exchanges keys, moves the interface's state, ends sessions and
serves measurements and answers a program's message at its reply endpoint (R341; the size is the model's, log entry 45); losing the session aborts secure copies. -/
def Obligations.HostSteps : Prop :=
  ∀ (s : State) (h len st slot : Nat) (bs : List Byte) (key : BitVec 256) (salt : BitVec 32), s.Canon → Calm s →
    (∀ e ∈ s.memdies, e.2.move = none) →
    let emits := fun (o : Host.Outcome State Fault Refusal) (os : List Output) => ∃ t, o = .next t ∧ t.outs = s.outs ++ os ∧ t.mem = s.mem
    let onlyMgmt := fun (o : Host.Outcome State Fault Refusal) (m : Mgmt) => o = .next { s with mgmt := m }
    (s.mgmt.safe = true → emits (exec (.hostCxlMemRead h len) s) [.readData (List.replicate len 0xFF) true] ∧
      emits (exec (.hostCxlMemWrite h bs) s) [.writeDone]) ∧
    (s.mgmt.safe = false →
      (s.inRange h len = false → exec (.hostCxlMemRead h len) s = .next s) ∧
      (s.inRange h len = true →
        ∃ t, exec (.hostCxlMemRead h len) s = .next t ∧ t.mem = s.mem ∧
          t.outs = s.outs ++ [.readData ((List.range len).map fun i => s.hostSees (h + i)) false] ∧
          (∀ i < len, let a := hostPa (h + i)
            (s.protectedAt (lineOf a) = true → s.hostSees (h + i) = 0xFF) ∧
            (s.protectedAt (lineOf a) = false → qctlOf a = none → s.hostSees (h + i) = Memory.get a s.mem)) ∧
          t.mgmt.protLog.length = s.mgmt.protLog.length + (((linesOf h len).map hostPa).filter s.protectedAt).length) ∧
      (s.inRange h bs.length = false → emits (exec (.hostCxlMemWrite h bs) s) [.writeDone]) ∧
      (s.inRange h bs.length = true → h % 64 + bs.length ≤ 64 → s.protectedAt (lineOf (hostPa h)) = true → ∃ t,
        exec (.hostCxlMemWrite h bs) s = .next t ∧ t.outs = s.outs ++ [.writeDone] ∧ t.procs = s.procs ∧ t.mem = s.mem ∧
        (bs ≠ [] → t.mgmt.protLog = s.mgmt.protLog ++ [(lineOf (hostPa h), s.timebase)])) ∧
      (s.inRange h bs.length = true → h % 64 + bs.length ≤ 64 → 0x200000 ≤ hostPa h → s.protectedAt (lineOf (hostPa h)) = false →
        ∃ t, exec (.hostCxlMemWrite h bs) s = .next t ∧ t.outs = s.outs ++ [.writeDone] ∧ t.procs = s.procs ∧
          ∀ k, Memory.get k t.mem = Memory.get k (Memory.write s.mem (hostPa h) bs)) ∧
      (∀ q v, q < 64 → bit v 63 = false → s.protectedAt (lineOf (0x180000 + 8 * q)) = false → ∃ t,
        exec (.hostCxlMemWrite (0x180000 + 8 * q) (bytesLE 8 v.toNat)) s = .next t ∧ t.outs = s.outs ++ [.writeDone] ∧ t.mem = s.mem ∧
        Tab.getD q t.queues {} = { Tab.getD q s.queues {} with
          cause := BitVec.ofNat 8 (bits v 55 48), ien := bit v 10, coal := BitVec.ofNat 10 (bits v 9 0) })) ∧
    (slot < 16 → onlyMgmt (exec (.doeMailboxRequest (.keyExchange slot key salt)) s)
      { s.mgmt with session := true, keys := Tab.put slot (key, salt) s.mgmt.keys }) ∧
    (s.mgmt.tdisp ≠ .run → onlyMgmt (exec (.doeMailboxRequest (.setState st)) s) { s.mgmt with tdisp := tdispOf st }) ∧
    emits (exec (.doeMailboxRequest .measurements) s) [.controller 9 (s.mgmt.measurements.flatMap hashWords)] ∧
    (∀ p cl e n ws, p < 2 ^ 32 → s.lookup (replyKey p) = some (.ep cl e) → s.endp? cl e = some n → n.closed = false → n.reply = true →
      ∃ t d, exec (.doeMailboxRequest (.reply p ws)) s = .next t ∧ (t.msg? s.nextMsg).map Msg.bytes = some (wordsBytes ((ws ++ List.replicate 8 0).take 8)) ∧
        (d, Instr.grantRequestArrival cl s.nextMsg) ∈ t.queue ∧ t.mem = s.mem) ∧
    ((∀ e ∈ s.clusters, ∀ c ∈ e.2.copies, c.2.secure = none) → (∀ e ∈ s.teams, e.2.luggage = none) →
      onlyMgmt (exec (.secureSessionLoss 2) s) { s.mgmt with session := false } ∧
      (st ≠ 2 → onlyMgmt (exec (.secureSessionLoss st) s) { s.mgmt with tdisp := tdispOf st }) ∧
      (s.mgmt.tdisp = .run → st ≠ 2 → onlyMgmt (exec (.doeMailboxRequest (.setState st)) s) { s.mgmt with tdisp := tdispOf st }) ∧
      (s.mgmt.session = true → onlyMgmt (exec (.doeMailboxRequest .endSession) s) { s.mgmt with session := false })) ∧
    (∀ cl place c, Tab.get? place (s.cluster cl).copies = some c → c.secure.isSome = true →
      ∃ t, exec (.secureSessionLoss 2) s = .next t ∧ t.mgmt.session = false ∧
        ∀ x z, Tab.get? place (t.cluster cl).copies = some x → x.secure = some z → z.ending = true)



/-- R432 to R437, R442, R473: a write of HALT stops a running cluster and those of its group with CAUSE XTRIG; the halt is complete once chunks,
atomics and array drains are over, and every process shows HALTED; RESUME gives a process back its state unless it is held; STEP and
a watchpoint replay arm one process for one instruction. -/
def Obligations.DebugSteps : Prop :=
  ∀ (s : State) (cl : Nat) (p : Pid) (pr : Proc), s.Canon → s.proc? p = some pr → pr.cl = cl →
    let d := (s.cluster cl).dm
    (d.phase = .running → ∃ t, exec (.debugHalt cl) s = .next t ∧ (t.cluster cl).dm.phase = .stopping ∧
      (t.cluster cl).dm.dbgstat = dbgWord 1 0 none 255 false false ∧ (s.cycles + 12, Instr.haltComplete cl) ∈ t.queue ∧
      t.procs = s.procs ∧ t.mem = s.mem ∧
      ∀ k c, k ≠ cl → Tab.get? k s.clusters = some c → c.dm.phase = .running →
        (c.dm.xgrp = d.xgrp → d.xgrp.toNat < 8 → (t.cluster k).dm.phase = .stopping ∧ bits (t.cluster k).dm.dbgstat 7 0 = 2) ∧
        ((c.dm.xgrp ≠ d.xgrp ∨ 8 ≤ d.xgrp.toNat) → t.cluster k = c)) ∧
    (d.phase = .stopping → d.replay = none → (∀ e ∈ s.procs, e.2.cl = cl → e.2.chunk = none ∧ e.2.amoOut = false) →
      (s.arrayQuiet cl = true → ∃ t, exec (.haltComplete cl) s = .next t ∧ (t.cluster cl).dm.phase = .halted ∧
        (t.cluster cl).dm.haltAt = s.cycles ∧ t.mem = s.mem ∧ (pr.state = .ready ∨ pr.state = .running ∨ pr.state = .blocked →
          ∃ y, t.proc? p = some y ∧ y.state = .halted ∧ y.view = pr.view) ∧
        ∀ q z, s.proc? q = some z → z.cl ≠ cl → t.proc? q = some z) ∧
      (s.arrayQuiet cl = false → ∃ t, exec (.haltComplete cl) s = .next t ∧ (t.cluster cl).dm.phase = .stopping ∧ t.procs = s.procs ∧
        (s.cycles + 4, Instr.haltComplete cl) ∈ t.queue)) ∧
    (d.phase = .running → exec (.haltComplete cl) s = .next s) ∧
    (d.phase = .halted → d.stepping = false → (s.cluster cl).endps = [] → (s.cluster cl).greqs = [] → (s.cluster cl).slots = [] →
      pr.state = .halted → exec (.haltComplete cl) s = .next s ∧
      (∃ t y, exec (.debugResume cl) s = .next t ∧ (t.cluster cl).dm.phase = .running ∧ t.mem = s.mem ∧ t.proc? p = some y ∧
        y.view = pr.view ∧ (bit pr.dbgEn 9 = true → y.state = .halted) ∧
        (bit pr.dbgEn 9 = false → pr.before = some .running → y.state = .running ∧ y.slot = pr.slot)) ∧
      (d.spid.toNat = p → (pr.before = some .running ∨ pr.before = some .ready) → ∃ t y, exec (.debugStep cl) s = .next t ∧
        t.proc? p = some y ∧ y.state = .running ∧ y.solo = true ∧ y.limit = some 1 ∧ y.view = pr.view ∧
        (t.cluster cl).dm.stepping = true ∧ (s.cycles + 2, Instr.haltComplete cl) ∈ t.queue ∧ t.mem = s.mem) ∧
      (s.proc? d.spid.toNat = none → ∃ t, exec (.debugStep cl) s = .next t ∧ (t.cluster cl).dm.stres = 3 ∧ t.procs = s.procs ∧
        t.mem = s.mem)) ∧
    (∀ n, d.replay = some (p, n) → d.stepping = false → pr.chunk = none → pr.state = .running → ∃ t y,
      exec (.watchpointReplay cl) s = .next t ∧ t.proc? p = some y ∧ y.state = .running ∧ y.solo = true ∧ y.limit = some 1 ∧
      y.view = pr.view ∧ (t.cluster cl).dm.stepping = true ∧ t.mem = s.mem) ∧
    (d.replay = none → exec (.watchpointReplay cl) s = .next s)

/-- R443, R444, R432, R6: on a halted cluster each item of DACC is read into DBUF in its layout, written items take DBUF's words, memory goes
through the process's translation, and a request that does not fit answers BADARG or FAULT. Register writes from outside keep each
register's writable bits. -/
def Obligations.StateAccess : Prop :=
  ∀ (s u : State) (cl : Nat) (p : Pid) (pr : Proc) (loc : Nat) (v : Word), s.Canon → Tab.sorted (s.cluster cl).dm.dbuf = true →
    let d := (s.cluster cl).dm
    let w := s.dbuf cl
    let status := fun (t : State) => bits (t.cluster cl).dm.dacc 15 8
    let shows := fun (i : Instr) (ws : List Word) => ∃ t, exec i s = .next t ∧ (∀ k < ws.length, t.dbuf cl k = ws.getD k 0) ∧
      status t = 0 ∧ t.mem = s.mem ∧ t.procs = s.procs
    let answers := fun (i : Instr) (n : Nat) => ∃ t, exec i s = .next t ∧ status t = n ∧ t.mem = s.mem ∧ t.procs = s.procs
    (d.phase ≠ .halted → ∀ b, answers (.daccRecord cl p b) 3 ∧ answers (.daccSaveArea cl p b) 3 ∧ answers (.daccTrapFrame cl p b) 3 ∧
      answers (.daccRegionEntry cl p b) 3 ∧ answers (.daccMemoryRead cl p 1) 3 ∧ answers (.daccMemoryWrite cl p 1) 3) ∧
    (d.phase = .halted → s.proc? p = some pr → pr.cl = cl →
      shows (.daccRecord cl p false) (s.contRecord p pr) ∧ shows (.daccSaveArea cl p false) pr.ctx.image ∧
      shows (.daccBatchStatus cl p false) (s.batchWords p pr) ∧
      shows (.daccBarrierState cl p false) ((List.range 32).map fun n => s.barWord pr n) ∧
      (∀ k, s.team? pr.team = some k → shows (.daccOriginTable cl p false) k.originWords ∧
        ∃ t, exec (.daccOriginTable cl p true) s = .next t ∧ t.team? pr.team = some (k.originsWritten w) ∧ status t = 0 ∧ t.mem = s.mem) ∧
      answers (.daccBatchStatus cl p true) 3 ∧ answers (.daccBarrierState cl p true) 3 ∧
      (bits (w 6) 8 5 = 0 → ∃ t y, exec (.daccRecord cl p true) s = .next t ∧ t.proc? p = some y ∧ y.pc.toNat = bits (w 0) 56 1 * 2 ∧
        y.prio.toNat = bits (w 1) 10 8 ∧ y.stage.toNat = bits (w 1) 15 12 ∧ y.ctx = pr.ctx ∧ status t = 0 ∧ t.mem = s.mem) ∧
      (bits pr.dbgEn 8 5 = 0 → ∃ t y, exec (.daccSaveArea cl p true) s = .next t ∧ t.proc? p = some y ∧ y.pc = pr.pc ∧
        (∀ n, 1 ≤ n → n ≤ 63 → Tab.getD n y.ctx.s 0 = w n) ∧ y.ctx.rendez = tabOf 0 8 (fun i => w (1368 + i)) ∧ status t = 0 ∧
        t.mem = s.mem) ∧
      (∀ x, pr.svc = none → (s.cluster cl).svcQ.find? (fun x => x.pid = p) = some x →
        shows (.daccTrapFrame cl p false) (x.frame.words ++ bankedRegs.map fun r => Tab.getD r pr.ctx.s 0) ∧
        ∃ t y, exec (.daccTrapFrame cl p true) s = .next t ∧ (t.cluster cl).svcQ.find? (fun x => x.pid = p) = some y ∧
          y.frame = { x.frame with tpc := w 1 &&& ~~~1, svcst := w 5 &&& 7 } ∧ status t = 0 ∧ t.mem = s.mem) ∧
      (pr.svc = none → (s.cluster cl).svcQ.find? (fun x => x.pid = p) = none → answers (.daccTrapFrame cl p false) 3) ∧
      (d.daddr.toNat % 64 = 0 →
        (s.daccPlace pr d.daddr false = (.fault, u) → ∃ t, exec (.daccMemoryRead cl p 1) s = .next t ∧ status t = 1 ∧
          (t.cluster cl).dm.daddr = d.daddr ∧ t.mem = u.mem) ∧
        (Calm u → s.daccPlace pr d.daddr false = (.at_ loc, u) → ∃ t, exec (.daccMemoryRead cl p 1) s = .next t ∧ status t = 0 ∧
          (∀ k < 8, t.dbuf cl k = Memory.read64 u.mem (loc + 8 * k)) ∧ t.mem = u.mem ∧ t.procs = u.procs) ∧
        (s.daccPlace pr d.daddr true = (.fault, u) → ∃ t, exec (.daccMemoryWrite cl p 1) s = .next t ∧ status t = 1 ∧ t.mem = u.mem) ∧
        (Calm u → (∀ e ∈ s.memdies, e.2.move = none) → s.daccPlace pr d.daddr true = (.at_ loc, u) → u.mem = s.mem →
          ∃ t, exec (.daccMemoryWrite cl p 1) s = .next t ∧ status t = 0 ∧ t.procs = u.procs ∧
            ∀ k, Memory.get k t.mem = Memory.get k (Memory.write s.mem loc (wordsBytes ((List.range 8).map w)))))) ∧
    (d.phase = .halted → ∀ k,
      (k < 4 → shows (.daccAccumulatorSlot cl k false) (s.slotWords cl k)) ∧ (4 ≤ k → answers (.daccAccumulatorSlot cl k false) 3) ∧
      answers (.daccAccumulatorSlot cl k true) 3 ∧
      (k < 512 → (∃ t, exec (.daccGrantEntry cl k false) s = .next t ∧ status t = 0 ∧ t.mem = s.mem ∧ t.procs = s.procs) ∧
        answers (.daccGrantEntry cl k true) 0) ∧
      (512 ≤ k → answers (.daccGrantEntry cl k false) 3) ∧
      (∀ e, k < 1024 → s.expert? k = some e → shows (.daccReplicaEntry cl k false) e.words ∧
        ∃ t, exec (.daccReplicaEntry cl k true) s = .next t ∧ t.expert? k = some (e.written w) ∧ status t = 0 ∧ t.mem = s.mem) ∧
      (k < 1024 → s.expert? k = none → shows (.daccReplicaEntry cl k false) (List.replicate 16 0)) ∧
      (k < 256 → Tab.get? k (s.cluster cl).windows = none → shows (.daccRegionEntry cl k false) (List.replicate 8 0)) ∧
      (∀ x, k < 256 → Tab.get? k (s.cluster cl).windows = some x → shows (.daccRegionEntry cl k false) x.words ∧
        (bits (w 5) 63 62 = 0 → ∃ t, exec (.daccRegionEntry cl k true) s = .next t ∧ Tab.get? k (t.cluster cl).windows = none ∧
          status t = 0 ∧ t.mem = s.mem) ∧
        ∀ y, Window.ofWords x.team x.num w = some y → ∃ t, exec (.daccRegionEntry cl k true) s = .next t ∧
          Tab.get? k (t.cluster cl).windows = some y ∧ status t = 0 ∧ t.mem = s.mem) ∧
      (k < 4096 → s.endp? cl k = none → shows (.daccEndpointEntry cl k false) (List.replicate 8 0)) ∧
      (∀ x, k < 4096 → s.endp? cl k = some x → shows (.daccEndpointEntry cl k false) x.words ∧
        (bit (w 0) 63 = false → (s.cluster cl).greqs = [] → ∃ t, exec (.daccEndpointEntry cl k true) s = .next t ∧ t.endp? cl k = none ∧ status t = 0 ∧
          t.mem = s.mem))) ∧
    (∃ t, exec (.registerWrite (.cluster cl) 0x10048 v) s = .next t ∧ (t.cluster cl).dm.daddr = v ∧ t.mem = s.mem ∧ t.procs = s.procs) ∧
    (bits v 3 1 = 0 → ∃ t, exec (.registerWrite (.cluster cl) 0x10000 v) s = .next t ∧ (t.cluster cl).dm.spid.toNat = bits v 63 32 ∧
      (t.cluster cl).dm.xgrp.toNat = bits v 7 4 ∧ (t.cluster cl).dm.att = bit v 0 ∧ t.mem = s.mem ∧ t.procs = s.procs) ∧
    (∀ n, (n = 16 ∨ n = 121 ∨ n = 124 ∨ 64 ≤ n ∧ n ≤ 83 ∨ 88 ≤ n ∧ n ≤ 119) → ∃ t, exec (.registerWrite .device n v) s = .next t ∧
      t.reg n = v &&& sysMask n ∧ (∀ j, j ≠ n → t.reg j = s.reg j) ∧ t.mem = s.mem ∧ t.procs = s.procs) ∧
    (∃ t, exec (.registerWrite (.cluster cl) 125 v) s = .next t ∧ t.clReg cl 125 = v &&& sysMask 125 ∧ t.mem = s.mem ∧ t.procs = s.procs) ∧
    (∀ n tgt, n < 0x10000 → (sysListed n = false ∨ sysReadOnly n = true) → exec (.registerWrite tgt n v) s = .next s)

/-- R445, R446, R448 to R450: a session opens with an empty buffer and closes with EN clear; a half-full buffer spills its older half in order;
a state that lasts gets an extension record; a snuffer whose relation fails fires once, and may fire again when FIRED is cleared; H
values that differ, and a request that stays unpaired, halt every cluster with CAUSE TWIN. -/
def Obligations.TraceAndTwinSteps : Prop :=
  ∀ (s : State) (cl core die n : Nat) (v : Word), s.Canon →
    let tr := (s.cluster cl).trace
    let size := bits (s.clReg cl 125) 63 52 * 2 ^ 20
    let base := bits (s.clReg cl 125) 51 20 * 2 ^ 20
    let half := tr.buf.length / 2
    let halts := fun (t : State) => ∀ k, k < s.clusterCount → (s.cluster k).dm.phase = .running →
      (t.cluster k).dm.phase = .stopping ∧ bits (t.cluster k).dm.dbgstat 7 0 = 8
    (bit (s.clReg cl 126) 0 = false → ∃ t, exec (.traceSessionOpen cl v) s = .next t ∧
      t.clReg cl 126 = (v ||| 1) &&& 0xFFFFFFFF0000003F ∧ (t.cluster cl).trace.buf = [] ∧ (t.cluster cl).trace.spilled = 0 ∧ t.mem = s.mem) ∧
    (bit (s.clReg cl 126) 0 = true → size = 0 → ∃ t, exec (.traceSessionClose cl) s = .next t ∧ bit (t.clReg cl 126) 0 = false ∧
      (t.cluster cl).trace.last = [] ∧ (t.cluster cl).trace.commits = [] ∧ t.mem = s.mem) ∧
    ((tr.buf.length < 8192 ∨ size = 0) → exec (.traceSpill cl) s = .next s) ∧
    (Calm s → (∀ e ∈ s.memdies, e.2.move = none) → 8192 ≤ tr.buf.length → tr.buf.length ≤ 16384 → size ≠ 0 → tr.spilled = 0 →
      (∀ x ∈ tr.buf, x.length = 8) → (∀ i < half, s.paOk (base + 64 * i) = true) → ∃ t, exec (.traceSpill cl) s = .next t ∧
        (t.cluster cl).trace.buf = tr.buf.drop half ∧ (t.cluster cl).trace.spilled = 64 * half ∧
        (∀ i < half, ∀ j < 8, Memory.read64 t.mem (base + 64 * i + 8 * j) = (tr.buf.getD i []).getD j 0) ∧
        ∀ a, (a < base ∨ base + 64 * half ≤ a) → Memory.get a t.mem = Memory.get a s.mem) ∧
    (∀ st since tb rs, Tab.get? core tr.last = some (st, since) → s.capturing cl = true → since + 16383 ≤ s.cycles →
      (s.cluster cl).dm.phase ≠ .halted → Tab.get? core tr.recs = some (tb, rs) → rs.length < 27 →
      ∃ t, exec (.stateLogExtension cl core) s = .next t ∧ Tab.get? core (t.cluster cl).trace.last = some (st, since + 16383) ∧
        Tab.get? core (t.cluster cl).trace.recs = some (tb, rs ++ [BitVec.ofNat 16 (st * 2 ^ 14 + 0x3FFF)]) ∧
        (s.cycles + 16383, Instr.stateLogExtension cl core) ∈ t.queue ∧ t.mem = s.mem) ∧
    (Tab.get? core tr.last = none → exec (.stateLogExtension cl core) s = .next s) ∧
    (∀ value x, bit (s.snfa die n) 63 = true → bit (s.snfb die n) 63 = false → s.snufferValue die n value = some x →
      let a := s.snfa die n
      let b := s.snfb die n
      let at_ := 8 * die + bits b 10 8
      (relHolds (bits a 62 60) x (bits a 31 0) = true → ∃ t, exec (.snufferSample die n value) s = .next t ∧ t.dieRegs = s.dieRegs ∧
        t.clusters = s.clusters ∧ t.mem = s.mem) ∧
      (relHolds (bits a 62 60) x (bits a 31 0) = false → ∃ t, exec (.snufferSample die n value) s = .next t ∧
        t.snfb die n = b ||| field 1 63 ∧ t.snfa die n = a ∧ t.mem = s.mem ∧ t.procs = s.procs ∧
        Tab.getD 197 t.events 0 = satInc (Tab.getD 197 s.events 0) ∧
        (bit b 4 = true → (s.cluster at_).dm.phase = .running →
          (t.cluster at_).dm.phase = .stopping ∧ bits (t.cluster at_).dm.dbgstat 7 0 = 7))) ∧
    (bit (s.snfa die n) 63 = false → ∀ x, exec (.snufferSample die n x) s = .next s) ∧
    (∃ t, exec (.snufferFiredClear die n) s = .next t ∧ t.snfb die n = s.snfb die n &&& ~~~(field 1 63) ∧ t.snfa die n = s.snfa die n ∧
      t.mem = s.mem ∧ t.procs = s.procs) ∧
    (∀ epoch, let differ := (List.range 16).filter fun m =>
        Tab.getD (64 * (epoch + 1) + m) s.twinH 0 ≠ Tab.getD (64 * epoch + m) s.phys.peerH 0
      s.phys.twin.isSome = true →
        (differ = [] → ∃ t, exec (.twinCompare epoch) s = .next t ∧ t.outs = s.outs ∧ t.clusters = s.clusters ∧ t.mem = s.mem) ∧
        (differ ≠ [] → ∃ t, exec (.twinCompare epoch) s = .next t ∧ halts t ∧ t.mem = s.mem ∧
          t.outs = s.outs ++ [.controller 8 (differ.map fun m => BitVec.ofNat 64 m)])) ∧
    (∀ key c, Tab.get? key s.twinWait = some c →
      (s.cycles < c + nsCycles 100000 → exec (.twinUnpairedTimeout key) s = .next s) ∧
      (c + nsCycles 100000 ≤ s.cycles → ∃ t, exec (.twinUnpairedTimeout key) s = .next t ∧ halts t ∧ Tab.get? key t.twinWait = none ∧
        t.mem = s.mem)) ∧
    (∀ key, Tab.get? key s.twinWait = none → exec (.twinUnpairedTimeout key) s = .next s)


/-- R454 to R459: a cold start clears every die and goes through steps 1 to 6, each either scheduling the next or entering the safe state with
the failing step, the code and the failing dies; a warm start keeps the training results, and with PRESERVE the stacks; a degraded start
omits the failing compute dies; temperature stops the dispatchers, halts every cluster, and ends in the safe state. -/
def Obligations.StartupSteps : Prop :=
  ∀ (s : State) (c : Nat), s.Canon → s.redSlots = [] → c = s.cycles + 1 →
    let blank := fun (t : State) => t.procs = [] ∧ t.teams = [] ∧ t.launches = [] ∧ t.clusters = [] ∧ t.regs = [] ∧ t.msgs = [] ∧
      t.experts = [] ∧ t.mgmt.started = false
    let keptStacks := fun (t : State) => ∀ a, isDev a = true → Memory.get a t.mem = Memory.get a s.mem
    let clear := fun (t : State) => ∀ a, isDev a = true → Memory.get a t.mem = 0
    let sram := fun (t : State) => ∀ a, isSram a = true → Memory.get a t.mem = 0
    let goes := fun (i : Instr) (n : Nat) (j : Instr) (P : State → Prop) => ∃ t, exec i s = .next t ∧ t.mgmt.step = n ∧ (c, j) ∈ t.queue ∧ P t
    let safe := fun (i : Instr) (step code : Nat) (cm mm : Word) => ∃ t, exec i s = .next t ∧ t.mgmt.safe = true ∧
      t.mgmt.fstep.toNat = step ∧ t.mgmt.fcode.toNat = code ∧ t.mgmt.cmask = cm ∧ t.mgmt.mmask = mm ∧ blank t ∧ t.queue = [] ∧ keptStacks t
    let failing := s.phys.badCdie.filter fun x => !s.mgmt.omitted.contains x
    goes .coldStart 1 .fuseLoad (fun t => blank t ∧ clear t ∧ sram t ∧ t.mgmt.omitted = []) ∧
    (s.mgmt.step = 1 → goes .fuseLoad 2 .fullBist fun t => t.mem = s.mem) ∧
    (s.mgmt.step = 2 → (failing = [] → s.phys.badMdie = [] → goes .fullBist 3 .hbmTraining fun t => t.mem = s.mem) ∧
      ((failing ≠ [] ∨ s.phys.badMdie ≠ []) → safe .fullBist 2 1 (maskOfList failing) (maskOfList s.phys.badMdie))) ∧
    (s.mgmt.step = 3 →
      (s.mgmt.warm = true → goes .hbmTraining 4 .memoryBist fun t => t.memdies = s.memdies ∧ t.mem = s.mem) ∧
      (s.mgmt.warm = false → s.phys.badTrain = [] → goes .hbmTraining 4 .memoryBist fun t => t.mem = s.mem ∧
        ∀ d < s.mdies, (t.memDie d).training = some true) ∧
      (s.mgmt.warm = false → s.phys.badTrain ≠ [] → safe .hbmTraining 3 2 0 (maskOfList s.phys.badTrain))) ∧
    (s.mgmt.step = 4 →
      (s.mgmt.warm = true → s.mgmt.preserve = true → goes .memoryBist 5 .firmwareAuthentication fun t => t.mem = s.mem) ∧
      (s.mgmt.warm = true → s.mgmt.preserve = false → goes .memoryBist 5 .firmwareAuthentication clear) ∧
      (s.mgmt.warm = false → s.phys.badMem = [] → goes .memoryBist 5 .firmwareAuthentication clear) ∧
      (s.mgmt.warm = false → s.phys.badMem ≠ [] → safe .memoryBist 4 3 0 (maskOfList s.phys.badMem))) ∧
    (s.mgmt.step = 5 →
      (s.phys.keyHash ≠ s.phys.fusedHash → safe .firmwareAuthentication 5 5 0 0) ∧
      (s.phys.keyHash = s.phys.fusedHash → s.phys.sigOk = false → safe .firmwareAuthentication 5 4 0 0) ∧
      (s.phys.keyHash = s.phys.fusedHash → s.phys.sigOk = true →
        goes .firmwareAuthentication 6 .attestationSetup fun t => t.mem = s.mem)) ∧
    (s.mgmt.step = 6 → (∀ q < 64, Memory.read64 s.mem (s.dueSlot q + 56) ≠ (Tab.getD q s.queues {}).eseq) →
      ∃ t, exec .attestationSetup s = .next t ∧ t.mgmt.started = true ∧ t.mgmt.reached6 = true ∧ t.mgmt.step = 0 ∧
        t.mgmt.measurements = s.phys.images ∧ t.mgmt.startCycle = s.cycles ∧ t.mem = s.mem) ∧
    (s.mgmt.reached6 = false → ∀ b, exec (.warmStart b) s = .next s) ∧
    (s.mgmt.reached6 = true →
      (s.phys.badSaved = [] → goes (.warmStart true) 1 .fuseLoad (fun t => blank t ∧ keptStacks t ∧ sram t ∧ t.mgmt.warm = true ∧
          t.mgmt.preserve = true) ∧
        goes (.warmStart false) 1 .fuseLoad (fun t => blank t ∧ sram t ∧ t.mgmt.warm = true ∧ t.mgmt.preserve = false)) ∧
      (s.phys.badSaved ≠ [] → ∀ b, goes (.warmStart b) 1 .fuseLoad fun t => blank t ∧ clear t ∧ t.mgmt.warm = false)) ∧
    (s.mgmt.safe = true → s.mgmt.fstep = 2 → s.mgmt.mmask = 0 →
      goes .degradedStart 1 .fuseLoad fun t => blank t ∧ t.mgmt.omitted = s.phys.badCdie ∧ t.mgmt.warm = false) ∧
    ((s.mgmt.safe = false ∨ s.mgmt.fstep ≠ 2 ∨ s.mgmt.mmask ≠ 0) → exec .degradedStart s = .next s) ∧
    (s.mgmt.throttle = false → exec (.thermalSample .normal) s = .next s) ∧
    (s.mgmt.throttle = true → ∃ t, exec (.thermalSample .normal) s = .next t ∧ t.mgmt.throttle = false ∧ t.procs = s.procs ∧
      t.mem = s.mem ∧ ∀ d < s.cdies.length, (s.cycles + 180, Instr.dispatchClaim d) ∈ t.queue) ∧
    exec (.thermalSample .throttle) s = .next { s with mgmt := { s.mgmt with throttle := true } } ∧
    (∃ t, exec (.thermalSample .critical) s = .next t ∧ t.mgmt.throttle = true ∧ t.mgmt.fcode = 6 ∧ t.outs = s.outs ++ [.controller 6 []] ∧
      t.mem = s.mem ∧ t.procs = s.procs ∧ ∀ cl < 8 * s.cdies.length, (t.cluster cl).dm.phase ≠ .running) ∧
    (s.mgmt.fcode = 6 → s.mgmt.safe = false → safe (.criticalRecheck .critical) 0 6 0 0 ∧
      exec (.criticalRecheck .normal) s = .next s) ∧
    ((s.mgmt.fcode ≠ 6 ∨ s.mgmt.safe = true) → ∀ l, exec (.criticalRecheck l) s = .next s)

/-! ## Decoding, stepping, reset, and what every step keeps -/

/-- R21, R25, R41: words the spec writes out decode to the instructions it names: `add s8, s2` with stall count 2, `lds.b s6, [s2+7]`,
`waitb 200`, `cpy s4, s5, s6`, `tlbi.asid.die s4`, `tlbp s7, s8`, `gcan s9`; a word of zero does not decode. -/
def Obligations.DecodeWords : Prop :=
  decodeWords [0x060A] = .instr (.add ⟨false, 0, none, none, 2⟩ 8 2 none) 1 ∧
  decodeWords [0xFC1F, 0xA188] = .instr (.lds ⟨false, 1, none, none, 0⟩ 6 2 .b 7) 2 ∧
  decodeWords [0xFD84, 0xFC0C, 0x2020] = .instr (.waitb ⟨false, 1, none, none, 0⟩ 200) 3 ∧
  decodeWords [0xFD84, 0xFD06, 0x1514] = .instr (.cpy ⟨false, 0, none, none, 0⟩ 4 5 6) 3 ∧
  decodeWords [0xFD86, 0xFE84, 0x1508] = .instr (.tlbi ⟨false, 0, none, some ⟨0, false, 4⟩, 0⟩ 4 .asid) 3 ∧
  decodeWords [0xFD86, 0x19E0] = .instr (.tlbp ⟨false, 0, none, none, 0⟩ 7 8) 2 ∧
  decodeWords [0xFD86, 0x6A40] = .instr (.gcan ⟨false, 0, none, none, 0⟩ 9) 2 ∧
  decodeWords [0x0000] = .illegal 1 1

/-- R21 to R30, R35: decoding the encoding of any well-formed instruction, whatever follows it, gives that instruction with every operand, and
the length its prefixes make; bytes stand for words least significant first; and what decodes at all is well-formed. -/
def Obligations.DecodeEncode : Prop :=
  ∀ (i : Instr), i.wf = true →
    ((enc i).isSome = (shapeOf i).isSome) ∧
    ∀ h, shapeOf i = some h →
      (∀ ws, decodeWords (encode i ++ ws) = .instr i (encode i).length) ∧
      (∀ bs, decode (bytesOf (encode i) ++ bs) = .instr i (encode i).length) ∧
      lenOf h.m h.paged h.third = 2 * (encode i).length ∧ 1 ≤ (encode i).length ∧ (encode i).length ≤ 5

/-- R26 to R29, R34: every chain of words that decodes gives a well-formed instruction of as many words, whose encoding decodes to it again;
no chain of more than five words decodes. -/
def Obligations.DecodedWellFormed : Prop :=
  ∀ (ws : List (BitVec 16)) (i : Instr) (n : Nat), decodeWords ws = .instr i n →
    i.wf = true ∧ (shapeOf i).isSome = true ∧ (encode i).length = n ∧ n ≤ 5 ∧ n ≤ ws.length ∧ decodeWords (encode i) = .instr i n ∧
      decodeWords (ws.take n) = .instr i n

/-- A step runs the decoded instruction: when no agent's step is due and process p issues, the words fetched at its program counter decode to
i, and nothing R303, R32, R409 and R439 name comes first, the step is exec of i, in the chunk p has open, with p as the issuer and its
watchpoint stop after it. When a step of an agent is due, that step runs; when nothing can happen, time passes. -/
def Obligations.StepRunsDecoded : Prop :=
  ∀ (s u : State) (p : Pid) (pr q : Proc) (ws : List (BitVec 16)) (i : Instr) (n : Nat),
    (∀ due rest, s.queue = (due, i) :: rest → due ≤ s.cycles → step s = exec i { s with queue := rest, cur := none }) ∧
    ((∀ e ∈ s.queue.head?, s.cycles < e.1) →
      (s.nextIssuer = none → step s = .next (s.tick s.idleFor)) ∧
      (s.nextIssuer = some p → s.proc? p = some pr → pr.phaseTrap = false → pr.childDue = [] → pr.acquireDue = false →
        fetchChain p 5 pr.pc (({ s with cur := some p, last := p } : State).modProc p fun pr => { pr with issuedAt := s.cycles + 1 }) =
          .ok (ws, u) →
        decodeWords ws = .instr i n → u.breakpoint pr (2 * ws.length) = none → u.proc? p = some q → q.chunk = none → q.solo = false →
        shortHits q.ctx (usesOf i) = [] →
        step s = after p (exec i (u.setProc p { q with
          chunk := if endsBefore q.ctx i then none else some { u.newChunk q with shadow := unionNat (writeLines i) [] } }))) ∧
      (s.nextIssuer = some p → s.proc? p = some pr → pr.acquireDue = false → pr.phaseTrap = false → pr.childDue = [] →
        ∀ c k, fetchChain p 5 pr.pc (({ s with cur := some p, last := p } : State).modProc p fun pr => { pr with
            issuedAt := s.cycles + 1 }) = .ok (ws, u) →
          decodeWords ws = .illegal c k → u.breakpoint pr (2 * ws.length) = none →
          step s = .next { u.takeTrap p 0 (trapIllegal c) with cur := none }))

/-- R6, R14, R49, R454: what power-up leaves: TIMEBASE 0, no process, team, launch, message or expert, memory that reads 0 everywhere in its
canonical form, device registers at their reset values, and the cold start due. -/
def Obligations.ResetState : Prop :=
  State.reset.MemWf ∧ State.reset.Canon ∧ (∀ a, Memory.get a State.reset.mem = 0) ∧ State.reset.timebase = 0 ∧ State.reset.procs = [] ∧
  State.reset.teams = [] ∧ State.reset.launches = [] ∧ State.reset.msgs = [] ∧ State.reset.experts = [] ∧
  State.reset.reg 57 = 0x03E84000 ∧ State.reset.reg 80 = 0x4004000000000000 ∧ State.reset.clReg 0 120 = 0x00401F400404 ∧
  State.reset.reg 121 = 0x64000A0014 ∧ State.reset.reg 122 = 0x3208000001 ∧ State.reset.reg 124 = 1000 ∧ State.reset.reg 16 = 0 ∧
  State.reset.mgmt.started = false ∧ State.reset.queue = [(0, .coldStart)]

/-- R49, R53, R187: every step that goes on keeps memory in its canonical form: locations strictly rising and no stored byte 0, so that two
memories with the same bytes are the same data. -/
def Obligations.MemoryStaysCanonical : Prop :=
  ∀ (s t : State), s.MemWf → step s = .next t → t.MemWf
end

