-- ==== Sys2Proof/Laws/Tab.lean ====
section
/-! SUPPORT. Laws of sparse tables and of memory: reading after writing, keys kept rising, and the canonical form of memory. -/

namespace Sys2Proof.Machine

/-! ## Reading a table -/

@[simp] theorem Tab.get?_nil {α : Type} (k : Nat) : Tab.get? k ([] : Tab α) = none := rfl

/-- What a table answers is one of its entries. -/
theorem Tab.mem_of_get? {α : Type} {k : Nat} {a : α} : ∀ {t : Tab α}, Tab.get? k t = some a → (k, a) ∈ t
  | (k', b) :: t, h => by
    rw [Tab.get?] at h
    split at h
    · next e => exact e ▸ Option.some.inj h ▸ List.mem_cons_self ..
    · exact List.mem_cons_of_mem _ (Tab.mem_of_get? h)

theorem Tab.get?_put {α : Type} (k j : Nat) (a : α) (t : Tab α) :
    Tab.get? j (Tab.put k a t) = if j = k then some a else Tab.get? j t := by
  induction t with
  | nil => simp [Tab.put, Tab.get?, eq_comm]
  | cons e t ih =>
    obtain ⟨k', a'⟩ := e
    by_cases h1 : k < k'
    · simp [Tab.put, h1, Tab.get?, eq_comm]
    · by_cases h2 : k = k'
      · subst h2
        by_cases h3 : k = j <;> simp [Tab.put, Tab.get?, h3, eq_comm]
      · by_cases h3 : k' = j
        · subst h3; simp [Tab.put, h1, h2, Tab.get?, Ne.symm h2]
        · simp [Tab.put, h1, h2, Tab.get?, h3, ih]

@[simp] theorem Tab.get?_put_self {α : Type} (k : Nat) (a : α) (t : Tab α) : Tab.get? k (Tab.put k a t) = some a := by
  simp [Tab.get?_put]

theorem Tab.get?_put_ne {α : Type} {k j : Nat} (h : j ≠ k) (a : α) (t : Tab α) :
    Tab.get? j (Tab.put k a t) = Tab.get? j t := by simp [Tab.get?_put, h]

theorem Tab.get?_modify {α : Type} (k j : Nat) (f : α → α) (t : Tab α) :
    Tab.get? j (Tab.modify k f t) = if j = k then (Tab.get? j t).map f else Tab.get? j t := by
  induction t with
  | nil => simp [Tab.modify, Tab.get?]
  | cons e t ih =>
    obtain ⟨k', a'⟩ := e
    by_cases h1 : k' = k
    · subst h1
      by_cases h2 : k' = j
      · subst h2; simp [Tab.modify, Tab.get?]
      · simp [Tab.modify, Tab.get?, h2, Ne.symm h2]
    · by_cases h2 : k' = j
      · subst h2; simp [Tab.modify, Tab.get?, h1]
      · simp [Tab.modify, Tab.get?, h1, h2, ih]

theorem Tab.getD_put {α : Type} (k j : Nat) (a d : α) (t : Tab α) :
    Tab.getD j (Tab.put k a t) d = if j = k then a else Tab.getD j t d := by
  unfold Tab.getD; rw [Tab.get?_put]; split <;> rfl

/-! ## Rising keys -/

/-- Every key of the table is above k. -/
def Tab.above {α : Type} (k : Nat) (t : Tab α) : Prop := ∀ e ∈ t, k < e.1

theorem Tab.sorted_cons {α : Type} (k : Nat) (a : α) (t : Tab α) :
    Tab.sorted ((k, a) :: t) = true ↔ Tab.above k t ∧ Tab.sorted t = true := by
  induction t generalizing k a with
  | nil => simp [Tab.sorted, Tab.above]
  | cons e t ih =>
    obtain ⟨k', a'⟩ := e
    have h := ih k' a'
    simp only [Tab.sorted, Bool.and_eq_true, decide_eq_true_eq] at h ⊢
    constructor
    · rintro ⟨h1, h2⟩
      refine ⟨?_, h2⟩
      intro e he
      rcases List.mem_cons.1 he with rfl | he
      · exact h1
      · exact Nat.lt_trans h1 ((h.1 h2).1 e he)
    · rintro ⟨h1, h2⟩
      exact ⟨h1 (k', a') (List.mem_cons_self ..), h2⟩

theorem Tab.get?_of_above {α : Type} {k j : Nat} {t : Tab α} (h : Tab.above k t) (hj : j ≤ k) : Tab.get? j t = none := by
  induction t with
  | nil => rfl
  | cons e t ih =>
    obtain ⟨k', a'⟩ := e
    have h1 := h (k', a') (List.mem_cons_self ..)
    have h2 : k' ≠ j := by simp only at h1; omega
    simp only [Tab.get?, h2, if_false]
    exact ih fun e he => h e (List.mem_cons_of_mem _ he)

theorem Tab.above_put {α : Type} {k j : Nat} {a : α} {t : Tab α} (h : Tab.above k t) (hj : k < j) :
    Tab.above k (Tab.put j a t) := by
  induction t with
  | nil => intro e he; simp only [Tab.put, List.mem_singleton] at he; subst he; exact hj
  | cons x t ih =>
    obtain ⟨k', a'⟩ := x
    have hk : k < k' := h (k', a') (List.mem_cons_self ..)
    have ht : Tab.above k t := fun e he => h e (List.mem_cons_of_mem _ he)
    intro e he
    simp only [Tab.put] at he
    split at he
    · rcases List.mem_cons.1 he with rfl | he
      · exact hj
      · exact h e he
    · split at he
      · rcases List.mem_cons.1 he with rfl | he
        · exact hj
        · exact ht e he
      · rcases List.mem_cons.1 he with rfl | he
        · exact hk
        · exact ih ht e he

theorem Tab.sorted_put {α : Type} (k : Nat) (a : α) (t : Tab α) (h : Tab.sorted t = true) :
    Tab.sorted (Tab.put k a t) = true := by
  induction t with
  | nil => simp [Tab.put, Tab.sorted]
  | cons e t ih =>
    obtain ⟨k', a'⟩ := e
    have h' := (Tab.sorted_cons _ _ _).1 h
    simp only [Tab.put]
    split
    · rename_i hlt
      refine (Tab.sorted_cons _ _ _).2 ⟨?_, h⟩
      intro x hx
      rcases List.mem_cons.1 hx with rfl | hx
      · exact hlt
      · exact Nat.lt_trans hlt (h'.1 x hx)
    · split
      · rename_i heq; subst heq; exact (Tab.sorted_cons _ _ _).2 h'
      · exact (Tab.sorted_cons _ _ _).2 ⟨Tab.above_put h'.1 (by omega), ih h'.2⟩

theorem Tab.mem_del {α : Type} {k : Nat} {t : Tab α} {e : Nat × α} (h : e ∈ Tab.del k t) : e ∈ t := by
  induction t with
  | nil => exact h
  | cons x t ih =>
    obtain ⟨k', a'⟩ := x
    simp only [Tab.del] at h
    split at h
    · exact List.mem_cons_of_mem _ h
    · rcases List.mem_cons.1 h with rfl | h
      · exact List.mem_cons_self ..
      · exact List.mem_cons_of_mem _ (ih h)

theorem Tab.sorted_del {α : Type} (k : Nat) (t : Tab α) (h : Tab.sorted t = true) : Tab.sorted (Tab.del k t) = true := by
  induction t with
  | nil => rfl
  | cons e t ih =>
    obtain ⟨k', a'⟩ := e
    have h' := (Tab.sorted_cons _ _ _).1 h
    simp only [Tab.del]
    split
    · exact h'.2
    · exact (Tab.sorted_cons _ _ _).2 ⟨fun x hx => h'.1 x (Tab.mem_del hx), ih h'.2⟩

/-- Removing an entry of a rising table: that key reads nothing, and every other key reads as before. -/
theorem Tab.get?_del {α : Type} (k j : Nat) (t : Tab α) (h : Tab.sorted t = true) :
    Tab.get? j (Tab.del k t) = if j = k then none else Tab.get? j t := by
  induction t with
  | nil => simp [Tab.del, Tab.get?]
  | cons e t ih =>
    obtain ⟨k', a'⟩ := e
    have h' := (Tab.sorted_cons _ _ _).1 h
    by_cases h1 : k' = k
    · subst h1
      by_cases h2 : j = k'
      · subst h2; simp [Tab.del, Tab.get?_of_above h'.1 (Nat.le_refl _)]
      · simp [Tab.del, Tab.get?, h2, Ne.symm h2]
    · by_cases h2 : k' = j
      · subst h2; simp [Tab.del, Tab.get?, h1]
      · simp [Tab.del, Tab.get?, h1, h2, ih h'.2]

/-! ## Memory -/

theorem Memory.mem_put {k : Nat} {b : Byte} {m : Memory} {c : Host.Cell} (h : c ∈ Tab.put k b m) : c = (k, b) ∨ c ∈ m := by
  induction m with
  | nil => simp only [Tab.put, List.mem_singleton] at h; exact Or.inl h
  | cons e m ih =>
    obtain ⟨k', b'⟩ := e
    simp only [Tab.put] at h
    split at h
    · rcases List.mem_cons.1 h with h | h
      · exact Or.inl h
      · exact Or.inr h
    · split at h
      · rcases List.mem_cons.1 h with h | h
        · exact Or.inl h
        · exact Or.inr (List.mem_cons_of_mem _ h)
      · rcases List.mem_cons.1 h with rfl | h
        · exact Or.inr (List.mem_cons_self ..)
        · rcases ih h with h | h
          · exact Or.inl h
          · exact Or.inr (List.mem_cons_of_mem _ h)

/-- Storing one byte keeps the canonical form. -/
theorem Memory.wf_put (k : Nat) (b : Byte) (m : Memory) (h : Memory.wf m = true) : Memory.wf (Memory.put k b m) = true := by
  simp only [Memory.wf, Bool.and_eq_true, List.all_eq_true, decide_eq_true_eq] at h ⊢
  simp only [Memory.put, Tab.set]
  split
  · exact ⟨Tab.sorted_del k m h.1, fun c hc => h.2 c (Tab.mem_del hc)⟩
  · rename_i hb
    refine ⟨Tab.sorted_put k b m h.1, fun c hc => ?_⟩
    rcases Memory.mem_put hc with rfl | hc
    · simpa using hb
    · exact h.2 c hc

/-- Storing bytes keeps the canonical form. -/
theorem Memory.wf_write (m : Memory) (k : Nat) (bs : List Byte) (h : Memory.wf m = true) : Memory.wf (Memory.write m k bs) = true := by
  induction bs generalizing m k with
  | nil => exact h
  | cons b bs ih => exact ih _ _ (Memory.wf_put k b m h)

theorem Memory.wf_write64 (m : Memory) (k : Nat) (w : Word) (h : Memory.wf m = true) : Memory.wf (Memory.write64 m k w) = true :=
  Memory.wf_write m k _ h

/-- A byte reads as it was last stored, and storing it changes no other byte. -/
theorem Memory.get_put (j k : Nat) (b : Byte) (m : Memory) (h : Memory.wf m = true) :
    Memory.get j (Memory.put k b m) = if j = k then b else Memory.get j m := by
  have hs : Tab.sorted m = true := by
    simp only [Memory.wf, Bool.and_eq_true] at h; exact h.1
  simp only [Memory.get, Memory.put, Tab.set, Tab.getD]
  split
  · rename_i hb; subst hb; rw [Tab.get?_del _ _ _ hs]; split <;> rfl
  · rw [Tab.get?_put]; split <;> rfl

/-- A byte after a store of several bytes. -/
theorem Memory.get_write (j k : Nat) (bs : List Byte) (m : Memory) (h : Memory.wf m = true) :
    Memory.get j (Memory.write m k bs) = if k ≤ j ∧ j < k + bs.length then bs.getD (j - k) 0 else Memory.get j m := by
  induction bs generalizing m k with
  | nil => simp only [Memory.write, List.length_nil]; rw [if_neg (by omega)]
  | cons b bs ih =>
    simp only [Memory.write, List.length_cons]
    rw [ih (k + 1) _ (Memory.wf_put k b m h), Memory.get_put j k b m h]
    by_cases h1 : j = k
    · subst h1
      rw [if_neg (by omega), if_pos rfl, if_pos (by omega)]; simp
    · rw [if_neg h1]
      by_cases h2 : k + 1 ≤ j ∧ j < k + 1 + bs.length
      · rw [if_pos h2, if_pos (by omega)]
        have : j - k = (j - (k + 1)) + 1 := by omega
        rw [this]; rfl
      · rw [if_neg h2, if_neg (by omega)]

end Sys2Proof.Machine
end

