-- ==== Sys2Proof/Laws/State.lean ====
section
/-! SUPPORT. What each update of the state leaves as it was, field by field, and what it reads back: later proofs cite these and
never unfold a record update. -/

namespace Sys2Proof.Machine

/-! ### setProc -/

@[simp] theorem State.setProc_phys (s : State) (p : Pid) (x : Proc) : (s.setProc p x).phys = s.phys := rfl
@[simp] theorem State.setProc_mgmt (s : State) (p : Pid) (x : Proc) : (s.setProc p x).mgmt = s.mgmt := rfl
@[simp] theorem State.setProc_cycles (s : State) (p : Pid) (x : Proc) : (s.setProc p x).cycles = s.cycles := rfl
@[simp] theorem State.setProc_free (s : State) (p : Pid) (x : Proc) : (s.setProc p x).free = s.free := rfl
@[simp] theorem State.setProc_queue (s : State) (p : Pid) (x : Proc) : (s.setProc p x).queue = s.queue := rfl
@[simp] theorem State.setProc_cur (s : State) (p : Pid) (x : Proc) : (s.setProc p x).cur = s.cur := rfl
@[simp] theorem State.setProc_last (s : State) (p : Pid) (x : Proc) : (s.setProc p x).last = s.last := rfl
@[simp] theorem State.setProc_mem (s : State) (p : Pid) (x : Proc) : (s.setProc p x).mem = s.mem := rfl
@[simp] theorem State.setProc_poison (s : State) (p : Pid) (x : Proc) : (s.setProc p x).poison = s.poison := rfl
@[simp] theorem State.setProc_codeErr (s : State) (p : Pid) (x : Proc) : (s.setProc p x).codeErr = s.codeErr := rfl
@[simp] theorem State.setProc_redSlots (s : State) (p : Pid) (x : Proc) : (s.setProc p x).redSlots = s.redSlots := rfl
@[simp] theorem State.setProc_clusters (s : State) (p : Pid) (x : Proc) : (s.setProc p x).clusters = s.clusters := rfl
@[simp] theorem State.setProc_memdies (s : State) (p : Pid) (x : Proc) : (s.setProc p x).memdies = s.memdies := rfl
@[simp] theorem State.setProc_walkers (s : State) (p : Pid) (x : Proc) : (s.setProc p x).walkers = s.walkers := rfl
@[simp] theorem State.setProc_walks (s : State) (p : Pid) (x : Proc) : (s.setProc p x).walks = s.walks := rfl
@[simp] theorem State.setProc_prefetches (s : State) (p : Pid) (x : Proc) : (s.setProc p x).prefetches = s.prefetches := rfl
@[simp] theorem State.setProc_syncs (s : State) (p : Pid) (x : Proc) : (s.setProc p x).syncs = s.syncs := rfl
@[simp] theorem State.setProc_ilog (s : State) (p : Pid) (x : Proc) : (s.setProc p x).ilog = s.ilog := rfl
@[simp] theorem State.setProc_meshReplay (s : State) (p : Pid) (x : Proc) : (s.setProc p x).meshReplay = s.meshReplay := rfl
@[simp] theorem State.setProc_secLeaves (s : State) (p : Pid) (x : Proc) : (s.setProc p x).secLeaves = s.secLeaves := rfl
@[simp] theorem State.setProc_teams (s : State) (p : Pid) (x : Proc) : (s.setProc p x).teams = s.teams := rfl
@[simp] theorem State.setProc_launches (s : State) (p : Pid) (x : Proc) : (s.setProc p x).launches = s.launches := rfl
@[simp] theorem State.setProc_experts (s : State) (p : Pid) (x : Proc) : (s.setProc p x).experts = s.experts := rfl
@[simp] theorem State.setProc_msgs (s : State) (p : Pid) (x : Proc) : (s.setProc p x).msgs = s.msgs := rfl
@[simp] theorem State.setProc_bars (s : State) (p : Pid) (x : Proc) : (s.setProc p x).bars = s.bars := rfl
@[simp] theorem State.setProc_links (s : State) (p : Pid) (x : Proc) : (s.setProc p x).links = s.links := rfl
@[simp] theorem State.setProc_merges (s : State) (p : Pid) (x : Proc) : (s.setProc p x).merges = s.merges := rfl
@[simp] theorem State.setProc_relays (s : State) (p : Pid) (x : Proc) : (s.setProc p x).relays = s.relays := rfl
@[simp] theorem State.setProc_farTokens (s : State) (p : Pid) (x : Proc) : (s.setProc p x).farTokens = s.farTokens := rfl
@[simp] theorem State.setProc_routed (s : State) (p : Pid) (x : Proc) : (s.setProc p x).routed = s.routed := rfl
@[simp] theorem State.setProc_queues (s : State) (p : Pid) (x : Proc) : (s.setProc p x).queues = s.queues := rfl
@[simp] theorem State.setProc_mailboxes (s : State) (p : Pid) (x : Proc) : (s.setProc p x).mailboxes = s.mailboxes := rfl
@[simp] theorem State.setProc_lreqs (s : State) (p : Pid) (x : Proc) : (s.setProc p x).lreqs = s.lreqs := rfl
@[simp] theorem State.setProc_classQ (s : State) (p : Pid) (x : Proc) : (s.setProc p x).classQ = s.classQ := rfl
@[simp] theorem State.setProc_backlog (s : State) (p : Pid) (x : Proc) : (s.setProc p x).backlog = s.backlog := rfl
@[simp] theorem State.setProc_leftWrites (s : State) (p : Pid) (x : Proc) : (s.setProc p x).leftWrites = s.leftWrites := rfl
@[simp] theorem State.setProc_recs (s : State) (p : Pid) (x : Proc) : (s.setProc p x).recs = s.recs := rfl
@[simp] theorem State.setProc_waitLaunch (s : State) (p : Pid) (x : Proc) : (s.setProc p x).waitLaunch = s.waitLaunch := rfl
@[simp] theorem State.setProc_history (s : State) (p : Pid) (x : Proc) : (s.setProc p x).history = s.history := rfl
@[simp] theorem State.setProc_coalesce (s : State) (p : Pid) (x : Proc) : (s.setProc p x).coalesce = s.coalesce := rfl
@[simp] theorem State.setProc_regs (s : State) (p : Pid) (x : Proc) : (s.setProc p x).regs = s.regs := rfl
@[simp] theorem State.setProc_dieRegs (s : State) (p : Pid) (x : Proc) : (s.setProc p x).dieRegs = s.dieRegs := rfl
@[simp] theorem State.setProc_routes (s : State) (p : Pid) (x : Proc) : (s.setProc p x).routes = s.routes := rfl
@[simp] theorem State.setProc_nextLid (s : State) (p : Pid) (x : Proc) : (s.setProc p x).nextLid = s.nextLid := rfl
@[simp] theorem State.setProc_nextTeam (s : State) (p : Pid) (x : Proc) : (s.setProc p x).nextTeam = s.nextTeam := rfl
@[simp] theorem State.setProc_nextEp (s : State) (p : Pid) (x : Proc) : (s.setProc p x).nextEp = s.nextEp := rfl
@[simp] theorem State.setProc_nextMsg (s : State) (p : Pid) (x : Proc) : (s.setProc p x).nextMsg = s.nextMsg := rfl
@[simp] theorem State.setProc_nextAcc (s : State) (p : Pid) (x : Proc) : (s.setProc p x).nextAcc = s.nextAcc := rfl
@[simp] theorem State.setProc_nextReq (s : State) (p : Pid) (x : Proc) : (s.setProc p x).nextReq = s.nextReq := rfl
@[simp] theorem State.setProc_dir (s : State) (p : Pid) (x : Proc) : (s.setProc p x).dir = s.dir := rfl
@[simp] theorem State.setProc_svcMsgs (s : State) (p : Pid) (x : Proc) : (s.setProc p x).svcMsgs = s.svcMsgs := rfl
@[simp] theorem State.setProc_events (s : State) (p : Pid) (x : Proc) : (s.setProc p x).events = s.events := rfl
@[simp] theorem State.setProc_outs (s : State) (p : Pid) (x : Proc) : (s.setProc p x).outs = s.outs := rfl
@[simp] theorem State.setProc_lastExit (s : State) (p : Pid) (x : Proc) : (s.setProc p x).lastExit = s.lastExit := rfl
@[simp] theorem State.setProc_migDie (s : State) (p : Pid) (x : Proc) : (s.setProc p x).migDie = s.migDie := rfl
@[simp] theorem State.setProc_twinH (s : State) (p : Pid) (x : Proc) : (s.setProc p x).twinH = s.twinH := rfl
@[simp] theorem State.setProc_twinWait (s : State) (p : Pid) (x : Proc) : (s.setProc p x).twinWait = s.twinWait := rfl

/-! ### modProc -/

@[simp] theorem State.modProc_phys (s : State) (p : Pid) (f : Proc → Proc) : (s.modProc p f).phys = s.phys := rfl
@[simp] theorem State.modProc_mgmt (s : State) (p : Pid) (f : Proc → Proc) : (s.modProc p f).mgmt = s.mgmt := rfl
@[simp] theorem State.modProc_cycles (s : State) (p : Pid) (f : Proc → Proc) : (s.modProc p f).cycles = s.cycles := rfl
@[simp] theorem State.modProc_free (s : State) (p : Pid) (f : Proc → Proc) : (s.modProc p f).free = s.free := rfl
@[simp] theorem State.modProc_queue (s : State) (p : Pid) (f : Proc → Proc) : (s.modProc p f).queue = s.queue := rfl
@[simp] theorem State.modProc_cur (s : State) (p : Pid) (f : Proc → Proc) : (s.modProc p f).cur = s.cur := rfl
@[simp] theorem State.modProc_last (s : State) (p : Pid) (f : Proc → Proc) : (s.modProc p f).last = s.last := rfl
@[simp] theorem State.modProc_mem (s : State) (p : Pid) (f : Proc → Proc) : (s.modProc p f).mem = s.mem := rfl
@[simp] theorem State.modProc_poison (s : State) (p : Pid) (f : Proc → Proc) : (s.modProc p f).poison = s.poison := rfl
@[simp] theorem State.modProc_codeErr (s : State) (p : Pid) (f : Proc → Proc) : (s.modProc p f).codeErr = s.codeErr := rfl
@[simp] theorem State.modProc_redSlots (s : State) (p : Pid) (f : Proc → Proc) : (s.modProc p f).redSlots = s.redSlots := rfl
@[simp] theorem State.modProc_clusters (s : State) (p : Pid) (f : Proc → Proc) : (s.modProc p f).clusters = s.clusters := rfl
@[simp] theorem State.modProc_memdies (s : State) (p : Pid) (f : Proc → Proc) : (s.modProc p f).memdies = s.memdies := rfl
@[simp] theorem State.modProc_walkers (s : State) (p : Pid) (f : Proc → Proc) : (s.modProc p f).walkers = s.walkers := rfl
@[simp] theorem State.modProc_walks (s : State) (p : Pid) (f : Proc → Proc) : (s.modProc p f).walks = s.walks := rfl
@[simp] theorem State.modProc_prefetches (s : State) (p : Pid) (f : Proc → Proc) : (s.modProc p f).prefetches = s.prefetches := rfl
@[simp] theorem State.modProc_syncs (s : State) (p : Pid) (f : Proc → Proc) : (s.modProc p f).syncs = s.syncs := rfl
@[simp] theorem State.modProc_ilog (s : State) (p : Pid) (f : Proc → Proc) : (s.modProc p f).ilog = s.ilog := rfl
@[simp] theorem State.modProc_meshReplay (s : State) (p : Pid) (f : Proc → Proc) : (s.modProc p f).meshReplay = s.meshReplay := rfl
@[simp] theorem State.modProc_secLeaves (s : State) (p : Pid) (f : Proc → Proc) : (s.modProc p f).secLeaves = s.secLeaves := rfl
@[simp] theorem State.modProc_teams (s : State) (p : Pid) (f : Proc → Proc) : (s.modProc p f).teams = s.teams := rfl
@[simp] theorem State.modProc_launches (s : State) (p : Pid) (f : Proc → Proc) : (s.modProc p f).launches = s.launches := rfl
@[simp] theorem State.modProc_experts (s : State) (p : Pid) (f : Proc → Proc) : (s.modProc p f).experts = s.experts := rfl
@[simp] theorem State.modProc_msgs (s : State) (p : Pid) (f : Proc → Proc) : (s.modProc p f).msgs = s.msgs := rfl
@[simp] theorem State.modProc_bars (s : State) (p : Pid) (f : Proc → Proc) : (s.modProc p f).bars = s.bars := rfl
@[simp] theorem State.modProc_links (s : State) (p : Pid) (f : Proc → Proc) : (s.modProc p f).links = s.links := rfl
@[simp] theorem State.modProc_merges (s : State) (p : Pid) (f : Proc → Proc) : (s.modProc p f).merges = s.merges := rfl
@[simp] theorem State.modProc_relays (s : State) (p : Pid) (f : Proc → Proc) : (s.modProc p f).relays = s.relays := rfl
@[simp] theorem State.modProc_farTokens (s : State) (p : Pid) (f : Proc → Proc) : (s.modProc p f).farTokens = s.farTokens := rfl
@[simp] theorem State.modProc_routed (s : State) (p : Pid) (f : Proc → Proc) : (s.modProc p f).routed = s.routed := rfl
@[simp] theorem State.modProc_queues (s : State) (p : Pid) (f : Proc → Proc) : (s.modProc p f).queues = s.queues := rfl
@[simp] theorem State.modProc_mailboxes (s : State) (p : Pid) (f : Proc → Proc) : (s.modProc p f).mailboxes = s.mailboxes := rfl
@[simp] theorem State.modProc_lreqs (s : State) (p : Pid) (f : Proc → Proc) : (s.modProc p f).lreqs = s.lreqs := rfl
@[simp] theorem State.modProc_classQ (s : State) (p : Pid) (f : Proc → Proc) : (s.modProc p f).classQ = s.classQ := rfl
@[simp] theorem State.modProc_backlog (s : State) (p : Pid) (f : Proc → Proc) : (s.modProc p f).backlog = s.backlog := rfl
@[simp] theorem State.modProc_leftWrites (s : State) (p : Pid) (f : Proc → Proc) : (s.modProc p f).leftWrites = s.leftWrites := rfl
@[simp] theorem State.modProc_recs (s : State) (p : Pid) (f : Proc → Proc) : (s.modProc p f).recs = s.recs := rfl
@[simp] theorem State.modProc_waitLaunch (s : State) (p : Pid) (f : Proc → Proc) : (s.modProc p f).waitLaunch = s.waitLaunch := rfl
@[simp] theorem State.modProc_history (s : State) (p : Pid) (f : Proc → Proc) : (s.modProc p f).history = s.history := rfl
@[simp] theorem State.modProc_coalesce (s : State) (p : Pid) (f : Proc → Proc) : (s.modProc p f).coalesce = s.coalesce := rfl
@[simp] theorem State.modProc_regs (s : State) (p : Pid) (f : Proc → Proc) : (s.modProc p f).regs = s.regs := rfl
@[simp] theorem State.modProc_dieRegs (s : State) (p : Pid) (f : Proc → Proc) : (s.modProc p f).dieRegs = s.dieRegs := rfl
@[simp] theorem State.modProc_routes (s : State) (p : Pid) (f : Proc → Proc) : (s.modProc p f).routes = s.routes := rfl
@[simp] theorem State.modProc_nextLid (s : State) (p : Pid) (f : Proc → Proc) : (s.modProc p f).nextLid = s.nextLid := rfl
@[simp] theorem State.modProc_nextTeam (s : State) (p : Pid) (f : Proc → Proc) : (s.modProc p f).nextTeam = s.nextTeam := rfl
@[simp] theorem State.modProc_nextEp (s : State) (p : Pid) (f : Proc → Proc) : (s.modProc p f).nextEp = s.nextEp := rfl
@[simp] theorem State.modProc_nextMsg (s : State) (p : Pid) (f : Proc → Proc) : (s.modProc p f).nextMsg = s.nextMsg := rfl
@[simp] theorem State.modProc_nextAcc (s : State) (p : Pid) (f : Proc → Proc) : (s.modProc p f).nextAcc = s.nextAcc := rfl
@[simp] theorem State.modProc_nextReq (s : State) (p : Pid) (f : Proc → Proc) : (s.modProc p f).nextReq = s.nextReq := rfl
@[simp] theorem State.modProc_dir (s : State) (p : Pid) (f : Proc → Proc) : (s.modProc p f).dir = s.dir := rfl
@[simp] theorem State.modProc_svcMsgs (s : State) (p : Pid) (f : Proc → Proc) : (s.modProc p f).svcMsgs = s.svcMsgs := rfl
@[simp] theorem State.modProc_events (s : State) (p : Pid) (f : Proc → Proc) : (s.modProc p f).events = s.events := rfl
@[simp] theorem State.modProc_outs (s : State) (p : Pid) (f : Proc → Proc) : (s.modProc p f).outs = s.outs := rfl
@[simp] theorem State.modProc_lastExit (s : State) (p : Pid) (f : Proc → Proc) : (s.modProc p f).lastExit = s.lastExit := rfl
@[simp] theorem State.modProc_migDie (s : State) (p : Pid) (f : Proc → Proc) : (s.modProc p f).migDie = s.migDie := rfl
@[simp] theorem State.modProc_twinH (s : State) (p : Pid) (f : Proc → Proc) : (s.modProc p f).twinH = s.twinH := rfl
@[simp] theorem State.modProc_twinWait (s : State) (p : Pid) (f : Proc → Proc) : (s.modProc p f).twinWait = s.twinWait := rfl

/-! ### setCluster -/

@[simp] theorem State.setCluster_phys (s : State) (c : Nat) (x : Cluster) : (s.setCluster c x).phys = s.phys := rfl
@[simp] theorem State.setCluster_mgmt (s : State) (c : Nat) (x : Cluster) : (s.setCluster c x).mgmt = s.mgmt := rfl
@[simp] theorem State.setCluster_cycles (s : State) (c : Nat) (x : Cluster) : (s.setCluster c x).cycles = s.cycles := rfl
@[simp] theorem State.setCluster_free (s : State) (c : Nat) (x : Cluster) : (s.setCluster c x).free = s.free := rfl
@[simp] theorem State.setCluster_queue (s : State) (c : Nat) (x : Cluster) : (s.setCluster c x).queue = s.queue := rfl
@[simp] theorem State.setCluster_cur (s : State) (c : Nat) (x : Cluster) : (s.setCluster c x).cur = s.cur := rfl
@[simp] theorem State.setCluster_last (s : State) (c : Nat) (x : Cluster) : (s.setCluster c x).last = s.last := rfl
@[simp] theorem State.setCluster_mem (s : State) (c : Nat) (x : Cluster) : (s.setCluster c x).mem = s.mem := rfl
@[simp] theorem State.setCluster_poison (s : State) (c : Nat) (x : Cluster) : (s.setCluster c x).poison = s.poison := rfl
@[simp] theorem State.setCluster_codeErr (s : State) (c : Nat) (x : Cluster) : (s.setCluster c x).codeErr = s.codeErr := rfl
@[simp] theorem State.setCluster_redSlots (s : State) (c : Nat) (x : Cluster) : (s.setCluster c x).redSlots = s.redSlots := rfl
@[simp] theorem State.setCluster_procs (s : State) (c : Nat) (x : Cluster) : (s.setCluster c x).procs = s.procs := rfl
@[simp] theorem State.setCluster_memdies (s : State) (c : Nat) (x : Cluster) : (s.setCluster c x).memdies = s.memdies := rfl
@[simp] theorem State.setCluster_walkers (s : State) (c : Nat) (x : Cluster) : (s.setCluster c x).walkers = s.walkers := rfl
@[simp] theorem State.setCluster_walks (s : State) (c : Nat) (x : Cluster) : (s.setCluster c x).walks = s.walks := rfl
@[simp] theorem State.setCluster_prefetches (s : State) (c : Nat) (x : Cluster) : (s.setCluster c x).prefetches = s.prefetches := rfl
@[simp] theorem State.setCluster_syncs (s : State) (c : Nat) (x : Cluster) : (s.setCluster c x).syncs = s.syncs := rfl
@[simp] theorem State.setCluster_ilog (s : State) (c : Nat) (x : Cluster) : (s.setCluster c x).ilog = s.ilog := rfl
@[simp] theorem State.setCluster_meshReplay (s : State) (c : Nat) (x : Cluster) : (s.setCluster c x).meshReplay = s.meshReplay := rfl
@[simp] theorem State.setCluster_secLeaves (s : State) (c : Nat) (x : Cluster) : (s.setCluster c x).secLeaves = s.secLeaves := rfl
@[simp] theorem State.setCluster_teams (s : State) (c : Nat) (x : Cluster) : (s.setCluster c x).teams = s.teams := rfl
@[simp] theorem State.setCluster_launches (s : State) (c : Nat) (x : Cluster) : (s.setCluster c x).launches = s.launches := rfl
@[simp] theorem State.setCluster_experts (s : State) (c : Nat) (x : Cluster) : (s.setCluster c x).experts = s.experts := rfl
@[simp] theorem State.setCluster_msgs (s : State) (c : Nat) (x : Cluster) : (s.setCluster c x).msgs = s.msgs := rfl
@[simp] theorem State.setCluster_bars (s : State) (c : Nat) (x : Cluster) : (s.setCluster c x).bars = s.bars := rfl
@[simp] theorem State.setCluster_links (s : State) (c : Nat) (x : Cluster) : (s.setCluster c x).links = s.links := rfl
@[simp] theorem State.setCluster_merges (s : State) (c : Nat) (x : Cluster) : (s.setCluster c x).merges = s.merges := rfl
@[simp] theorem State.setCluster_relays (s : State) (c : Nat) (x : Cluster) : (s.setCluster c x).relays = s.relays := rfl
@[simp] theorem State.setCluster_farTokens (s : State) (c : Nat) (x : Cluster) : (s.setCluster c x).farTokens = s.farTokens := rfl
@[simp] theorem State.setCluster_routed (s : State) (c : Nat) (x : Cluster) : (s.setCluster c x).routed = s.routed := rfl
@[simp] theorem State.setCluster_queues (s : State) (c : Nat) (x : Cluster) : (s.setCluster c x).queues = s.queues := rfl
@[simp] theorem State.setCluster_mailboxes (s : State) (c : Nat) (x : Cluster) : (s.setCluster c x).mailboxes = s.mailboxes := rfl
@[simp] theorem State.setCluster_lreqs (s : State) (c : Nat) (x : Cluster) : (s.setCluster c x).lreqs = s.lreqs := rfl
@[simp] theorem State.setCluster_classQ (s : State) (c : Nat) (x : Cluster) : (s.setCluster c x).classQ = s.classQ := rfl
@[simp] theorem State.setCluster_backlog (s : State) (c : Nat) (x : Cluster) : (s.setCluster c x).backlog = s.backlog := rfl
@[simp] theorem State.setCluster_leftWrites (s : State) (c : Nat) (x : Cluster) : (s.setCluster c x).leftWrites = s.leftWrites := rfl
@[simp] theorem State.setCluster_recs (s : State) (c : Nat) (x : Cluster) : (s.setCluster c x).recs = s.recs := rfl
@[simp] theorem State.setCluster_waitLaunch (s : State) (c : Nat) (x : Cluster) : (s.setCluster c x).waitLaunch = s.waitLaunch := rfl
@[simp] theorem State.setCluster_history (s : State) (c : Nat) (x : Cluster) : (s.setCluster c x).history = s.history := rfl
@[simp] theorem State.setCluster_coalesce (s : State) (c : Nat) (x : Cluster) : (s.setCluster c x).coalesce = s.coalesce := rfl
@[simp] theorem State.setCluster_regs (s : State) (c : Nat) (x : Cluster) : (s.setCluster c x).regs = s.regs := rfl
@[simp] theorem State.setCluster_dieRegs (s : State) (c : Nat) (x : Cluster) : (s.setCluster c x).dieRegs = s.dieRegs := rfl
@[simp] theorem State.setCluster_routes (s : State) (c : Nat) (x : Cluster) : (s.setCluster c x).routes = s.routes := rfl
@[simp] theorem State.setCluster_nextLid (s : State) (c : Nat) (x : Cluster) : (s.setCluster c x).nextLid = s.nextLid := rfl
@[simp] theorem State.setCluster_nextTeam (s : State) (c : Nat) (x : Cluster) : (s.setCluster c x).nextTeam = s.nextTeam := rfl
@[simp] theorem State.setCluster_nextEp (s : State) (c : Nat) (x : Cluster) : (s.setCluster c x).nextEp = s.nextEp := rfl
@[simp] theorem State.setCluster_nextMsg (s : State) (c : Nat) (x : Cluster) : (s.setCluster c x).nextMsg = s.nextMsg := rfl
@[simp] theorem State.setCluster_nextAcc (s : State) (c : Nat) (x : Cluster) : (s.setCluster c x).nextAcc = s.nextAcc := rfl
@[simp] theorem State.setCluster_nextReq (s : State) (c : Nat) (x : Cluster) : (s.setCluster c x).nextReq = s.nextReq := rfl
@[simp] theorem State.setCluster_dir (s : State) (c : Nat) (x : Cluster) : (s.setCluster c x).dir = s.dir := rfl
@[simp] theorem State.setCluster_svcMsgs (s : State) (c : Nat) (x : Cluster) : (s.setCluster c x).svcMsgs = s.svcMsgs := rfl
@[simp] theorem State.setCluster_events (s : State) (c : Nat) (x : Cluster) : (s.setCluster c x).events = s.events := rfl
@[simp] theorem State.setCluster_outs (s : State) (c : Nat) (x : Cluster) : (s.setCluster c x).outs = s.outs := rfl
@[simp] theorem State.setCluster_lastExit (s : State) (c : Nat) (x : Cluster) : (s.setCluster c x).lastExit = s.lastExit := rfl
@[simp] theorem State.setCluster_migDie (s : State) (c : Nat) (x : Cluster) : (s.setCluster c x).migDie = s.migDie := rfl
@[simp] theorem State.setCluster_twinH (s : State) (c : Nat) (x : Cluster) : (s.setCluster c x).twinH = s.twinH := rfl
@[simp] theorem State.setCluster_twinWait (s : State) (c : Nat) (x : Cluster) : (s.setCluster c x).twinWait = s.twinWait := rfl

/-! ### modCluster -/

@[simp] theorem State.modCluster_phys (s : State) (c : Nat) (f : Cluster → Cluster) : (s.modCluster c f).phys = s.phys := rfl
@[simp] theorem State.modCluster_mgmt (s : State) (c : Nat) (f : Cluster → Cluster) : (s.modCluster c f).mgmt = s.mgmt := rfl
@[simp] theorem State.modCluster_cycles (s : State) (c : Nat) (f : Cluster → Cluster) : (s.modCluster c f).cycles = s.cycles := rfl
@[simp] theorem State.modCluster_free (s : State) (c : Nat) (f : Cluster → Cluster) : (s.modCluster c f).free = s.free := rfl
@[simp] theorem State.modCluster_queue (s : State) (c : Nat) (f : Cluster → Cluster) : (s.modCluster c f).queue = s.queue := rfl
@[simp] theorem State.modCluster_cur (s : State) (c : Nat) (f : Cluster → Cluster) : (s.modCluster c f).cur = s.cur := rfl
@[simp] theorem State.modCluster_last (s : State) (c : Nat) (f : Cluster → Cluster) : (s.modCluster c f).last = s.last := rfl
@[simp] theorem State.modCluster_mem (s : State) (c : Nat) (f : Cluster → Cluster) : (s.modCluster c f).mem = s.mem := rfl
@[simp] theorem State.modCluster_poison (s : State) (c : Nat) (f : Cluster → Cluster) : (s.modCluster c f).poison = s.poison := rfl
@[simp] theorem State.modCluster_codeErr (s : State) (c : Nat) (f : Cluster → Cluster) : (s.modCluster c f).codeErr = s.codeErr := rfl
@[simp] theorem State.modCluster_redSlots (s : State) (c : Nat) (f : Cluster → Cluster) : (s.modCluster c f).redSlots = s.redSlots := rfl
@[simp] theorem State.modCluster_procs (s : State) (c : Nat) (f : Cluster → Cluster) : (s.modCluster c f).procs = s.procs := rfl
@[simp] theorem State.modCluster_memdies (s : State) (c : Nat) (f : Cluster → Cluster) : (s.modCluster c f).memdies = s.memdies := rfl
@[simp] theorem State.modCluster_walkers (s : State) (c : Nat) (f : Cluster → Cluster) : (s.modCluster c f).walkers = s.walkers := rfl
@[simp] theorem State.modCluster_walks (s : State) (c : Nat) (f : Cluster → Cluster) : (s.modCluster c f).walks = s.walks := rfl
@[simp] theorem State.modCluster_prefetches (s : State) (c : Nat) (f : Cluster → Cluster) : (s.modCluster c f).prefetches = s.prefetches := rfl
@[simp] theorem State.modCluster_syncs (s : State) (c : Nat) (f : Cluster → Cluster) : (s.modCluster c f).syncs = s.syncs := rfl
@[simp] theorem State.modCluster_ilog (s : State) (c : Nat) (f : Cluster → Cluster) : (s.modCluster c f).ilog = s.ilog := rfl
@[simp] theorem State.modCluster_meshReplay (s : State) (c : Nat) (f : Cluster → Cluster) : (s.modCluster c f).meshReplay = s.meshReplay := rfl
@[simp] theorem State.modCluster_secLeaves (s : State) (c : Nat) (f : Cluster → Cluster) : (s.modCluster c f).secLeaves = s.secLeaves := rfl
@[simp] theorem State.modCluster_teams (s : State) (c : Nat) (f : Cluster → Cluster) : (s.modCluster c f).teams = s.teams := rfl
@[simp] theorem State.modCluster_launches (s : State) (c : Nat) (f : Cluster → Cluster) : (s.modCluster c f).launches = s.launches := rfl
@[simp] theorem State.modCluster_experts (s : State) (c : Nat) (f : Cluster → Cluster) : (s.modCluster c f).experts = s.experts := rfl
@[simp] theorem State.modCluster_msgs (s : State) (c : Nat) (f : Cluster → Cluster) : (s.modCluster c f).msgs = s.msgs := rfl
@[simp] theorem State.modCluster_bars (s : State) (c : Nat) (f : Cluster → Cluster) : (s.modCluster c f).bars = s.bars := rfl
@[simp] theorem State.modCluster_links (s : State) (c : Nat) (f : Cluster → Cluster) : (s.modCluster c f).links = s.links := rfl
@[simp] theorem State.modCluster_merges (s : State) (c : Nat) (f : Cluster → Cluster) : (s.modCluster c f).merges = s.merges := rfl
@[simp] theorem State.modCluster_relays (s : State) (c : Nat) (f : Cluster → Cluster) : (s.modCluster c f).relays = s.relays := rfl
@[simp] theorem State.modCluster_farTokens (s : State) (c : Nat) (f : Cluster → Cluster) : (s.modCluster c f).farTokens = s.farTokens := rfl
@[simp] theorem State.modCluster_routed (s : State) (c : Nat) (f : Cluster → Cluster) : (s.modCluster c f).routed = s.routed := rfl
@[simp] theorem State.modCluster_queues (s : State) (c : Nat) (f : Cluster → Cluster) : (s.modCluster c f).queues = s.queues := rfl
@[simp] theorem State.modCluster_mailboxes (s : State) (c : Nat) (f : Cluster → Cluster) : (s.modCluster c f).mailboxes = s.mailboxes := rfl
@[simp] theorem State.modCluster_lreqs (s : State) (c : Nat) (f : Cluster → Cluster) : (s.modCluster c f).lreqs = s.lreqs := rfl
@[simp] theorem State.modCluster_classQ (s : State) (c : Nat) (f : Cluster → Cluster) : (s.modCluster c f).classQ = s.classQ := rfl
@[simp] theorem State.modCluster_backlog (s : State) (c : Nat) (f : Cluster → Cluster) : (s.modCluster c f).backlog = s.backlog := rfl
@[simp] theorem State.modCluster_leftWrites (s : State) (c : Nat) (f : Cluster → Cluster) : (s.modCluster c f).leftWrites = s.leftWrites := rfl
@[simp] theorem State.modCluster_recs (s : State) (c : Nat) (f : Cluster → Cluster) : (s.modCluster c f).recs = s.recs := rfl
@[simp] theorem State.modCluster_waitLaunch (s : State) (c : Nat) (f : Cluster → Cluster) : (s.modCluster c f).waitLaunch = s.waitLaunch := rfl
@[simp] theorem State.modCluster_history (s : State) (c : Nat) (f : Cluster → Cluster) : (s.modCluster c f).history = s.history := rfl
@[simp] theorem State.modCluster_coalesce (s : State) (c : Nat) (f : Cluster → Cluster) : (s.modCluster c f).coalesce = s.coalesce := rfl
@[simp] theorem State.modCluster_regs (s : State) (c : Nat) (f : Cluster → Cluster) : (s.modCluster c f).regs = s.regs := rfl
@[simp] theorem State.modCluster_dieRegs (s : State) (c : Nat) (f : Cluster → Cluster) : (s.modCluster c f).dieRegs = s.dieRegs := rfl
@[simp] theorem State.modCluster_routes (s : State) (c : Nat) (f : Cluster → Cluster) : (s.modCluster c f).routes = s.routes := rfl
@[simp] theorem State.modCluster_nextLid (s : State) (c : Nat) (f : Cluster → Cluster) : (s.modCluster c f).nextLid = s.nextLid := rfl
@[simp] theorem State.modCluster_nextTeam (s : State) (c : Nat) (f : Cluster → Cluster) : (s.modCluster c f).nextTeam = s.nextTeam := rfl
@[simp] theorem State.modCluster_nextEp (s : State) (c : Nat) (f : Cluster → Cluster) : (s.modCluster c f).nextEp = s.nextEp := rfl
@[simp] theorem State.modCluster_nextMsg (s : State) (c : Nat) (f : Cluster → Cluster) : (s.modCluster c f).nextMsg = s.nextMsg := rfl
@[simp] theorem State.modCluster_nextAcc (s : State) (c : Nat) (f : Cluster → Cluster) : (s.modCluster c f).nextAcc = s.nextAcc := rfl
@[simp] theorem State.modCluster_nextReq (s : State) (c : Nat) (f : Cluster → Cluster) : (s.modCluster c f).nextReq = s.nextReq := rfl
@[simp] theorem State.modCluster_dir (s : State) (c : Nat) (f : Cluster → Cluster) : (s.modCluster c f).dir = s.dir := rfl
@[simp] theorem State.modCluster_svcMsgs (s : State) (c : Nat) (f : Cluster → Cluster) : (s.modCluster c f).svcMsgs = s.svcMsgs := rfl
@[simp] theorem State.modCluster_events (s : State) (c : Nat) (f : Cluster → Cluster) : (s.modCluster c f).events = s.events := rfl
@[simp] theorem State.modCluster_outs (s : State) (c : Nat) (f : Cluster → Cluster) : (s.modCluster c f).outs = s.outs := rfl
@[simp] theorem State.modCluster_lastExit (s : State) (c : Nat) (f : Cluster → Cluster) : (s.modCluster c f).lastExit = s.lastExit := rfl
@[simp] theorem State.modCluster_migDie (s : State) (c : Nat) (f : Cluster → Cluster) : (s.modCluster c f).migDie = s.migDie := rfl
@[simp] theorem State.modCluster_twinH (s : State) (c : Nat) (f : Cluster → Cluster) : (s.modCluster c f).twinH = s.twinH := rfl
@[simp] theorem State.modCluster_twinWait (s : State) (c : Nat) (f : Cluster → Cluster) : (s.modCluster c f).twinWait = s.twinWait := rfl

/-! ### setMemDie -/

@[simp] theorem State.setMemDie_phys (s : State) (d : Nat) (x : MemDie) : (s.setMemDie d x).phys = s.phys := rfl
@[simp] theorem State.setMemDie_mgmt (s : State) (d : Nat) (x : MemDie) : (s.setMemDie d x).mgmt = s.mgmt := rfl
@[simp] theorem State.setMemDie_cycles (s : State) (d : Nat) (x : MemDie) : (s.setMemDie d x).cycles = s.cycles := rfl
@[simp] theorem State.setMemDie_free (s : State) (d : Nat) (x : MemDie) : (s.setMemDie d x).free = s.free := rfl
@[simp] theorem State.setMemDie_queue (s : State) (d : Nat) (x : MemDie) : (s.setMemDie d x).queue = s.queue := rfl
@[simp] theorem State.setMemDie_cur (s : State) (d : Nat) (x : MemDie) : (s.setMemDie d x).cur = s.cur := rfl
@[simp] theorem State.setMemDie_last (s : State) (d : Nat) (x : MemDie) : (s.setMemDie d x).last = s.last := rfl
@[simp] theorem State.setMemDie_mem (s : State) (d : Nat) (x : MemDie) : (s.setMemDie d x).mem = s.mem := rfl
@[simp] theorem State.setMemDie_poison (s : State) (d : Nat) (x : MemDie) : (s.setMemDie d x).poison = s.poison := rfl
@[simp] theorem State.setMemDie_codeErr (s : State) (d : Nat) (x : MemDie) : (s.setMemDie d x).codeErr = s.codeErr := rfl
@[simp] theorem State.setMemDie_redSlots (s : State) (d : Nat) (x : MemDie) : (s.setMemDie d x).redSlots = s.redSlots := rfl
@[simp] theorem State.setMemDie_procs (s : State) (d : Nat) (x : MemDie) : (s.setMemDie d x).procs = s.procs := rfl
@[simp] theorem State.setMemDie_clusters (s : State) (d : Nat) (x : MemDie) : (s.setMemDie d x).clusters = s.clusters := rfl
@[simp] theorem State.setMemDie_walkers (s : State) (d : Nat) (x : MemDie) : (s.setMemDie d x).walkers = s.walkers := rfl
@[simp] theorem State.setMemDie_walks (s : State) (d : Nat) (x : MemDie) : (s.setMemDie d x).walks = s.walks := rfl
@[simp] theorem State.setMemDie_prefetches (s : State) (d : Nat) (x : MemDie) : (s.setMemDie d x).prefetches = s.prefetches := rfl
@[simp] theorem State.setMemDie_syncs (s : State) (d : Nat) (x : MemDie) : (s.setMemDie d x).syncs = s.syncs := rfl
@[simp] theorem State.setMemDie_ilog (s : State) (d : Nat) (x : MemDie) : (s.setMemDie d x).ilog = s.ilog := rfl
@[simp] theorem State.setMemDie_meshReplay (s : State) (d : Nat) (x : MemDie) : (s.setMemDie d x).meshReplay = s.meshReplay := rfl
@[simp] theorem State.setMemDie_secLeaves (s : State) (d : Nat) (x : MemDie) : (s.setMemDie d x).secLeaves = s.secLeaves := rfl
@[simp] theorem State.setMemDie_teams (s : State) (d : Nat) (x : MemDie) : (s.setMemDie d x).teams = s.teams := rfl
@[simp] theorem State.setMemDie_launches (s : State) (d : Nat) (x : MemDie) : (s.setMemDie d x).launches = s.launches := rfl
@[simp] theorem State.setMemDie_experts (s : State) (d : Nat) (x : MemDie) : (s.setMemDie d x).experts = s.experts := rfl
@[simp] theorem State.setMemDie_msgs (s : State) (d : Nat) (x : MemDie) : (s.setMemDie d x).msgs = s.msgs := rfl
@[simp] theorem State.setMemDie_bars (s : State) (d : Nat) (x : MemDie) : (s.setMemDie d x).bars = s.bars := rfl
@[simp] theorem State.setMemDie_links (s : State) (d : Nat) (x : MemDie) : (s.setMemDie d x).links = s.links := rfl
@[simp] theorem State.setMemDie_merges (s : State) (d : Nat) (x : MemDie) : (s.setMemDie d x).merges = s.merges := rfl
@[simp] theorem State.setMemDie_relays (s : State) (d : Nat) (x : MemDie) : (s.setMemDie d x).relays = s.relays := rfl
@[simp] theorem State.setMemDie_farTokens (s : State) (d : Nat) (x : MemDie) : (s.setMemDie d x).farTokens = s.farTokens := rfl
@[simp] theorem State.setMemDie_routed (s : State) (d : Nat) (x : MemDie) : (s.setMemDie d x).routed = s.routed := rfl
@[simp] theorem State.setMemDie_queues (s : State) (d : Nat) (x : MemDie) : (s.setMemDie d x).queues = s.queues := rfl
@[simp] theorem State.setMemDie_mailboxes (s : State) (d : Nat) (x : MemDie) : (s.setMemDie d x).mailboxes = s.mailboxes := rfl
@[simp] theorem State.setMemDie_lreqs (s : State) (d : Nat) (x : MemDie) : (s.setMemDie d x).lreqs = s.lreqs := rfl
@[simp] theorem State.setMemDie_classQ (s : State) (d : Nat) (x : MemDie) : (s.setMemDie d x).classQ = s.classQ := rfl
@[simp] theorem State.setMemDie_backlog (s : State) (d : Nat) (x : MemDie) : (s.setMemDie d x).backlog = s.backlog := rfl
@[simp] theorem State.setMemDie_leftWrites (s : State) (d : Nat) (x : MemDie) : (s.setMemDie d x).leftWrites = s.leftWrites := rfl
@[simp] theorem State.setMemDie_recs (s : State) (d : Nat) (x : MemDie) : (s.setMemDie d x).recs = s.recs := rfl
@[simp] theorem State.setMemDie_waitLaunch (s : State) (d : Nat) (x : MemDie) : (s.setMemDie d x).waitLaunch = s.waitLaunch := rfl
@[simp] theorem State.setMemDie_history (s : State) (d : Nat) (x : MemDie) : (s.setMemDie d x).history = s.history := rfl
@[simp] theorem State.setMemDie_coalesce (s : State) (d : Nat) (x : MemDie) : (s.setMemDie d x).coalesce = s.coalesce := rfl
@[simp] theorem State.setMemDie_regs (s : State) (d : Nat) (x : MemDie) : (s.setMemDie d x).regs = s.regs := rfl
@[simp] theorem State.setMemDie_dieRegs (s : State) (d : Nat) (x : MemDie) : (s.setMemDie d x).dieRegs = s.dieRegs := rfl
@[simp] theorem State.setMemDie_routes (s : State) (d : Nat) (x : MemDie) : (s.setMemDie d x).routes = s.routes := rfl
@[simp] theorem State.setMemDie_nextLid (s : State) (d : Nat) (x : MemDie) : (s.setMemDie d x).nextLid = s.nextLid := rfl
@[simp] theorem State.setMemDie_nextTeam (s : State) (d : Nat) (x : MemDie) : (s.setMemDie d x).nextTeam = s.nextTeam := rfl
@[simp] theorem State.setMemDie_nextEp (s : State) (d : Nat) (x : MemDie) : (s.setMemDie d x).nextEp = s.nextEp := rfl
@[simp] theorem State.setMemDie_nextMsg (s : State) (d : Nat) (x : MemDie) : (s.setMemDie d x).nextMsg = s.nextMsg := rfl
@[simp] theorem State.setMemDie_nextAcc (s : State) (d : Nat) (x : MemDie) : (s.setMemDie d x).nextAcc = s.nextAcc := rfl
@[simp] theorem State.setMemDie_nextReq (s : State) (d : Nat) (x : MemDie) : (s.setMemDie d x).nextReq = s.nextReq := rfl
@[simp] theorem State.setMemDie_dir (s : State) (d : Nat) (x : MemDie) : (s.setMemDie d x).dir = s.dir := rfl
@[simp] theorem State.setMemDie_svcMsgs (s : State) (d : Nat) (x : MemDie) : (s.setMemDie d x).svcMsgs = s.svcMsgs := rfl
@[simp] theorem State.setMemDie_events (s : State) (d : Nat) (x : MemDie) : (s.setMemDie d x).events = s.events := rfl
@[simp] theorem State.setMemDie_outs (s : State) (d : Nat) (x : MemDie) : (s.setMemDie d x).outs = s.outs := rfl
@[simp] theorem State.setMemDie_lastExit (s : State) (d : Nat) (x : MemDie) : (s.setMemDie d x).lastExit = s.lastExit := rfl
@[simp] theorem State.setMemDie_migDie (s : State) (d : Nat) (x : MemDie) : (s.setMemDie d x).migDie = s.migDie := rfl
@[simp] theorem State.setMemDie_twinH (s : State) (d : Nat) (x : MemDie) : (s.setMemDie d x).twinH = s.twinH := rfl
@[simp] theorem State.setMemDie_twinWait (s : State) (d : Nat) (x : MemDie) : (s.setMemDie d x).twinWait = s.twinWait := rfl

/-! ### modMemDie -/

@[simp] theorem State.modMemDie_phys (s : State) (d : Nat) (f : MemDie → MemDie) : (s.modMemDie d f).phys = s.phys := rfl
@[simp] theorem State.modMemDie_mgmt (s : State) (d : Nat) (f : MemDie → MemDie) : (s.modMemDie d f).mgmt = s.mgmt := rfl
@[simp] theorem State.modMemDie_cycles (s : State) (d : Nat) (f : MemDie → MemDie) : (s.modMemDie d f).cycles = s.cycles := rfl
@[simp] theorem State.modMemDie_free (s : State) (d : Nat) (f : MemDie → MemDie) : (s.modMemDie d f).free = s.free := rfl
@[simp] theorem State.modMemDie_queue (s : State) (d : Nat) (f : MemDie → MemDie) : (s.modMemDie d f).queue = s.queue := rfl
@[simp] theorem State.modMemDie_cur (s : State) (d : Nat) (f : MemDie → MemDie) : (s.modMemDie d f).cur = s.cur := rfl
@[simp] theorem State.modMemDie_last (s : State) (d : Nat) (f : MemDie → MemDie) : (s.modMemDie d f).last = s.last := rfl
@[simp] theorem State.modMemDie_mem (s : State) (d : Nat) (f : MemDie → MemDie) : (s.modMemDie d f).mem = s.mem := rfl
@[simp] theorem State.modMemDie_poison (s : State) (d : Nat) (f : MemDie → MemDie) : (s.modMemDie d f).poison = s.poison := rfl
@[simp] theorem State.modMemDie_codeErr (s : State) (d : Nat) (f : MemDie → MemDie) : (s.modMemDie d f).codeErr = s.codeErr := rfl
@[simp] theorem State.modMemDie_redSlots (s : State) (d : Nat) (f : MemDie → MemDie) : (s.modMemDie d f).redSlots = s.redSlots := rfl
@[simp] theorem State.modMemDie_procs (s : State) (d : Nat) (f : MemDie → MemDie) : (s.modMemDie d f).procs = s.procs := rfl
@[simp] theorem State.modMemDie_clusters (s : State) (d : Nat) (f : MemDie → MemDie) : (s.modMemDie d f).clusters = s.clusters := rfl
@[simp] theorem State.modMemDie_walkers (s : State) (d : Nat) (f : MemDie → MemDie) : (s.modMemDie d f).walkers = s.walkers := rfl
@[simp] theorem State.modMemDie_walks (s : State) (d : Nat) (f : MemDie → MemDie) : (s.modMemDie d f).walks = s.walks := rfl
@[simp] theorem State.modMemDie_prefetches (s : State) (d : Nat) (f : MemDie → MemDie) : (s.modMemDie d f).prefetches = s.prefetches := rfl
@[simp] theorem State.modMemDie_syncs (s : State) (d : Nat) (f : MemDie → MemDie) : (s.modMemDie d f).syncs = s.syncs := rfl
@[simp] theorem State.modMemDie_ilog (s : State) (d : Nat) (f : MemDie → MemDie) : (s.modMemDie d f).ilog = s.ilog := rfl
@[simp] theorem State.modMemDie_meshReplay (s : State) (d : Nat) (f : MemDie → MemDie) : (s.modMemDie d f).meshReplay = s.meshReplay := rfl
@[simp] theorem State.modMemDie_secLeaves (s : State) (d : Nat) (f : MemDie → MemDie) : (s.modMemDie d f).secLeaves = s.secLeaves := rfl
@[simp] theorem State.modMemDie_teams (s : State) (d : Nat) (f : MemDie → MemDie) : (s.modMemDie d f).teams = s.teams := rfl
@[simp] theorem State.modMemDie_launches (s : State) (d : Nat) (f : MemDie → MemDie) : (s.modMemDie d f).launches = s.launches := rfl
@[simp] theorem State.modMemDie_experts (s : State) (d : Nat) (f : MemDie → MemDie) : (s.modMemDie d f).experts = s.experts := rfl
@[simp] theorem State.modMemDie_msgs (s : State) (d : Nat) (f : MemDie → MemDie) : (s.modMemDie d f).msgs = s.msgs := rfl
@[simp] theorem State.modMemDie_bars (s : State) (d : Nat) (f : MemDie → MemDie) : (s.modMemDie d f).bars = s.bars := rfl
@[simp] theorem State.modMemDie_links (s : State) (d : Nat) (f : MemDie → MemDie) : (s.modMemDie d f).links = s.links := rfl
@[simp] theorem State.modMemDie_merges (s : State) (d : Nat) (f : MemDie → MemDie) : (s.modMemDie d f).merges = s.merges := rfl
@[simp] theorem State.modMemDie_relays (s : State) (d : Nat) (f : MemDie → MemDie) : (s.modMemDie d f).relays = s.relays := rfl
@[simp] theorem State.modMemDie_farTokens (s : State) (d : Nat) (f : MemDie → MemDie) : (s.modMemDie d f).farTokens = s.farTokens := rfl
@[simp] theorem State.modMemDie_routed (s : State) (d : Nat) (f : MemDie → MemDie) : (s.modMemDie d f).routed = s.routed := rfl
@[simp] theorem State.modMemDie_queues (s : State) (d : Nat) (f : MemDie → MemDie) : (s.modMemDie d f).queues = s.queues := rfl
@[simp] theorem State.modMemDie_mailboxes (s : State) (d : Nat) (f : MemDie → MemDie) : (s.modMemDie d f).mailboxes = s.mailboxes := rfl
@[simp] theorem State.modMemDie_lreqs (s : State) (d : Nat) (f : MemDie → MemDie) : (s.modMemDie d f).lreqs = s.lreqs := rfl
@[simp] theorem State.modMemDie_classQ (s : State) (d : Nat) (f : MemDie → MemDie) : (s.modMemDie d f).classQ = s.classQ := rfl
@[simp] theorem State.modMemDie_backlog (s : State) (d : Nat) (f : MemDie → MemDie) : (s.modMemDie d f).backlog = s.backlog := rfl
@[simp] theorem State.modMemDie_leftWrites (s : State) (d : Nat) (f : MemDie → MemDie) : (s.modMemDie d f).leftWrites = s.leftWrites := rfl
@[simp] theorem State.modMemDie_recs (s : State) (d : Nat) (f : MemDie → MemDie) : (s.modMemDie d f).recs = s.recs := rfl
@[simp] theorem State.modMemDie_waitLaunch (s : State) (d : Nat) (f : MemDie → MemDie) : (s.modMemDie d f).waitLaunch = s.waitLaunch := rfl
@[simp] theorem State.modMemDie_history (s : State) (d : Nat) (f : MemDie → MemDie) : (s.modMemDie d f).history = s.history := rfl
@[simp] theorem State.modMemDie_coalesce (s : State) (d : Nat) (f : MemDie → MemDie) : (s.modMemDie d f).coalesce = s.coalesce := rfl
@[simp] theorem State.modMemDie_regs (s : State) (d : Nat) (f : MemDie → MemDie) : (s.modMemDie d f).regs = s.regs := rfl
@[simp] theorem State.modMemDie_dieRegs (s : State) (d : Nat) (f : MemDie → MemDie) : (s.modMemDie d f).dieRegs = s.dieRegs := rfl
@[simp] theorem State.modMemDie_routes (s : State) (d : Nat) (f : MemDie → MemDie) : (s.modMemDie d f).routes = s.routes := rfl
@[simp] theorem State.modMemDie_nextLid (s : State) (d : Nat) (f : MemDie → MemDie) : (s.modMemDie d f).nextLid = s.nextLid := rfl
@[simp] theorem State.modMemDie_nextTeam (s : State) (d : Nat) (f : MemDie → MemDie) : (s.modMemDie d f).nextTeam = s.nextTeam := rfl
@[simp] theorem State.modMemDie_nextEp (s : State) (d : Nat) (f : MemDie → MemDie) : (s.modMemDie d f).nextEp = s.nextEp := rfl
@[simp] theorem State.modMemDie_nextMsg (s : State) (d : Nat) (f : MemDie → MemDie) : (s.modMemDie d f).nextMsg = s.nextMsg := rfl
@[simp] theorem State.modMemDie_nextAcc (s : State) (d : Nat) (f : MemDie → MemDie) : (s.modMemDie d f).nextAcc = s.nextAcc := rfl
@[simp] theorem State.modMemDie_nextReq (s : State) (d : Nat) (f : MemDie → MemDie) : (s.modMemDie d f).nextReq = s.nextReq := rfl
@[simp] theorem State.modMemDie_dir (s : State) (d : Nat) (f : MemDie → MemDie) : (s.modMemDie d f).dir = s.dir := rfl
@[simp] theorem State.modMemDie_svcMsgs (s : State) (d : Nat) (f : MemDie → MemDie) : (s.modMemDie d f).svcMsgs = s.svcMsgs := rfl
@[simp] theorem State.modMemDie_events (s : State) (d : Nat) (f : MemDie → MemDie) : (s.modMemDie d f).events = s.events := rfl
@[simp] theorem State.modMemDie_outs (s : State) (d : Nat) (f : MemDie → MemDie) : (s.modMemDie d f).outs = s.outs := rfl
@[simp] theorem State.modMemDie_lastExit (s : State) (d : Nat) (f : MemDie → MemDie) : (s.modMemDie d f).lastExit = s.lastExit := rfl
@[simp] theorem State.modMemDie_migDie (s : State) (d : Nat) (f : MemDie → MemDie) : (s.modMemDie d f).migDie = s.migDie := rfl
@[simp] theorem State.modMemDie_twinH (s : State) (d : Nat) (f : MemDie → MemDie) : (s.modMemDie d f).twinH = s.twinH := rfl
@[simp] theorem State.modMemDie_twinWait (s : State) (d : Nat) (f : MemDie → MemDie) : (s.modMemDie d f).twinWait = s.twinWait := rfl

/-! ### modTeam -/

@[simp] theorem State.modTeam_phys (s : State) (t : Nat) (f : Team → Team) : (s.modTeam t f).phys = s.phys := rfl
@[simp] theorem State.modTeam_mgmt (s : State) (t : Nat) (f : Team → Team) : (s.modTeam t f).mgmt = s.mgmt := rfl
@[simp] theorem State.modTeam_cycles (s : State) (t : Nat) (f : Team → Team) : (s.modTeam t f).cycles = s.cycles := rfl
@[simp] theorem State.modTeam_queue (s : State) (t : Nat) (f : Team → Team) : (s.modTeam t f).queue = s.queue := rfl
@[simp] theorem State.modTeam_cur (s : State) (t : Nat) (f : Team → Team) : (s.modTeam t f).cur = s.cur := rfl
@[simp] theorem State.modTeam_mem (s : State) (t : Nat) (f : Team → Team) : (s.modTeam t f).mem = s.mem := rfl
@[simp] theorem State.modTeam_poison (s : State) (t : Nat) (f : Team → Team) : (s.modTeam t f).poison = s.poison := rfl
@[simp] theorem State.modTeam_codeErr (s : State) (t : Nat) (f : Team → Team) : (s.modTeam t f).codeErr = s.codeErr := rfl
@[simp] theorem State.modTeam_procs (s : State) (t : Nat) (f : Team → Team) : (s.modTeam t f).procs = s.procs := rfl
@[simp] theorem State.modTeam_clusters (s : State) (t : Nat) (f : Team → Team) : (s.modTeam t f).clusters = s.clusters := rfl
@[simp] theorem State.modTeam_memdies (s : State) (t : Nat) (f : Team → Team) : (s.modTeam t f).memdies = s.memdies := rfl
@[simp] theorem State.modTeam_launches (s : State) (t : Nat) (f : Team → Team) : (s.modTeam t f).launches = s.launches := rfl
@[simp] theorem State.modTeam_experts (s : State) (t : Nat) (f : Team → Team) : (s.modTeam t f).experts = s.experts := rfl
@[simp] theorem State.modTeam_msgs (s : State) (t : Nat) (f : Team → Team) : (s.modTeam t f).msgs = s.msgs := rfl
@[simp] theorem State.modTeam_bars (s : State) (t : Nat) (f : Team → Team) : (s.modTeam t f).bars = s.bars := rfl
@[simp] theorem State.modTeam_regs (s : State) (t : Nat) (f : Team → Team) : (s.modTeam t f).regs = s.regs := rfl
@[simp] theorem State.modTeam_dieRegs (s : State) (t : Nat) (f : Team → Team) : (s.modTeam t f).dieRegs = s.dieRegs := rfl
@[simp] theorem State.modTeam_outs (s : State) (t : Nat) (f : Team → Team) : (s.modTeam t f).outs = s.outs := rfl

/-! ### modLaunch -/

@[simp] theorem State.modLaunch_phys (s : State) (l : Nat) (f : Launch → Launch) : (s.modLaunch l f).phys = s.phys := rfl
@[simp] theorem State.modLaunch_mgmt (s : State) (l : Nat) (f : Launch → Launch) : (s.modLaunch l f).mgmt = s.mgmt := rfl
@[simp] theorem State.modLaunch_cycles (s : State) (l : Nat) (f : Launch → Launch) : (s.modLaunch l f).cycles = s.cycles := rfl
@[simp] theorem State.modLaunch_queue (s : State) (l : Nat) (f : Launch → Launch) : (s.modLaunch l f).queue = s.queue := rfl
@[simp] theorem State.modLaunch_cur (s : State) (l : Nat) (f : Launch → Launch) : (s.modLaunch l f).cur = s.cur := rfl
@[simp] theorem State.modLaunch_mem (s : State) (l : Nat) (f : Launch → Launch) : (s.modLaunch l f).mem = s.mem := rfl
@[simp] theorem State.modLaunch_poison (s : State) (l : Nat) (f : Launch → Launch) : (s.modLaunch l f).poison = s.poison := rfl
@[simp] theorem State.modLaunch_codeErr (s : State) (l : Nat) (f : Launch → Launch) : (s.modLaunch l f).codeErr = s.codeErr := rfl
@[simp] theorem State.modLaunch_procs (s : State) (l : Nat) (f : Launch → Launch) : (s.modLaunch l f).procs = s.procs := rfl
@[simp] theorem State.modLaunch_clusters (s : State) (l : Nat) (f : Launch → Launch) : (s.modLaunch l f).clusters = s.clusters := rfl
@[simp] theorem State.modLaunch_memdies (s : State) (l : Nat) (f : Launch → Launch) : (s.modLaunch l f).memdies = s.memdies := rfl
@[simp] theorem State.modLaunch_teams (s : State) (l : Nat) (f : Launch → Launch) : (s.modLaunch l f).teams = s.teams := rfl
@[simp] theorem State.modLaunch_experts (s : State) (l : Nat) (f : Launch → Launch) : (s.modLaunch l f).experts = s.experts := rfl
@[simp] theorem State.modLaunch_msgs (s : State) (l : Nat) (f : Launch → Launch) : (s.modLaunch l f).msgs = s.msgs := rfl
@[simp] theorem State.modLaunch_bars (s : State) (l : Nat) (f : Launch → Launch) : (s.modLaunch l f).bars = s.bars := rfl
@[simp] theorem State.modLaunch_regs (s : State) (l : Nat) (f : Launch → Launch) : (s.modLaunch l f).regs = s.regs := rfl
@[simp] theorem State.modLaunch_dieRegs (s : State) (l : Nat) (f : Launch → Launch) : (s.modLaunch l f).dieRegs = s.dieRegs := rfl
@[simp] theorem State.modLaunch_outs (s : State) (l : Nat) (f : Launch → Launch) : (s.modLaunch l f).outs = s.outs := rfl

/-! ### modMsg -/

@[simp] theorem State.modMsg_phys (s : State) (m : Nat) (f : Msg → Msg) : (s.modMsg m f).phys = s.phys := rfl
@[simp] theorem State.modMsg_mgmt (s : State) (m : Nat) (f : Msg → Msg) : (s.modMsg m f).mgmt = s.mgmt := rfl
@[simp] theorem State.modMsg_cycles (s : State) (m : Nat) (f : Msg → Msg) : (s.modMsg m f).cycles = s.cycles := rfl
@[simp] theorem State.modMsg_queue (s : State) (m : Nat) (f : Msg → Msg) : (s.modMsg m f).queue = s.queue := rfl
@[simp] theorem State.modMsg_cur (s : State) (m : Nat) (f : Msg → Msg) : (s.modMsg m f).cur = s.cur := rfl
@[simp] theorem State.modMsg_mem (s : State) (m : Nat) (f : Msg → Msg) : (s.modMsg m f).mem = s.mem := rfl
@[simp] theorem State.modMsg_poison (s : State) (m : Nat) (f : Msg → Msg) : (s.modMsg m f).poison = s.poison := rfl
@[simp] theorem State.modMsg_codeErr (s : State) (m : Nat) (f : Msg → Msg) : (s.modMsg m f).codeErr = s.codeErr := rfl
@[simp] theorem State.modMsg_procs (s : State) (m : Nat) (f : Msg → Msg) : (s.modMsg m f).procs = s.procs := rfl
@[simp] theorem State.modMsg_clusters (s : State) (m : Nat) (f : Msg → Msg) : (s.modMsg m f).clusters = s.clusters := rfl
@[simp] theorem State.modMsg_memdies (s : State) (m : Nat) (f : Msg → Msg) : (s.modMsg m f).memdies = s.memdies := rfl
@[simp] theorem State.modMsg_teams (s : State) (m : Nat) (f : Msg → Msg) : (s.modMsg m f).teams = s.teams := rfl
@[simp] theorem State.modMsg_launches (s : State) (m : Nat) (f : Msg → Msg) : (s.modMsg m f).launches = s.launches := rfl
@[simp] theorem State.modMsg_experts (s : State) (m : Nat) (f : Msg → Msg) : (s.modMsg m f).experts = s.experts := rfl
@[simp] theorem State.modMsg_bars (s : State) (m : Nat) (f : Msg → Msg) : (s.modMsg m f).bars = s.bars := rfl
@[simp] theorem State.modMsg_regs (s : State) (m : Nat) (f : Msg → Msg) : (s.modMsg m f).regs = s.regs := rfl
@[simp] theorem State.modMsg_dieRegs (s : State) (m : Nat) (f : Msg → Msg) : (s.modMsg m f).dieRegs = s.dieRegs := rfl
@[simp] theorem State.modMsg_outs (s : State) (m : Nat) (f : Msg → Msg) : (s.modMsg m f).outs = s.outs := rfl

/-! ### modExpert -/

@[simp] theorem State.modExpert_phys (s : State) (x : Nat) (f : Expert → Expert) : (s.modExpert x f).phys = s.phys := rfl
@[simp] theorem State.modExpert_mgmt (s : State) (x : Nat) (f : Expert → Expert) : (s.modExpert x f).mgmt = s.mgmt := rfl
@[simp] theorem State.modExpert_cycles (s : State) (x : Nat) (f : Expert → Expert) : (s.modExpert x f).cycles = s.cycles := rfl
@[simp] theorem State.modExpert_queue (s : State) (x : Nat) (f : Expert → Expert) : (s.modExpert x f).queue = s.queue := rfl
@[simp] theorem State.modExpert_cur (s : State) (x : Nat) (f : Expert → Expert) : (s.modExpert x f).cur = s.cur := rfl
@[simp] theorem State.modExpert_mem (s : State) (x : Nat) (f : Expert → Expert) : (s.modExpert x f).mem = s.mem := rfl
@[simp] theorem State.modExpert_poison (s : State) (x : Nat) (f : Expert → Expert) : (s.modExpert x f).poison = s.poison := rfl
@[simp] theorem State.modExpert_codeErr (s : State) (x : Nat) (f : Expert → Expert) : (s.modExpert x f).codeErr = s.codeErr := rfl
@[simp] theorem State.modExpert_procs (s : State) (x : Nat) (f : Expert → Expert) : (s.modExpert x f).procs = s.procs := rfl
@[simp] theorem State.modExpert_clusters (s : State) (x : Nat) (f : Expert → Expert) : (s.modExpert x f).clusters = s.clusters := rfl
@[simp] theorem State.modExpert_memdies (s : State) (x : Nat) (f : Expert → Expert) : (s.modExpert x f).memdies = s.memdies := rfl
@[simp] theorem State.modExpert_teams (s : State) (x : Nat) (f : Expert → Expert) : (s.modExpert x f).teams = s.teams := rfl
@[simp] theorem State.modExpert_launches (s : State) (x : Nat) (f : Expert → Expert) : (s.modExpert x f).launches = s.launches := rfl
@[simp] theorem State.modExpert_msgs (s : State) (x : Nat) (f : Expert → Expert) : (s.modExpert x f).msgs = s.msgs := rfl
@[simp] theorem State.modExpert_bars (s : State) (x : Nat) (f : Expert → Expert) : (s.modExpert x f).bars = s.bars := rfl
@[simp] theorem State.modExpert_regs (s : State) (x : Nat) (f : Expert → Expert) : (s.modExpert x f).regs = s.regs := rfl
@[simp] theorem State.modExpert_dieRegs (s : State) (x : Nat) (f : Expert → Expert) : (s.modExpert x f).dieRegs = s.dieRegs := rfl
@[simp] theorem State.modExpert_outs (s : State) (x : Nat) (f : Expert → Expert) : (s.modExpert x f).outs = s.outs := rfl

/-! ### modBar -/

@[simp] theorem State.modBar_phys (s : State) (n : Nat) (f : Bar → Bar) : (s.modBar n f).phys = s.phys := rfl
@[simp] theorem State.modBar_mgmt (s : State) (n : Nat) (f : Bar → Bar) : (s.modBar n f).mgmt = s.mgmt := rfl
@[simp] theorem State.modBar_cycles (s : State) (n : Nat) (f : Bar → Bar) : (s.modBar n f).cycles = s.cycles := rfl
@[simp] theorem State.modBar_queue (s : State) (n : Nat) (f : Bar → Bar) : (s.modBar n f).queue = s.queue := rfl
@[simp] theorem State.modBar_cur (s : State) (n : Nat) (f : Bar → Bar) : (s.modBar n f).cur = s.cur := rfl
@[simp] theorem State.modBar_mem (s : State) (n : Nat) (f : Bar → Bar) : (s.modBar n f).mem = s.mem := rfl
@[simp] theorem State.modBar_poison (s : State) (n : Nat) (f : Bar → Bar) : (s.modBar n f).poison = s.poison := rfl
@[simp] theorem State.modBar_codeErr (s : State) (n : Nat) (f : Bar → Bar) : (s.modBar n f).codeErr = s.codeErr := rfl
@[simp] theorem State.modBar_procs (s : State) (n : Nat) (f : Bar → Bar) : (s.modBar n f).procs = s.procs := rfl
@[simp] theorem State.modBar_clusters (s : State) (n : Nat) (f : Bar → Bar) : (s.modBar n f).clusters = s.clusters := rfl
@[simp] theorem State.modBar_memdies (s : State) (n : Nat) (f : Bar → Bar) : (s.modBar n f).memdies = s.memdies := rfl
@[simp] theorem State.modBar_teams (s : State) (n : Nat) (f : Bar → Bar) : (s.modBar n f).teams = s.teams := rfl
@[simp] theorem State.modBar_launches (s : State) (n : Nat) (f : Bar → Bar) : (s.modBar n f).launches = s.launches := rfl
@[simp] theorem State.modBar_experts (s : State) (n : Nat) (f : Bar → Bar) : (s.modBar n f).experts = s.experts := rfl
@[simp] theorem State.modBar_msgs (s : State) (n : Nat) (f : Bar → Bar) : (s.modBar n f).msgs = s.msgs := rfl
@[simp] theorem State.modBar_regs (s : State) (n : Nat) (f : Bar → Bar) : (s.modBar n f).regs = s.regs := rfl
@[simp] theorem State.modBar_dieRegs (s : State) (n : Nat) (f : Bar → Bar) : (s.modBar n f).dieRegs = s.dieRegs := rfl
@[simp] theorem State.modBar_outs (s : State) (n : Nat) (f : Bar → Bar) : (s.modBar n f).outs = s.outs := rfl

/-! ### modLink -/

@[simp] theorem State.modLink_phys (s : State) (l : Nat) (f : Link → Link) : (s.modLink l f).phys = s.phys := rfl
@[simp] theorem State.modLink_mgmt (s : State) (l : Nat) (f : Link → Link) : (s.modLink l f).mgmt = s.mgmt := rfl
@[simp] theorem State.modLink_cycles (s : State) (l : Nat) (f : Link → Link) : (s.modLink l f).cycles = s.cycles := rfl
@[simp] theorem State.modLink_queue (s : State) (l : Nat) (f : Link → Link) : (s.modLink l f).queue = s.queue := rfl
@[simp] theorem State.modLink_cur (s : State) (l : Nat) (f : Link → Link) : (s.modLink l f).cur = s.cur := rfl
@[simp] theorem State.modLink_mem (s : State) (l : Nat) (f : Link → Link) : (s.modLink l f).mem = s.mem := rfl
@[simp] theorem State.modLink_poison (s : State) (l : Nat) (f : Link → Link) : (s.modLink l f).poison = s.poison := rfl
@[simp] theorem State.modLink_codeErr (s : State) (l : Nat) (f : Link → Link) : (s.modLink l f).codeErr = s.codeErr := rfl
@[simp] theorem State.modLink_procs (s : State) (l : Nat) (f : Link → Link) : (s.modLink l f).procs = s.procs := rfl
@[simp] theorem State.modLink_clusters (s : State) (l : Nat) (f : Link → Link) : (s.modLink l f).clusters = s.clusters := rfl
@[simp] theorem State.modLink_memdies (s : State) (l : Nat) (f : Link → Link) : (s.modLink l f).memdies = s.memdies := rfl
@[simp] theorem State.modLink_teams (s : State) (l : Nat) (f : Link → Link) : (s.modLink l f).teams = s.teams := rfl
@[simp] theorem State.modLink_launches (s : State) (l : Nat) (f : Link → Link) : (s.modLink l f).launches = s.launches := rfl
@[simp] theorem State.modLink_experts (s : State) (l : Nat) (f : Link → Link) : (s.modLink l f).experts = s.experts := rfl
@[simp] theorem State.modLink_msgs (s : State) (l : Nat) (f : Link → Link) : (s.modLink l f).msgs = s.msgs := rfl
@[simp] theorem State.modLink_bars (s : State) (l : Nat) (f : Link → Link) : (s.modLink l f).bars = s.bars := rfl
@[simp] theorem State.modLink_regs (s : State) (l : Nat) (f : Link → Link) : (s.modLink l f).regs = s.regs := rfl
@[simp] theorem State.modLink_dieRegs (s : State) (l : Nat) (f : Link → Link) : (s.modLink l f).dieRegs = s.dieRegs := rfl
@[simp] theorem State.modLink_outs (s : State) (l : Nat) (f : Link → Link) : (s.modLink l f).outs = s.outs := rfl

/-! ### sched -/

@[simp] theorem State.sched_phys (s : State) (d : Nat) (i : Instr) : (s.sched d i).phys = s.phys := rfl
@[simp] theorem State.sched_mgmt (s : State) (d : Nat) (i : Instr) : (s.sched d i).mgmt = s.mgmt := rfl
@[simp] theorem State.sched_cycles (s : State) (d : Nat) (i : Instr) : (s.sched d i).cycles = s.cycles := rfl
@[simp] theorem State.sched_free (s : State) (d : Nat) (i : Instr) : (s.sched d i).free = s.free := rfl
@[simp] theorem State.sched_cur (s : State) (d : Nat) (i : Instr) : (s.sched d i).cur = s.cur := rfl
@[simp] theorem State.sched_last (s : State) (d : Nat) (i : Instr) : (s.sched d i).last = s.last := rfl
@[simp] theorem State.sched_mem (s : State) (d : Nat) (i : Instr) : (s.sched d i).mem = s.mem := rfl
@[simp] theorem State.sched_poison (s : State) (d : Nat) (i : Instr) : (s.sched d i).poison = s.poison := rfl
@[simp] theorem State.sched_codeErr (s : State) (d : Nat) (i : Instr) : (s.sched d i).codeErr = s.codeErr := rfl
@[simp] theorem State.sched_redSlots (s : State) (d : Nat) (i : Instr) : (s.sched d i).redSlots = s.redSlots := rfl
@[simp] theorem State.sched_procs (s : State) (d : Nat) (i : Instr) : (s.sched d i).procs = s.procs := rfl
@[simp] theorem State.sched_clusters (s : State) (d : Nat) (i : Instr) : (s.sched d i).clusters = s.clusters := rfl
@[simp] theorem State.sched_memdies (s : State) (d : Nat) (i : Instr) : (s.sched d i).memdies = s.memdies := rfl
@[simp] theorem State.sched_walkers (s : State) (d : Nat) (i : Instr) : (s.sched d i).walkers = s.walkers := rfl
@[simp] theorem State.sched_walks (s : State) (d : Nat) (i : Instr) : (s.sched d i).walks = s.walks := rfl
@[simp] theorem State.sched_prefetches (s : State) (d : Nat) (i : Instr) : (s.sched d i).prefetches = s.prefetches := rfl
@[simp] theorem State.sched_syncs (s : State) (d : Nat) (i : Instr) : (s.sched d i).syncs = s.syncs := rfl
@[simp] theorem State.sched_ilog (s : State) (d : Nat) (i : Instr) : (s.sched d i).ilog = s.ilog := rfl
@[simp] theorem State.sched_meshReplay (s : State) (d : Nat) (i : Instr) : (s.sched d i).meshReplay = s.meshReplay := rfl
@[simp] theorem State.sched_secLeaves (s : State) (d : Nat) (i : Instr) : (s.sched d i).secLeaves = s.secLeaves := rfl
@[simp] theorem State.sched_teams (s : State) (d : Nat) (i : Instr) : (s.sched d i).teams = s.teams := rfl
@[simp] theorem State.sched_launches (s : State) (d : Nat) (i : Instr) : (s.sched d i).launches = s.launches := rfl
@[simp] theorem State.sched_experts (s : State) (d : Nat) (i : Instr) : (s.sched d i).experts = s.experts := rfl
@[simp] theorem State.sched_msgs (s : State) (d : Nat) (i : Instr) : (s.sched d i).msgs = s.msgs := rfl
@[simp] theorem State.sched_bars (s : State) (d : Nat) (i : Instr) : (s.sched d i).bars = s.bars := rfl
@[simp] theorem State.sched_links (s : State) (d : Nat) (i : Instr) : (s.sched d i).links = s.links := rfl
@[simp] theorem State.sched_merges (s : State) (d : Nat) (i : Instr) : (s.sched d i).merges = s.merges := rfl
@[simp] theorem State.sched_relays (s : State) (d : Nat) (i : Instr) : (s.sched d i).relays = s.relays := rfl
@[simp] theorem State.sched_farTokens (s : State) (d : Nat) (i : Instr) : (s.sched d i).farTokens = s.farTokens := rfl
@[simp] theorem State.sched_routed (s : State) (d : Nat) (i : Instr) : (s.sched d i).routed = s.routed := rfl
@[simp] theorem State.sched_queues (s : State) (d : Nat) (i : Instr) : (s.sched d i).queues = s.queues := rfl
@[simp] theorem State.sched_mailboxes (s : State) (d : Nat) (i : Instr) : (s.sched d i).mailboxes = s.mailboxes := rfl
@[simp] theorem State.sched_lreqs (s : State) (d : Nat) (i : Instr) : (s.sched d i).lreqs = s.lreqs := rfl
@[simp] theorem State.sched_classQ (s : State) (d : Nat) (i : Instr) : (s.sched d i).classQ = s.classQ := rfl
@[simp] theorem State.sched_backlog (s : State) (d : Nat) (i : Instr) : (s.sched d i).backlog = s.backlog := rfl
@[simp] theorem State.sched_leftWrites (s : State) (d : Nat) (i : Instr) : (s.sched d i).leftWrites = s.leftWrites := rfl
@[simp] theorem State.sched_recs (s : State) (d : Nat) (i : Instr) : (s.sched d i).recs = s.recs := rfl
@[simp] theorem State.sched_waitLaunch (s : State) (d : Nat) (i : Instr) : (s.sched d i).waitLaunch = s.waitLaunch := rfl
@[simp] theorem State.sched_history (s : State) (d : Nat) (i : Instr) : (s.sched d i).history = s.history := rfl
@[simp] theorem State.sched_coalesce (s : State) (d : Nat) (i : Instr) : (s.sched d i).coalesce = s.coalesce := rfl
@[simp] theorem State.sched_regs (s : State) (d : Nat) (i : Instr) : (s.sched d i).regs = s.regs := rfl
@[simp] theorem State.sched_dieRegs (s : State) (d : Nat) (i : Instr) : (s.sched d i).dieRegs = s.dieRegs := rfl
@[simp] theorem State.sched_routes (s : State) (d : Nat) (i : Instr) : (s.sched d i).routes = s.routes := rfl
@[simp] theorem State.sched_nextLid (s : State) (d : Nat) (i : Instr) : (s.sched d i).nextLid = s.nextLid := rfl
@[simp] theorem State.sched_nextTeam (s : State) (d : Nat) (i : Instr) : (s.sched d i).nextTeam = s.nextTeam := rfl
@[simp] theorem State.sched_nextEp (s : State) (d : Nat) (i : Instr) : (s.sched d i).nextEp = s.nextEp := rfl
@[simp] theorem State.sched_nextMsg (s : State) (d : Nat) (i : Instr) : (s.sched d i).nextMsg = s.nextMsg := rfl
@[simp] theorem State.sched_nextAcc (s : State) (d : Nat) (i : Instr) : (s.sched d i).nextAcc = s.nextAcc := rfl
@[simp] theorem State.sched_nextReq (s : State) (d : Nat) (i : Instr) : (s.sched d i).nextReq = s.nextReq := rfl
@[simp] theorem State.sched_dir (s : State) (d : Nat) (i : Instr) : (s.sched d i).dir = s.dir := rfl
@[simp] theorem State.sched_svcMsgs (s : State) (d : Nat) (i : Instr) : (s.sched d i).svcMsgs = s.svcMsgs := rfl
@[simp] theorem State.sched_events (s : State) (d : Nat) (i : Instr) : (s.sched d i).events = s.events := rfl
@[simp] theorem State.sched_outs (s : State) (d : Nat) (i : Instr) : (s.sched d i).outs = s.outs := rfl
@[simp] theorem State.sched_lastExit (s : State) (d : Nat) (i : Instr) : (s.sched d i).lastExit = s.lastExit := rfl
@[simp] theorem State.sched_migDie (s : State) (d : Nat) (i : Instr) : (s.sched d i).migDie = s.migDie := rfl
@[simp] theorem State.sched_twinH (s : State) (d : Nat) (i : Instr) : (s.sched d i).twinH = s.twinH := rfl
@[simp] theorem State.sched_twinWait (s : State) (d : Nat) (i : Instr) : (s.sched d i).twinWait = s.twinWait := rfl

/-! ### schedNs -/

@[simp] theorem State.schedNs_phys (s : State) (t : Nat) (i : Instr) : (s.schedNs t i).phys = s.phys := rfl
@[simp] theorem State.schedNs_mgmt (s : State) (t : Nat) (i : Instr) : (s.schedNs t i).mgmt = s.mgmt := rfl
@[simp] theorem State.schedNs_cycles (s : State) (t : Nat) (i : Instr) : (s.schedNs t i).cycles = s.cycles := rfl
@[simp] theorem State.schedNs_free (s : State) (t : Nat) (i : Instr) : (s.schedNs t i).free = s.free := rfl
@[simp] theorem State.schedNs_cur (s : State) (t : Nat) (i : Instr) : (s.schedNs t i).cur = s.cur := rfl
@[simp] theorem State.schedNs_last (s : State) (t : Nat) (i : Instr) : (s.schedNs t i).last = s.last := rfl
@[simp] theorem State.schedNs_mem (s : State) (t : Nat) (i : Instr) : (s.schedNs t i).mem = s.mem := rfl
@[simp] theorem State.schedNs_poison (s : State) (t : Nat) (i : Instr) : (s.schedNs t i).poison = s.poison := rfl
@[simp] theorem State.schedNs_codeErr (s : State) (t : Nat) (i : Instr) : (s.schedNs t i).codeErr = s.codeErr := rfl
@[simp] theorem State.schedNs_redSlots (s : State) (t : Nat) (i : Instr) : (s.schedNs t i).redSlots = s.redSlots := rfl
@[simp] theorem State.schedNs_procs (s : State) (t : Nat) (i : Instr) : (s.schedNs t i).procs = s.procs := rfl
@[simp] theorem State.schedNs_clusters (s : State) (t : Nat) (i : Instr) : (s.schedNs t i).clusters = s.clusters := rfl
@[simp] theorem State.schedNs_memdies (s : State) (t : Nat) (i : Instr) : (s.schedNs t i).memdies = s.memdies := rfl
@[simp] theorem State.schedNs_walkers (s : State) (t : Nat) (i : Instr) : (s.schedNs t i).walkers = s.walkers := rfl
@[simp] theorem State.schedNs_walks (s : State) (t : Nat) (i : Instr) : (s.schedNs t i).walks = s.walks := rfl
@[simp] theorem State.schedNs_prefetches (s : State) (t : Nat) (i : Instr) : (s.schedNs t i).prefetches = s.prefetches := rfl
@[simp] theorem State.schedNs_syncs (s : State) (t : Nat) (i : Instr) : (s.schedNs t i).syncs = s.syncs := rfl
@[simp] theorem State.schedNs_ilog (s : State) (t : Nat) (i : Instr) : (s.schedNs t i).ilog = s.ilog := rfl
@[simp] theorem State.schedNs_meshReplay (s : State) (t : Nat) (i : Instr) : (s.schedNs t i).meshReplay = s.meshReplay := rfl
@[simp] theorem State.schedNs_secLeaves (s : State) (t : Nat) (i : Instr) : (s.schedNs t i).secLeaves = s.secLeaves := rfl
@[simp] theorem State.schedNs_teams (s : State) (t : Nat) (i : Instr) : (s.schedNs t i).teams = s.teams := rfl
@[simp] theorem State.schedNs_launches (s : State) (t : Nat) (i : Instr) : (s.schedNs t i).launches = s.launches := rfl
@[simp] theorem State.schedNs_experts (s : State) (t : Nat) (i : Instr) : (s.schedNs t i).experts = s.experts := rfl
@[simp] theorem State.schedNs_msgs (s : State) (t : Nat) (i : Instr) : (s.schedNs t i).msgs = s.msgs := rfl
@[simp] theorem State.schedNs_bars (s : State) (t : Nat) (i : Instr) : (s.schedNs t i).bars = s.bars := rfl
@[simp] theorem State.schedNs_links (s : State) (t : Nat) (i : Instr) : (s.schedNs t i).links = s.links := rfl
@[simp] theorem State.schedNs_merges (s : State) (t : Nat) (i : Instr) : (s.schedNs t i).merges = s.merges := rfl
@[simp] theorem State.schedNs_relays (s : State) (t : Nat) (i : Instr) : (s.schedNs t i).relays = s.relays := rfl
@[simp] theorem State.schedNs_farTokens (s : State) (t : Nat) (i : Instr) : (s.schedNs t i).farTokens = s.farTokens := rfl
@[simp] theorem State.schedNs_routed (s : State) (t : Nat) (i : Instr) : (s.schedNs t i).routed = s.routed := rfl
@[simp] theorem State.schedNs_queues (s : State) (t : Nat) (i : Instr) : (s.schedNs t i).queues = s.queues := rfl
@[simp] theorem State.schedNs_mailboxes (s : State) (t : Nat) (i : Instr) : (s.schedNs t i).mailboxes = s.mailboxes := rfl
@[simp] theorem State.schedNs_lreqs (s : State) (t : Nat) (i : Instr) : (s.schedNs t i).lreqs = s.lreqs := rfl
@[simp] theorem State.schedNs_classQ (s : State) (t : Nat) (i : Instr) : (s.schedNs t i).classQ = s.classQ := rfl
@[simp] theorem State.schedNs_backlog (s : State) (t : Nat) (i : Instr) : (s.schedNs t i).backlog = s.backlog := rfl
@[simp] theorem State.schedNs_leftWrites (s : State) (t : Nat) (i : Instr) : (s.schedNs t i).leftWrites = s.leftWrites := rfl
@[simp] theorem State.schedNs_recs (s : State) (t : Nat) (i : Instr) : (s.schedNs t i).recs = s.recs := rfl
@[simp] theorem State.schedNs_waitLaunch (s : State) (t : Nat) (i : Instr) : (s.schedNs t i).waitLaunch = s.waitLaunch := rfl
@[simp] theorem State.schedNs_history (s : State) (t : Nat) (i : Instr) : (s.schedNs t i).history = s.history := rfl
@[simp] theorem State.schedNs_coalesce (s : State) (t : Nat) (i : Instr) : (s.schedNs t i).coalesce = s.coalesce := rfl
@[simp] theorem State.schedNs_regs (s : State) (t : Nat) (i : Instr) : (s.schedNs t i).regs = s.regs := rfl
@[simp] theorem State.schedNs_dieRegs (s : State) (t : Nat) (i : Instr) : (s.schedNs t i).dieRegs = s.dieRegs := rfl
@[simp] theorem State.schedNs_routes (s : State) (t : Nat) (i : Instr) : (s.schedNs t i).routes = s.routes := rfl
@[simp] theorem State.schedNs_nextLid (s : State) (t : Nat) (i : Instr) : (s.schedNs t i).nextLid = s.nextLid := rfl
@[simp] theorem State.schedNs_nextTeam (s : State) (t : Nat) (i : Instr) : (s.schedNs t i).nextTeam = s.nextTeam := rfl
@[simp] theorem State.schedNs_nextEp (s : State) (t : Nat) (i : Instr) : (s.schedNs t i).nextEp = s.nextEp := rfl
@[simp] theorem State.schedNs_nextMsg (s : State) (t : Nat) (i : Instr) : (s.schedNs t i).nextMsg = s.nextMsg := rfl
@[simp] theorem State.schedNs_nextAcc (s : State) (t : Nat) (i : Instr) : (s.schedNs t i).nextAcc = s.nextAcc := rfl
@[simp] theorem State.schedNs_nextReq (s : State) (t : Nat) (i : Instr) : (s.schedNs t i).nextReq = s.nextReq := rfl
@[simp] theorem State.schedNs_dir (s : State) (t : Nat) (i : Instr) : (s.schedNs t i).dir = s.dir := rfl
@[simp] theorem State.schedNs_svcMsgs (s : State) (t : Nat) (i : Instr) : (s.schedNs t i).svcMsgs = s.svcMsgs := rfl
@[simp] theorem State.schedNs_events (s : State) (t : Nat) (i : Instr) : (s.schedNs t i).events = s.events := rfl
@[simp] theorem State.schedNs_outs (s : State) (t : Nat) (i : Instr) : (s.schedNs t i).outs = s.outs := rfl
@[simp] theorem State.schedNs_lastExit (s : State) (t : Nat) (i : Instr) : (s.schedNs t i).lastExit = s.lastExit := rfl
@[simp] theorem State.schedNs_migDie (s : State) (t : Nat) (i : Instr) : (s.schedNs t i).migDie = s.migDie := rfl
@[simp] theorem State.schedNs_twinH (s : State) (t : Nat) (i : Instr) : (s.schedNs t i).twinH = s.twinH := rfl
@[simp] theorem State.schedNs_twinWait (s : State) (t : Nat) (i : Instr) : (s.schedNs t i).twinWait = s.twinWait := rfl

/-! ### setReg -/

@[simp] theorem State.setReg_phys (s : State) (n : Nat) (v : Word) : (s.setReg n v).phys = s.phys := rfl
@[simp] theorem State.setReg_mgmt (s : State) (n : Nat) (v : Word) : (s.setReg n v).mgmt = s.mgmt := rfl
@[simp] theorem State.setReg_cycles (s : State) (n : Nat) (v : Word) : (s.setReg n v).cycles = s.cycles := rfl
@[simp] theorem State.setReg_queue (s : State) (n : Nat) (v : Word) : (s.setReg n v).queue = s.queue := rfl
@[simp] theorem State.setReg_cur (s : State) (n : Nat) (v : Word) : (s.setReg n v).cur = s.cur := rfl
@[simp] theorem State.setReg_mem (s : State) (n : Nat) (v : Word) : (s.setReg n v).mem = s.mem := rfl
@[simp] theorem State.setReg_poison (s : State) (n : Nat) (v : Word) : (s.setReg n v).poison = s.poison := rfl
@[simp] theorem State.setReg_codeErr (s : State) (n : Nat) (v : Word) : (s.setReg n v).codeErr = s.codeErr := rfl
@[simp] theorem State.setReg_procs (s : State) (n : Nat) (v : Word) : (s.setReg n v).procs = s.procs := rfl
@[simp] theorem State.setReg_clusters (s : State) (n : Nat) (v : Word) : (s.setReg n v).clusters = s.clusters := rfl
@[simp] theorem State.setReg_memdies (s : State) (n : Nat) (v : Word) : (s.setReg n v).memdies = s.memdies := rfl
@[simp] theorem State.setReg_teams (s : State) (n : Nat) (v : Word) : (s.setReg n v).teams = s.teams := rfl
@[simp] theorem State.setReg_launches (s : State) (n : Nat) (v : Word) : (s.setReg n v).launches = s.launches := rfl
@[simp] theorem State.setReg_experts (s : State) (n : Nat) (v : Word) : (s.setReg n v).experts = s.experts := rfl
@[simp] theorem State.setReg_msgs (s : State) (n : Nat) (v : Word) : (s.setReg n v).msgs = s.msgs := rfl
@[simp] theorem State.setReg_bars (s : State) (n : Nat) (v : Word) : (s.setReg n v).bars = s.bars := rfl
@[simp] theorem State.setReg_dieRegs (s : State) (n : Nat) (v : Word) : (s.setReg n v).dieRegs = s.dieRegs := rfl
@[simp] theorem State.setReg_outs (s : State) (n : Nat) (v : Word) : (s.setReg n v).outs = s.outs := rfl

/-! ### setClReg -/

@[simp] theorem State.setClReg_phys (s : State) (cl n : Nat) (v : Word) : (s.setClReg cl n v).phys = s.phys := rfl
@[simp] theorem State.setClReg_mgmt (s : State) (cl n : Nat) (v : Word) : (s.setClReg cl n v).mgmt = s.mgmt := rfl
@[simp] theorem State.setClReg_cycles (s : State) (cl n : Nat) (v : Word) : (s.setClReg cl n v).cycles = s.cycles := rfl
@[simp] theorem State.setClReg_queue (s : State) (cl n : Nat) (v : Word) : (s.setClReg cl n v).queue = s.queue := rfl
@[simp] theorem State.setClReg_cur (s : State) (cl n : Nat) (v : Word) : (s.setClReg cl n v).cur = s.cur := rfl
@[simp] theorem State.setClReg_mem (s : State) (cl n : Nat) (v : Word) : (s.setClReg cl n v).mem = s.mem := rfl
@[simp] theorem State.setClReg_poison (s : State) (cl n : Nat) (v : Word) : (s.setClReg cl n v).poison = s.poison := rfl
@[simp] theorem State.setClReg_codeErr (s : State) (cl n : Nat) (v : Word) : (s.setClReg cl n v).codeErr = s.codeErr := rfl
@[simp] theorem State.setClReg_procs (s : State) (cl n : Nat) (v : Word) : (s.setClReg cl n v).procs = s.procs := rfl
@[simp] theorem State.setClReg_memdies (s : State) (cl n : Nat) (v : Word) : (s.setClReg cl n v).memdies = s.memdies := rfl
@[simp] theorem State.setClReg_teams (s : State) (cl n : Nat) (v : Word) : (s.setClReg cl n v).teams = s.teams := rfl
@[simp] theorem State.setClReg_launches (s : State) (cl n : Nat) (v : Word) : (s.setClReg cl n v).launches = s.launches := rfl
@[simp] theorem State.setClReg_experts (s : State) (cl n : Nat) (v : Word) : (s.setClReg cl n v).experts = s.experts := rfl
@[simp] theorem State.setClReg_msgs (s : State) (cl n : Nat) (v : Word) : (s.setClReg cl n v).msgs = s.msgs := rfl
@[simp] theorem State.setClReg_bars (s : State) (cl n : Nat) (v : Word) : (s.setClReg cl n v).bars = s.bars := rfl
@[simp] theorem State.setClReg_regs (s : State) (cl n : Nat) (v : Word) : (s.setClReg cl n v).regs = s.regs := rfl
@[simp] theorem State.setClReg_dieRegs (s : State) (cl n : Nat) (v : Word) : (s.setClReg cl n v).dieRegs = s.dieRegs := rfl
@[simp] theorem State.setClReg_outs (s : State) (cl n : Nat) (v : Word) : (s.setClReg cl n v).outs = s.outs := rfl

/-! ### countCore -/

@[simp] theorem State.countCore_phys (s : State) (cl core n : Nat) : (s.countCore cl core n).phys = s.phys := rfl
@[simp] theorem State.countCore_mgmt (s : State) (cl core n : Nat) : (s.countCore cl core n).mgmt = s.mgmt := rfl
@[simp] theorem State.countCore_cycles (s : State) (cl core n : Nat) : (s.countCore cl core n).cycles = s.cycles := rfl
@[simp] theorem State.countCore_queue (s : State) (cl core n : Nat) : (s.countCore cl core n).queue = s.queue := rfl
@[simp] theorem State.countCore_cur (s : State) (cl core n : Nat) : (s.countCore cl core n).cur = s.cur := rfl
@[simp] theorem State.countCore_mem (s : State) (cl core n : Nat) : (s.countCore cl core n).mem = s.mem := rfl
@[simp] theorem State.countCore_poison (s : State) (cl core n : Nat) : (s.countCore cl core n).poison = s.poison := rfl
@[simp] theorem State.countCore_codeErr (s : State) (cl core n : Nat) : (s.countCore cl core n).codeErr = s.codeErr := rfl
@[simp] theorem State.countCore_procs (s : State) (cl core n : Nat) : (s.countCore cl core n).procs = s.procs := rfl
@[simp] theorem State.countCore_memdies (s : State) (cl core n : Nat) : (s.countCore cl core n).memdies = s.memdies := rfl
@[simp] theorem State.countCore_teams (s : State) (cl core n : Nat) : (s.countCore cl core n).teams = s.teams := rfl
@[simp] theorem State.countCore_launches (s : State) (cl core n : Nat) : (s.countCore cl core n).launches = s.launches := rfl
@[simp] theorem State.countCore_experts (s : State) (cl core n : Nat) : (s.countCore cl core n).experts = s.experts := rfl
@[simp] theorem State.countCore_msgs (s : State) (cl core n : Nat) : (s.countCore cl core n).msgs = s.msgs := rfl
@[simp] theorem State.countCore_bars (s : State) (cl core n : Nat) : (s.countCore cl core n).bars = s.bars := rfl
@[simp] theorem State.countCore_regs (s : State) (cl core n : Nat) : (s.countCore cl core n).regs = s.regs := rfl
@[simp] theorem State.countCore_dieRegs (s : State) (cl core n : Nat) : (s.countCore cl core n).dieRegs = s.dieRegs := rfl
@[simp] theorem State.countCore_outs (s : State) (cl core n : Nat) : (s.countCore cl core n).outs = s.outs := rfl

/-! ### countCluster -/

@[simp] theorem State.countCluster_phys (s : State) (cl n : Nat) : (s.countCluster cl n).phys = s.phys := rfl
@[simp] theorem State.countCluster_mgmt (s : State) (cl n : Nat) : (s.countCluster cl n).mgmt = s.mgmt := rfl
@[simp] theorem State.countCluster_cycles (s : State) (cl n : Nat) : (s.countCluster cl n).cycles = s.cycles := rfl
@[simp] theorem State.countCluster_queue (s : State) (cl n : Nat) : (s.countCluster cl n).queue = s.queue := rfl
@[simp] theorem State.countCluster_cur (s : State) (cl n : Nat) : (s.countCluster cl n).cur = s.cur := rfl
@[simp] theorem State.countCluster_mem (s : State) (cl n : Nat) : (s.countCluster cl n).mem = s.mem := rfl
@[simp] theorem State.countCluster_poison (s : State) (cl n : Nat) : (s.countCluster cl n).poison = s.poison := rfl
@[simp] theorem State.countCluster_codeErr (s : State) (cl n : Nat) : (s.countCluster cl n).codeErr = s.codeErr := rfl
@[simp] theorem State.countCluster_procs (s : State) (cl n : Nat) : (s.countCluster cl n).procs = s.procs := rfl
@[simp] theorem State.countCluster_memdies (s : State) (cl n : Nat) : (s.countCluster cl n).memdies = s.memdies := rfl
@[simp] theorem State.countCluster_teams (s : State) (cl n : Nat) : (s.countCluster cl n).teams = s.teams := rfl
@[simp] theorem State.countCluster_launches (s : State) (cl n : Nat) : (s.countCluster cl n).launches = s.launches := rfl
@[simp] theorem State.countCluster_experts (s : State) (cl n : Nat) : (s.countCluster cl n).experts = s.experts := rfl
@[simp] theorem State.countCluster_msgs (s : State) (cl n : Nat) : (s.countCluster cl n).msgs = s.msgs := rfl
@[simp] theorem State.countCluster_bars (s : State) (cl n : Nat) : (s.countCluster cl n).bars = s.bars := rfl
@[simp] theorem State.countCluster_regs (s : State) (cl n : Nat) : (s.countCluster cl n).regs = s.regs := rfl
@[simp] theorem State.countCluster_dieRegs (s : State) (cl n : Nat) : (s.countCluster cl n).dieRegs = s.dieRegs := rfl
@[simp] theorem State.countCluster_outs (s : State) (cl n : Nat) : (s.countCluster cl n).outs = s.outs := rfl

/-! ### countDevice -/

@[simp] theorem State.countDevice_phys (s : State) (n : Nat) : (s.countDevice n).phys = s.phys := rfl
@[simp] theorem State.countDevice_mgmt (s : State) (n : Nat) : (s.countDevice n).mgmt = s.mgmt := rfl
@[simp] theorem State.countDevice_cycles (s : State) (n : Nat) : (s.countDevice n).cycles = s.cycles := rfl
@[simp] theorem State.countDevice_queue (s : State) (n : Nat) : (s.countDevice n).queue = s.queue := rfl
@[simp] theorem State.countDevice_cur (s : State) (n : Nat) : (s.countDevice n).cur = s.cur := rfl
@[simp] theorem State.countDevice_mem (s : State) (n : Nat) : (s.countDevice n).mem = s.mem := rfl
@[simp] theorem State.countDevice_poison (s : State) (n : Nat) : (s.countDevice n).poison = s.poison := rfl
@[simp] theorem State.countDevice_codeErr (s : State) (n : Nat) : (s.countDevice n).codeErr = s.codeErr := rfl
@[simp] theorem State.countDevice_procs (s : State) (n : Nat) : (s.countDevice n).procs = s.procs := rfl
@[simp] theorem State.countDevice_clusters (s : State) (n : Nat) : (s.countDevice n).clusters = s.clusters := rfl
@[simp] theorem State.countDevice_memdies (s : State) (n : Nat) : (s.countDevice n).memdies = s.memdies := rfl
@[simp] theorem State.countDevice_teams (s : State) (n : Nat) : (s.countDevice n).teams = s.teams := rfl
@[simp] theorem State.countDevice_launches (s : State) (n : Nat) : (s.countDevice n).launches = s.launches := rfl
@[simp] theorem State.countDevice_experts (s : State) (n : Nat) : (s.countDevice n).experts = s.experts := rfl
@[simp] theorem State.countDevice_msgs (s : State) (n : Nat) : (s.countDevice n).msgs = s.msgs := rfl
@[simp] theorem State.countDevice_bars (s : State) (n : Nat) : (s.countDevice n).bars = s.bars := rfl
@[simp] theorem State.countDevice_regs (s : State) (n : Nat) : (s.countDevice n).regs = s.regs := rfl
@[simp] theorem State.countDevice_dieRegs (s : State) (n : Nat) : (s.countDevice n).dieRegs = s.dieRegs := rfl
@[simp] theorem State.countDevice_outs (s : State) (n : Nat) : (s.countDevice n).outs = s.outs := rfl

/-! ### Reading back -/

theorem State.proc?_setProc (s : State) (p q : Pid) (x : Proc) :
    (s.setProc p x).proc? q = if q = p then some x else s.proc? q := Tab.get?_put p q x s.procs

@[simp] theorem State.proc?_setProc_self (s : State) (p : Pid) (x : Proc) : (s.setProc p x).proc? p = some x := by
  simp [State.proc?_setProc]

theorem State.proc?_setProc_ne (s : State) {p q : Pid} (x : Proc) (h : q ≠ p) : (s.setProc p x).proc? q = s.proc? q := by
  simp [State.proc?_setProc, h]

theorem State.proc?_modProc (s : State) (p q : Pid) (f : Proc → Proc) :
    (s.modProc p f).proc? q = if q = p then (s.proc? q).map f else s.proc? q := Tab.get?_modify p q f s.procs

@[simp] theorem State.proc?_setCluster (s : State) (c : Nat) (x : Cluster) (q : Pid) : (s.setCluster c x).proc? q = s.proc? q := rfl
@[simp] theorem State.proc?_modCluster (s : State) (c : Nat) (f : Cluster → Cluster) (q : Pid) : (s.modCluster c f).proc? q = s.proc? q := rfl
@[simp] theorem State.proc?_setMemDie (s : State) (d : Nat) (x : MemDie) (q : Pid) : (s.setMemDie d x).proc? q = s.proc? q := rfl
@[simp] theorem State.proc?_modMemDie (s : State) (d : Nat) (f : MemDie → MemDie) (q : Pid) : (s.modMemDie d f).proc? q = s.proc? q := rfl
@[simp] theorem State.proc?_modTeam (s : State) (t : Nat) (f : Team → Team) (q : Pid) : (s.modTeam t f).proc? q = s.proc? q := rfl
@[simp] theorem State.proc?_modLaunch (s : State) (l : Nat) (f : Launch → Launch) (q : Pid) : (s.modLaunch l f).proc? q = s.proc? q := rfl
@[simp] theorem State.proc?_modMsg (s : State) (m : Nat) (f : Msg → Msg) (q : Pid) : (s.modMsg m f).proc? q = s.proc? q := rfl
@[simp] theorem State.proc?_modExpert (s : State) (x : Nat) (f : Expert → Expert) (q : Pid) : (s.modExpert x f).proc? q = s.proc? q := rfl
@[simp] theorem State.proc?_modBar (s : State) (n : Nat) (f : Bar → Bar) (q : Pid) : (s.modBar n f).proc? q = s.proc? q := rfl
@[simp] theorem State.proc?_modLink (s : State) (l : Nat) (f : Link → Link) (q : Pid) : (s.modLink l f).proc? q = s.proc? q := rfl
@[simp] theorem State.proc?_sched (s : State) (d : Nat) (i : Instr) (q : Pid) : (s.sched d i).proc? q = s.proc? q := rfl
@[simp] theorem State.proc?_schedNs (s : State) (t : Nat) (i : Instr) (q : Pid) : (s.schedNs t i).proc? q = s.proc? q := rfl
@[simp] theorem State.proc?_setReg (s : State) (n : Nat) (v : Word) (q : Pid) : (s.setReg n v).proc? q = s.proc? q := rfl
@[simp] theorem State.proc?_setClReg (s : State) (cl n : Nat) (v : Word) (q : Pid) : (s.setClReg cl n v).proc? q = s.proc? q := rfl
@[simp] theorem State.proc?_countCore (s : State) (cl core n : Nat) (q : Pid) : (s.countCore cl core n).proc? q = s.proc? q := rfl
@[simp] theorem State.proc?_countCluster (s : State) (cl n : Nat) (q : Pid) : (s.countCluster cl n).proc? q = s.proc? q := rfl
@[simp] theorem State.proc?_countDevice (s : State) (n : Nat) (q : Pid) : (s.countDevice n).proc? q = s.proc? q := rfl

@[simp] theorem State.cluster_setProc (s : State) (p : Pid) (x : Proc) (q : Nat) : (s.setProc p x).cluster q = s.cluster q := rfl
@[simp] theorem State.cluster_modProc (s : State) (p : Pid) (f : Proc → Proc) (q : Nat) : (s.modProc p f).cluster q = s.cluster q := rfl
@[simp] theorem State.cluster_setMemDie (s : State) (d : Nat) (x : MemDie) (q : Nat) : (s.setMemDie d x).cluster q = s.cluster q := rfl
@[simp] theorem State.cluster_modMemDie (s : State) (d : Nat) (f : MemDie → MemDie) (q : Nat) : (s.modMemDie d f).cluster q = s.cluster q := rfl
@[simp] theorem State.cluster_modTeam (s : State) (t : Nat) (f : Team → Team) (q : Nat) : (s.modTeam t f).cluster q = s.cluster q := rfl
@[simp] theorem State.cluster_modLaunch (s : State) (l : Nat) (f : Launch → Launch) (q : Nat) : (s.modLaunch l f).cluster q = s.cluster q := rfl
@[simp] theorem State.cluster_modMsg (s : State) (m : Nat) (f : Msg → Msg) (q : Nat) : (s.modMsg m f).cluster q = s.cluster q := rfl
@[simp] theorem State.cluster_modExpert (s : State) (x : Nat) (f : Expert → Expert) (q : Nat) : (s.modExpert x f).cluster q = s.cluster q := rfl
@[simp] theorem State.cluster_modBar (s : State) (n : Nat) (f : Bar → Bar) (q : Nat) : (s.modBar n f).cluster q = s.cluster q := rfl
@[simp] theorem State.cluster_modLink (s : State) (l : Nat) (f : Link → Link) (q : Nat) : (s.modLink l f).cluster q = s.cluster q := rfl
@[simp] theorem State.cluster_sched (s : State) (d : Nat) (i : Instr) (q : Nat) : (s.sched d i).cluster q = s.cluster q := rfl
@[simp] theorem State.cluster_schedNs (s : State) (t : Nat) (i : Instr) (q : Nat) : (s.schedNs t i).cluster q = s.cluster q := rfl
@[simp] theorem State.cluster_setReg (s : State) (n : Nat) (v : Word) (q : Nat) : (s.setReg n v).cluster q = s.cluster q := rfl
@[simp] theorem State.cluster_countDevice (s : State) (n : Nat) (q : Nat) : (s.countDevice n).cluster q = s.cluster q := rfl

theorem State.cluster_setCluster (s : State) (c d : Nat) (x : Cluster) :
    (s.setCluster c x).cluster d = if d = c then x else s.cluster d := Tab.getD_put c d x {} s.clusters

theorem State.cluster_modCluster (s : State) (c d : Nat) (f : Cluster → Cluster) :
    (s.modCluster c f).cluster d = if d = c then f (s.cluster c) else s.cluster d := State.cluster_setCluster s c d _

theorem State.memDie_setMemDie (s : State) (c d : Nat) (x : MemDie) :
    (s.setMemDie c x).memDie d = if d = c then x else s.memDie d := Tab.getD_put c d x {} s.memdies

theorem State.bar_modBar (s : State) (n k : Nat) (f : Bar → Bar) :
    (s.modBar n f).bar k = if k = n then f (s.bar n) else s.bar k := Tab.getD_put n k (f (s.bar n)) ({} : Bar) s.bars

theorem State.link_modLink (s : State) (n k : Nat) (f : Link → Link) :
    (s.modLink n f).link k = if k = n then f (s.link n) else s.link k := Tab.getD_put n k (f (s.link n)) ({} : Link) s.links

end Sys2Proof.Machine
end

