-- ==== Sys2Proof/Laws/Ops.lean ====
section
/-! SUPPORT. What the shared operations that follow an instruction can do: waking, leaving a core, ending a chunk and completing
keep every process's program counter, registers and loop state, and all of memory. -/

namespace Sys2Proof.Machine

/-- All that `FrameOf` says, and the view of every process as well. -/
structure Keeps (s t : State) : Prop where
  mem : t.mem = s.mem
  poison : t.poison = s.poison
  codeErr : t.codeErr = s.codeErr
  views : ∀ q, (t.proc? q).map Proc.view = (s.proc? q).map Proc.view
  regs : t.regs = s.regs
  dieRegs : t.dieRegs = s.dieRegs
  clRegs : ∀ cl, (t.cluster cl).regs = (s.cluster cl).regs
  cycles : t.cycles = s.cycles
  memdies : t.memdies = s.memdies
  teams : t.teams = s.teams
  launches : t.launches = s.launches
  experts : t.experts = s.experts
  msgs : t.msgs = s.msgs
  bars : t.bars = s.bars
  outs : t.outs = s.outs

theorem Keeps.refl (s : State) : Keeps s s := by constructor <;> intros <;> rfl

theorem Keeps.trans {s t u : State} (h : Keeps s t) (k : Keeps t u) : Keeps s u where
  mem := k.mem.trans h.mem
  poison := k.poison.trans h.poison
  codeErr := k.codeErr.trans h.codeErr
  views q := (k.views q).trans (h.views q)
  regs := k.regs.trans h.regs
  dieRegs := k.dieRegs.trans h.dieRegs
  clRegs c := (k.clRegs c).trans (h.clRegs c)
  cycles := k.cycles.trans h.cycles
  memdies := k.memdies.trans h.memdies
  teams := k.teams.trans h.teams
  launches := k.launches.trans h.launches
  experts := k.experts.trans h.experts
  msgs := k.msgs.trans h.msgs
  bars := k.bars.trans h.bars
  outs := k.outs.trans h.outs

theorem Keeps.frameOf {s t : State} (h : Keeps s t) (p : Pid) : FrameOf s t p where
  mem k := by rw [h.mem]
  poison := h.poison
  codeErr := h.codeErr
  others q _ := h.views q
  regs := h.regs
  dieRegs := h.dieRegs
  clRegs cl n := by simp only [State.clReg, h.clRegs]
  cycles := h.cycles
  memdies := h.memdies
  teams := h.teams
  launches := h.launches
  experts := h.experts
  msgs := h.msgs
  bars := h.bars
  outs := h.outs

/-- Replacing a process by one with the same view. -/
theorem keeps_setProc (s : State) (p : Pid) (x pr : Proc) (h : s.proc? p = some pr) (hv : x.view = pr.view) :
    Keeps s (s.setProc p x) := by
  constructor <;> first | rfl | skip
  · intro q
    by_cases hq : q = p
    · subst hq; simp [h, hv]
    · rw [State.proc?_setProc_ne s x hq]
  · intro cl; rfl

/-- Replacing a process changes only it. -/
theorem frame_setProc (s : State) (p : Pid) (x : Proc) : FrameOf s (s.setProc p x) p := by
  constructor <;> first | rfl | (intros; rfl) | skip
  intro q hq
  rw [State.proc?_setProc_ne s x hq]

theorem keeps_sched (s : State) (d : Nat) (i : Instr) : Keeps s (s.sched d i) := by constructor <;> intros <;> rfl
theorem keeps_schedNs (s : State) (d : Nat) (i : Instr) : Keeps s (s.schedNs d i) := by constructor <;> intros <;> rfl

theorem keeps_modCluster (s : State) (c : Nat) (f : Cluster → Cluster) (h : (f (s.cluster c)).regs = (s.cluster c).regs) :
    Keeps s (s.modCluster c f) := by
  constructor <;> first | rfl | (intros; rfl) | skip
  intro cl
  rw [State.cluster_modCluster]
  split
  · rename_i e; subst e; exact h
  · rfl

theorem keeps_setCluster (s : State) (c : Nat) (x : Cluster) (h : x.regs = (s.cluster c).regs) :
    Keeps s (s.setCluster c x) := keeps_modCluster s c (fun _ => x) h

theorem keeps_countCore (s : State) (cl core n : Nat) : Keeps s (s.countCore cl core n) := keeps_modCluster s cl _ (by rfl)

theorem keeps_setReady (s : State) (cl core prio : Nat) (q : List Pid) : Keeps s (s.setReady cl core prio q) :=
  keeps_modCluster s cl _ (by rfl)

/-- A process becomes READY. -/
theorem keeps_makeReady (s : State) (p : Pid) : Keeps s (s.makeReady p) := by
  unfold State.makeReady
  split
  · exact Keeps.refl s
  · rename_i pr h
    simp only
    have k : ∀ x : Proc, x.view = pr.view → ∀ a b c q d i,
        Keeps s (((s.setProc p x).setReady a b c q).sched d i) := fun x hx a b c q d i =>
      ((keeps_setProc s p x pr h hx).trans (keeps_setReady _ _ _ _ _)).trans (keeps_sched _ _ _)
    generalize (if pr.hasRun = true ∧ pr.core < 31 then pr.core else s.leastCore pr.cl 31) = core
    split
    · exact k _ (by rfl) _ _ _ _ _ _
    · split
      · exact (k _ (by rfl) _ _ _ _ _ _).trans (keeps_sched _ _ _)
      · exact ((k _ (by rfl) _ _ _ _ _ _).trans (keeps_sched _ _ _)).trans (keeps_sched _ _ _)

theorem keeps_wake (s : State) (p : Pid) : Keeps s (s.wake p) := by
  unfold State.wake
  split
  · exact Keeps.refl s
  · rename_i pr h
    split
    · split
      · exact keeps_setProc s p _ pr h (by rfl)
      · exact (keeps_setProc s p _ pr h (by rfl)).trans (keeps_makeReady _ _)
    · split
      · exact keeps_setProc s p _ pr h (by rfl)
      · exact Keeps.refl s
    · split
      · exact keeps_setProc s p _ pr h (by rfl)
      · exact Keeps.refl s
    · split
      · exact keeps_setProc s p _ pr h (by rfl)
      · exact Keeps.refl s
    · exact Keeps.refl s

theorem keeps_foldl {α : Type} (f : State → α → State) (h : ∀ s a, Keeps s (f s a)) (l : List α) (s : State) :
    Keeps s (l.foldl f s) := by
  induction l generalizing s with
  | nil => exact Keeps.refl s
  | cons a l ih => exact (h s a).trans (ih _)

theorem keeps_wakeKinds (s : State) (cl : Nat) (ks : List WKind) : Keeps s (s.wakeKinds cl ks) :=
  keeps_foldl (fun (s : State) (e : Nat × Proc) => s.wake e.1) (fun s e => keeps_wake s e.1) _ s

theorem keeps_endLease (s : State) (p : Pid) : Keeps s (s.endLease p) := by
  unfold State.endLease
  split
  · exact Keeps.refl s
  · rename_i pr h
    simp only
    refine Keeps.trans ?_ (keeps_wakeKinds _ _ _)
    have key : ∀ u : State, Keeps s u → u.proc? p = some pr →
        Keeps s (if (pr.op.any fun o => decide (o.key = arrKey + 1) || (decide (o.key = arrKey) && decide (o.res = .waiting))) = true then
          u.setProc p { pr with op := none } else u) := by
      intro u hu hp
      split
      · exact hu.trans (keeps_setProc u p _ pr hp (by rfl))
      · exact hu
    apply key
    · split
      · exact (keeps_setCluster s pr.cl _ (by rfl)).trans (keeps_sched _ _ _)
      · exact keeps_setCluster s pr.cl _ (by rfl)
    · split <;> exact h

/-- Leaving a core keeps every process's view, the leaving process's among them. -/
theorem keeps_leaveCore (s : State) (p : Pid) : Keeps s (s.leaveCore p) := by
  refine (keeps_endLease s p).trans ?_
  simp only [State.leaveCore]
  split
  · exact Keeps.refl _
  · rename_i pr h
    split
    · exact (keeps_setProc _ p _ pr h (by rfl)).trans (keeps_sched _ _ _)
    · exact keeps_setProc _ p _ pr h (by rfl)

theorem keeps_unsolo (s : State) (p : Pid) : Keeps s (s.unsolo p) := by
  unfold State.unsolo
  split
  · exact Keeps.refl s
  · rename_i pr h
    exact (keeps_setProc s p _ pr h (by rfl)).trans (keeps_modCluster _ _ _ (by rfl))

/-- Ending a chunk: what it has executed waits for the commit arbiter. -/
theorem keeps_endChunk (s : State) (p : Pid) : Keeps s (s.endChunk p) := by
  unfold State.endChunk
  split
  · exact Keeps.refl s
  · rename_i pr h
    split
    · exact Keeps.refl s
    · rename_i c _
      split
      · exact Keeps.refl s
      · split
        · exact (keeps_setProc s p _ pr h (by rfl)).trans (keeps_unsolo _ _)
        · exact (keeps_setProc s p _ pr h (by rfl)).trans (keeps_sched _ _ _)

theorem keeps_preempt (s : State) (p : Pid) : Keeps s (s.preempt p) :=
  ((keeps_endChunk s p).trans (keeps_leaveCore _ p)).trans (keeps_makeReady _ p)

/-- A wait keeps every process's view: the program counter stays where it is. -/
theorem keeps_block (s : State) (p : Pid) (k : WKind) (w d : Word) : Keeps s (s.block p k w d) := by
  unfold State.block
  split
  · exact Keeps.refl s
  · rename_i pr h
    simp only
    have k1 : Keeps s (s.setProc p
        { pr with state := if pr.svc.isSome = true then .service else .blocked, wkind := k, wait := w, deadline := d, since := s.cycles }) :=
      keeps_setProc s p _ pr h (by rfl)
    have k2 : ∀ b : Bool, ∀ u, Keeps s u → ∀ x y, Keeps s (if b = true then u.sched x y else u) := by
      intro b u hu x y; split
      · exact hu.trans (keeps_sched _ _ _)
      · exact hu
    have k3 := k2 (pr.slot.isSome && decide ((s.setProc p
        { pr with state := if pr.svc.isSome = true then .service else .blocked, wkind := k, wait := w, deadline := d,
                  since := s.cycles }).readyCount pr.cl pr.core ≠ 0)) _ k1 6 (.slotRefill pr.cl pr.core)
    split
    · exact k3.trans (keeps_schedNs _ _ _)
    · split
      · exact k3.trans (keeps_sched _ _ _)
      · split
        · exact k3.trans (keeps_schedNs _ _ _)
        · exact k2 _ _ k3 _ _

theorem keeps_ite {c : Prop} [Decidable c] {s a b : State} (ha : Keeps s a) (hb : Keeps s b) : Keeps s (if c then a else b) := by
  split
  · exact ha
  · exact hb

/-- What follows a replaced process record keeps its view. -/
theorem frameOf_after {s u : State} {p : Pid} {x : Proc} (hu : Keeps (s.setProc p x) u) :
    (u.proc? p).map Proc.view = some x.view ∧ FrameOf s u p := by
  refine ⟨by rw [hu.views p]; simp, ?_⟩
  have hf := frame_setProc s p x
  exact {
    mem := fun k => by rw [hu.mem]; rfl
    poison := hu.poison, codeErr := hu.codeErr
    others := fun q hq => (hu.views q).trans (hf.others q hq)
    regs := hu.regs, dieRegs := hu.dieRegs
    clRegs := fun cl n => by simp only [State.clReg, hu.clRegs]; rfl
    cycles := hu.cycles, memdies := hu.memdies, teams := hu.teams, launches := hu.launches
    experts := hu.experts, msgs := hu.msgs, bars := hu.bars, outs := hu.outs }

/-- Completion (R31, R32, R236): the process stands where `Proc.advance` puts it, with the context that gives, and nothing else
that a claim sees has changed. -/
theorem complete_spec (s : State) (p : Pid) (before : Ctx) (m : Mods) (len : Nat) (d : Done) (pr : Proc) (h : s.proc? p = some pr) :
    ((s.complete p before m len d).proc? p).map Proc.view = some (pr.advance (len + (d.merged.getD (0, 0)).1) d.tgt).view ∧
      FrameOf s (s.complete p before m len d) p := by
  have fin : ∀ x u, x.view = (pr.advance (len + (d.merged.getD (0, 0)).1) d.tgt).view → Keeps (s.setProc p x) u →
      (u.proc? p).map Proc.view = some (pr.advance (len + (d.merged.getD (0, 0)).1) d.tgt).view ∧ FrameOf s u p := by
    intro x u hx k; rw [← hx]; exact frameOf_after k
  simp only [State.complete, h]
  split
  · apply fin
    rotate_left
    · refine Keeps.trans ?_ (keeps_block _ _ _ _ _)
      refine keeps_ite (Keeps.trans ?_ (keeps_leaveCore _ _)) ?_ <;>
        refine keeps_ite (Keeps.trans ?_ (keeps_endChunk _ _)) ?_ <;>
        refine keeps_ite (Keeps.trans ?_ (keeps_countCore _ _ _ _)) ?_ <;>
        exact keeps_ite (keeps_countCore _ _ _ _) (Keeps.refl _)
    · rfl
  · apply fin
    rotate_left
    · refine keeps_ite (Keeps.trans ?_ (keeps_preempt _ _)) ?_ <;>
        refine keeps_ite (Keeps.trans ?_ (keeps_endChunk _ _)) ?_ <;>
        refine keeps_ite (Keeps.trans ?_ (keeps_countCore _ _ _ _)) ?_ <;>
        exact keeps_ite (keeps_countCore _ _ _ _) (Keeps.refl _)
    · rfl

/-- A completion inside a block, or without one, moves the program counter by the instruction's length. -/
theorem advance_inside (pr : Proc) (len : Nat) (h : pr.Inside len) :
    (pr.advance len none).view = (pr.pc + BitVec.ofNat 64 len, pr.ctx.plain, pr.loop) := by
  simp only [Proc.advance]
  split
  · rename_i h0; simp [Proc.view, h0]
  · rename_i l hl
    rw [if_pos (h l hl)]; simp [Proc.view, hl]

theorem advance_tgt (pr : Proc) (len : Nat) (a : Word) : (pr.advance len (some a)).view = (a, pr.ctx.plain, pr.loop) := rfl

/-! ## Running a register form -/

/-- A register form that its gate lets through and that leaves the process's place and loop alone goes on with the context it
computed. -/
theorem runReg_goesOn (m : Mods) (len : Nat) (gate : Bool) (s : State) (f : Proc → Except TrapInfo (Proc × Done)) (p : Pid)
    (pr x : Proc) (d : Done) (hi : Issues s p pr len) (hon : gate = true → On m pr) (hf : f pr = .ok (x, d))
    (hpc : x.pc = pr.pc) (hl : x.loop = pr.loop) (ht : d.tgt = none) (hm : d.merged = none) : GoesOn s p pr len x.ctx (runReg m len gate s f) := by
  have hg : (gate && !onOf m pr.ctx) = false := by
    cases gate
    · rfl
    · simp [show onOf m pr.ctx = true from hon rfl]
  simp only [runReg, hi.cur, hi.proc, hg, hf, Bool.false_eq_true, if_false]
  have hin : x.Inside len := fun l h => by rw [hpc]; exact hi.inside l (by rw [← hl]; exact h)
  obtain ⟨h1, h2⟩ := complete_spec (s.setProc p x) p pr.ctx m len d x (by simp)
  rw [ht, hm, show len + (Option.getD (none : Option (Nat × Nat)) (0, 0)).1 = len from rfl, advance_inside x len hin] at h1
  refine ⟨_, rfl, by rw [h1, hpc, hl], ?_⟩
  have hf := frame_setProc s p x
  exact {
    mem := fun k => by rw [h2.mem]; rfl
    poison := h2.poison, codeErr := h2.codeErr
    others := fun q hq => (h2.others q hq).trans (hf.others q hq)
    regs := h2.regs, dieRegs := h2.dieRegs
    clRegs := fun cl n => by rw [h2.clRegs]; rfl
    cycles := h2.cycles, memdies := h2.memdies, teams := h2.teams, launches := h2.launches
    experts := h2.experts, msgs := h2.msgs, bars := h2.bars, outs := h2.outs }

end Sys2Proof.Machine
end

