-- ==== Sys2Proof/Laws/Memory.lean ====
section
/-! SUPPORT. Every operation that changes memory keeps its canonical form, and memory has it at reset. -/

namespace Sys2Proof.Machine

/-! ## Tables -/

theorem Tab.above_of_mem {α : Type} {k : Nat} {a : α} {t : Tab α} (h : Tab.sorted ((k, a) :: t) = true) : Tab.above k t :=
  ((Tab.sorted_cons k a t).1 h).1

theorem Tab.sorted_filter {α : Type} (p : Nat × α → Bool) (t : Tab α) (h : Tab.sorted t = true) : Tab.sorted (t.filter p) = true := by
  induction t with
  | nil => exact h
  | cons e t ih =>
    obtain ⟨k, a⟩ := e
    have h' := (Tab.sorted_cons k a t).1 h
    by_cases hp : p (k, a)
    · rw [List.filter_cons_of_pos hp, Tab.sorted_cons]
      exact ⟨fun e he => h'.1 e ((List.mem_filter.1 he).1), ih h'.2⟩
    · rw [List.filter_cons_of_neg hp]; exact ih h'.2

theorem Tab.sorted_append {α : Type} (t u : Tab α) (ht : Tab.sorted t = true) (hu : Tab.sorted u = true)
    (h : ∀ a ∈ t, ∀ b ∈ u, a.1 < b.1) : Tab.sorted (t ++ u) = true := by
  induction t with
  | nil => exact hu
  | cons e t ih =>
    obtain ⟨k, a⟩ := e
    have h' := (Tab.sorted_cons k a t).1 ht
    rw [List.cons_append, Tab.sorted_cons]
    refine ⟨fun e he => ?_, ih h'.2 fun a ha => h a (List.mem_cons_of_mem _ ha)⟩
    rcases List.mem_append.1 he with he | he
    · exact h'.1 e he
    · exact h (k, a) (List.mem_cons_self ..) e he

theorem Tab.sorted_mapKeys {α : Type} (f : Nat → Nat) (t : Tab α) (ht : Tab.sorted t = true)
    (hf : ∀ a ∈ t, ∀ b ∈ t, a.1 < b.1 → f a.1 < f b.1) : Tab.sorted (t.map fun e => (f e.1, e.2)) = true := by
  induction t with
  | nil => rfl
  | cons e t ih =>
    obtain ⟨k, a⟩ := e
    have h' := (Tab.sorted_cons k a t).1 ht
    rw [List.map_cons, Tab.sorted_cons]
    refine ⟨fun e he => ?_, ih h'.2 fun a ha b hb => hf a (List.mem_cons_of_mem _ ha) b (List.mem_cons_of_mem _ hb)⟩
    obtain ⟨b, hb, rfl⟩ := List.mem_map.1 he
    exact hf (k, a) (List.mem_cons_self ..) b (List.mem_cons_of_mem _ hb) (h'.1 b hb)

/-- Moving a range of keys keeps them rising. -/
theorem Tab.sorted_shift {α : Type} (src n dst : Nat) (t : Tab α) (h : Tab.sorted t = true) : Tab.sorted (Tab.shift src n dst t) = true := by
  unfold Tab.shift
  have hr := Tab.sorted_filter (fun e : Nat × α => !(src ≤ e.1 && e.1 < src + n) && !(dst ≤ e.1 && e.1 < dst + n)) t h
  refine Tab.sorted_append _ _ (Tab.sorted_append _ _ (Tab.sorted_filter _ _ hr) ?_ ?_) (Tab.sorted_filter _ _ hr) ?_
  · refine Tab.sorted_mapKeys (fun k => dst + (k - src)) _ (Tab.sorted_filter _ _ h) fun a ha b hb hab => ?_
    have ha := (List.mem_filter.1 ha).2
    simp only [Bool.and_eq_true, decide_eq_true_eq] at ha
    omega
  · intro a ha b hb
    have ha := (List.mem_filter.1 ha).2
    obtain ⟨e, he, rfl⟩ := List.mem_map.1 hb
    simp only [decide_eq_true_eq] at ha
    show a.1 < dst + (e.1 - src)
    omega
  · intro a ha b hb
    obtain ⟨hb1, hb2⟩ := List.mem_filter.1 hb
    have hb1 := (List.mem_filter.1 hb1).2
    simp only [Bool.and_eq_true, Bool.not_eq_true', Bool.and_eq_false_imp, decide_eq_true_eq, decide_eq_false_iff_not] at hb1 hb2
    have := hb1.2 (by omega)
    rcases List.mem_append.1 ha with ha | ha
    · have ha := (List.mem_filter.1 ha).2
      simp only [decide_eq_true_eq] at ha
      omega
    · obtain ⟨e, he, rfl⟩ := List.mem_map.1 ha
      have he := (List.mem_filter.1 he).2
      simp only [Bool.and_eq_true, decide_eq_true_eq] at he
      show dst + (e.1 - src) < b.1
      omega

/-! ## Memory -/

theorem Memory.wf_filter (p : Host.Cell → Bool) (m : Memory) (h : Memory.wf m = true) : Memory.wf (m.filter p) = true := by
  simp only [Memory.wf, Bool.and_eq_true, List.all_eq_true] at h ⊢
  exact ⟨Tab.sorted_filter p m h.1, fun c hc => h.2 c ((List.mem_filter.1 hc).1)⟩

theorem Memory.wf_shift (src n dst : Nat) (m : Memory) (h : Memory.wf m = true) : Memory.wf (Tab.shift src n dst m) = true := by
  simp only [Memory.wf, Bool.and_eq_true, List.all_eq_true] at h ⊢
  refine ⟨Tab.sorted_shift src n dst m h.1, fun c hc => ?_⟩
  simp only [Tab.shift, List.mem_append, List.mem_filter, List.mem_map] at hc
  rcases hc with (hc | ⟨e, he, rfl⟩) | hc
  · exact h.2 c hc.1.1
  · exact h.2 e he.1
  · exact h.2 c hc.1.1

theorem Memory.wf_writeMask (m : Memory) (k : Nat) (data : Line) (mask : BitVec 64) (n : Nat) (h : Memory.wf m = true) :
    Memory.wf (Memory.writeMask m k data mask n) = true := by
  induction n generalizing m with
  | zero => exact h
  | succ n ih =>
    simp only [Memory.writeMask]
    split
    · exact ih _ (Memory.wf_put _ _ _ h)
    · exact ih _ h

/-! ## Operations on the state -/

theorem memWf_reset : State.reset.MemWf := rfl

theorem memWf_of_eq {s t : State} (e : t.mem = s.mem) (h : s.MemWf) : t.MemWf := by unfold State.MemWf at *; rw [e]; exact h

theorem memWf_foldl {α : Type} (f : State → α → State) (hf : ∀ s a, s.MemWf → (f s a).MemWf) (l : List α) (s : State) (h : s.MemWf) :
    (l.foldl f s).MemWf := by
  induction l generalizing s with
  | nil => exact h
  | cons a l ih => exact ih _ (hf s a h)

theorem mem_wake (s : State) (p : Pid) : (s.wake p).mem = s.mem := (keeps_wake s p).mem

theorem mem_foldl {α : Type} (f : State → α → State) (hf : ∀ s a, (f s a).mem = s.mem) (l : List α) (s : State) :
    (l.foldl f s).mem = s.mem := by
  induction l generalizing s with
  | nil => rfl
  | cons a l ih => exact (ih _).trans (hf s a)

theorem mem_postService (s : State) (idx : Nat) (ws : List Word) : (s.postService idx ws).mem = s.mem := by
  unfold State.postService
  exact mem_foldl _ (fun s (e : Nat × Proc) => mem_wake s e.1) _ _

theorem mem_machineCheck (s : State) (kind point site pa : Nat) : (s.machineCheck kind point site pa).mem = s.mem :=
  mem_postService _ _ _

theorem mem_verifyAt (s : State) (point line : Nat) : (s.verifyAt point line).mem = s.mem := by
  unfold State.verifyAt
  split
  · rfl
  · rw [mem_machineCheck]; rfl

theorem mem_eccAt (s : State) (point line : Nat) : (s.eccAt point line).mem = s.mem := by
  unfold State.eccAt
  simp only []
  split
  · rfl
  · split
    · split <;> rfl
    · split
      · rfl
      · rw [mem_machineCheck]; rfl

theorem mem_mscTouch (s : State) (line : Nat) : (s.mscTouch line).2.mem = s.mem := by
  unfold State.mscTouch
  simp only []
  split
  · rfl
  · split <;> rfl

theorem memWf_storeLine (s : State) (line : Nat) (data : Line) (mask : BitVec 64) (h : s.MemWf) : (s.storeLine line data mask).MemWf := by
  unfold State.storeLine
  split
  · exact h
  · simp only [State.twinNote]
    have : ∀ u : State, u.mem = s.mem → Memory.wf (Memory.writeMask u.mem line data mask 64) = true := fun u hu => by
      rw [hu]; exact Memory.wf_writeMask _ _ _ _ _ h
    split
    · split
      · exact this _ rfl
      · exact this _ rfl
    · split
      · exact this _ (mem_verifyAt ..)
      · exact this _ (mem_verifyAt ..)

theorem memWf_storeElt (s : State) (loc n v : Nat) (h : s.MemWf) : (s.storeElt loc n v).MemWf := memWf_storeLine _ _ _ _ h

theorem memWf_foldLoc (s : State) (loc : Nat) (h : s.MemWf) : (s.foldLoc loc).MemWf := by
  unfold State.foldLoc
  split
  · exact h
  · exact memWf_storeElt _ _ _ _ h

theorem memWf_foldLine (s : State) (line : Nat) (h : s.MemWf) : (s.foldLine line).MemWf :=
  memWf_foldl _ memWf_foldLoc _ _ h

theorem mem_bringIn (s : State) (line : Nat) : (s.bringIn line).2.mem = s.mem := by
  unfold State.bringIn
  split
  · simp only []
    split
    · exact (mem_verifyAt ..).trans (mem_mscTouch ..)
    · exact ((mem_verifyAt ..).trans (mem_eccAt ..)).trans (mem_mscTouch ..)
  · exact (mem_verifyAt ..).trans (mem_eccAt ..)

theorem memWf_touchHome (s : State) (line : Nat) (h : s.MemWf) : (s.touchHome line).2.MemWf :=
  memWf_of_eq (mem_bringIn ..) (memWf_foldLine s line h)

theorem memWf_ite {c : Prop} [Decidable c] {a b : State} (ha : a.MemWf) (hb : b.MemWf) : (if c then a else b).MemWf := by
  split
  · exact ha
  · exact hb

theorem memWf_performWrite (s : State) (line : Nat) (data : Line) (mask : BitVec 64) (poison : Bool) (h : s.MemWf) :
    (s.performWrite line data mask poison).MemWf := by
  have hf := memWf_foldLine s line h
  have hb : (if mask ≠ fullMask then ((s.foldLine line).bringIn line).2
      else if isDev line then ((s.foldLine line).mscTouch line).2 else s.foldLine line).MemWf :=
    memWf_ite (memWf_of_eq (mem_bringIn ..) hf) (memWf_ite (memWf_of_eq (mem_mscTouch ..) hf) hf)
  have hs := memWf_storeLine _ line data mask hb
  exact memWf_ite (b := State.storeLine _ line data mask) hs hs

theorem memWf_homeWriteFor (s : State) (cl : Option Nat) (ack : Option (Pid × Nat)) (line : Nat) (data : Line) (mask : BitVec 64)
    (poison : Bool) (h : s.MemWf) : (s.homeWriteFor cl ack line data mask poison).MemWf := by
  unfold State.homeWriteFor
  split
  · exact h
  · exact memWf_performWrite _ _ _ _ _ h

theorem memWf_homeWrite (s : State) (line : Nat) (data : Line) (mask : BitVec 64) (poison : Bool) (h : s.MemWf) :
    (s.homeWrite line data mask poison).MemWf := memWf_homeWriteFor _ _ _ _ _ _ _ h

theorem memWf_homeWriteBytes (s : State) (a : Nat) (bs : List Byte) (h : s.MemWf) : (s.homeWriteBytes a bs).MemWf :=
  memWf_foldl _ (fun _ _ h => memWf_homeWrite _ _ _ _ _ h) _ _ h

theorem memWf_redfArrive (s : State) (loc : Nat) (b : Bool) (x cn : Nat) (h : s.MemWf) : (s.redfArrive loc b x cn).MemWf := by
  unfold State.redfArrive
  have h1 : (if s.redSlots.any fun r => r.loc = loc && r.bf16 != b then s.foldLoc loc else s).MemWf := by
    split
    · exact memWf_foldLoc _ _ h
    · exact h
  generalize (if s.redSlots.any fun r => r.loc = loc && r.bf16 != b then s.foldLoc loc else s) = u at h1
  simp only []
  split
  · exact h1
  · split
    · exact h1
    · have h2 := memWf_storeElt _ loc (redBytes b) (redfAdd b ((u.foldLoc loc).natAt loc (redBytes b)) x) (memWf_foldLoc u loc h1)
      split <;> exact h2

theorem memWf_homeAtomic (s : State) (loc : Nat) (op : HomeOp) (h : s.MemWf) : (s.homeAtomic loc op).2.MemWf := by
  unfold State.homeAtomic
  have ht := memWf_touchHome s (lineOf loc) h
  have hm := memWf_of_eq (mem_bringIn s (lineOf loc)) h
  simp only []
  split
  · generalize (s.bringIn (lineOf loc)).2 = u at hm
    split
    · exact hm
    · exact memWf_redfArrive _ _ _ _ _ hm
  · generalize (s.touchHome (lineOf loc)).2 = u at ht
    by_cases hp : u.isPoison (lineOf loc)
    · rw [if_pos hp]; exact ht
    · rw [if_neg hp]; exact memWf_ite (memWf_storeElt _ _ _ _ ht) ht

theorem memWf_orEntry (s : State) (loc : Nat) (b : Word) (h : s.MemWf) : (s.orEntry loc b).MemWf := by
  unfold State.orEntry
  split
  · exact h
  · exact memWf_storeElt _ _ _ _ (memWf_touchHome _ _ h)

theorem memWf_zeroRange (s : State) (lo n : Nat) (h : s.MemWf) : (s.zeroRange lo n).MemWf := Memory.wf_filter _ _ h

theorem memWf_moveBytes (s : State) (src n dst : Nat) (h : s.MemWf) : (s.moveBytes src n dst).MemWf := by
  unfold State.moveBytes
  split
  · exact h
  · exact Memory.wf_shift _ _ _ _ h

theorem memWf_clearStacks (s : State) (h : s.MemWf) : s.clearStacks.MemWf := Memory.wf_filter _ _ h

theorem memWf_cleared (s : State) (keep : Bool) (h : s.MemWf) : (s.cleared keep).MemWf := by
  unfold State.cleared
  cases keep
  · exact Memory.wf_filter _ _ h
  · exact Memory.wf_filter _ _ (memWf_foldl _ memWf_foldLoc _ _ h)

theorem memWf_withFetchWord (s : State) (nbits w : Nat) : (s.withFetchWord nbits w).MemWf :=
  Memory.wf_write _ _ _ (by decide)

end Sys2Proof.Machine
end

