-- ==== Sys2Proof/Tests/Slice0.lean ====
section
/-! SUPPORT. Tests: words written out from the encodings of R21 to R37, ill-formed terms that the check refuses, single steps, and for
each statement a state and operands that meet its hypotheses. -/

namespace Sys2Proof.Tests

set_option Elab.async false

open Sys2Proof Sys2Proof.Machine

/-! ## Words (expected results: the encodings of R24 to R37, by hand) -/

/-- Every chain of words decodes to the instruction beside it, and that instruction is well-formed. -/
def reads (l : List (List (BitVec 16) × Instr)) : Bool :=
  l.all fun e => decide (decodeWords e.1 = .instr e.2 e.1.length) && e.2.wf

/-- R24 to R37, words written out by hand: ADD, SUB, MUL, MULH, MULHN, DIV, DIVN, REM, REMN, AND, OR, XOR. -/
theorem test_words_scalar_a : reads
   [([0x0514], .add ⟨false, 0, none, none, 0⟩ 4 5 none),
    ([0xFD06, 0x0914], .sub ⟨false, 0, none, none, 0⟩ 4 5 (some 6)),
    ([0x0D14], .mul ⟨false, 0, none, none, 0⟩ 4 5 none),
    ([0xFD06, 0x1114], .mulh ⟨false, 0, none, none, 0⟩ 4 5 (some 6)),
    ([0x1514], .mulhn ⟨false, 0, none, none, 0⟩ 4 5 none),
    ([0xFD06, 0x1914], .div ⟨false, 0, none, none, 0⟩ 4 5 (some 6)),
    ([0x1D14], .divn ⟨false, 0, none, none, 0⟩ 4 5 none),
    ([0xFD06, 0x2114], .rem ⟨false, 0, none, none, 0⟩ 4 5 (some 6)),
    ([0x2514], .remn ⟨false, 0, none, none, 0⟩ 4 5 none),
    ([0xFD06, 0x2914], .and ⟨false, 0, none, none, 0⟩ 4 5 (some 6)),
    ([0x2D14], .or ⟨false, 0, none, none, 0⟩ 4 5 none),
    ([0xFD06, 0x3114], .xor ⟨false, 0, none, none, 0⟩ 4 5 (some 6))] = true := by decide

/-- R24 to R37, words written out by hand: SHL, SHR, SAR, ROL, MIN, MAX, MINN, MAXN, SEL, LEA, NEG, NOT. -/
theorem test_words_scalar_b : reads
   [([0x3514], .shl ⟨false, 0, none, none, 0⟩ 4 5 none),
    ([0xFD06, 0x3914], .shr ⟨false, 0, none, none, 0⟩ 4 5 (some 6)),
    ([0x3D14], .sar ⟨false, 0, none, none, 0⟩ 4 5 none),
    ([0xFD06, 0x4114], .rol ⟨false, 0, none, none, 0⟩ 4 5 (some 6)),
    ([0x4514], .min ⟨false, 0, none, none, 0⟩ 4 5 none),
    ([0xFD06, 0x4914], .max ⟨false, 0, none, none, 0⟩ 4 5 (some 6)),
    ([0x4D14], .minn ⟨false, 0, none, none, 0⟩ 4 5 none),
    ([0xFD06, 0x5114], .maxn ⟨false, 0, none, none, 0⟩ 4 5 (some 6)),
    ([0xFD06, 0xFE90, 0x5514], .sel ⟨false, 0, none, some ⟨1, false, 0⟩, 0⟩ 4 5 6),
    ([0xFD06, 0xFC7F, 0x5914], .lea ⟨false, 1, none, none, 0⟩ 4 5 (some 6) 3 0xFFFFFFFFFFFFFFFF),
    ([0x5D14], .neg ⟨false, 0, none, none, 0⟩ 4 5),
    ([0x6114], .not ⟨false, 0, none, none, 0⟩ 4 5)] = true := by decide

/-- R24 to R37, words written out by hand: CLZ, CTZ, POPC, SEXT, ZEXT, MOV, ADDI, ANDI, ORI, XORI, MOVI, MOVHI. -/
theorem test_words_scalar_c : reads
   [([0x6514], .clz ⟨false, 0, none, none, 0⟩ 4 5),
    ([0x6914], .ctz ⟨false, 0, none, none, 0⟩ 4 5),
    ([0x6D14], .popc ⟨false, 0, none, none, 0⟩ 4 5),
    ([0xFC03, 0x7114], .sext ⟨false, 1, none, none, 0⟩ 4 5 .b),
    ([0xFC02, 0x7514], .zext ⟨false, 1, none, none, 0⟩ 4 5 .h),
    ([0xFCC8, 0x7914], .mov ⟨true, 0, none, none, 0⟩ 36 21),
    ([0x7D3C], .addi ⟨false, 0, none, none, 0⟩ 4 0xFFFFFFFFFFFFFFFF),
    ([0xFC02, 0x8114], .andi ⟨false, 1, none, none, 0⟩ 4 0x25),
    ([0x851C], .ori ⟨false, 0, none, none, 0⟩ 4 7),
    ([0xFC40, 0x8900], .xori ⟨false, 1, none, none, 0⟩ 4 0xFFFFFFFFFFFFFC00),
    ([0xFC13, 0x8D0C], .movi ⟨false, 1, none, none, 0⟩ 4 0x133),
    ([0x913C], .movhi ⟨false, 0, none, none, 0⟩ 4 15)] = true := by decide

/-- R24 to R37, words written out by hand: CMP, CMPI, LD, LDS, ST, LDV, STV, LDT, STT, LDG, STX, LDA. -/
theorem test_words_scalar_d : reads
   [([0xFD06, 0xFC02, 0x9514], .cmp ⟨false, 1, none, none, 0⟩ 4 5 (some 6) .lt),
    ([0xFC7B, 0x9914], .cmpi ⟨false, 1, none, none, 0⟩ 4 5 .ge 0xFFFFFFFFFFFFFFFF),
    ([0xFC0D, 0x9D14], .ld ⟨false, 1, none, none, 0⟩ 4 5 .w 3),
    ([0xFC7B, 0xA114], .lds ⟨false, 1, none, none, 0⟩ 4 5 .b 0xFFFFFFFFFFFFFFFE),
    ([0xFC06, 0xA514], .st ⟨false, 1, none, none, 0⟩ 4 5 .h 1),
    ([0xFC00, 0xFC56, 0xA914], .ldv ⟨false, 2, none, none, 0⟩ 4 5 (some .fp32) 2),
    ([0xFC40, 0xAD14], .stv ⟨false, 1, none, none, 0⟩ 4 5 0xFFFFFFFFFFFFFFC0),
    ([0xFC31, 0xB114], .ldt ⟨false, 1, none, none, 0⟩ 4 5 (some .int8) .x8 0),
    ([0xB514], .stt ⟨false, 0, none, none, 0⟩ 4 5 0),
    ([0xFD06, 0xB914], .ldg ⟨false, 0, none, none, 0⟩ 4 5 6 none),
    ([0xFD06, 0xBD14], .stx ⟨false, 0, none, none, 0⟩ 4 5 6),
    ([0xFE85, 0xFC01, 0xC114], .lda ⟨false, 1, none, some ⟨0, false, 5⟩, 0⟩ 4 5 .w)] = true := by decide

/-- R24 to R37, words written out by hand: STL, PREF, B, BP, BZ, BNZ, J, JL, RET, REP, NOP, TFENCE. -/
theorem test_words_scalar_e : reads
   [([0xFE86, 0xC514], .stl ⟨false, 0, none, some ⟨0, false, 6⟩, 0⟩ 4 5 .d),
    ([0xFC06, 0xC814], .pref ⟨false, 1, none, none, 0⟩ 5 2 1),
    ([0xCFFC], .b ⟨false, 0, none, none, 0⟩ 0xFFFFFFFFFFFFFFFF),
    ([0xFE98, 0xD028], .bp ⟨false, 0, none, some ⟨1, true, 0⟩, 0⟩ 10),
    ([0xD53C], .bz ⟨false, 0, none, none, 0⟩ 4 0xFFFFFFFFFFFFFFFF),
    ([0xFC01, 0xD904], .bnz ⟨false, 1, none, none, 0⟩ 4 0x11),
    ([0xDD00], .j ⟨false, 0, none, none, 0⟩ 4),
    ([0xE040], .jl ⟨false, 0, none, none, 0⟩ 16),
    ([0xE400], .ret ⟨false, 0, none, none, 0⟩),
    ([0xFC04, 0xE940], .rep ⟨false, 1, none, none, 0⟩ 5 64),
    ([0xEC00], .nop ⟨false, 0, none, none, 0⟩),
    ([0xF000], .tfence ⟨false, 0, none, none, 0⟩)] = true := by decide

/-- R24 to R37, words written out by hand: BKPT. -/
theorem test_words_scalar_f : reads
   [([0xF424], .bkpt ⟨false, 0, none, none, 0⟩ 9)] = true := by decide

/-- R24 to R37, words written out by hand: VADD, VSUB, VMUL, VFMA, VFMS, VMIN, VMAX, VABS, VNEG, VAND, VOR, VXOR. -/
theorem test_words_vector_a : reads
   [([0xFD81, 0xFC01, 0x0514], .vadd ⟨false, 1, none, none, 0⟩ 4 5 none true),
    ([0xFD81, 0xFD06, 0xFC01, 0x0914], .vsub ⟨false, 1, none, none, 0⟩ 4 5 (some 6) true),
    ([0xFD81, 0x0D14], .vmul ⟨false, 0, none, none, 0⟩ 4 5 none false),
    ([0xFD81, 0xFD06, 0x1114], .vfma ⟨false, 0, none, none, 0⟩ 4 5 6),
    ([0xFD81, 0xFD06, 0x1514], .vfms ⟨false, 0, none, none, 0⟩ 4 5 6),
    ([0xFD81, 0x1914], .vmin ⟨false, 0, none, none, 0⟩ 4 5 none),
    ([0xFD81, 0xFD06, 0x1D14], .vmax ⟨false, 0, none, none, 0⟩ 4 5 (some 6)),
    ([0xFD81, 0xFC01, 0x2114], .vabs ⟨false, 1, none, none, 0⟩ 4 5 true),
    ([0xFD81, 0x2514], .vneg ⟨false, 0, none, none, 0⟩ 4 5 false),
    ([0xFD81, 0x2914], .vand ⟨false, 0, none, none, 0⟩ 4 5 none),
    ([0xFD81, 0xFD06, 0x2D14], .vor ⟨false, 0, none, none, 0⟩ 4 5 (some 6)),
    ([0xFD81, 0x3114], .vxor ⟨false, 0, none, none, 0⟩ 4 5 none)] = true := by decide

/-- R24 to R37, words written out by hand: VNOT, VSHL, VSHR, VSAR, VCMP, VSEL, VCVT, VRED, VSCAN, VPERM, VBCAST, VSPLAT. -/
theorem test_words_vector_b : reads
   [([0xFD81, 0xFCA8, 0x3514], .vnot ⟨true, 0, none, none, 0⟩ 20 21),
    ([0xFD81, 0x3914], .vshl ⟨false, 0, none, none, 0⟩ 4 5 none),
    ([0xFD81, 0xFD06, 0x3D14], .vshr ⟨false, 0, none, none, 0⟩ 4 5 (some 6)),
    ([0xFD81, 0x4114], .vsar ⟨false, 0, none, none, 0⟩ 4 5 none),
    ([0xFD81, 0xFD06, 0xFC06, 0x4514], .vcmp ⟨false, 1, none, none, 0⟩ 4 5 6 .un),
    ([0xFD81, 0xFD06, 0xFEA0, 0x4914], .vsel ⟨false, 0, none, some ⟨2, false, 0⟩, 0⟩ 4 5 6),
    ([0xFD81, 0xFC57, 0x4D14], .vcvt ⟨false, 1, none, none, 0⟩ 4 5 .bf16 .sr),
    ([0xFD81, 0xFC02, 0x5114], .vred ⟨false, 1, none, none, 0⟩ 4 5 .max),
    ([0xFD81, 0xFC01, 0x5514], .vscan ⟨false, 1, none, none, 0⟩ 4 5 .min),
    ([0xFD81, 0xFD06, 0x5914], .vperm ⟨false, 0, none, none, 0⟩ 4 5 6),
    ([0xFD81, 0xFC3F, 0x5D14], .vbcast ⟨false, 1, none, none, 0⟩ 4 5 63),
    ([0xFD81, 0xFC01, 0x6114], .vsplat ⟨false, 1, none, none, 0⟩ 4 5 .int8)] = true := by decide

/-- R24 to R37, words written out by hand: VEXT, VINS, VRCP, VRSQ, VEXP2, VLOG2, VTANH, VDOT4, VMAC, VCLAMP, PAND, POR. -/
theorem test_words_vector_c : reads
   [([0xFD81, 0xFC07, 0x6514], .vext ⟨false, 1, none, none, 0⟩ 4 5 7),
    ([0xFD81, 0x6914], .vins ⟨false, 0, none, none, 0⟩ 4 5 0),
    ([0xFD81, 0x6D14], .vrcp ⟨false, 0, none, none, 0⟩ 4 5),
    ([0xFD81, 0x7114], .vrsq ⟨false, 0, none, none, 0⟩ 4 5),
    ([0xFD81, 0x7514], .vexp2 ⟨false, 0, none, none, 0⟩ 4 5),
    ([0xFD81, 0x7914], .vlog2 ⟨false, 0, none, none, 0⟩ 4 5),
    ([0xFD81, 0x7D14], .vtanh ⟨false, 0, none, none, 0⟩ 4 5),
    ([0xFD81, 0xFD06, 0xFC01, 0x8114], .vdot4 ⟨false, 1, none, none, 0⟩ 4 5 6 true),
    ([0xFD81, 0xFD06, 0x8514], .vmac ⟨false, 0, none, none, 0⟩ 4 5 6 false),
    ([0xFD81, 0xFD06, 0x8914], .vclamp ⟨false, 0, none, none, 0⟩ 4 5 6),
    ([0xFD81, 0xFD06, 0x8D14], .pand ⟨false, 0, none, none, 0⟩ 4 5 (some 6)),
    ([0xFD81, 0x9114], .por ⟨false, 0, none, none, 0⟩ 4 5 none)] = true := by decide

/-- R24 to R37, words written out by hand: PNOT, PMOV. -/
theorem test_words_vector_d : reads
   [([0xFD81, 0x9514], .pnot ⟨false, 0, none, none, 0⟩ 4 5),
    ([0xFD81, 0xFC02, 0x9914], .pmov ⟨false, 1, none, none, 0⟩ (.sp 4 5))] = true := by decide

/-- R24 to R37, words written out by hand: TZERO, TMMA, TADD, TCVT, TTRN, TSCL, TTAG, TMOV, MLEASE, MREL, MMA, MDRAIN. -/
theorem test_words_tile_array_a : reads
   [([0xFD82, 0x0500], .tzero ⟨false, 0, none, none, 0⟩ 4),
    ([0xFD82, 0xFD06, 0x0914], .tmma ⟨false, 0, none, none, 0⟩ 4 5 6),
    ([0xFD82, 0xFD06, 0xFC01, 0x0D14], .tadd ⟨false, 1, none, none, 0⟩ 4 5 (some 6) true),
    ([0xFD82, 0xFC31, 0x1114], .tcvt ⟨false, 1, none, none, 0⟩ 4 5 .int8 .rdn),
    ([0xFD82, 0xFC01, 0x1514], .ttrn ⟨false, 1, none, none, 0⟩ 4 5 true),
    ([0xFD82, 0x1914], .tscl ⟨false, 0, none, none, 0⟩ 4 5),
    ([0xFD82, 0xFC7F, 0x1D1C], .ttag ⟨false, 1, none, none, 0⟩ 4 .bf16 0xFF),
    ([0xFD82, 0x2114], .tmov ⟨false, 0, none, none, 0⟩ 4 5),
    ([0xFD82, 0xFC01, 0x4000], .mlease ⟨false, 1, none, none, 0⟩ 16),
    ([0xFD82, 0x4400], .mrel ⟨false, 0, none, none, 0⟩),
    ([0xFD82, 0xFD06, 0xFC17, 0x4914], .mma ⟨false, 1, none, none, 0⟩ 4 5 6 3 .int8),
    ([0xFD82, 0xFC06, 0x4D08], .mdrain ⟨false, 1, none, none, 0⟩ 4 2 .fp32)] = true := by decide

/-- R24 to R37, words written out by hand: MZERO, MSTAT, MCARRY, MWAIT, MVMQ. -/
theorem test_words_tile_array_b : reads
   [([0xFD82, 0x5004], .mzero ⟨false, 0, none, none, 0⟩ 1),
    ([0xFD82, 0x550C], .mstat ⟨false, 0, none, none, 0⟩ 4 3),
    ([0xFD82, 0x5804], .mcarry ⟨false, 0, none, none, 0⟩ true),
    ([0xFD82, 0x5C08], .mwait ⟨false, 0, none, none, 0⟩ 2),
    ([0xFD82, 0xFD06, 0x6114], .mvmq ⟨false, 0, none, none, 0⟩ 4 5 6 .bf16)] = true := by decide

/-- R24 to R37, words written out by hand: AMO, CAS, RED, REDF, WAITRED, FENCE. -/
theorem test_words_atomic_a : reads
   [([0xFD83, 0xFD06, 0xFE85, 0xFC18, 0x0514], .amo ⟨false, 1, none, some ⟨0, false, 5⟩, 0⟩ 4 5 6 .swap false),
    ([0xFD83, 0xFD06, 0x0914], .cas ⟨false, 0, none, none, 0⟩ 4 5 6 true),
    ([0xFD83, 0xFC15, 0x0D14], .red ⟨false, 1, none, none, 0⟩ 4 5 .max false),
    ([0xFD83, 0xFC1D, 0x1114], .redf ⟨false, 1, none, none, 0⟩ 4 5 .min true),
    ([0xFD83, 0x1400], .waitred ⟨false, 0, none, none, 0⟩),
    ([0xFD83, 0xFE86, 0x1808], .fence ⟨false, 0, none, some ⟨0, false, 6⟩, 0⟩ .rel)] = true := by decide

/-- R24 to R37, words written out by hand: WSET, WCLR, WPROBE, WWAIT, CPY, CPY2, CPYB, WAITB, CPYS, CPYQ. -/
theorem test_words_window_copy_a : reads
   [([0xFD84, 0x0514], .wset ⟨false, 0, none, none, 0⟩ 4 5),
    ([0xFD84, 0x0900], .wclr ⟨false, 0, none, none, 0⟩ 4),
    ([0xFD84, 0x0DD0], .wprobe ⟨false, 0, none, none, 0⟩ 7 4),
    ([0xFD84, 0x1100], .wwait ⟨false, 0, none, none, 0⟩ 4),
    ([0xFD84, 0xFD06, 0x1514], .cpy ⟨false, 0, none, none, 0⟩ 4 5 6),
    ([0xFD84, 0xFD08, 0x1914], .cpy2 ⟨false, 0, none, none, 0⟩ 4 5 8),
    ([0xFD84, 0x1E40], .cpyb ⟨false, 0, none, none, 0⟩ 9),
    ([0xFD84, 0xFC0C, 0x2020], .waitb ⟨false, 1, none, none, 0⟩ 200),
    ([0xFD84, 0xFD0A, 0x2514], .cpys ⟨false, 0, none, none, 0⟩ 4 5 10),
    ([0xFD84, 0x29E4], .cpyq ⟨false, 0, none, none, 0⟩ 7 9)] = true := by decide

/-- R24 to R37, words written out by hand: CHNEW, CHCLOSE, CHBIND, SEND, SENDT, RECV, RECVT, ALT, QBIND, QUNBIND, SPAWN, PRIO. -/
theorem test_words_process_a : reads
   [([0xFD85, 0x0514], .chnew ⟨false, 0, none, none, 0⟩ 4 5),
    ([0xFD85, 0xFC01, 0x0900], .chclose ⟨false, 1, none, none, 0⟩ 4 true),
    ([0xFD85, 0x0D14], .chbind ⟨false, 0, none, none, 0⟩ 4 5),
    ([0xFD85, 0xFD06, 0xFC03, 0x1114], .send ⟨false, 1, none, none, 0⟩ 4 (.vec 5) (some 6) true),
    ([0xFD85, 0x1514], .sendt ⟨false, 0, none, none, 0⟩ 4 5 none false),
    ([0xFD85, 0xFC01, 0x1914], .recv ⟨false, 1, none, none, 0⟩ (.sc 4) 5 none true),
    ([0xFD85, 0xFD06, 0xFC01, 0x1D14], .recvt ⟨false, 1, none, none, 0⟩ 4 5 (some 6) true),
    ([0xFD85, 0xFC17, 0x2114], .alt ⟨false, 1, none, none, 0⟩ 4 5 7 none true),
    ([0xFD85, 0x2514], .qbind ⟨false, 0, none, none, 0⟩ 4 5),
    ([0xFD85, 0x2900], .qunbind ⟨false, 0, none, none, 0⟩ 4),
    ([0xFD85, 0xFD06, 0x2D14], .spawn ⟨false, 0, none, none, 0⟩ 4 5 (some 6)),
    ([0xFD85, 0x301C], .prio ⟨false, 0, none, none, 0⟩ 7)] = true := by decide

/-- R24 to R37, words written out by hand: STAGE, SLEEP, TBLK, TUBLK, SELF, EXIT, YIELD, LAUNCH, LSTAT, BARJOIN, BARARV, BARWAIT. -/
theorem test_words_process_b : reads
   [([0xFD85, 0x343C], .stage ⟨false, 0, none, none, 0⟩ 15),
    ([0xFD85, 0x3900], .sleep ⟨false, 0, none, none, 0⟩ 4),
    ([0xFD85, 0x3D00], .tblk ⟨false, 0, none, none, 0⟩ 4),
    ([0xFD85, 0x4100], .tublk ⟨false, 0, none, none, 0⟩ 4),
    ([0xFD85, 0x4510], .self ⟨false, 0, none, none, 0⟩ 4 .reply),
    ([0xFD85, 0x4800], .exit ⟨false, 0, none, none, 0⟩),
    ([0xFD85, 0x4C00], .yield ⟨false, 0, none, none, 0⟩),
    ([0xFD85, 0xFC01, 0x5114], .launch ⟨false, 1, none, none, 0⟩ 4 5 true),
    ([0xFD85, 0x5514], .lstat ⟨false, 0, none, none, 0⟩ 4 5),
    ([0xFD85, 0x8114], .barjoin ⟨false, 0, none, none, 0⟩ 4 5),
    ([0xFD85, 0xFC01, 0x843C], .bararv ⟨false, 1, none, none, 0⟩ 31),
    ([0xFD85, 0x880C], .barwait ⟨false, 0, none, none, 0⟩ 3)] = true := by decide

/-- R24 to R37, words written out by hand: BAR, BARQ. -/
theorem test_words_process_c : reads
   [([0xFD85, 0xFC01, 0x8C00], .bar ⟨false, 1, none, none, 0⟩ 16),
    ([0xFD85, 0x9108], .barq ⟨false, 0, none, none, 0⟩ 4 2)] = true := by decide

/-- R24 to R37, words written out by hand: TRAP, SRET, MFSR, MTSR, TLBI, TLBP, PHASE, CTXSYNC, XBIND, XQRY, XPIN, XMERGE. -/
theorem test_words_system_a : reads
   [([0xFD86, 0xFC0F, 0x043C], .trap ⟨false, 1, none, none, 0⟩ 255),
    ([0xFD86, 0x0800], .sret ⟨false, 0, none, none, 0⟩),
    ([0xFD86, 0xFC03, 0x0D00], .mfsr ⟨false, 1, none, none, 0⟩ 4 0x30),
    ([0xFD86, 0xFC02, 0x1110], .mtsr ⟨false, 1, none, none, 0⟩ 4 0x24),
    ([0xFD86, 0x1500], .tlbi ⟨false, 0, none, none, 0⟩ 4 .va),
    ([0xFD86, 0x19E0], .tlbp ⟨false, 0, none, none, 0⟩ 7 8),
    ([0xFD86, 0x1D14], .phase ⟨false, 0, none, none, 0⟩ 4 5),
    ([0xFD86, 0x2000], .ctxsync ⟨false, 0, none, none, 0⟩),
    ([0xFD86, 0x4114], .xbind ⟨false, 0, none, none, 0⟩ 4 5),
    ([0xFD86, 0x4514], .xqry ⟨false, 0, none, none, 0⟩ 4 5),
    ([0xFD86, 0x4914], .xpin ⟨false, 0, none, none, 0⟩ 4 5),
    ([0xFD86, 0x4D00], .xmerge ⟨false, 0, none, none, 0⟩ 4)] = true := by decide

/-- R24 to R37, words written out by hand: GPRI, GQRY, GCAN, TRMARK, EVREAD, EVGATHER. -/
theorem test_words_system_b : reads
   [([0xFD86, 0x6114], .gpri ⟨false, 0, none, none, 0⟩ 4 5),
    ([0xFD86, 0x65E0], .gqry ⟨false, 0, none, none, 0⟩ 7 8),
    ([0xFD86, 0x6A40], .gcan ⟨false, 0, none, none, 0⟩ 9),
    ([0xFD86, 0x8100], .trmark ⟨false, 0, none, none, 0⟩ 4),
    ([0xFD86, 0xFC0C, 0x8500], .evread ⟨false, 1, none, none, 0⟩ 4 192),
    ([0xFD86, 0x8914], .evgather ⟨false, 0, none, none, 0⟩ 4 5)] = true := by decide

/-! ## Terms the check refuses (R26 to R29), one for each clause of `Shape.wf` -/

theorem test_wf_accepts : (Instr.add ⟨false, 0, none, none, 0⟩ 4 5 none).wf = true := by decide
/-- A reserved selector value: SEXT of 64 bits. -/
theorem test_wf_selector_value : (Instr.sext ⟨false, 1, none, none, 0⟩ 4 5 .d).wf = false := by decide
/-- Five prefixes. -/
theorem test_wf_five_prefixes : (Instr.lea ⟨true, 3, none, none, 0⟩ 20 5 (some 6) 3 0x10000).wf = false := by decide
/-- A register above 15 without PFX.R. -/
theorem test_wf_high_register : (Instr.add ⟨false, 0, none, none, 0⟩ 16 5 none).wf = false := by decide
/-- PFX.R on a form that takes none. -/
theorem test_wf_no_register_prefix : (Instr.ret ⟨true, 0, none, none, 0⟩).wf = false := by decide
/-- PFX.I on a form that takes none. -/
theorem test_wf_no_immediate_prefix : (Instr.nop ⟨false, 1, none, none, 0⟩).wf = false := by decide
/-- A selector that needs PFX.I. -/
theorem test_wf_selector_range : (Instr.ld ⟨false, 0, none, none, 0⟩ 4 5 .w 0).wf = false := by decide
/-- An immediate that does not fit. -/
theorem test_wf_immediate_range : (Instr.addi ⟨false, 0, none, none, 0⟩ 4 8).wf = false := by decide
/-- BP without PFX.Q. -/
theorem test_wf_predicate_needed : (Instr.bp ⟨false, 0, none, none, 0⟩ 0).wf = false := by decide
/-- p0 negated. -/
theorem test_wf_negated_p0 : (Instr.add ⟨false, 0, none, some ⟨0, true, 0⟩, 0⟩ 4 5 none).wf = false := by decide
/-- A scope on a form that takes none. -/
theorem test_wf_scope : (Instr.add ⟨false, 0, none, some ⟨1, false, 4⟩, 0⟩ 4 5 none).wf = false := by decide
/-- The same terms mended are accepted. -/
theorem test_wf_mended :
    ([.sext ⟨false, 1, none, none, 0⟩ 4 5 .b, .lea ⟨true, 2, none, none, 0⟩ 20 5 (some 6) 3 0x10, .add ⟨true, 0, none, none, 0⟩ 16 5 none,
      .ld ⟨false, 1, none, none, 0⟩ 4 5 .w 0, .addi ⟨false, 0, none, none, 0⟩ 4 7, .bp ⟨false, 0, none, some ⟨1, true, 0⟩, 0⟩ 0,
      .add ⟨false, 0, none, some ⟨1, true, 0⟩, 0⟩ 4 5 none] : List Instr).all Instr.wf = true := by decide
/-- A word of zero is illegal with cause 1 (R34). -/
theorem test_illegal : decodeWords [0] = .illegal 1 1 := by decide


/-! ## Witnesses: small states that meet the hypotheses of each statement

Process 256 of team 1 runs in cluster 0. A statement's witnesses carry its name; what several clauses share is shown once. -/

def wm : Mods := ⟨false, 0, none, none, 0⟩
def wp : Proc := { state := .running, slot := some 0, team := 1, lid := 1, pc := 0x10000 }
def wteam : Team := { lid := 1, index := 0, state := .running, nproc := 1, spmsz := 1, entry := 0x10000 }
/-- Process q with cluster 0 as c. -/
def wst (q : Proc) (c : Cluster) : State := { cur := some 256, procs := [(256, q)], clusters := [(0, c)], teams := [(1, wteam)] }
/-- An open chunk that holds nothing. -/
def wchunk : Chunk :=
  { count := 0, pc0 := 0x10000, ctx0 := {}, loop0 := none, buf := [], reds := [], rsig := [], wsig := [], shadow := [], seq0 := 0
    ended := false, marks := [] }
/-- Registers in which s5 holds the first address of the scratchpad. -/
def wctx : Ctx := { s := [(5, 0xC000000000000000)] }
/-- The prefixes with a predicate p1, which reads 0. -/
def wmOff : Mods := ⟨false, 0, none, some ⟨1, false, 0⟩, 0⟩

theorem issues_of (s : State) (q : Proc) (len : Nat) (hc : s.cur = some 256) (hp : s.proc? 256 = some q) (hs : q.ctx.short = [])
    (hl : q.loop = none) : Issues s 256 q len :=
  ⟨hc, hp, by simp [Ctx.Settled, hs], by simp [Proc.Inside, hl]⟩

theorem traps_of (q : Proc) (hs : q.svc = none) (hp : q.pend = 0) (hc : q.chunk = none) : q.TrapsHere := ⟨hs, hp, by simp [hc]⟩

theorem quiet_of (s : State) (q : Proc) (ho : q.outs = []) (hh : q.held = []) (hc : ∀ c ∈ q.chunk, c.reds = [])
    (ha : (s.cluster q.cl).dm.att = false) : Quiet s q := ⟨ho, hh, fun c h => hc c (by simp [h]), ha⟩

/-- The tables of a state in their canonical form, as one check. -/
def canonical (s : State) : Bool :=
  Memory.wf s.mem && Tab.sorted s.procs && Tab.sorted s.clusters && Tab.sorted s.memdies && Tab.sorted s.teams && Tab.sorted s.launches &&
  Tab.sorted s.msgs && Tab.sorted s.regs && Tab.sorted s.dieRegs && Tab.sorted s.links && Tab.sorted s.merges && Tab.sorted s.coalesce &&
  Tab.sorted s.codeErr && Tab.sorted s.twinH && Tab.sorted s.twinWait && decide s.poison.Nodup &&
  (s.clusters.all fun e => Tab.sorted e.2.greqs && Tab.sorted e.2.copies && Tab.sorted e.2.endps && Tab.sorted e.2.windows &&
    Tab.sorted e.2.slots && Tab.sorted e.2.regs) &&
  (s.procs.all fun e => Tab.sorted e.2.ctx.s && Tab.sorted e.2.bars)

theorem canon_of (s : State) (h : canonical s = true) : s.Canon := by
  simp only [canonical, Bool.and_eq_true, decide_eq_true_eq, List.all_eq_true] at h
  obtain ⟨⟨⟨⟨⟨⟨⟨⟨⟨⟨⟨⟨⟨⟨⟨⟨⟨h1, h2⟩, h3⟩, h4⟩, h5⟩, h6⟩, h7⟩, h8⟩, h9⟩, h10⟩, h11⟩, h12⟩, h13⟩, h14⟩, h15⟩, h16⟩, h17⟩, h18⟩ := h
  refine ⟨h1, h2, h3, h4, h5, h6, h7, h8, h9, h10, h11, h12, h13, h14, h15, h16, fun cl => ?_, fun p pr hp => h18 _ (Tab.mem_of_get? hp)⟩
  unfold State.cluster Tab.getD
  cases e : Tab.get? cl s.clusters with
  | none => exact ⟨rfl, rfl, rfl, rfl, rfl, rfl⟩
  | some c =>
    obtain ⟨⟨⟨⟨⟨a, b⟩, c⟩, d⟩, e⟩, f⟩ := h17 _ (Tab.mem_of_get? e)
    exact ⟨a, b, c, d, e, f⟩

/-- Nothing is under way in cluster 0. -/
theorem drained_of (s : State) (hc : (s.cluster 0).cache = []) (hw : (s.cluster 0).wbacks = []) (hh : s.heldOf 0 none = false) : Drained s 0 :=
  ⟨by simp [hc], hw, hh⟩

/-! ### Scalar and control -/

theorem witness_base (k t : Bool) : Issues (wst wp {}) 256 wp (lenOf wm k t) ∧ On wm wp ∧ wp.TrapsHere ∧ Quiet (wst wp {}) wp ∧
    (wst wp {}).Canon ∧ Drained (wst wp {}) 0 :=
  ⟨issues_of _ _ _ rfl rfl rfl rfl, rfl, traps_of _ rfl rfl rfl, quiet_of _ _ rfl rfl (by simp [wp]) rfl, canon_of _ (by decide),
    drained_of _ rfl rfl (by decide)⟩

theorem witness_RegisterFile : ({} : Ctx).Settled ∧ Tab.sorted ({} : Ctx).s = true ∧ Tab.sorted ({} : Ctx).p = true :=
  ⟨by simp [Ctx.Settled], rfl, rfl⟩
theorem witness_TwoSourceResults : Issues (wst wp {}) 256 wp (lenOf wm false true) ∧ On wm wp := ⟨(witness_base false true).1, rfl⟩
theorem witness_OneSourceResults : Issues (wst wp {}) 256 wp (lenOf wm false false) ∧ On wm wp := ⟨(witness_base false false).1, rfl⟩
theorem witness_PredicateResults : Issues (wst wp {}) 256 wp (lenOf wm true true) ∧ On wm wp := ⟨(witness_base true true).1, rfl⟩
theorem witness_GatedOff : Issues (wst wp {}) 256 wp (lenOf wmOff false false) ∧ onOf wmOff wp.ctx = false :=
  ⟨issues_of _ _ _ rfl rfl rfl rfl, by decide⟩
/-- An even and an odd target. -/
theorem witness_Transfers : Issues (wst wp {}) 256 wp (lenOf wm false false) ∧ On wm wp ∧ wp.TrapsHere ∧
    (wp.pc + 2 * 5).getLsbD 0 = false ∧ ({ wp with pc := 0x10001 } : Proc).pc.getLsbD 0 = true ∧
    (wp.ctx.rs 63).getLsbD 0 = false ∧ (({ s := [(63, 3)] } : Ctx).rs 63).getLsbD 0 = true :=
  ⟨(witness_base false false).1, rfl, (witness_base false false).2.2.1, by decide, by decide, by decide, by decide⟩

/-- A machine whose process issues, with words in place at its program counter (`State.withFetchWord`). -/
def wfetch (w : Nat) : State := State.reset.withFetchWord 16 w
def wfetchPid : Pid := ((wfetch 0x060A).nextIssuer).getD 0

/-- A block of one ADD after a REP of two bytes at the address before it can be fetched. -/
theorem witness_RepBlocks_fetch : (((wfetch 0x060A).proc? wfetchPid).map fun pr =>
    match fetchBlock wfetchPid 1 pr.pc [] (wfetch 0x060A) with
    | .ok (x, t) => decide ((t.proc? wfetchPid).map Proc.pc = some pr.pc ∧ x.1 = pr.pc + 2)
    | .error _ => false) = some true := by decide +kernel
def wloop : Loop := { rep := 0xFFF0, start := 0xFFF2, stop := 0x10002, n := 3, sreg := 4, words := [] }
theorem witness_RepBlocks_end : let pr := { wp with loop := some wloop }
    (wst pr {}).cur = some 256 ∧ (wst pr {}).proc? 256 = some pr ∧ pr.ctx.Settled ∧ On wm pr ∧ pr.leaving = false ∧
    pr.loop = some wloop ∧ wloop.sreg ≠ 0 ∧ pr.pc + BitVec.ofNat 64 (lenOf wm false false) = wloop.stop :=
  ⟨rfl, rfl, by simp [Ctx.Settled, wp], rfl, rfl, rfl, by decide, by decide⟩

/-- No enabled flag is set; the enabled flag 0 of lane 0 is; breakpoints reach a debugger. -/
theorem witness_NopTfenceAndBkpt :
    let set := fun (c : Ctx) (f : Nat) => (List.range 16).any fun l => c.flags.getLsbD (5 * l + f) && c.fctl.getLsbD (8 + f)
    (∀ f < 5, set wp.ctx f = false) ∧ (∃ f < 5, set { flags := 1, fctl := 0x100 } f = true) ∧
    (let s := wst { wp with dbgEn := 1 } { dm := { att := true, xgrp := 15 } }
     (s.proc? 256).map (fun q => q.dbgEn.getLsbD 0) = some true ∧ (s.cluster 0).dm.att = true ∧ (s.cluster 0).dm.phase = .running ∧
      8 ≤ (s.cluster 0).dm.xgrp.toNat) ∧ wp.dbgEn.getLsbD 0 = false := by decide

/-- A chunk that holds an earlier instruction; a process that service firmware serves. -/
theorem witness_TrapsAndReturns : (let pr := { wp with chunk := some { wchunk with count := 3 } }
    Issues (wst pr {}) 256 pr (lenOf wm false false) ∧ On wm pr ∧ pr.chunk = some { wchunk with count := 3 }) ∧
    (let pr := { wp with svc := some 0, state := .service }
     let x : SvcCtx := { pid := 256, frame := { tcause := 28, tpc := 0x10000 }, loop := none, second := none }
     let s := wst pr { svc := [(0, { ctx := some x })] }
     Issues s 256 pr (lenOf wm true false) ∧ pr.svc = some 0 ∧ Tab.sorted pr.ctx.s = true ∧
      (Tab.getD 0 (s.cluster 0).svc {}).ctx = some x ∧ pr.chunk = none ∧ bits x.frame.svcst 2 1 = 0) :=
  ⟨⟨issues_of _ _ _ rfl rfl rfl rfl, rfl, rfl⟩, issues_of _ _ _ rfl rfl rfl rfl, rfl, rfl, rfl, rfl, by decide⟩

/-! ### Vectors and tiles -/

/-- v1 and v2 hold elements of tag k under scale 0, and so do t1 and t2; v3 and t3 hold INT32. -/
def wvec (k : BitVec 4) : Ctx :=
  { vtag := [(1, k), (2, k), (3, 5)], ttag := [(1, k), (2, k), (3, 5)], v := [(1, 0x0102)], s := [(5, 0xC000000000000000)] }

theorem witness_VectorBitwiseAndCompare : (wvec 5).rvtag 1 ≤ 13 ∧ (wvec 5).rvtag 2 = (wvec 5).rvtag 1 ∧ (wvec 5).rvscale 2 = (wvec 5).rvscale 1 ∧
    Tag.isI .int32 = true ∧ (wvec 5).rvtag 1 = BitVec.ofNat 4 (Tag.code .int32) := by decide
theorem witness_VectorIntegerLanes : (wvec 1).rvtag 1 = BitVec.ofNat 4 (Tag.code .int8) ∧ (wvec 1).rvtag 2 = (wvec 1).rvtag 1 ∧
    (wvec 1).rvscale 1 = (wvec 1).rvscale 2 ∧ -128 ≤ ((wvec 1).rvscale 1).toInt + ((wvec 1).rvscale 2).toInt ∧
    ((wvec 1).rvscale 1).toInt + ((wvec 1).rvscale 2).toInt ≤ 127 := by decide
theorem witness_VectorIntegerForms : let c := wvec 5
    c.rvtag 3 = c.rvtag 1 ∧ c.rvtag 2 = c.rvtag 1 ∧ c.rvtag 1 = BitVec.ofNat 4 (Tag.code .int32) ∧
    (c.rvscale 3).toInt = (c.rvscale 1).toInt + (c.rvscale 2).toInt ∧ c.rvscale 1 = c.rvscale 3 ∧ c.rvscale 2 = c.rvscale 3 := by decide
theorem witness_VectorFloatForms : let c := wvec 6
    Tag.isF .fp32 = true ∧ c.rvtag 1 = BitVec.ofNat 4 (Tag.code .fp32) ∧ c.rvtag 2 = c.rvtag 1 ∧ c.rvscale 1 = c.rvscale 2 ∧
    (c.rvscale 1).toInt = (c.rvscale 1).toInt + (c.rvscale 2).toInt := by decide
theorem witness_VectorReductions : (wvec 1).rvtag 1 = BitVec.ofNat 4 (Tag.code .int8) ∧ (wvec 1).rvtag 3 = 5 ∧
    ((wvec 1).rvscale 3).toInt = ((wvec 1).rvscale 1).toInt + ((wvec 1).rvscale 2).toInt ∧ Tag.int8 ∈ [Tag.int8, .nat8] := by decide
theorem witness_VectorLaneMoves : (wvec 0).rvtag 1 = BitVec.ofNat 4 (Tag.code .raw) ∧ (63 : BitVec 6).toNat < 512 / 8 ∧ (wvec 0).rvtag 2 ≤ 2 ∧
    (wvec 13).rvtag 1 = BitVec.ofNat 4 (Tag.code .acc20) ∧ (15 : BitVec 6).toNat < 512 / 32 ∧ (wvec 5).rvtag 1 = BitVec.ofNat 4 (Tag.code .int32) := by
  decide
/-- Different tags meet in v1 and v3; a whole conversion writes every byte. -/
theorem witness_VectorConversionsAndTags : (wvec 1).rvtag 1 = BitVec.ofNat 4 (Tag.code .int8) ∧ (wvec 1).rvtag 3 ≠ (wvec 1).rvtag 1 ∧
    (wvec 1).rvscale 1 = 0 ∧ maskOf wm (wvec 1) = BitVec.allOnes 64 ∧ lenOf wm true true < 16 ∧
    (Tag.isI .int8 || Tag.isF .int8) = true := by decide
theorem witness_TileForms : (wvec 1).rttag 1 ≤ 13 ∧ (wvec 1).rttag 1 ≠ 0 ∧ (wvec 1).rttag 3 = 5 ∧
    (wvec 1).rttag 1 = BitVec.ofNat 4 (Tag.code .int8) ∧ (wvec 1).rttag 2 = (wvec 1).rttag 1 ∧ (wvec 1).rtscale 2 = (wvec 1).rtscale 1 ∧
    ((wvec 1).rtscale 3).toInt = ((wvec 1).rtscale 1).toInt + ((wvec 1).rtscale 2).toInt ∧ (wvec 0).rttag 1 = 0 ∧
    -128 ≤ ((wvec 1).rtscale 1).toInt + ((wvec 1).rs 4).toInt ∧ ((wvec 1).rtscale 1).toInt + ((wvec 1).rs 4).toInt ≤ 127 := by decide

/-! ### Loads, stores, atomics, reductions and commits -/

/-- `Local` as one check. -/
def localB (s : State) (pr : Proc) (ea : Word) (n loc : Nat) : Bool :=
  decide (spaceOf ea = 3) && decide (bits ea 61 32 = 0) && decide (bits ea 31 0 + n ≤ s.spmBytes pr.team) &&
  decide (loc = sramLoc pr.cl (s.spmOf pr.team + bits ea 31 0)) && decide (s.spmOf pr.team + bits ea 31 0 + n ≤ 0x02000000) && isSram loc &&
  decide (ea.toNat % n = 0) && decide (loc % 64 + n ≤ 64) && (s.windowAt pr.cl (s.spmOf pr.team + bits ea 31 0)).isNone &&
  !s.poison.contains (lineOf loc) && decide (Tab.getD (lineOf loc) s.codeErr 0 = 0) && decide (Tab.getD (lineOf loc) s.phys.flips 0 = 0) &&
  s.redSlots.all fun r => decide (lineOf r.loc ≠ lineOf loc)

theorem local_of (s : State) (pr : Proc) (ea : Word) (n loc : Nat) (h : localB s pr ea n loc = true) : Local s pr ea n loc := by
  simp only [localB, Bool.and_eq_true, decide_eq_true_eq, Option.isNone_iff_eq_none, Bool.not_eq_true', List.all_eq_true] at h
  obtain ⟨⟨⟨⟨⟨⟨⟨⟨⟨⟨⟨⟨h1, h2⟩, h3⟩, h4⟩, h5⟩, h6⟩, h7⟩, h8⟩, h9⟩, h10⟩, h11⟩, h12⟩, h13⟩ := h
  exact ⟨h1, h2, h3, h4, h5, h6, h7, h8, h9, h10, h11, h12, h13⟩

def wpm : Proc := { wp with ctx := wctx }
def wpc : Proc := { wpm with chunk := some wchunk }
/-- Two lanes of a gather from different words, the others off. -/
def wgather : Ctx := { wctx with v := [(2, 4)], p := [(1, 0x11)] }
def wmOn : Mods := ⟨false, 0, none, some ⟨1, false, 0⟩, 0⟩

theorem witness_ScratchpadLoading : Issues (wst wpm {}) 256 wpm (lenOf wm false false) ∧ On wm wpm ∧ Quiet (wst wpm {}) wpm ∧
    Local (wst wpm {}) wpm (wpm.ctx.rs 5 + 8) 8 (sramLoc 0 8) ∧ Local (wst wpm {}) wpm (wpm.ctx.rs 5) 64 (sramLoc 0 0) ∧
    (∀ i < 16, Local (wst wpm {}) wpm (wpm.ctx.rs 5 + BitVec.ofNat 64 (64 * i)) 64 (sramLoc 0 0 + 64 * i)) ∧
    wpm.ctx.rs 5 + 0x04000000 = 0xC000000004000000 ∧ regionOf wpm.cl = 0 ∧ (wst wpm {}).spmBytes wpm.team ≤ 0x04000000 :=
  ⟨issues_of _ _ _ rfl rfl rfl rfl, rfl, quiet_of _ _ rfl rfl (by simp [wpm, wp]) rfl, local_of _ _ _ _ _ (by decide),
    local_of _ _ _ _ _ (by decide), fun i hi => local_of _ _ _ _ _ ((by decide : ∀ i < 16, localB (wst wpm {}) wpm
      (wpm.ctx.rs 5 + BitVec.ofNat 64 (64 * i)) 64 (sramLoc 0 0 + 64 * i) = true) i hi), by decide, by decide, by decide⟩
def wpg : Proc := { wp with ctx := wgather }
def wlane (i : Nat) : Bool := (maskOf wmOn wgather).getLsbD (4 * i)
def wlanes (i : Nat) : Nat := sramLoc 0 (if i = 0 then 4 else 0)
/-- Gathers and scatters: lanes 0 and 1, whose words do not meet. -/
theorem witness_ScratchpadLoading_gather : wgather.rvtag 2 = 0 ∧ wlane 0 = true ∧ wlane 1 = true ∧
    ((List.range 16).all fun i => !wlane i || localB (wst wpg {}) wpg
      (wgather.rs 5 + ((wgather.rv 2).extractLsb' (32 * i) 32).setWidth 64) 4 (wlanes i)) = true ∧
    ((List.range 16).all fun i => (List.range 16).all fun j => !wlane i || !wlane j || decide (i = j) ||
      decide (wlanes i + 4 ≤ wlanes j ∨ wlanes j + 4 ≤ wlanes i)) = true := by decide +kernel
/-- Inside a chunk, and outside every chunk. -/
theorem witness_ScratchpadStores : Issues (wst wpc {}) 256 wpc (lenOf wm false false) ∧ On wm wpc ∧ Quiet (wst wpc {}) wpc ∧
    wpc.chunk = some wchunk ∧ Local (wst wpc {}) wpc (wpc.ctx.rs 5) 8 (sramLoc 0 0) ∧ scopeOf wm ≤ 3 ∧ wpm.chunk = none ∧
    (wst wpm {}).MemWf ∧ Drained (wst wpm {}) wpm.cl ∧ 4 ≤ scopeOf ⟨false, 0, none, some ⟨0, false, 4⟩, 0⟩ :=
  ⟨issues_of _ _ _ rfl rfl rfl rfl, rfl, quiet_of _ _ rfl rfl (by simp [wpc, wchunk]) rfl, rfl, local_of _ _ _ _ _ (by decide), by decide, rfl,
    rfl, drained_of _ rfl rfl (by decide), by decide⟩
/-- A misaligned and a malformed address. -/
theorem witness_AccessFaults : wpm.TrapsHere ∧ spaceOf (wpm.ctx.rs 5) = 3 ∧ bits (wpm.ctx.rs 5 + 1) 61 32 = 0 ∧
    bits (wpm.ctx.rs 5 + 1) 31 0 + 8 ≤ (wst wpm {}).spmBytes wpm.team ∧ (wpm.ctx.rs 5 + 1).toNat % 8 ≠ 0 ∧
    bits (wpm.ctx.rs 5 + 0x100000000) 61 32 ≠ 0 ∧ ((wst wpm {}).cluster 0).cache.length < cacheLines :=
  ⟨traps_of _ rfl rfl rfl, by decide, by decide, by decide, by decide, by decide, by decide⟩

/-- Operations of process 256 that wait for an answer, or have it. -/
def wop (k : Nat) (r : OpRes) : Op := { id := 7, key := k, res := r }
def wpw (k : Nat) (r : OpRes) : Proc := { wpm with state := .blocked, op := some (wop k r) }
theorem witness_Atomics : Issues (wst wpc {}) 256 wpc (lenOf wm true true) ∧ Quiet (wst wpc {}) wpc ∧ wpc.chunk = some wchunk ∧ wpc.op = none ∧
    scopeOf wm ≤ 3 ∧ Local (wst wpc {}) wpc (wpc.ctx.rs 5) 8 (sramLoc 0 0) :=
  ⟨issues_of _ _ _ rfl rfl rfl rfl, quiet_of _ _ rfl rfl (by simp [wpc, wchunk]) rfl, rfl, rfl, by decide, local_of _ _ _ _ _ (by decide)⟩
/-- At the home, for the waiting process, and with the value come. -/
theorem witness_Atomics_home : let pr := wpw amoKey .waiting
    let s := wst pr {}
    s.proc? 256 = some pr ∧ pr.op = some (wop amoKey .waiting) ∧ 256 < 2 ^ 32 ∧ Local s pr 0xC000000000000000 8 (sramLoc 0 0) ∧ s.memdies = [] ∧
    (s.cluster 0).dm.att = false ∧ (s.cluster ((sramLoc 0 0 - sramBase) / 2 ^ 32)).armed = [] ∧ s.MemWf ∧ amoKey ≤ (wop amoKey .waiting).key ∧
    pr.state = .blocked ∧ pr.slot.isSome = true ∧
    Issues (wst (wpw amoKey (.ok 5)) {}) 256 (wpw amoKey (.ok 5)) (lenOf wm true true) ∧ (wop amoKey (.ok 5)).res = .ok 5 :=
  ⟨rfl, rfl, by decide, local_of _ _ _ _ _ (by decide), rfl, rfl, rfl, rfl, Nat.le_refl _, rfl, rfl, issues_of _ _ _ rfl rfl rfl rfl, rfl⟩

def wred : RedSlot := { loc := sramLoc 0 0, cn := 3, bf16 := false, val := 0 }
theorem witness_ReductionsAndFences : Issues (wst wpc {}) 256 wpc (lenOf wm true false) ∧ wpc.chunk = some wchunk ∧
    wpc.pend + wchunk.reds.length < 16 ∧ wpc.outs = [] ∧ Local (wst wpc {}) wpc (wpc.ctx.rs 5) 4 (sramLoc 0 0) ∧ wpc.pend = 0 ∧ wpc.held = [] ∧
    Drained (wst wpc {}) wpc.cl ∧ ({ wp with pend := 2 } : Proc).pend ≠ 0 ∧ ({ wp with pend := 2 } : Proc).svc = none :=
  ⟨issues_of _ _ _ rfl rfl rfl rfl, rfl, by decide, rfl, local_of _ _ _ _ _ (by decide), rfl, rfl, drained_of _ rfl rfl (by decide), by decide, rfl⟩
/-- The first operand at a location, and a second of its contributor. -/
theorem witness_ReductionsAndFences_slots : let s := wst wp {}
    let t := { s with redSlots := [wred] }
    let l := sramLoc 0 0
    s.moveOf l = none ∧ s.isPoison (lineOf l) = false ∧ Tab.getD (lineOf l) s.codeErr 0 = 0 ∧ Tab.getD (lineOf l) s.phys.flips 0 = 0 ∧
    (∀ r ∈ s.redSlots, r.loc ≠ l) ∧ s.slotsUsed l < slotLimit l ∧ t.moveOf l = none ∧ t.isPoison (lineOf l) = false ∧
    (∀ r ∈ t.redSlots, r.loc = l → r.bf16 = false) ∧ (∃ r ∈ t.redSlots, r.loc = l ∧ r.cn = 3) := by decide +kernel

def wout (red : Bool) : OutAcc := { id := 9, space := 1, line := remoteBase, red := red, scope := 3, take := [], hold := none }
theorem witness_AnswersFromOutside : let s := wst (wpw 5 .waiting) {}
    s.proc? 256 = some (wpw 5 .waiting) ∧ (wop 5 .waiting).res = .waiting ∧ (wpw 5 .waiting).state = .blocked ∧
    (wpw 5 .waiting).slot.isSome = true ∧ (wop 5 .waiting).id < 2 ^ 48 ∧ s.prefetches = [] :=
  ⟨rfl, rfl, rfl, rfl, by decide, rfl⟩
theorem witness_AnswersFromOutside_acks (red : Bool) : let pr := { wp with outs := [wout red], pend := if red then 1 else 0 }
    let s := wst pr {}
    s.proc? 256 = some pr ∧ pr.outs = [wout red] ∧ (wout red).take = [] ∧ pr.leaving = false ∧ pr.wkind ≠ .reply ∧ s.leftWrites = [] ∧
    (∀ e ∈ s.clusters, e.2.wbacks = []) ∧ (wout red).red = red :=
  ⟨rfl, rfl, rfl, rfl, fun h => WKind.noConfusion h, rfl, by simp [wst], rfl⟩

def wend : Chunk := { wchunk with count := 2, ended := true, buf := [(sramLoc 0 0, 9)], rsig := [sramLoc 0 64], wsig := [sramLoc 0 0] }
/-- A chunk that commits, and one that read a line written since it began. -/
theorem witness_ChunkCommits : let pr := { wp with chunk := some wend }
    let s := wst pr {}
    let t := wst pr { wsets := [(0, [sramLoc 0 64])], seq := 1 }
    s.proc? 256 = some pr ∧ wend.ended = true ∧ (s.cluster 0).token = none ∧ (s.cluster 0).commitAt ≤ s.cycles ∧ pr.wkind ≠ .reply ∧ overlaps wend (s.cluster 0).wsets = false ∧
    pr.hits = [] ∧ s.replayTurn 0 = none ∧ wend.reds = [] ∧ wend.marks = [] ∧ Memory.wf s.mem = true ∧ Tab.sorted wend.buf = true ∧
    (∀ e ∈ wend.buf, sramLoc 0 0 ≤ e.1 ∧ e.1 < sramLoc 0 0x02000000 ∧ isSram e.1 = true) ∧ s.redSlots = [] ∧ s.poison = [] ∧ s.codeErr = [] ∧
    (t.cluster 0).token = none ∧ (t.cluster 0).commitAt ≤ t.cycles ∧ overlaps wend (t.cluster 0).wsets = true ∧ pr.solo = false := by decide +kernel

/-! ### Windows, copies, batches and grants -/

/-- Process q and cluster 0 as c, with words at the first addresses of the scratchpad. -/
def wsm (q : Proc) (c : Cluster) (ws : List Word) : State := { wst q c with mem := Memory.write [] (sramLoc 0 0) (wordsBytes ws) }
/-- A window of one row of 64 bytes at 0x1000. -/
def wwin : List Word := [0x1000, 0x10000, 0x400001, 64, 0, 0, 0, 0]
def wseen (ws : List Word) : List Word := (List.range 8).map (seenWord (wsm wpm {} ws) wpm (sramLoc 0 0))
def wpresent : Window := { windowOf wwin 1 0 256 with st := .present, pend := 0 }

theorem witness_Windows_wset : let s := wsm wpm {} wwin
    Issues s 256 wpm (lenOf wm true false) ∧ Quiet s wpm ∧ wpm.op = none ∧ Local s wpm (wpm.ctx.rs 5) 64 (sramLoc 0 0) ∧
    bits (wpm.ctx.rs 4) 63 8 = 0 ∧ badWindow (wseen wwin) = false ∧ bit (seenWord s wpm (sramLoc 0 0) 4) 5 = false ∧
    s.windowBad wpm.cl (windowOf (wseen wwin) wpm.team (bits (wpm.ctx.rs 4) 7 0) 256) = 0 ∧
    Tab.freeKey (s.cluster wpm.cl).windows 0 256 = some 0 ∧ s.windowNum wpm.cl wpm.team (bits (wpm.ctx.rs 4) 7 0) = none ∧ wpm.TrapsHere :=
  ⟨issues_of _ _ _ rfl rfl rfl rfl, quiet_of _ _ rfl rfl (by simp [wpm, wp]) rfl, rfl, local_of _ _ _ _ _ (by decide +kernel), by decide,
    by decide +kernel, by decide +kernel, by decide +kernel, by decide +kernel, by decide +kernel, traps_of _ rfl rfl rfl⟩
theorem witness_Windows_bound : let s := wst wpm { windows := [(0, wpresent)] }
    s.windowNum wpm.cl wpm.team (bits (wpm.ctx.rs 4) 7 0) = some (0, wpresent) ∧ Tab.get? 0 (s.cluster wpm.cl).windows = some wpresent ∧
    wpresent.st = .present ∧ wpresent.ovr = false ∧ (∀ e ∈ (s.cluster wpm.cl).copies, e.2.win ≠ some 0) ∧ bits (wpm.ctx.rs 4) 63 8 = 0 ∧
    wpresent.pend < 2 ^ 26 := by decide

/-- s5 the scratchpad, s6 device memory, s7 a length or a descriptor, s8 what follows it. -/
def wcopy (dst src t n : Word) : Proc := { wp with ctx := { s := [(5, dst), (6, src), (7, t), (8, n)] } }
theorem witness_CopyCommands_cpy : let q := wcopy 0xC000000000001000 0x10000 64 0
    let s := wst q {}
    Issues s 256 q (lenOf wm true true) ∧ Quiet s q ∧ Drained s q.cl ∧ (q.ctx.rs 5).toNat % 64 = 0 ∧ (q.ctx.rs 6).toNat % 64 = 0 ∧
    Tab.freeKey (s.cluster q.cl).copies 0 64 = some 0 ∧ spaceOf (q.ctx.rs 6) = 0 ∧ spaceOf (q.ctx.rs 5) = 3 ∧ bits (q.ctx.rs 5) 61 32 = 0 ∧
    bits (q.ctx.rs 5) 31 0 < 0x02000000 ∧ (q.ctx.rs 7).toNat % 64 = 0 ∧ 0 < (q.ctx.rs 7).toNat ∧ (q.ctx.rs 7).toNat ≤ 0xFFFFFFC0 ∧
    bits (q.ctx.rs 5) 31 0 + (q.ctx.rs 7).toNat ≤ s.spmBytes q.team :=
  ⟨issues_of _ _ _ rfl rfl rfl rfl, quiet_of _ _ rfl rfl (by simp [wcopy, wp]) rfl, drained_of _ rfl rfl (by decide), by decide, by decide,
    by decide, by decide, by decide, by decide, by decide, by decide, by decide, by decide, by decide⟩
def wcpy2 : Proc := wcopy 0xC000000000001000 0x10000 0xC000000000000000 0
def wshape : List Word := [0x400001, 64, 64, 0, 0, 0, 0, 0]
theorem witness_CopyCommands_cpy2 : let s := wsm wcpy2 {} wshape
    let word := seenWord s wcpy2 (sramLoc 0 0)
    localB s wcpy2 (wcpy2.ctx.rs 7) 64 (sramLoc 0 0) = true ∧ badShape ((List.range 8).map word) = false ∧
    s.endBad wcpy2.team (wcpy2.ctx.rs 5) (bits (word 0) 15 0) (bits (word 0) 47 16) (word 2) false = 0 := by decide +kernel
def wcpys : Proc := wcopy 0x20000 0x8000000000000000 0xC000000000000000 128
theorem witness_CopyCommands_cpys : let s := { wsm wcpys {} [0, 0x8000000000010000] with mgmt := { tdisp := .run, session := true } }
    let word := seenWord s wcpys (sramLoc 0 0)
    spaceOf (wcpys.ctx.rs 6) = 2 ∧ spaceOf (wcpys.ctx.rs 5) = 0 ∧ localB s wcpys (wcpys.ctx.rs 7) 64 (sramLoc 0 0) = true ∧
    (wcpys.ctx.rs (7 + 1)).toNat % 64 = 0 ∧ 0 < (wcpys.ctx.rs (7 + 1)).toNat ∧ (wcpys.ctx.rs (7 + 1)).toNat ≤ 0xFFFFFFC0 ∧
    badSession ((List.range 8).map word) = false ∧ bit (word 0) 4 = false ∧ s.mgmt.tdisp = .run ∧ s.mgmt.session = true ∧
    (wst wp {}).mgmt.session = false := by decide +kernel

def wbatch : Proc := { wp with batches := [(0, .running)], openBatch := 1 }
/-- One unfinished batch beside the open one, number 1; no batch has number 2. -/
theorem witness_Batches : let unf := (wbatch.batches.filter fun e => e.2 = .running).length
    unf < 255 ∧ unf ≤ (1 : BitVec 8).toNat ∧ (0 : BitVec 8).toNat < unf ∧ wbatch.svc = none ∧ wbatch.openBatch.toNat = 1 ∧
    ((wst wbatch {}).cluster 0).copies = [] ∧ Tab.get? 2 wbatch.batches = none ∧ bits 2 63 8 = 0 := by decide

/-- An endpoint of team 1 for words of eight bytes, number 5. -/
def wend3 : Endp := { sclass := 3, team := 1, idx := 5 }
def wh : Word := mkHandle 63 3 0 true 0 5
def wpe : Proc := { wp with ctx := { s := [(4, wh)] } }
def wse : State := { wst wpe { endps := [(0, wend3)] } with dir := [(5, (0, 0))] }
theorem witness_Grants : wse.qualifies 256 wpe (wpe.ctx.rs 4) = some 0 ∧ Tab.get? 0 (wse.cluster wpe.cl).endps = some wend3 ∧ wend3.reply = false ∧
    bits (wpe.ctx.rs 5) 63 2 = 0 ∧ wend3.unm = [] ∧ wend3.waiters = [] ∧ wend3.slots = [] ∧ (∀ q ∈ (wse.cluster wpe.cl).greqs, q.2.ep ≠ some 0) ∧
    wse.qualifies 256 wpe (wpe.ctx.rs 5) = none ∧ wpe.ctx.rs 5 = 0 ∧ (wse.cluster 0).out < 2 ^ 22 ∧
    wse.qualifies 256 { wpe with team := 2 } (wpe.ctx.rs 4) = none ∧ wpe.ctx.rs 4 ≠ 0 := by decide +kernel

/-! ### The matrix array -/

def wlease : Lease := { pid := 256, left := 3, start := 0, trapMode := false, busy := false }
def wslot : Slot := { team := 1, tslot := 0 }
/-- The holder of the array with a slot claimed; s4 and s5 are A and B, s6 an MMA of 1 × 1 outputs and 64 products. -/
def wpa : Proc := { wp with ctx := { s := [(4, 0xC000000000000000), (5, 0xC000000000001000), (6, 0x1F80000), (7, 0xC000000000002000)] } }
def wca : Cluster := { lease := some wlease, slots := [(0, wslot)] }
theorem witness_ArrayLeases : let s := wst wpa wca
    (s.cluster 0).lease = some wlease ∧ wlease.pid = 256 ∧ ((wst wpa {}).cluster 0).lease = none ∧ wpa.svc = none ∧
    ((wst wpa {}).cluster 0).leaseQ = [] ∧ (wst wpa {}).teamSlot wpa 0 = none ∧ s.teamSlot wpa 0 = some (0, wslot) ∧
    (s.cluster 0).carry.length ≤ 1024 ∧ wslot.lock = false ∧
    (wst wpa { slots := [(0, { wslot with lock := true })] }).teamSlot wpa 0 = some (0, { wslot with lock := true }) := by decide
theorem witness_ArrayCommands : let s := wst wpa wca
    Issues s 256 wpa (lenOf wm true true) ∧ On wm wpa ∧ wpa.svc = none ∧ wpa.op = none ∧ Quiet s wpa ∧ (s.cluster 0).lease = some wlease ∧
    s.teamSlot wpa 0 = some (0, wslot) ∧ wslot.lock = false ∧
    s.mmaCheck wpa 0 { mode := .int8, sa := wpa.ctx.rs 4, sb := wpa.ctx.rs 5, sm := wpa.ctx.rs 6 } = none ∧
    spaceOf (wpa.ctx.rs 7) = 3 ∧ bits (wpa.ctx.rs 7) 61 32 = 0 ∧ (wpa.ctx.rs 7).toNat % 64 = 0 ∧
    bits (wpa.ctx.rs 7) 31 0 + wslot.drainBytes .int32 ≤ s.spmBytes wpa.team :=
  ⟨issues_of _ _ _ rfl rfl rfl rfl, rfl, rfl, rfl, quiet_of _ _ rfl rfl (by simp [wpa, wp]) rfl, rfl, rfl, rfl, by decide +kernel, by decide,
    by decide, by decide, by decide +kernel⟩
theorem witness_ArrayCommands_end : let q := wpw arrKey (.ok 0)
    Issues (wst q {}) 256 q (lenOf wm true false) ∧ q.op = some (wop arrKey (.ok 0)) ∧ (wop arrKey (.ok 0)).res = .ok 0 :=
  ⟨issues_of _ _ _ rfl rfl rfl rfl, rfl, rfl⟩

/-- The leaf that maps VA 0x10000 to memory die 0, in core 0's TLB, for the address space 0. -/
def wpage : TlbE := { asid := 0, va := 1, size := 0, leaf := bootLeaf, leafPa := 0x245008 }
def wct : Cluster := { ctlb := [(0, [wpage])], tlb := [wpage] }
def wpv : Proc := { wp with ctx := { s := [(4, 0xC000000000000000), (5, 0x10000), (6, 0x1F80000)] } }
/-- The E part; a shape of two rows of output; a vector and weights that pass the checks. -/
theorem witness_ArrayCommands_mvmq : let s := wst wpv wct
    Issues s 256 wpv (lenOf wm true true) ∧ On wm wpv ∧ Quiet s wpv ∧ wpv.TrapsHere ∧ Part.isE ({ part := .fullE } : Phys).part = true ∧
    Part.isE s.phys.part = false ∧ s.mvmArg wpv .int8 (wpv.ctx.rs 4) (wpv.ctx.rs 5) 1 = true ∧
    s.mvmArg wpv .int8 (wpv.ctx.rs 4) (wpv.ctx.rs 5) (wpv.ctx.rs 6) = false ∧
    (match resolve 256 (wpv.ctx.rs 5) 64 .read false s with | .ok r => decide (r = (.mem 0x300000, s)) | .error _ => false) = true ∧ isDev 0x300000 = true ∧ Drained s wpv.cl ∧
    (s.cluster wpv.cl).windows = [] ∧ s.poison = [] ∧ s.codeErr = [] ∧ s.phys.flips = [] ∧ s.redSlots = [] :=
  ⟨issues_of _ _ _ rfl rfl rfl rfl, rfl, quiet_of _ _ rfl rfl (by simp [wpv, wp]) rfl, traps_of _ rfl rfl rfl, rfl, by decide, by decide +kernel,
    by decide +kernel, by decide +kernel, by decide, drained_of _ rfl rfl (by decide), rfl, rfl, rfl, rfl, rfl⟩

theorem witness_ArraySteps_grant : let r : LeaseReq := { pid := 256, n := 4, time := 0 }
    let s := wst { wp with state := .blocked, wkind := .lease } { leaseQ := [r] }
    let t := { wst wp { lease := some wlease } with cycles := 60000 }
    s.Canon ∧ (s.cluster 0).dm.phase = .running ∧ (s.cluster 0).slots = [] ∧ (s.cluster 0).lease = none ∧ (s.cluster 0).leaseAt ≤ s.cycles ∧
    s.bestLease 0 = some r ∧ (t.cluster 0).lease = some wlease ∧ wlease.busy = false ∧ wlease.start + 50000 ≤ t.timebase :=
  ⟨canon_of _ (by decide), rfl, rfl, rfl, by decide, rfl, rfl, rfl, by decide⟩
def wid (md : Mode) : MmaId := { mode := md, sa := 0xC000000000000000, sb := 0xC000000000001000, sm := 0x1F80000 }
/-- Process 256 waits for command c on slot x. -/
def wcmd (x : Slot) (c : ArrCmd) : State := wst (wpw arrKey .waiting)
  { lease := some { wlease with busy := true }, slots := [(0, { x with lock := true, cmd := some (256, c) })] }
/-- An MMA past its last slice, a zeroing, a drain of an integer slot. -/
theorem witness_ArraySteps_ends : let x : Slot := { wslot with st := .active, mode := some .int8, mprog := 2 }
    let dst : Word := 0xC000000000002000
    (wcmd x (.mma (wid .int8) none)).Canon ∧ (Machine.shapeOf (wid .int8).sm).slices (wid .int8).mode ≤ x.mprog.toNat ∧
    Tab.get? 0 ((wcmd x .zero).cluster 0).slots = some { x with lock := true, cmd := some (256, .zero) } ∧
    (wcmd x (.drain dst .int32 false)).heldOf 0 none = false ∧ x.st ≠ .empty ∧ modeFloat .int8 = false ∧ spaceOf dst = 3 ∧ bits dst 61 32 = 0 ∧
    dst.toNat % 64 = 0 ∧ (wcmd x .zero).spmOf 1 + bits dst 31 0 + x.drainBytes .int32 ≤ 0x02000000 ∧ (wcmd x .zero).spmOf 1 % 64 = 0 ∧
    bits dst 31 0 + x.drainBytes .int32 < 2 ^ 32 ∧
    (∀ e ∈ ((wcmd x .zero).cluster 0).slots, e.2.cmd = some (256, .zero)) :=
  ⟨canon_of _ (by decide +kernel), by decide +kernel, rfl, by decide +kernel, by decide, rfl, by decide, by decide, by decide, by decide +kernel,
    by decide, by decide +kernel, by decide +kernel⟩
/-- The rows of a slice are fetched, and the rest of `MmaSlices`' hypotheses hold, in a mode of each kind. -/
def wsliceOk (md : Mode) : Bool :=
  let x : Slot := { wslot with st := .active, mode := some md }
  let s := wcmd x (.mma (wid md) none)
  let pr := wpw arrKey .waiting
  canonical s && decide (x.mprog.toNat < (Machine.shapeOf (wid md).sm).slices md) && decide ((Machine.shapeOf (wid md).sm).slices md < 2 ^ 24) &&
  (match s.fetchSlice 256 pr (wop arrKey .waiting) (wid md) 0 with
    | (.ok (as, bs), t) => decide (t = s) && (modeFloat md ||
        decide (carriesNeeded 0 (s.cluster 0).carry (s.intOutputs 0 0 md 1 1 as bs) ≤ s.freeCarry 0))
    | _ => false) &&
  decide (s.readCycles pr (wid md).sb = 0) && decide ((s.cluster 0).leaseQ = []) && !pr.leaving && decide ((Machine.shapeOf (wid md).sm).n ≤ 512)
theorem witness_MmaSlices : wsliceOk .int8 = true ∧ wsliceOk .bf16 = true ∧ wsliceOk .f8a = true ∧ modeFloat .int8 = false ∧
    modeFloat .f8a = true := by decide +kernel

/-! ### Channels and messages -/

theorem witness_ChannelEnds_chnew : let ws : List Word := [field 63 17 ||| field 3 12]
    let s := { wsm wpm {} ws with nextEp := 6 }
    s.Canon ∧ Issues s 256 wpm (lenOf wm true false) ∧ Quiet s wpm ∧ wpm.op = none ∧ Drained s wpm.cl ∧ s.nextEp < 2 ^ 32 ∧
    Local s wpm (wpm.ctx.rs 5) 64 (sramLoc 0 0) ∧
    badChan (seenWord s wpm (sramLoc 0 0) 0) (seenWord s wpm (sramLoc 0 0) 1) (seenWord s wpm (sramLoc 0 0) 2) (s.spmBytes wpm.team) = false ∧
    ((List.range 5).all fun i => decide (seenWord s wpm (sramLoc 0 0) (3 + i) = 0)) = true ∧ Tab.freeKey (s.cluster wpm.cl).endps 0 4096 = some 0 :=
  ⟨canon_of _ (by decide +kernel), issues_of _ _ _ rfl rfl rfl rfl, quiet_of _ _ rfl rfl (by simp [wpm, wp]) rfl, rfl,
    drained_of _ rfl rfl (by decide), by decide, local_of _ _ _ _ _ (by decide +kernel), by decide +kernel, by decide +kernel, by decide +kernel⟩
/-- A table with the same entry under n keys from lo on. -/
def wfull {α : Type} (a : α) (lo n : Nat) : Tab α := (List.range' lo n).map fun k => (k, a)
theorem get?_full {α : Type} (a : α) (k : Nat) : ∀ lo n, lo ≤ k → k < lo + n → Tab.get? k (wfull a lo n) = some a
  | _, 0, h, h' => absurd h' (by omega)
  | lo, n + 1, h, h' => by
    rw [wfull, List.range'_succ, List.map_cons, Tab.get?]
    split
    · rfl
    · exact get?_full a k (lo + 1) n (by omega) (by omega)
theorem freeKey_none {α : Type} (t : Tab α) : ∀ n lo, (∀ k, lo ≤ k → k < lo + n → Tab.get? k t ≠ none) → Tab.freeKey t lo n = none
  | 0, _, _ => rfl
  | n + 1, lo, h => by
    rw [Tab.freeKey, if_neg (by simpa using h lo (Nat.le_refl _) (by omega))]
    exact freeKey_none t n (lo + 1) fun k hk hk' => h k (by omega) (by omega)
theorem freeKey_full {α : Type} (a : α) (lo n : Nat) : Tab.freeKey (wfull a lo n) lo n = none :=
  freeKey_none _ n lo fun k h h' => by simp [get?_full a k lo n h h']
/-- A full endpoint table. -/
theorem witness_ChannelEnds_full : Tab.freeKey (wfull wend3 0 4096) 0 4096 = none := freeKey_full _ _ _
/-- An end that is open, one that is closed, and one whose messages spawn processes. -/
theorem witness_ChannelEnds_ends : wse.unrelative wpe (wpe.ctx.rs 4) = .ok wh ∧ hKind wh = 0 ∧
    wse.resolveEnd wpe (wh ||| field 1 49) true = .ok (wh ||| field 1 49, .ep 0 0) ∧ wse.endp? 0 0 = some wend3 ∧
    wend3.efmt.toNat = hEfmt wh ∧ wend3.sclass.toNat = hSclass wh ∧ wend3.closed = false ∧ wend3.unm = [] ∧ wend3.waiters = [] ∧
    (wst wpe { endps := [(0, { wend3 with closed := true })] }).endp? 0 0 = some { wend3 with closed := true } ∧
    (wst wpe { endps := [(0, { wend3 with spn := true })] }).endp? 0 0 = some { wend3 with spn := true } ∧ wend3.expert = none ∧
    wse.resolveEnd wpe wh (hDir wh) = .ok (wh, .ep 0 0) ∧ hSclass wh ≤ 3 ∧ wpe.ctx.qbound.getLsbD 3 = false ∧
    ({ qbound := 8 } : Ctx).qbound.getLsbD 3 = true :=
  ⟨rfl, by decide, rfl, rfl, by decide, by decide, rfl, rfl, rfl, rfl, rfl, rfl, rfl, by decide, by decide, by decide⟩
def wlaunch : Launch :=
  { host := none, issuer := none, die := 0, cls := 2, span := false, vmctx := 0, mbox := 0, notify := 0, args := [], lpol := 0, lrtry := 0
    record := 0, phys := true, recVm := 0, chans := [], decls := [], teams := [1], ended := none }
theorem witness_ChannelEnds_chbind : ({ wse with launches := [(1, wlaunch)] } : State).handleExists wpe (wpe.ctx.rs 4) = true ∧
    hKind (wpe.ctx.rs 4) ≠ 7 ∧ bits (wpe.ctx.rs 5) 63 8 = 0 ∧ ({ wse with launches := [(1, wlaunch)] } : State).launch? wpe.lid = some wlaunch := by
  decide +kernel

theorem witness_Messages : Issues wse 256 wpe (lenOf wm true false) ∧ On wm wpe ∧ wpe.op = none ∧ Quiet wse wpe ∧ wpe.svc = none ∧
    Drained wse wpe.cl ∧ hSclass (wpe.ctx.rs 4) ≤ 3 ∧ wse.resolveEnd wpe (wpe.ctx.rs 4) true = .ok (wpe.ctx.rs 4, .ep 0 0) :=
  ⟨issues_of _ _ _ rfl rfl rfl rfl, rfl, rfl, quiet_of _ _ rfl rfl (by simp [wpe, wp]) rfl, rfl, drained_of _ rfl rfl (by decide), by decide, rfl⟩
/-- Operations that have ended, with a value and with a status; a handle to receive through. -/
theorem witness_Messages_ends : let q := { wpe with op := some (wop 0 (.ok 9)) }
    let r := { wpe with op := some (wop 0 (.status 4)) }
    Issues (wst q {}) 256 q (lenOf wm true false) ∧ (wop 0 (.ok 9)).res = .ok 9 ∧ handleOk (q.ctx.rs 4) = true ∧ hKind (q.ctx.rs 4) ≠ 7 ∧
    Issues (wst r {}) 256 r (lenOf wm true false) ∧ (wop 0 (.status 4)).res = .status 4 ∧ r.TrapsHere :=
  ⟨issues_of _ _ _ rfl rfl rfl rfl, rfl, by decide, by decide, issues_of _ _ _ rfl rfl rfl rfl, rfl, traps_of _ rfl rfl rfl⟩

/-- A word of eight bytes for endpoint 5, from process 257 of team 1. -/
def wmsg : Msg :=
  { sender := some 257, kind := 0, idx := 5, efmt := 63, sclass := 3, len := 8, bytes := bytesLE 8 42, bad := [], srcCl := 0, srcOff := 0
    bulk := false, expert := none, place := none, ended := false, dropped := [] }
def wreq : GReq :=
  { src := .msg 7, len := 8, pfx := 8, ep := some 0, cls := 2, arrival := 0, matched := false, rcvr := none, dest := sramLoc 0 0, rcv := []
    granted := [], toks := [], lastAcc := 0 }
/-- Process 256 receives at endpoint 5, process 257 sends message 7 to it. -/
def wrecv : Proc := { wp with state := .blocked, wkind := .recv, op := some { id := 3, key := 0, res := .waiting } }
def wsend : Proc := { wp with state := .blocked, wkind := .send, op := some { id := 7, key := 0, res := .waiting } }
def wsg (n : Endp) (g : Tab GReq) : State :=
  { wst wrecv { endps := [(0, n)], greqs := g } with procs := [(256, wrecv), (257, wsend)], dir := [(5, (0, 0))], msgs := [(7, wmsg)] }
theorem witness_MessageSteps : let n := { wend3 with waiters := [256] }
    let s := wsg n [(4, wreq)]
    s.Canon ∧ (wsg wend3 []).Canon ∧ s.endp? 0 0 = some n ∧ s.frozen 0 = false ∧ s.endAway 0 0 = false ∧ s.msg? 7 = some wmsg ∧ wmsg.kind = 0 ∧
    s.lookup wmsg.idx = some (.ep 0 0) ∧ n.efmt = wmsg.efmt ∧ n.sclass = wmsg.sclass ∧ Tab.freeKey (s.cluster 0).greqs 0 512 = some 0 ∧
    Tab.get? 4 (s.cluster 0).greqs = some wreq ∧ wreq.ep = some 0 ∧ wend3.waiters = [] ∧ s.proc? 256 = some wrecv ∧ s.proc? 257 = some wsend ∧
    wmsg.bad = [] ∧ wreq.len ≤ 64 ∧ wmsg.ended = false :=
  ⟨canon_of _ (by decide), canon_of _ (by decide), rfl, by decide, by decide, rfl, rfl, rfl, by decide, by decide, rfl, rfl, rfl, rfl, rfl, rfl, rfl,
    by decide, rfl⟩
theorem witness_MessageSteps_full : Tab.freeKey (wfull wreq 0 512) 0 512 = none := freeKey_full _ _ _

/-! ### Processes, launches and barriers -/

theorem witness_Processes : (wst wp {}).Canon ∧ Issues (wst wp {}) 256 wp (lenOf wm true false) ∧ Quiet (wst wp {}) wp ∧
    (wst wp {}).team? wp.team = some wteam ∧ bit (wp.ctx.rs 4) 0 = false ∧ bit (({ s := [(4, 3)] } : Ctx).rs 4) 0 = true ∧
    (wst wp {}).freeMember wp.team = some 257 ∧ 256 < 2 ^ 32 ∧ (wp.ctx.rs 4).toNat ≤ (wst wp {}).timeAt wp.cl ∧
    (wst wp {}).timeAt wp.cl < (({ s := [(4, 3)] } : Ctx).rs 4).toNat ∧ wp.svc = none :=
  ⟨canon_of _ (by decide), (witness_base true false).1, (witness_base true false).2.2.2.1, rfl, by decide, by decide, by decide +kernel, by decide,
    by decide, by decide, rfl⟩
theorem witness_Processes_full : ({ wst wp {} with procs := wfull wp 256 256 } : State).freeMember 1 = none := freeKey_full _ _ _
/-- EXIT of one of two members. -/
theorem witness_Processes_exit : let s := { wst wp {} with procs := [(256, wp), (257, wp)] }
    s.Canon ∧ s.proc? 256 = some wp ∧ wp.pend = 0 ∧ wp.batches = [] ∧ (s.cluster wp.cl).copies = [] ∧ Drained s wp.cl ∧ wp.resv = none ∧
    (∀ e ∈ (s.cluster wp.cl).endps, e.2.spn = false) ∧ (∀ e ∈ s.teams, e.2.replica = none) ∧ (∃ e ∈ s.procs, e.1 ≠ 256 ∧ e.2.team = wp.team) :=
  ⟨canon_of _ (by decide), rfl, rfl, rfl, rfl, drained_of _ rfl rfl (by decide), rfl, by decide, by decide, by decide⟩

/-- A record of one team of one process, class 2, at the first address of the scratchpad. -/
def wrecord : List Word :=
  [field 1 0 ||| field 2 19, 0, 0, 0, 0, 0, 0, 0, field 1 16 ||| field 1 0, 0x10000, 0, 0, 0, 0, 0, 0]
def wrec : LaunchRec := { hdr := wrecord.take 8, teams := [wrecord.drop 8], chans := [], presets := [[]] }
def wsl (ws : List Word) : State := { wsm wpm {} ws with launches := [(1, wlaunch)] }
def wreads (s : State) (x : Option LaunchRec) : Bool :=
  match readRecord (loadBlock 256) (wlistLine 256 0) false 0 (wpm.ctx.rs 5) s with
  | .ok r => decide (r = (x, s))
  | .error _ => false
theorem witness_Launches : Issues (wsl wrecord) 256 wpm (lenOf wm true false) ∧ Quiet (wsl wrecord) wpm ∧ Drained (wsl wrecord) wpm.cl ∧
    wreads (wsl wrecord) (some wrec) = true ∧ recVmctx wpm.ctx.vmctx wrec.hdr = wpm.ctx.vmctx ∧ (wsl wrecord).launch? wpm.lid = some wlaunch ∧
    wlaunch.cls.toNat ≤ bits (wrec.hdr.getD 0 0) 20 19 ∧ (wsl wrecord).placesUsed (some (wpm.cl / 8)) < 64 ∧ (wsl wrecord).waitLaunch = [] ∧
    wreads (wsl []) none = true :=
  ⟨issues_of _ _ _ rfl rfl rfl rfl, quiet_of _ _ rfl rfl (by simp [wpm, wp]) rfl, drained_of _ rfl rfl (by decide), by decide +kernel, by decide,
    rfl, by decide, by decide +kernel, rfl, by decide +kernel⟩
theorem witness_Launches_full : let s := { wsl wrecord with launches := wfull wlaunch 1 64 }
    64 ≤ s.placesUsed (some (wpm.cl / 8)) ∧ s.launch? wpm.lid = some wlaunch := by decide +kernel
theorem witness_Launches_lstat : (wsl []).launch? 1 = some wlaunch ∧ asidOf wlaunch.vmctx = asidOf wpm.ctx.vmctx ∧ (wsl []).teams.length ≤ 1023 ∧
    (wsl []).launch? 9 = none ∧ (∀ e ∈ (wsl []).history, e.1 ≠ 9) ∧ (wsl []).nextLid ≤ 9 := by decide +kernel

def wmem (k arr : Nat) : BarMem := { k := k, arr := arr, deferred := false, waiting := false }
def wpb (k arr : Nat) : Proc := { wp with bars := [(0, wmem k arr)], ctx := { s := [(5, 3), (6, 300)] } }
theorem witness_Barriers : let q := wpb 2 1
    (wst q {}).Canon ∧ Issues (wst q {}) 256 q (lenOf wm true false) ∧ Quiet (wst q {}) q ∧ Drained (wst q {}) q.cl ∧ q.TrapsHere ∧
    q.ctx.rs 4 = (0 : BitVec 5).setWidth 64 ∧ ((wst q {}).bar 0).owner = none ∧ q.ctx.rs 5 = BitVec.ofNat 64 3 ∧ q.ctx.rs 4 = 0 ∧
    256 ≤ (q.ctx.rs 6).toNat ∧ (({ wst q {} with bars := [(0, { owner := some 9 })] } : State).bar 0).owner = some 9 ∧ 9 ≠ q.lid ∧
    Tab.get? 0 wp.bars = none ∧ Tab.get? 0 q.bars = some (wmem 2 1) ∧ (wmem 2 1).arr < (wmem 2 1).k ∧ (wmem 2 2).k ≤ (wmem 2 2).arr ∧
    (wmem 2 0).arr = 0 ∧ (wmem 2 1).arr ≠ 0 ∧ (wmem 2 1).k < 256 ∧ (wmem 2 1).arr < 256 :=
  ⟨canon_of _ (by decide), issues_of _ _ _ rfl rfl rfl rfl, quiet_of _ _ rfl rfl (by simp [wpb, wp]) rfl, drained_of _ rfl rfl (by decide),
    traps_of _ rfl rfl rfl, by decide, rfl, by decide, by decide, by decide, rfl, by decide, rfl, rfl, by decide, by decide, rfl, by decide,
    by decide, by decide⟩
/-- Barrier 0 in a group of two devices whose root is device r. -/
def wgroup (r : Nat) : State := { wst (wpb 2 1) {} with regs := [(88, field 1 63 ||| field 2 16 ||| field r 0)] }
theorem witness_Barriers_group : mbgOn (wst wp {}) 0 = false ∧ mbgOn (wgroup 1) 0 = true ∧ bits (mbg (wgroup 1) 0) 10 0 ≠ (wgroup 1).dev ∧
    bits (mbg (wgroup 0) 0) 10 0 = (wgroup 0).dev ∧ bits (mbg (wgroup 0) 0) 27 16 = 2 ∧
    (insertNat 1 ((wgroup 0).bar 0).arrivals).length < 2 ∧ ((wgroup 0).bar 0).mEpoch = false ∧ (wgroup 0).phys.twin = none := by decide
theorem witness_Barriers_linked : (wgroup 1).Canon ∧ Linked (wgroup 1) ((wgroup 1).linkSite 1) 1 true 1 :=
  ⟨canon_of _ (by decide), ⟨none, by decide +kernel⟩, by decide +kernel, rfl, rfl, rfl, by decide, by decide⟩

/-! ### System registers and forms, experts -/

def wframe : SvcCtx := { pid := 256, frame := { tcause := 28, tpc := 0x10000 }, loop := none, second := none }
def wserved : Proc := { wp with svc := some 0, state := .service }
theorem witness_SystemRegisters : (wst wp {}).Canon ∧ Issues (wst wp {}) 256 wp (lenOf wm true false) ∧ wp.TrapsHere ∧ bits (wp.ctx.rs 4) 2 0 ≤ 4 ∧
    sysListed 200 = false ∧ (let s := wst wserved { svc := [(0, { ctx := some wframe })] }
      s.Canon ∧ Issues s 256 wserved (lenOf wm true false) ∧ wserved.svc = some 0 ∧
      Tab.get? 0 (s.cluster wserved.cl).svc = some { ctx := some wframe }) :=
  ⟨canon_of _ (by decide), (witness_base true false).1, (witness_base true false).2.2.1, by decide, by decide,
    canon_of _ (by decide), issues_of _ _ _ rfl rfl rfl rfl, rfl, rfl⟩
/-- Service mode with nothing under way, an address outside space 0, a malformed one, a closed and an open trace. -/
theorem witness_SystemForms : wserved.svc ≠ none ∧ scopeOf wm = 0 ∧ wserved.outs = [] ∧ (wst wserved {}).procs = [(256, wserved)] ∧
    (∀ e ∈ (wst wserved {}).clusters, e.2.cache = []) ∧ spaceOf (wpm.ctx.rs 5) ≠ 0 ∧ spaceOf (0x0200000000000000 : Word) = 0 ∧
    bits 0x0200000000000000 61 57 ≠ 0 ∧ bit (trcfg (wst wp {}) 0) 1 = false ∧ (wst wp { regs := [(126, 3)] }).capturing 0 = true ∧
    wp.chunk = none ∧ wp.unit < 32 := by decide +kernel
def wgatherer : Proc := { wpc with bars := [(0, wmem 2 0)] }
theorem witness_SystemForms_evgather : let s := wst wgatherer {}
    Issues s 256 wgatherer (lenOf wm true false) ∧ Quiet s wgatherer ∧ Tab.get? 0 wp.bars = none ∧ Tab.get? 0 wgatherer.bars = some (wmem 2 0) ∧
    (wmem 2 0).k ≠ 0 ∧ wgatherer.chunk ≠ none ∧
    (∀ i < 4, localB s wgatherer (wgatherer.ctx.rs 5 + BitVec.ofNat 64 (64 * i)) 64 (sramLoc 0 0 + 64 * i) = true) :=
  ⟨issues_of _ _ _ rfl rfl rfl rfl, quiet_of _ _ rfl rfl (by simp [wgatherer, wpc, wchunk]) rfl, rfl, rfl, by decide, by simp [wgatherer, wpc],
    by decide +kernel⟩

/-- A bind descriptor for endpoint 5: an entry, one scratchpad unit, one process. -/
def wbind : List Word := [mkHandle 63 3 0 false 0 5, 0, 0, 0x10000, field 1 16 ||| field 1 0, 0, 0, 0]
def wsx : State := { wsm wpm { endps := [(0, wend3)] } wbind with dir := [(5, (0, 0))] }
theorem witness_Experts_xbind : Issues wsx 256 wpm (lenOf wm true false) ∧ wpm.op = none ∧ Quiet wsx wpm ∧ Local wsx wpm (wpm.ctx.rs 5) 64 (sramLoc 0 0) ∧
    badBindFields wbind = false ∧ (List.range 8).map (seenWord wsx wpm (sramLoc 0 0)) = wbind ∧
    wsx.bindEnd wpm (wbind.getD 0 0) = some (0, 0, wend3) ∧ wsx.endp? 0 0 = some wend3 ∧ badBindBuffer wend3 wbind = false ∧
    Tab.freeKey wsx.experts 0 1024 = some 0 :=
  ⟨issues_of _ _ _ rfl rfl rfl rfl, rfl, quiet_of _ _ rfl rfl (by simp [wpm, wp]) rfl, local_of _ _ _ _ _ (by decide +kernel), by decide +kernel,
    by decide +kernel, by decide +kernel, rfl, by decide +kernel, rfl⟩
def wexpert : Expert := newExpert wsx 1 wend3 wbind
def wpx : Proc := { wp with ctx := { s := [(4, mkHandle 63 3 5 true 0 0), (5, 1)] } }
theorem witness_Experts : let s := { wst wpx {} with experts := [(0, wexpert)] }
    s.expertOf wpx (wpx.ctx.rs 4) = some (0, wexpert) ∧ s.expertOf wpx (wpx.ctx.rs 6) = none ∧ wpx.op = none ∧ wpx.ctx.rs 6 = 0 ∧ wpx.ctx.rs 5 = 1 ∧
    (wpw (2 ^ 74) (.ok 0)).op = some (wop (2 ^ 74) (.ok 0)) ∧ (wpw (2 ^ 74) (.ok 0)).outs = [] ∧ (wop (2 ^ 74) (.ok 0)).key = 2 ^ 74 ∧
    (wop (2 ^ 74 + 1) (.ok 0)).key = 2 ^ 74 + 1 := by decide +kernel

/-! ### Grants, scheduling and the control plane -/

/-- A matched transfer of 3 KiB and more in three units from process 257's scratchpad, tokens outstanding for units 0 and 1. -/
def wbig : Msg := { wmsg with bulk := true, len := 9000, bytes := [], srcOff := 0x2000, sclass := 14 }
def wtok (s u : Nat) : Token := { serial := BitVec.ofNat 16 s, unit := u, bytes := if u = 0 then 3072 else 4096, issued := 0, texp := 16000 }
def wgrant : GReq :=
  { wreq with len := 9000, pfx := 1024, matched := true, rcvr := some 256, dest := sramLoc 0 0x4000, granted := [0, 1], toks := [wtok 0 0, wtok 1 1] }
def wgs (r : GReq) : State :=
  { wsg wend3 [(4, r)] with msgs := [(7, wbig)], cycles := 200000 }
theorem witness_GrantSteps : let s := wgs wgrant
    s.Canon ∧ s.frozen 0 = false ∧ s.grantBest 0 = some (4, wgrant) ∧ missingUnit wgrant = some 2 ∧
    (s.cluster 0).out + unitBytes wgrant 2 ≤ 262144 ∧ (wgs wreq).grantBest 0 = none ∧ Tab.get? 4 (s.cluster 0).greqs = some wgrant ∧
    s.msg? 7 = some wbig ∧ wbig.sender.isSome = true ∧ wbig.dropped = [] ∧ s.earlierToken 0 4 0 = false ∧ s.frozen wbig.srcCl = false ∧
    (s.cluster wbig.srcCl).windows = [] ∧ wgrant.toks.find? (fun t => t.serial = 1 && t.unit = 1) = some (wtok 1 1) ∧
    (∃ v ∈ neededUnits wgrant, v ≠ 1 ∧ ¬ wgrant.rcv.contains v) ∧ wgrant.dest % 64 = 0 ∧ sramLoc 0 0 ≤ wgrant.dest ∧
    unitBytes wgrant 1 = 64 * (List.replicate 64 ((0 : Line), false)).length ∧ wgrant.toks.find? (fun t => t.serial = 1) = some (wtok 1 1) ∧
    (wtok 1 1).issued + (wtok 1 1).texp ≤ s.timebase ∧ wgrant.granted ≠ [] ∧ wgrant.lastAcc + s.orph 0 ≤ s.timebase ∧
    wgrant.rcvr = some 256 ∧ wbig.sender = some 257 ∧ wbig.ended = false ∧ wreq.toks = [] :=
  ⟨canon_of _ (by decide), by decide, by decide +kernel, by decide +kernel, by decide +kernel, by decide +kernel, rfl, rfl, rfl, rfl, by decide,
    by decide, rfl, by decide +kernel, ⟨0, by decide +kernel⟩, by decide, by decide, by decide +kernel, by decide +kernel, by decide +kernel,
    by decide, by decide +kernel, rfl, rfl, rfl, rfl⟩
def wstop : Copy :=
  { pid := 256, team := 1, batch := some 0, win := none, src := 0x10000, dst := 0xC000000000000000, rows := 1, rowb := 64, sstr := 0, dstr := 0
    written := [], stopped := some (0, 5, 2, 0x10000), secure := none, vmctx := 0, order := 0 }
theorem witness_GrantSteps_copy : let s := wst wp { copies := [(3, wstop)] }
    s.Canon ∧ s.frozen 0 = false ∧ Tab.get? 3 (s.cluster 0).copies = some wstop ∧ wstop.stopped.isSome = true ∧
    (∀ e ∈ (s.cluster 0).windows, e.2.want = false) ∧ s.windowAt 0 64 = none ∧ s.redSlots = [] :=
  ⟨canon_of _ (by decide), by decide, rfl, rfl, by decide, rfl, rfl⟩

def wready : Proc := { wp with state := .ready, slot := none }
/-- Process 256 is READY on core 0, or on core 3 while core 0 has nothing. -/
theorem witness_SchedulerSteps : let s := wst wready { ready := [(0, [256])] }
    let t := wst { wready with core := 3 } { ready := [(24, [256])] }
    s.Canon ∧ (s.cluster 0).dm.phase = .running ∧ s.bestPrio 0 0 = some 0 ∧ s.readyAt 0 0 0 = [256] ∧ s.freeSlot 0 0 = some 0 ∧
    t.bestPrio 0 0 = none ∧ t.freeSlot 0 0 = some 0 ∧ (List.range 8).find? (fun q => (t.richest 0 0 q).isSome) = some 0 ∧
    t.richest 0 0 0 = some 3 ∧ t.readyAt 0 3 0 = [256] :=
  ⟨canon_of _ (by decide), rfl, by decide, rfl, by decide, by decide, by decide, by decide +kernel, by decide +kernel, rfl⟩
def wweak (k : Nat) : Proc := { wp with prio := 5, slot := some k, slice := 20 }
/-- Eight running processes of priority 5 hold core 0's slots; process 264 of priority 0, and then 5, is READY there. -/
def wfullCore (prio : Nat) : State :=
  { cur := none, procs := ((List.range 8).map fun k => (256 + k, wweak k)) ++ [(264, { wready with prio := BitVec.ofNat 3 prio })]
    clusters := [(0, { ready := [(prio, [264])] })], teams := [(1, wteam)], cycles := 4000000 }
theorem witness_SchedulerSteps_preempt : (wfullCore 0).Canon ∧ (wfullCore 0).bestPrio 0 0 = some 0 ∧ (wfullCore 0).freeSlot 0 0 = none ∧
    (∀ e ∈ (wfullCore 0).procs, e.2.yieldsSlot = false) ∧ (wfullCore 0).weakest 0 0 = some (256, wweak 0) ∧ 0 < (wweak 0).prio.toNat ∧
    (wweak 0).loop = none ∧ (wweak 0).pend = 0 ∧ (wfullCore 0).inSlice 256 (wweak 0) = false ∧ (wweak 0).slot.isSome = true ∧
    (wweak 0).leaving = false ∧ (wfullCore 5).sliceOver 256 (wweak 0) = true ∧ (wfullCore 5).inSlice 256 (wweak 0) = false :=
  ⟨canon_of _ (by decide +kernel), by decide +kernel, by decide +kernel, by decide +kernel, by decide +kernel, by decide, rfl, rfl,
    by decide +kernel, rfl, rfl, by decide +kernel, by decide +kernel⟩
/-- One compute die takes part; its cluster 0 runs team 1 of class 2, the others are halted; team 2 of class 1 asks for a whole scratchpad. -/
def wclass : State :=
  { wst wp {} with
    mgmt := { omitted := ({} : State).cdies.drop 1 }
    clusters := (0, {}) :: (List.range 7).map fun k => (k + 1, { dm := { phase := .halted } })
    teams := [(1, wteam), (2, { lid := 2, index := 0, nproc := 1, spmsz := 512, entry := 0x10000 })]
    launches := [(1, wlaunch), (2, { wlaunch with cls := 1, teams := [2] })], classQ := [(1, [2])] }
theorem witness_SchedulerSteps_class : wclass.Canon ∧ (∀ e ∈ wclass.teams, e.2.state ≠ .claimed) ∧ wclass.claimable 0 = none ∧
    wclass.preemptable 0 = some (2, 1) ∧ wclass.team? 1 = some wteam ∧ (wclass.team? 2).isSome = true :=
  ⟨canon_of _ (by decide +kernel), by decide +kernel, by decide +kernel, by decide +kernel, rfl, rfl⟩

def wlate (k : WKind) (op : Option Op) : Proc := { wp with state := .blocked, wkind := k, op := op, deadline := 5 }
theorem witness_ProcessSteps_deadline : let s := fun q => { wst q {} with cycles := 600, msgs := [(7, { wmsg with sender := some 256 })] }
    let o := some (wop 2 .waiting)
    (s (wlate .send o)).Canon ∧ (s (wlate .send o)).deadlinePast 256 = some (wlate .send o) ∧ (s (wlate .recv o)).deadlinePast 256 = some (wlate .recv o) ∧
    (s (wlate .alt o)).deadlinePast 256 = some (wlate .alt o) ∧ (s (wlate .sleep none)).deadlinePast 256 = some (wlate .sleep none) ∧
    (wop 2 .waiting).res = .waiting ∧ (s wp).msg? (wop 2 .waiting).id = some { wmsg with sender := some 256 } ∧ wmsg.place = none ∧
    (∀ c ∈ (s wp).clusters, ∀ r ∈ c.2.greqs, r.2.matched = false) ∧ (s wp).deadlinePast 256 = none :=
  ⟨canon_of _ (by decide), by decide +kernel, by decide +kernel, by decide +kernel, by decide +kernel, rfl, rfl, rfl, by decide, by decide +kernel⟩
/-- Process 256 waits to send to process 257, which waits to send to it. -/
def wdead : State :=
  { wst { wp with state := .blocked, wkind := .send, wait := wh } { endps := [(0, { wend3 with lrcv := some 257 })] } with
    cycles := 2000000, dir := [(5, (0, 0))] }
theorem witness_ProcessSteps_probe : (wdead.proc? 256).map (fun pr => decide (pr.wkind ≠ .nothing ∧ pr.deadline = 0 ∧ pr.reported = false ∧
      pr.since + nsCycles (1000 * bits (wdead.reg 124) 15 0) ≤ wdead.cycles)) = some true ∧
    nsCycles (1000 * bits (wdead.reg 124) 15 0) ≠ 0 ∧ wdead.edges 256 = [257] ∧ 257 / 2 ^ 32 = wdead.dev := by decide +kernel
def wwalk : Walk := { walker := 0, asid := 1, page := 1, root := 0x241000, procs := [256], begun := true }
def wasks : Asked := { asid := 1, page := 1, write := true, fetch := false, ans := none }
/-- The page of `State.withFetchWord`, which its tables map: walked with nothing in the TLBs, for nobody and for a waiting process. -/
def wtables : State := { State.reset with mem := bootTables, mgmt := { started := true }, procs := [(256, { wp with asked := some wasks })] }
theorem witness_ProcessSteps_walk : let x : XCtx := { cl := some 0, core := 0, walker := 0, asid := 1, root := 0x241000 }
    let s := { wtables with launches := [(1, { wlaunch with vmctx := field 1 48 ||| 0x241000 })] }
    rootOf (s.rootOfAsid (BitVec.ofNat 16 1)) = 0x241000 ∧ (∀ w ∈ s.walks, w.begun = false) ∧
    ((match s.walk x (bits 0x10000 56 0) with | (.ok e, _) => permOk .write e.leaf | _ => false) = true) ∧
    wwalk.procs = [256] ∧ wwalk.page < 2 ^ 41 ∧ wasks.asid = wwalk.asid ∧ wasks.page = wwalk.page ∧
    ((match wtables.walk x (wwalk.page * 2 ^ 16) with | (.ok e, _) => permOk .write e.leaf | _ => false) = true) := by decide +kernel
theorem witness_ProcessSteps_line : let q := { wp with fetching := [4] }
    1 ∉ q.fetching ∧ 4 ∈ q.fetching ∧ ((wst q {}).regLinesOn q.cl q.unit).length < 1024 := by decide +kernel
/-- A queued context and a free service slot; a phase that has overrun. -/
theorem witness_ProcessSteps_service : let s := { wst { wp with state := .service, slot := none } { svcQ := [wframe] } with regs := [(16, 0x20000)] }
    (s.cluster 0).dm.phase = .running ∧ (s.cluster 0).svcQ = [wframe] ∧ wframe.pid = 256 ∧ wframe.second = none ∧ s.reg 16 ≠ 0 ∧
    (List.range 8).find? (fun k => ((Tab.getD k (s.cluster 0).svc {}).ctx).isNone) = some 0 ∧
    ({ expect := 4, elapsed := 9 } : Ctx).overrun = true ∧ wp.svc = none ∧ wp.state = .running ∧ wp.chunk = none ∧ wp.op = none ∧ wp.pend = 0 := by
  decide +kernel

/-- A launch slot of queue q for a record at 0x300000; one of a reserved kind. -/
def wslotWords (kind : Nat) : List Word := [field kind 0 ||| field 2 8, 0x300000, 0, 0, 0, 0, 0, 1]
/-- A record in device memory: the same as `wrecord` with a VMCTX of its own. -/
def whost : State := { mem := Memory.write [] 0x300000 (wordsBytes ([wrecord.getD 0 0, field 1 48 ||| 0x241000] ++ wrecord.drop 2)) }
theorem witness_LaunchSteps_slots : let s := { whost with lreqs := [(3, { queue := 5, slot := wslotWords 1 })] }
    s.Canon ∧ s.redSlots = [] ∧ s.codeErr = [] ∧ s.memdies = [] ∧ s.badSlot (wslotWords 9) = true ∧ s.badSlot (wslotWords 1) = false ∧
    bits ((wslotWords 1).getD 0 0) 7 0 = 1 ∧ s.placesUsed none < 64 ∧
    ((({ s with lreqs := [] } : State).readAgain (hostLaunch 5 (wslotWords 1))).map fun r => r.1.isSome) = some true ∧
    (∀ e ∈ s.launches, ∀ h, e.2.host = some h → h.1 ≠ 5) ∧ (∀ e ∈ ({ s with lreqs := [] } : State).lreqs, e.2.queue ≠ 5) :=
  ⟨canon_of _ (by decide +kernel), rfl, rfl, rfl, by decide +kernel, by decide +kernel, by decide, by decide +kernel, by decide +kernel,
    by simp [whost], by simp⟩
theorem witness_LaunchSteps_host : let s : State := { coalesce := [(3, 2)], mem := Memory.write64 [] (mailSlot 2 false 1 + 56) 1, mailboxes := [(2, {})] }
    s.Canon ∧ Tab.get? 3 s.coalesce = some 2 ∧ s.phys.shadow = false ∧ Tab.get? 2 s.mailboxes = some {} ∧
    Memory.read64 s.mem (mailSlot 2 false ({} : Mailbox).eseq.toNat + 56) = ({} : Mailbox).eseq :=
  ⟨canon_of _ (by decide +kernel), rfl, rfl, rfl, by decide +kernel⟩
/-- A queued team of class 2 at the head of its queue, due to be firm when no die holds it. -/
def wq : Team := { lid := 1, index := 0, nproc := 2, spmsz := 1, entry := 0x10000, headAt := some 0, firmIn := 20 }
def wqueued : State := { launches := [(1, wlaunch)], teams := [(1, wq)], classQ := [(2, [1])], cycles := 2000000 }
theorem witness_LaunchSteps_claim : wqueued.Canon ∧ wqueued.team? 1 = some wq ∧ 0 < wqueued.cdies.length ∧ wqueued.mgmt.throttle = false ∧
    (∀ l, wqueued.tryEndLaunch l = wqueued) ∧ wqueued.claimable 0 = some (2, 1, 0) ∧ wq.presets = [] ∧
    (∀ e ∈ wqueued.procs, e.1 / 256 ≠ 1) := by
  refine ⟨canon_of _ (by decide), rfl, by decide, rfl, fun l => ?_, by decide +kernel, rfl, by simp [wqueued]⟩
  by_cases h : (1 : Nat) = l
  · subst h; rfl
  · simp [State.tryEndLaunch, State.launch?, wqueued, Tab.get?, h]
theorem witness_LaunchSteps_firm : let s := { wqueued with
      mgmt := { omitted := ({} : State).cdies.drop 1 }, clusters := (List.range 8).map fun k => (k, { dm := { phase := .halted } }) }
    (Tab.getD 2 s.classQ []).head? = some 1 ∧ wq.firmIn ≠ 0 ∧ wq.headAt = some 0 ∧
    0 + 1000 * wq.firmIn ≤ s.timebase ∧ s.cdies.length = 1 ∧ s.holder 0 1 = none := by decide +kernel
/-- A team of the backlog of die 1, suspended at its cluster 8. -/
def wback : Team := { wteam with state := .backlog, cl := 8, advIn := 1 }
def wbacklog : State := { launches := [(1, wlaunch)], teams := [(1, wback)], backlog := [(1, [1])], cycles := 2000000 }
theorem witness_LaunchSteps_backlog : wbacklog.Canon ∧ wbacklog.team? 1 = some wback ∧ (1 : Nat) ≠ 0 ∧ 0 < wbacklog.cdies.length ∧
    (clustersOf 0).find? (fun cl => wbacklog.canLand 1 cl) = some 0 ∧ Tab.getD 1 wbacklog.backlog [] = [1] ∧
    wback.susp + 1000 * wback.advIn < wbacklog.timebase ∧ wbacklog.canLand 1 0 = true ∧
    (({ wbacklog with clusters := (List.range 8).map fun k => (k + 8, { dm := { phase := .halted } }) } : State).lander 1 1) = none ∧
    (wbacklog.cluster wback.cl).cache = [] ∧ wback.state = .backlog ∧ wback.luggage = none ∧ wbacklog.canLand 1 8 = true ∧
    (∀ e ∈ wbacklog.procs, e.2.team ≠ 1) ∧ (∀ e ∈ (wbacklog.cluster 8).endps, e.2.team ≠ 1) ∧ Tab.getD (8 / 8) wbacklog.backlog [] = [1] :=
  ⟨canon_of _ (by decide), rfl, by decide, by decide, by decide +kernel, rfl, by decide +kernel, by decide +kernel, by decide +kernel, rfl, rfl, rfl,
    by decide +kernel, by simp [wbacklog], by decide, rfl⟩

/-- An expert with a grow to replica 1 in team 2 at each of its phases. -/
def wgrow (g : GrowPhase) : Switch := { grow := some g, rep := 1, team := 2, pin := none, pending := [3, 4] }
def wgrows (g : GrowPhase) : Expert := { wexpert with switch := some (wgrow g), gbase := 0x20000, glen := 64, rh := [(0, wh)] }
def wex (e : Expert) : State :=
  { experts := [(0, e)], teams := [(1, wteam), (2, { wteam with cl := 1, replica := some (0, 1) })], clusters := [(0, { endps := [(0, wend3)] })]
    dir := [(5, (0, 0))], launches := [(1, wlaunch)], memdies := [(0, { queue := [{ bytes := [], bad := [], asid := 0, root := 0, sender := none, grow := none }] })] }
theorem witness_ExpertSteps : let s := wex (wgrows .copying)
    let k : Team := { wteam with cl := 1, replica := some (0, 1) }
    s.Canon ∧ s.expert? 0 = some (wgrows .copying) ∧ (wgrows .copying).pinQ = [] ∧ (wgrows .copying).retireQ = [] ∧
    s.experts = [(0, wgrows .copying)] ∧ bit (s.reg 122) 0 = true ∧ bit (({ s with regs := [(122, 0)] } : State).reg 122) 0 = false ∧
    3 ∈ (wgrow .switching).pending ∧ (wgrow .switching).pending.filter (· ≠ 3) ≠ [] ∧ s.msgs = [] ∧ s.team? 2 = some k ∧ k.state = .running ∧
    (wgrow .copying).pin = none ∧ (wgrows .copying).merging = none ∧ (wgrow .copying).grow = some .copying ∧
    (∀ c ∈ (s.cluster k.cl).copies, c.2.team ≠ 2) ∧ (wgrows .copying).gbase ≠ 0 ∧ (s.memDie 0).queue ≠ [] ∧
    (wgrow .filling).grow = some .filling ∧ s.replicaEnd (wgrows .filling) 0 = some (0, 0) ∧ s.endp? 0 0 = some wend3 ∧
    1 + (wgrows .filling).nproc ≤ s.freeEnds k.cl ∧ Tab.freeKey (s.cluster k.cl).endps 0 4096 = some 0 ∧ bits (s.reg 57) 31 16 ≠ 0 :=
  ⟨canon_of _ (by decide +kernel), rfl, rfl, rfl, rfl, by decide, by decide, by decide, by decide, rfl, rfl, rfl, rfl, rfl, rfl, by decide, by decide,
    by simp [wex, State.memDie, Tab.getD, Tab.get?], rfl, by decide +kernel, rfl, by decide +kernel, by decide +kernel, by decide⟩

/-! ### Memory dies -/

/-- The server of a die reaches these addresses in order, none of them poisoned. -/
def srvOk (die : Nat) (c : SrvCmd) : List Word → State → Bool
  | [], _ => true
  | a :: as, s => match s.srvReach die c a .read with
    | (.ok loc, u) => !(u.srvRead die (lineOf loc)).1 && srvOk die c as (u.srvRead die (lineOf loc)).2
    | _ => false

theorem srvReads_of (die : Nat) (c : SrvCmd) (n : Nat) : ∀ (as : List Word) (s : State), srvOk die c as s = true →
    ∃ l t, SrvReads die c n as l s t ∧ ∀ x ∈ l, x.1 = false
  | [], s, _ => ⟨[], s, ⟨rfl, rfl⟩, by simp⟩
  | a :: as, s, h => by
    rw [srvOk] at h
    split at h
    · next loc u e =>
      simp only [Bool.and_eq_true, Bool.not_eq_true'] at h
      obtain ⟨l, t, hl, hx⟩ := srvReads_of die c n as _ h.2
      exact ⟨_, t, ⟨loc, u, l, e, rfl, hl⟩, by simpa [h.1] using hx⟩
    · exact absurd h (by decide)

/-- The server of a die reaches these addresses to write, and no translation changes memory. -/
def srvOkW (die : Nat) (c : SrvCmd) (write : State → Nat → List Byte → State) : List (Word × List Byte) → State → Bool
  | [], _ => true
  | (a, bs) :: as, s => match s.srvReach die c a .write with
    | (.ok loc, u) => decide (u.mem = s.mem) && srvOkW die c write as (write u loc bs)
    | _ => false

theorem srvWrites_of (die : Nat) (c : SrvCmd) (write : State → Nat → List Byte → State) : ∀ (as : List (Word × List Byte)) (s : State),
    srvOkW die c write as s = true → ∃ ws t, SrvWrites die c write as ws s t
  | [], s, _ => ⟨[], s, rfl, rfl⟩
  | (a, bs) :: as, s, h => by
    rw [srvOkW] at h
    split at h
    · next loc u e =>
      simp only [Bool.and_eq_true, decide_eq_true_eq] at h
      obtain ⟨ws, t, hw⟩ := srvWrites_of die c write as _ h.2
      exact ⟨_, t, loc, u, ws, e, h.1, rfl, hw⟩
    · exact absurd h (by decide)

def wreply : Word := mkHandle 63 6 2 false 0 256
/-- A command of address space 1, whose tables map VA 0x10000, as words and operand bytes. -/
def wcmdOf (ws : List Word) (operand : List Byte) : SrvCmd :=
  { bytes := wordsBytes ws ++ operand, bad := [], asid := 1, root := 0x241000, sender := none, grow := none }
def wsrv (c : SrvCmd) : State := { mem := bootTables, memdies := [(0, { queue := [c] })] }
/-- A gather and a scatter of the word at VA 0x10000, a fill and a check of its line, a product with one weight. -/
def wgather1 : SrvCmd := wcmdOf [field 1 0 ||| field 2 8 ||| field 1 16, wreply, 0x10000, 0, 0, 0, 0, 0] (List.replicate 64 0)
def wscatter1 : SrvCmd := wcmdOf [field 2 0 ||| field 2 8 ||| field 1 16, wreply, 0x10000, 0, 0, 0, 0, 0] (List.replicate 128 0)
def wfill1 : SrvCmd := wcmdOf [3, wreply, 0x10000, 64, 7, 0, 0, 0] []
def wcheck1 : SrvCmd := wcmdOf [4, wreply, 0x10000, 64, 0, 0, 0, 0] []
def wmvm1 : SrvCmd := wcmdOf [5, wreply, 0x10000, 0, 0, 0, 5, 0] (List.replicate 64 1)
theorem calm_of (c : SrvCmd) : Calm (wsrv c) := ⟨rfl, rfl, rfl, rfl, by simp [wsrv]⟩
theorem witness_MemoryServers : (wsrv wgather1).Canon ∧ Calm (wsrv wgather1) ∧ (∀ e ∈ (wsrv wgather1).memdies, e.2.move = none) ∧
    ((wsrv wgather1).memDie 0).queue = [wgather1] ∧ ((wsrv wgather1).memDie 0).waiting = [] ∧ wgather1.word 1 = wreply ∧ handleOk wreply = true ∧
    hDev wreply = (wsrv wgather1).dev ∧ hKind wreply = 2 ∧ hEfmt wreply = 63 ∧ 6 ≤ hSclass wreply :=
  ⟨canon_of _ (by decide +kernel), calm_of _, by simp [wsrv], rfl, rfl, by decide +kernel, by decide, by decide, by decide, by decide, by decide⟩
theorem witness_MemoryServers_gather : wgather1.cmd = 1 ∧ wgather1.badIndexed false = false ∧
    (∃ l t, SrvReads 0 wgather1 4 (wgather1.indices.map wgather1.elemAddr) l (wsrv wgather1) t ∧ ∀ x ∈ l, x.1 = false) ∧
    (wcmdOf [1] []).cmd = 1 ∧ (wcmdOf [1] []).badIndexed false = true ∧
    (wcmdOf ((wgather1.word 0) :: wreply :: [0x20000]) (List.replicate 104 0)).cmd = 1 :=
  ⟨by decide +kernel, by decide +kernel, srvReads_of _ _ _ _ _ (by decide +kernel), by decide +kernel, by decide +kernel, by decide +kernel⟩
theorem witness_MemoryServers_scatter : wscatter1.cmd = 2 ∧ wscatter1.badIndexed true = false ∧
    (∃ ws t, SrvWrites 0 wscatter1 (fun v => v.srvWrite 0) ((List.range wscatter1.count).map fun i =>
      ((wscatter1.indices.map wscatter1.elemAddr).getD i 0,
        ((wscatter1.operand.drop (up64 (4 * wscatter1.count))).drop (i * 2 ^ wscatter1.esz)).take (2 ^ wscatter1.esz))) ws (wsrv wscatter1) t) :=
  ⟨by decide +kernel, by decide +kernel, srvWrites_of _ _ _ _ _ (by decide +kernel)⟩
theorem witness_MemoryServers_lines : wfill1.cmd = 3 ∧ wfill1.badRange true = false ∧
    (∃ ws t, SrvWrites 0 wfill1 (fun v => v.srvFill 0) [(0x10000, (List.range 8).flatMap fun _ => bytesLE 8 (wfill1.word 4).toNat)] ws (wsrv wfill1) t) ∧
    wcheck1.cmd = 4 ∧ wcheck1.badRange false = false ∧ (∃ l t, SrvReads 0 wcheck1 64 [0x10000] l (wsrv wcheck1) t ∧ ∀ x ∈ l, x.1 = false) :=
  ⟨by decide +kernel, by decide +kernel, srvWrites_of _ _ _ _ _ (by decide +kernel), by decide +kernel, by decide +kernel,
    srvReads_of _ _ _ _ _ (by decide +kernel)⟩
theorem witness_MemoryServers_mvm : wmvm1.cmd = 5 ∧ Part.isE (wsrv wmvm1).phys.part = false ∧ wmvm1.mode? = some .int8 ∧ wmvm1.badMvm .int8 = false ∧
    wmvm1.shape.k = 1 ∧ wmvm1.shape.n = 1 ∧ (∃ l t, SrvReads 0 wmvm1 64 [0x10000] l (wsrv wmvm1) t ∧ ∀ x ∈ l, x.1 = false) :=
  ⟨by decide +kernel, by decide, by decide +kernel, by decide +kernel, by decide +kernel, by decide +kernel, srvReads_of _ _ _ _ _ (by decide +kernel)⟩

/-- The move of the frame at 0x300000, which `bootTables` maps, to 0x400000 of the same die. -/
def wrev : RevMap := { leafPa := 0x245008, leaf := bootLeaf, asid := 1, va := 0x10000, aliased := false }
def wmove (n : Nat) : Move := { step := n, quad := 0, old := 0x300000, new := 0x400000, rev := wrev, held := [] }
def wmd (d : MemDie) : State := { mem := bootTables, memdies := [(0, d)] }
theorem witness_MemoryDieSteps_start : let d : MemDie := { cands := [(0x300000, 0)], rev := [(frameOf 0x300000, wrev)], free := [0x400000] }
    (wmd d).Canon ∧ Calm (wmd d) ∧ d.move = none ∧ Tab.get? (frameOf 0x300000) d.rev = some wrev ∧
    ((wmd d).memDie (migTarget ((wmd d).reg 57) 0)).free = [0x400000] ∧ ((wmd {}).memDie (migTarget ((wmd {}).reg 57) 0)).free = [] :=
  ⟨canon_of _ (by decide +kernel), ⟨rfl, rfl, rfl, rfl, by simp [wmd]⟩, rfl, rfl, by decide +kernel, by decide +kernel⟩
theorem witness_MemoryDieSteps_move : let s := fun n => wmd { move := some (wmove n) }
    (s 2).Canon ∧ ((s 2).memDie 0).move = some (wmove 2) ∧ (wmove 2).old % 65536 = 0 ∧ (wmove 2).new % 65536 = 0 ∧ wrev.leafPa % 8 = 0 ∧
    (s 3).moveOf wrev.leafPa = none ∧ Memory.read64 (s 3).mem wrev.leafPa = wrev.leaf ∧ bits wrev.leaf 1 0 = 3 ∧
    bits wrev.leaf 51 16 * 65536 = (wmove 3).old ∧ bit wrev.leaf 9 = false ∧ bit wrev.leaf 11 = false ∧
    Memory.read64 (Memory.write64 bootTables 0x245008 0) wrev.leafPa ≠ wrev.leaf ∧ (wmove 3).held = [] ∧ (s 3).recs = [] ∧
    (s 3).paOk 0x400000 = true ∧ ((s 3).memDie (dieOf 0x400000)).free.length < 256 ∧ (s 4).onTheWay 0x300000 = false ∧
    (∀ e ∈ (s 4).procs, e.2.chunk = none) ∧ (s 4).paOk 0x300000 = true ∧ dieOf (wmove 4).old = 0 :=
  ⟨canon_of _ (by decide +kernel), rfl, by decide, by decide, by decide, by decide +kernel, by decide +kernel, by decide, by decide, by decide,
    by decide, by decide +kernel, rfl, rfl, by decide +kernel, by decide +kernel, by decide, by simp [wmd], by decide +kernel, by decide⟩
theorem witness_MemoryDieSteps_access : let s := wmd {}
    (0x300040 : Nat) % 64 = 0 ∧ s.paOk 0x300040 = true ∧ (∀ e ∈ s.memdies, e.2.move = none) ∧ s.paOk 0x300000 = true ∧
    s.paOk (2 ^ 52) = false ∧ Tab.getD 0x300040 s.codeErr 0 = 0 ∧ s.isPoison 0x300040 = false ∧
    Tab.getD 0x300040 ({ flips := [(0x300040, 1)] } : Phys).flips 0 = 1 ∧ 2 ≤ Tab.getD 0x300040 ({ flips := [(0x300040, 2)] } : Phys).flips 0 := by
  decide +kernel
theorem witness_MemoryDieSteps_accept : let x : Msg := { wmsg with kind := 1, idx := 0, sender := some 256, sclass := 6, len := 64, bytes := wordsBytes [4, wreply, 0, 0, 0, 0, 0, 0] }
    let s := { wmd {} with msgs := [(7, x)], procs := [(256, wpw 0 .waiting)] }
    s.msg? 7 = some x ∧ 64 ≤ x.bytes.length ∧ x.sender = some 256 ∧ x.ended = false ∧ x.origin = none ∧ s.proc? 256 = some (wpw 0 .waiting) ∧
    (wop 0 .waiting).id = 7 ∧ (s.memDie 0).queue.length < s.phys.srvDepth ∧ (s.memDie 0).waiting = [] ∧
    (srvStep 0 (bits (wordAt x.bytes 0) 7 0)).isSome = true := by decide +kernel

/-! ### Links -/

def wline : Line := 0x1234
def wmf : MeshFlit :=
  { src := 0, dst := 2, hops := 0, lastDir := 0, turned := false, line := wline, code := lineCode wline, poison := false, resends := 0, pa := 0, pid := none }
/-- A flit that fits and goes on, a poisoned one at its memory die, one that does not fit at its source and beyond it. -/
theorem witness_LinkSteps_mesh : lineCode wmf.line = wmf.code ∧ turnOk (decide (wmf.dst % 8 < wmf.src % 8)) wmf.turned (({} : State).portToward 0 wmf.dst) = true ∧
    (({} : State).beyond 0 (({} : State).portToward 0 wmf.dst)).isSome = true ∧ ({} : State).paOk 0x300000 = true ∧ memSite (dieOf 0x300000) = 1 ∧
    ({} : State).moveOf 0x300000 = none ∧ lineCode wmf.line ≠ wmf.code + 1 ∧ ({} : State).beyond 0 (opposite 4) = some 1 ∧ 3 < 8 * ({} : State).rows := by
  decide +kernel
def wflit0 (seq : BitVec 12) (pk : Option Packet) : MarrunFlit :=
  { seq := seq, vc := 0, rep := true, head := true, tail := true, hdr := 0, lines := [], check := 0, packet := pk }
def wflit (seq : BitVec 12) (pk : Option Packet) : MarrunFlit := { wflit0 seq pk with check := crc32c (wflit0 seq pk).bytes }
def wpk (b : Body) : Packet := { via := none, hop := 0, rep := true, src := 3, dst := 0, body := b, lines := [] }
theorem witness_LinkSteps_receive : (wflit 0 none).ok = true ∧ (wflit 2 none).ok = true ∧ (wflit 0 (some (wpk (.release 0 true)))).ok = true ∧
    ({} : Link).up = true ∧ ({} : Link).base = 0 ∧ (wflit 2 none).seq = ({} : Link).base + BitVec.ofNat 12 2 ∧ (({} : State).bar 0).mEpoch ≠ true ∧
    (wpk (.release 0 true)).dst = ({} : State).dev ∧ (wpk (.answer (replyTag 3 256 9) (.fault 8 4 0))).body = .answer (replyTag 3 256 9) (.fault 8 4 0) := by
  decide +kernel
def wsent (n : Nat) (c : BitVec 12) : SentFlit := { flit := wflit c none, pk := wpk (.release 0 true), resends := n, lastTx := 0, again := none, got := false }
/-- Two unacknowledged flits: the first is missing; its resends are few, or used up; LNKRTO has passed or not. -/
theorem witness_LinkSteps_send : let k : Link := { sent := [wsent 0 5, wsent 0 6] }
    k.up = true ∧ k.egress = [] ∧ k.ready = [] ∧ 2 ≤ k.sent.length ∧ (wsent 0 6).flit.seq ≠ (wsent 0 5).flit.seq ∧ (wsent 0 5).again = none ∧
    (wsent 0 5).resends < 15 ∧ 15 ≤ (wsent 15 5).resends ∧ (0 : Nat) < (wsent 0 5).lastTx + lnkrto ∧ (wsent 0 5).lastTx + lnkrto ≤ 5000 ∧
    (∀ x ∈ k.sent, x.got = false) ∧ (∀ x ∈ k.sent, x.resends < 15) := by decide +kernel
theorem witness_LinkSteps_hold : let e : Waiting := { pk := wpk (.release 0 true), hold := 100 }
    let k : Link := { egress := [e] }
    k.egress = [e] ∧ k.ready = [] ∧ k.up = true ∧ k.sent.length < 128 ∧ ({} : State).holding e = true ∧
    ({ cycles := 100 } : State).holding e = false ∧ e.pk.lines = [] ∧ Tab.getD e.pk.chan k.used 0 < ({} : State).phys.vcFlits := by decide
theorem witness_LinkSteps_merge : let x : MergeRec := { op := .red .add true 1, first := (3, 8), second := (4, 16) }
    Tab.get? 7 ({ merges := [(7, x)] } : State).merges = some x ∧ x.first.1 ≠ ({} : State).dev ∧ x.second.1 ≠ ({} : State).dev := by decide
theorem witness_LinkSteps_linked : Linked {} (({} : State).linkSite 1) 1 true 1 := ⟨⟨none, by decide +kernel⟩, by decide +kernel, rfl, rfl, rfl, by decide, by decide⟩
/-- Export window 0 onto the page of `bootTables`, for every kind of access, and window 1, which is closed. -/
def wexport : State :=
  { State.reset with
    mem := bootTables, regs := [(64, 0x10000), (65, field 1 63 ||| field 1 60 ||| field 1 59 ||| field 1 58 ||| field 1 16 ||| 1)]
    launches := [(1, { wlaunch with vmctx := field 1 48 ||| 0x241000 })] }
theorem witness_LinkSteps_remote : let s := wexport
    reqAcc (.load 64) = (.read, false) ∧ reqAcc (.store [1]) ≠ (.read, false) ∧
    (match s.exportAt (field 1 48) .read false with | (.error _, u) => decide (u = s) | _ => false) = true ∧
    (match s.exportAt 0 .read false with
      | (.ok h, u) => decide (h = 0x300000 ∧ u.mem = s.mem ∧ (∀ e ∈ u.memdies, e.2.move = none ∧ e.2.armed = []) ∧ u.redSlots = [] ∧ u.poison = [] ∧ u.codeErr = [] ∧
          u.phys.flips = [] ∧ u.clusters = []) && (u.homeAtomic h (.amo .add true 1)).1.isSome
      | _ => false) = true :=
  ⟨rfl, by decide, by decide +kernel, by decide +kernel⟩

/-! ### The host -/

/-- A device whose frame at 0x300000 is protected (SEC), by a leaf that a walker has read. -/
def wsec : State := { mem := Memory.write64 bootTables 0x245008 (bootLeaf ||| 0x100), secLeaves := [(0x245008, 0)] }
theorem witness_HostSteps : wsec.Canon ∧ Calm wsec ∧ (∀ e ∈ wsec.memdies, e.2.move = none) ∧ wsec.mgmt.safe = false ∧
    ({ wsec with mgmt := { safe := true } } : State).mgmt.safe = true ∧ wsec.inRange 0x300000 64 = true ∧ wsec.inRange (2 ^ 52) 64 = false ∧
    hostPa 0x300000 = 0x300000 ∧ wsec.protectedAt (lineOf (hostPa 0x300000)) = true ∧ wsec.protectedAt (lineOf (hostPa 0x400000)) = false ∧
    0x200000 ≤ hostPa 0x400000 ∧ qctlOf (hostPa 0x400000) = none ∧ wsec.protectedAt (lineOf (0x180000 + 8 * 3)) = false ∧ wsec.mgmt.tdisp ≠ .run :=
  ⟨canon_of _ (by decide +kernel), ⟨rfl, rfl, rfl, rfl, by simp [wsec]⟩, by simp [wsec], rfl, rfl, by decide +kernel, by decide +kernel,
    by decide +kernel, by decide +kernel, by decide +kernel, by decide +kernel, by decide +kernel, by decide +kernel, by decide⟩
theorem witness_HostSteps_session : let c : Copy := { wstop with secure := some { kslot := 0, encrypt := false, tags := 0, ivbase := 0 } }
    let s := { wst wp { copies := [(3, c)] } with mgmt := { tdisp := .run, session := true } }
    s.Canon ∧ s.mgmt.tdisp = .run ∧ s.mgmt.session = true ∧ Tab.get? 3 (s.cluster 0).copies = some c ∧ c.secure.isSome = true ∧
    (∀ e ∈ (wst wp {}).clusters, ∀ c ∈ e.2.copies, c.2.secure = none) ∧ (∀ e ∈ (wst wp {}).teams, e.2.luggage = none) :=
  ⟨canon_of _ (by decide), rfl, rfl, rfl, rfl, by simp [wst], by simp [wst, wteam]⟩

theorem witness_HostSteps_reply : let n : Endp := { reply := true, idx := 256 }
    let s := { wst wp { endps := [(5, n)] } with dir := [(replyKey 256, (0, 5))] }
    s.Canon ∧ Calm s ∧ (∀ e ∈ s.memdies, e.2.move = none) ∧ (256 : Nat) < 2 ^ 32 ∧ s.lookup (replyKey 256) = some (.ep 0 5) ∧
    s.endp? 0 5 = some n ∧ n.closed = false ∧ n.reply = true :=
  ⟨canon_of _ (by decide), ⟨rfl, rfl, rfl, rfl, by simp [wst]⟩, by simp [wst], by decide, rfl, rfl, rfl, rfl⟩

/-! ### Debugging, tracing, twin mode and start-up -/

def wdm (ph : HaltPhase) (g : BitVec 4) : Cluster := { dm := { phase := ph, xgrp := g, spid := 256 } }
/-- Cluster 1 in cluster 0's group and cluster 2 outside it; a cluster that stops, and one that stands, with its process before and in the halt. -/
theorem witness_DebugSteps : let s := { wst wp (wdm .running 2) with clusters := [(0, wdm .running 2), (1, wdm .running 2), (2, wdm .running 15)] }
    let q := { wp with state := .halted, before := some .running }
    s.Canon ∧ s.proc? 256 = some wp ∧ (s.cluster 0).dm.phase = .running ∧ Tab.get? 1 s.clusters = some (wdm .running 2) ∧
    Tab.get? 2 s.clusters = some (wdm .running 15) ∧ ((s.cluster 0).dm.xgrp).toNat < 8 ∧
    ((wst wp (wdm .stopping 2)).cluster 0).dm.phase = .stopping ∧ ((wst wp (wdm .stopping 2)).cluster 0).dm.replay = none ∧
    wp.chunk = none ∧ wp.amoOut = false ∧ (wst wp (wdm .stopping 2)).arrayQuiet 0 = true ∧
    ((wcmd wslot .zero).arrayQuiet 0 = false) ∧
    ((wst q (wdm .halted 2)).cluster 0).dm.phase = .halted ∧ ((wst q (wdm .halted 2)).cluster 0).dm.stepping = false ∧ q.state = .halted ∧
    q.before = some .running ∧ (wdm .halted 2).dm.spid.toNat = 256 ∧ bit q.dbgEn 9 = false ∧ bit ({ q with dbgEn := 0x200 } : Proc).dbgEn 9 = true :=
  ⟨canon_of _ (by decide), rfl, rfl, rfl, rfl, by decide, rfl, rfl, rfl, by decide, by decide +kernel, by decide +kernel, rfl, rfl, rfl, rfl,
    by decide, by decide, by decide⟩
theorem witness_DebugSteps_replay : let s := wst wp { dm := { replay := some (256, 2) } }
    s.Canon ∧ (s.cluster 0).dm.replay = some (256, 2) ∧ (s.cluster 0).dm.stepping = false ∧ wp.chunk = none ∧ wp.state = .running :=
  ⟨canon_of _ (by decide), rfl, rfl, rfl, rfl⟩

def whalt (c : Cluster) : State := wst wp { c with dm := { phase := .halted, daddr := 0x10000 } }
theorem witness_StateAccess : (whalt wct).Canon ∧ Tab.sorted ((whalt wct).cluster 0).dm.dbuf = true ∧ ((whalt wct).cluster 0).dm.phase = .halted ∧
    ((wst wp {}).cluster 0).dm.phase ≠ .halted ∧ (whalt wct).proc? 256 = some wp ∧ (whalt wct).team? wp.team = some wteam ∧
    bits ((whalt wct).dbuf 0 6) 8 5 = 0 ∧ bits wp.dbgEn 8 5 = 0 ∧ wp.svc = none ∧
    ((whalt { svcQ := [wframe] }).cluster 0).svcQ.find? (fun x => x.pid = 256) = some wframe ∧
    ((whalt wct).cluster 0).svcQ.find? (fun x => x.pid = 256) = none ∧ ((whalt wct).cluster 0).dm.daddr.toNat % 64 = 0 ∧
    (match (whalt wct).daccPlace wp 0x10000 false, (whalt wct).daccPlace wp 0x10000 true with
      | (.at_ a, _), (.at_ b, u) => decide (a = 0x300000 ∧ b = 0x300000 ∧ u = whalt wct)
      | _, _ => false) = true ∧
    (match (whalt {}).daccPlace wp 0x0200000000000000 false with | (.fault, _) => true | _ => false) = true :=
  ⟨canon_of _ (by decide), rfl, rfl, by decide, rfl, rfl, by decide, by decide, rfl, by decide, rfl, by decide, by decide +kernel,
    by decide +kernel⟩
theorem witness_StateAccess_entries : (whalt { windows := [(0, wpresent)] }).Canon ∧
    Tab.get? 0 ((whalt { windows := [(0, wpresent)] }).cluster 0).windows = some wpresent ∧
    (Window.ofWords 1 0 (fun i => wpresent.words.getD i 0)).isSome = true ∧ bits ((whalt {}).dbuf 0 5) 63 62 = 0 ∧
    (whalt { endps := [(0, wend3)] }).endp? 0 0 = some wend3 ∧ bit ((whalt {}).dbuf 0 0) 63 = false ∧
    ({ whalt {} with experts := [(0, wexpert)] } : State).expert? 0 = some wexpert ∧ (whalt {}).expert? 0 = none ∧ (whalt {}).endp? 0 0 = none ∧
    sysListed 200 = false ∧ sysReadOnly 40 = true :=
  ⟨canon_of _ (by decide), rfl, by decide +kernel, by decide, rfl, by decide, rfl, rfl, rfl, by decide, by decide⟩

def wpackets : List Packet8 := List.replicate 8192 [1, 2, 3, 4, 5, 6, 7, 8]
theorem wpackets_words (x : Packet8) (h : x ∈ wpackets) : x.length = 8 := by rw [(List.mem_replicate.1 h).2]; rfl
/-- A half-full buffer with a spill area of 1 MiB at 0x400000; a core whose state has lasted; a snuffer on a ready queue. -/
def wtrace : State :=
  { wst wp { trace := { buf := wpackets, last := [(0, 1, 0)], recs := [(0, 0, [])] }, regs := [(125, field 1 52 ||| field 4 20), (126, 3)] } with
    cycles := 20000 }
theorem witness_TraceAndTwinSteps : wtrace.Canon ∧ wtrace.redSlots = [] ∧ wtrace.poison = [] ∧ wtrace.codeErr = [] ∧ wtrace.phys.flips = [] ∧
    ((wtrace.cluster 0).cache = []) ∧ bit (wtrace.clReg 0 126) 0 = true ∧ bit ((wst wp {}).clReg 0 126) 0 = false ∧
    bits (wtrace.clReg 0 125) 63 52 * 2 ^ 20 ≠ 0 ∧ (wtrace.cluster 0).trace.buf = wpackets ∧ wpackets.length = 8192 ∧
    (wtrace.cluster 0).trace.spilled = 0 ∧ (∀ x ∈ wpackets, x.length = 8) ∧
    ((List.range 4096).all fun i => wtrace.paOk (bits (wtrace.clReg 0 125) 51 20 * 2 ^ 20 + 64 * i)) = true ∧
    Tab.get? 0 (wtrace.cluster 0).trace.last = some (1, 0) ∧ wtrace.capturing 0 = true ∧ 0 + 16383 ≤ wtrace.cycles ∧
    Tab.get? 0 (wtrace.cluster 0).trace.recs = some (0, []) ∧ Tab.get? 1 (wtrace.cluster 0).trace.last = none :=
  ⟨canon_of _ (by decide +kernel), rfl, rfl, rfl, rfl, rfl, by decide +kernel, by decide +kernel, by decide +kernel, rfl, List.length_replicate ..,
    rfl, wpackets_words, by decide +kernel, rfl, by decide +kernel, by decide, rfl, rfl⟩
def wsnuff (rel : Nat) : State :=
  { wst wp { ready := [(0, [256])] } with dieRegs := [(160, field 1 63 ||| field rel 60 ||| field 1 56 ||| 1), (161, field 1 4)] }
theorem witness_TraceAndTwinSteps_snuffer : bit ((wsnuff 0).snfa 0 0) 63 = true ∧ bit ((wsnuff 0).snfb 0 0) 63 = false ∧
    (wsnuff 0).snufferValue 0 0 0 = some 1 ∧ relHolds (bits ((wsnuff 2).snfa 0 0) 62 60) 1 (bits ((wsnuff 2).snfa 0 0) 31 0) = true ∧
    relHolds (bits ((wsnuff 0).snfa 0 0) 62 60) 1 (bits ((wsnuff 0).snfa 0 0) 31 0) = false ∧ bit ((wsnuff 0).snfb 0 0) 4 = true ∧
    ((wsnuff 0).cluster (8 * 0 + bits ((wsnuff 0).snfb 0 0) 10 8)).dm.phase = .running ∧ bit ((wst wp {}).snfa 0 0) 63 = false := by decide +kernel
theorem witness_TraceAndTwinSteps_twin : let s : State := { phys := { twin := some 0, peerH := [(3, 5)] }, twinWait := [(9, 10)], cycles := 200000 }
    s.Canon ∧ s.phys.twin.isSome = true ∧
    ((List.range 16).filter fun m => Tab.getD (64 * (0 + 1) + m) s.twinH 0 ≠ Tab.getD (64 * 0 + m) s.phys.peerH 0) = [3] ∧
    Tab.get? 9 s.twinWait = some 10 ∧ 10 + nsCycles 100000 ≤ s.cycles ∧ 20 < 10 + nsCycles 100000 ∧ Tab.get? 8 s.twinWait = none :=
  ⟨canon_of _ (by decide), rfl, by decide, rfl, by decide, by decide, rfl⟩

/-- A device in start-up at step n, warm or not, and the faults it may find. -/
def wboot (n : Nat) (warm preserve : Bool) (ph : Phys) : State := { mgmt := { step := n, warm := warm, preserve := preserve }, phys := ph }
theorem witness_StartupSteps : (wboot 2 false false {}).Canon ∧ (wboot 2 false false {}).redSlots = [] ∧ (wboot 2 false false {}).mgmt.step = 2 ∧
    ({ badMdie := [3] } : Phys).badMdie ≠ [] ∧ (wboot 3 true false {}).mgmt.warm = true ∧ ({ badTrain := [1] } : Phys).badTrain ≠ [] ∧
    (wboot 4 true true {}).mgmt.preserve = true ∧ ({ keyHash := 1 } : Phys).keyHash ≠ ({ keyHash := 1 } : Phys).fusedHash ∧
    ({ sigOk := false } : Phys).sigOk = false ∧ ((List.range 64).all fun q => decide (Memory.read64 (wboot 6 false false {}).mem
      ((wboot 6 false false {}).dueSlot q + 56) ≠ (Tab.getD q (wboot 6 false false {}).queues {}).eseq)) = true ∧
    ({ reached6 := true } : Mgmt).reached6 = true ∧ ({ badSaved := [1] } : Phys).badSaved ≠ [] ∧
    ({ safe := true, fstep := 2 } : Mgmt).mmask = 0 ∧ ({ throttle := true } : Mgmt).throttle = true ∧ ({ fcode := 6 } : Mgmt).safe = false :=
  ⟨canon_of _ (by decide), rfl, rfl, by decide, rfl, by decide, rfl, by decide +kernel, rfl, by decide +kernel, rfl, by decide, rfl, rfl, rfl⟩

/-! ### Decoding and stepping -/

theorem witness_DecodeEncode : (Instr.add ⟨false, 0, none, none, 2⟩ 8 2 none).wf = true ∧
    (shapeOf (.add ⟨false, 0, none, none, 2⟩ 8 2 none)).isSome = true := by decide
theorem witness_DecodedWellFormed : decodeWords [0x060A] = .instr (.add ⟨false, 0, none, none, 2⟩ 8 2 none) 1 := by decide
def wissue (w : Nat) : State :=
  ({ wfetch w with cur := some 256, last := 256 } : State).modProc 256 fun pr => { pr with issuedAt := (wfetch w).cycles + 1 }
/-- The machine of `State.withFetchWord` issues the word placed there. -/
def wsteps (w : Nat) : Bool :=
  decide ((wfetch w).nextIssuer = some 256 ∧ (wfetch w).queue = []) &&
  ((wfetch w).proc? 256).any (fun pr => !pr.phaseTrap && pr.childDue.isEmpty && !pr.acquireDue && decide (pr.pc = 0x10000)) &&
  (match fetchChain 256 5 0x10000 (wissue w) with
    | .ok (ws, u) => decide (ws = [BitVec.ofNat 16 w]) && (u.proc? 256).any fun q =>
        q.chunk.isNone && !q.solo && (u.breakpoint q 2).isNone && (shortHits q.ctx (usesOf (.add ⟨false, 0, none, none, 2⟩ 8 2 none))).isEmpty
    | .error _ => false)
/-- An ADD, and a word of zero, which is illegal. -/
theorem witness_StepRunsDecoded : wsteps 0x060A = true ∧ wsteps 0 = true ∧ decodeWords [0] = .illegal 1 1 := by decide +kernel
theorem witness_StepRunsDecoded_due : ∃ due rest, State.reset.queue = (due, .coldStart) :: rest ∧ due ≤ State.reset.cycles := ⟨0, [], rfl, by decide⟩
theorem witness_MemoryStaysCanonical : (wfetch 0x060A).MemWf ∧ (match step (wfetch 0x060A) with | .next _ => true | _ => false) = true :=
  ⟨by unfold State.MemWf; decide +kernel, by decide +kernel⟩

/-! ## Single steps (expected results by hand from the rules named) -/

/-- What process 256 holds after an instruction on `wst q {}`: a scalar register, and the program counter. -/
def after1 (i : Instr) (s : State) (r : SReg) : Option (Word × Word) :=
  match exec i s with
  | .next t => (t.proc? 256).map fun q => (q.ctx.rs r, q.pc)
  | _ => none
def wregs (l : Tab Word) : State := wst { wp with ctx := { s := l } } {}

/-- R222: a quotient by zero is all ones. -/
theorem test_div_zero : after1 (.div wm 4 5 none) (wregs [(4, 7)]) 4 = some (BitVec.allOnes 64, 0x10002) := by decide +kernel
/-- R222: -7 = -3 × 2 - 1. -/
theorem test_rem_sign : after1 (.rem wm 4 5 none) (wregs [(4, -7), (5, 2)]) 4 = some (-1, 0x10002) := by decide +kernel
/-- R221: shifts use bits 5:0 of the amount. -/
theorem test_shift_amount : after1 (.shl wm 4 5 none) (wregs [(4, 3), (5, 65)]) 4 = some (6, 0x10002) := by decide +kernel
/-- R221: MULH is the signed upper half, MULHN the unsigned one. -/
theorem test_mulh_sign : after1 (.mulh wm 4 5 none) (wregs [(4, -1), (5, 2)]) 4 = some (-1, 0x10002) := by decide +kernel
theorem test_mulhn : after1 (.mulhn wm 4 5 none) (wregs [(4, -1), (5, 2)]) 4 = some (1, 0x10002) := by decide +kernel
/-- R28: a write to s0 is discarded. -/
theorem test_write_s0 : after1 (.movi wm 0 5) (wregs []) 0 = some (0, 0x10002) := by decide +kernel
/-- R226: the scaled index of LEA; a destination that is also a source. -/
theorem test_lea_scale : after1 (.lea wm 4 4 (some 4) 3 1) (wregs [(4, 5)]) 4 = some (46, 0x10004) := by decide +kernel
/-- R231, R232: JL leaves the address after it in s63 and goes to pc + 2 × the displacement. -/
theorem test_jl : after1 (.jl wm 8) (wregs []) 63 = some (0x10002, 0x10010) := by decide +kernel
/-- R233, R416: an odd target traps, ILLEGAL_OP cause 10, with nothing written. -/
theorem test_jump_odd : (match exec (.j wm 4) (wregs [(4, 3)]) with
    | .next t => (t.proc? 256).map fun q => (q.pc, q.fcls, q.fkind)
    | _ => none) = some (0x10000, 1, 10) := by decide +kernel
/-- R193, R4: bytes are least significant first; LDS extends the sign. -/
theorem test_load_order : after1 (.ld wm 4 5 .h 0) { wregs [(5, 0xC000000000000000)] with mem := [(sramLoc 0 0, 0x34), (sramLoc 0 1, 0x92)] } 4 =
    some (0x9234, 0x10002) := by decide +kernel
theorem test_load_sign : after1 (.lds wm 4 5 .h 0) { wregs [(5, 0xC000000000000000)] with mem := [(sramLoc 0 0, 0x34), (sramLoc 0 1, 0x92)] } 4 =
    some (0xFFFFFFFFFFFF9234, 0x10002) := by decide +kernel
/-- R188: outside a chunk a byte store changes one byte. -/
theorem test_store_byte : (match exec (.st wm 4 5 .b 1) (wregs [(4, 0x1FF), (5, 0xC000000000000000)]) with
    | .next t => t.mem
    | _ => []) = [(sramLoc 0 1, 0xFF)] := by decide +kernel
/-- R183: TIMEBASE reads five sixths of the core cycles. -/
theorem test_timebase : after1 (.ld wm 4 5 .d 0) { wregs [(5, 0xC000000004000000)] with cycles := 60 } 4 = some (50, 0x10002) := by decide +kernel
/-- R356: the reply endpoint of PID 256 on device 0. -/
theorem test_self_reply : after1 (.self wm 4 .reply) (wregs []) 4 = some (0xFCC8000000000100, 0x10004) := by decide +kernel
/-- R454: the first step after power-up begins the cold start. -/
theorem test_cold_start : (match step State.reset with | .next t => some t.mgmt.step | _ => none) = some 1 := by decide +kernel

end Sys2Proof.Tests
end

/-! # WSET with a source address that breaks its form

The descriptor checks of R159 leave the SRC field's own form aside: R44 makes a global address with a nonzero bit where R43 lists
zeros a translation fault at the instruction that names it, and WSET names SRC. A descriptor can therefore be sound, its window
free of every WINDOW kind, and WSET trap all the same. -/

namespace Sys2Proof.Machine

/-- Where an instruction goes on, its process stands past it. -/
theorem GoesWith.pc_eq {s : State} {p : Pid} {pr : Proc} {len : Nat} {c : Ctx} {P : State → Prop} {o : Host.Outcome State Fault Refusal}
    (h : GoesWith s p pr len c P o) : ∃ t, o = .next t ∧ (t.proc? p).map Proc.pc = some (pr.pc + BitVec.ofNat 64 len) := by
  obtain ⟨t, ho, hv, -⟩ := h
  refine ⟨t, ho, ?_⟩
  obtain ⟨q, hq, hqv⟩ := Option.map_eq_some_iff.1 hv
  rw [hq]
  exact congrArg (fun v => some v.1) hqv

namespace BadSource

/-- No prefixes. -/
def mods : Mods := ⟨false, 0, none, none, 0⟩

/-- One row of 64 bytes at scratchpad offset 0x1000, without FILL; SRC lies in space 0 and has bit 57 set, which R43 lists as zero. -/
def descriptor : List Word := [0x1000, 0x0200000000000000, 0x400001, 64, 0, 0, 0, 0]

/-- A running process of team 1 on cluster 0, outside every chunk; s5 names the first byte of its scratchpad, and s4 is 0. -/
def issuer : Proc := { state := .running, slot := some 0, team := 1, lid := 1, pc := 0x10000, ctx := { s := [(5, 0xC000000000000000)] } }

/-- The process issues, with the descriptor at the start of its team's allotment and no window bound. -/
def start : State :=
  { cur := some 256, procs := [(256, issuer)], clusters := [(0, {})]
    teams := [(1, { lid := 1, index := 0, state := .running, nproc := 1, spmsz := 1, entry := 0x10000 })]
    mem := Memory.write [] (sramLoc 0 0) (wordsBytes descriptor) }

theorem issues : Issues start 256 issuer (lenOf mods true false) where
  cur := rfl
  proc := rfl
  settled := by simp [Ctx.Settled, issuer]
  inside := by simp [Proc.Inside, issuer]

theorem quiet : Quiet start issuer where
  outs := rfl
  held := rfl
  reds := by simp [issuer]
  att := rfl

/-- The descriptor lies in the process's own scratchpad, on a clean line of no window. -/
theorem descriptor_local : Local start issuer (issuer.ctx.rs 5) 64 (sramLoc 0 0) where
  space := by decide
  high := by decide
  inside := by decide
  loc_eq := by decide
  low := by decide
  sram := by decide
  align := by decide
  inLine := by decide
  clear := by decide
  clean := rfl
  code := rfl
  ecc := rfl
  sums := by simp [start]

theorem seen_descriptor : (List.range 8).map (seenWord start issuer (sramLoc 0 0)) = descriptor := by decide

theorem descriptor_sound : badWindow descriptor = false ∧ start.windowBad 0 (windowOf descriptor 1 0 256) = 0 := by decide

/-- The outcome by evaluation: the process is in service for a translation fault of kind FORM, at the WSET. -/
theorem wset_takes_form_fault : (match exec (.wset mods 4 5) start with
    | .next t => (t.proc? 256).map fun q => (q.state, q.fcls, q.fkind, q.pc)
    | _ => none) = some (.service, 5, BitVec.ofNat 8 xForm, issuer.pc) := by decide +kernel

/-- So it has not gone on past the WSET. -/
theorem not_goesWith (c : Ctx) (P : State → Prop) :
    ¬ GoesWith start 256 issuer (lenOf mods true false) c P (exec (.wset mods 4 5) start) := by
  intro h
  obtain ⟨t, ho, hpc⟩ := h.pc_eq
  have hf := wset_takes_form_fault
  rw [ho] at hf
  obtain ⟨q, hq, hqf⟩ := Option.map_eq_some_iff.1 hf
  have hstay : q.pc = issuer.pc := by simpa using congrArg (fun x => x.2.2.2) hqf
  have hmove : q.pc = issuer.pc + BitVec.ofNat 64 (lenOf mods true false) := by simpa [hq] using hpc
  exact absurd (hstay.symm.trans hmove) (by decide)

end BadSource

open BadSource in
/-- Refutes O25: WSET of a sound descriptor, free of every WINDOW kind, whose SRC has a nonzero bit where R43 lists zeros, takes the
translation fault FORM of R44 and binds nothing; the statement has no hypothesis on the form of word 1. -/
theorem not_windows : ¬ Obligations.Windows := by
  unfold Obligations.Windows
  intro h
  obtain ⟨hset, -⟩ := h start 256 issuer mods 4 5 (sramLoc 0 0) 0 (windowOf [] 0 0 0) issues rfl quiet rfl (by decide)
  have hsound := descriptor_sound
  rw [← seen_descriptor] at hsound
  obtain ⟨-, -, -, -, -, -, -, hgo⟩ := hset descriptor_local hsound.1 (by decide) hsound.2 rfl
  exact not_goesWith _ _ hgo

end Sys2Proof.Machine

/-! # The two-source scalar forms

All twenty are one mould, `runAlu2`, over the sources of R221. The model computes their results on the integers that the words
stand for; R221 and R222 name operations on words. Each result is brought to its word operation once, and the mould does the rest. -/

namespace Sys2Proof.Machine

/-! ## Results as operations on words -/

/-- Bits 5:0 of the amount (R221). -/
theorem shAmt_eq_toNat_and (b : Word) : shAmt b = (b &&& 63).toNat := by
  rw [BitVec.toNat_and]
  exact (Nat.and_two_pow_sub_one_eq_mod b.toNat 6).symm

theorem shiftLeft_shAmt (a b : Word) : a <<< shAmt b = a <<< (b &&& 63) := by rw [shAmt_eq_toNat_and]; rfl
theorem ushiftRight_shAmt (a b : Word) : a >>> shAmt b = a >>> (b &&& 63) := by rw [shAmt_eq_toNat_and]; rfl
theorem sshiftRight_shAmt (a b : Word) : a.sshiftRight (shAmt b) = a.sshiftRight' (b &&& 63) := by rw [shAmt_eq_toNat_and]; rfl

/-- Sign extension to 128 bits keeps the value, so the wide product is the product of the integers. -/
theorem signExtend_mul_signExtend (a b : Word) :
    a.signExtend 128 * b.signExtend 128 = BitVec.ofInt 128 (a.toInt * b.toInt) := by
  have ext (x : Word) : x.signExtend 128 = BitVec.ofInt 128 x.toInt := by
    rw [← BitVec.toInt_signExtend_of_le (x := x) (show 64 ≤ 128 by decide), BitVec.ofInt_toInt]
  rw [ext a, ext b, BitVec.ofInt_mul]

theorem extractLsb'_ofInt_high (z : Int) : (BitVec.ofInt 128 z).extractLsb' 64 64 = BitVec.ofInt 64 (z / 2 ^ 64) := by
  apply BitVec.eq_of_toNat_eq
  rw [BitVec.extractLsb'_toNat, BitVec.toNat_ofInt, BitVec.toNat_ofInt, Nat.shiftRight_eq_div_pow]
  omega

theorem mulhS_eq_extractLsb' (a b : Word) : mulhS a b = (a.signExtend 128 * b.signExtend 128).extractLsb' 64 64 := by
  rw [signExtend_mul_signExtend, extractLsb'_ofInt_high, mulhS]

/-- The product of two 64-bit numbers fits in 128 bits. -/
theorem mulhU_eq_extractLsb' (a b : Word) : mulhU a b = (a.setWidth 128 * b.setWidth 128).extractLsb' 64 64 := by
  have hfit : a.toNat * b.toNat < 2 ^ 64 * 2 ^ 64 := Nat.mul_lt_mul'' a.isLt b.isLt
  have ext (x : Word) : (x.setWidth 128).toNat = x.toNat :=
    BitVec.toNat_setWidth_of_le (by decide)
  apply BitVec.eq_of_toNat_eq
  rw [mulhU, BitVec.toNat_ofNat, BitVec.extractLsb'_toNat, BitVec.toNat_mul, ext a, ext b, Nat.shiftRight_eq_div_pow,
    Nat.mod_eq_of_lt (b := 2 ^ 128) (by omega)]

/-- The complementary amount 64 - n is at most 64, and a shift by 64 leaves nothing. -/
theorem rotateLeft_shAmt (a b : Word) :
    a.rotateLeft (shAmt b) = (a <<< (b &&& 63)) ||| (a >>> (64 - (b &&& 63))) := by
  have hlt : shAmt b < 64 := Nat.mod_lt _ (by decide)
  have hcompl : (64 - (b &&& 63)).toNat = 64 - shAmt b := by
    rw [BitVec.toNat_sub_of_le (by rw [BitVec.le_def, ← shAmt_eq_toNat_and]; exact Nat.le_of_lt hlt), ← shAmt_eq_toNat_and]
    rfl
  rw [BitVec.rotateLeft_def, Nat.mod_eq_of_lt hlt, ← hcompl, shAmt_eq_toNat_and]
  rfl

theorem minS_eq_ite_slt (a b : Word) : minS a b = if a.slt b then a else b := by
  simp only [minS, BitVec.slt_iff_toInt_lt]
  rcases Int.lt_trichotomy a.toInt b.toInt with h | h | h
  · rw [if_neg (by omega), if_pos h]
  · rw [BitVec.eq_of_toInt_eq h, ite_self]
  · rw [if_pos h, if_neg (by omega)]

theorem maxS_eq_ite_slt (a b : Word) : maxS a b = if a.slt b then b else a := by
  simp only [maxS, BitVec.slt_iff_toInt_lt]

theorem minU_eq_ite_ult (a b : Word) : minU a b = if a.ult b then a else b := by
  simp only [minU, BitVec.ult_iff_toNat_lt]
  rcases Nat.lt_trichotomy a.toNat b.toNat with h | h | h
  · rw [if_neg (by omega), if_pos h]
  · rw [BitVec.eq_of_toNat_eq h, ite_self]
  · rw [if_pos h, if_neg (by omega)]

theorem maxU_eq_ite_ult (a b : Word) : maxU a b = if a.ult b then b else a := by
  simp only [maxU, BitVec.ult_iff_toNat_lt]

/-- The one quotient that does not fit, of the least integer by -1, wraps to the dividend. -/
theorem divS_eq_sdiv (a b : Word) : divS a b = if b = 0 then 0xFFFFFFFFFFFFFFFF else a.sdiv b := by
  have hquot : BitVec.ofInt 64 (a.toInt.tdiv b.toInt) = a.sdiv b :=
    BitVec.eq_of_toInt_eq (by rw [BitVec.toInt_ofInt, BitVec.toInt_sdiv])
  rw [divS, hquot]
  rfl

theorem divU_eq_udiv (a b : Word) : divU a b = if b = 0 then 0xFFFFFFFFFFFFFFFF else a.udiv b := by
  rw [divU, BitVec.udiv_eq, BitVec.udiv_def]
  rfl

theorem remS_eq_srem (a b : Word) : remS a b = if b = 0 then a else a.srem b := by
  rw [remS, ← BitVec.toInt_srem, BitVec.ofInt_toInt]

theorem remU_eq_umod (a b : Word) : remU a b = if b = 0 then a else a.umod b := by
  rw [remU, BitVec.umod_eq, BitVec.umod_def]

/-! ## The mould -/

/-- A two-source form that its gate lets through goes on with its result in d, whatever its latency. -/
theorem runAlu2_goesOn {s : State} {p : Pid} {pr : Proc} {m : Mods} {d r : SReg} {t : Option SReg} {a b v : Word} {lat : Nat}
    {f : Word → Word → Word} (hi : Issues s p pr (lenOf m false t.isSome)) (hon : On m pr)
    (hsrc : src2 pr.ctx d r t = (a, b)) (hv : f a b = v) :
    GoesOn s p pr (lenOf m false t.isSome) (pr.ctx.ws d v) (runAlu2 m d r t lat f s) := by
  have hrun := runReg_goesOn m _ true s
    (fun pr => .ok ({ pr with ctx := pr.ctx.ws d (f (src2 pr.ctx d r t).1 (src2 pr.ctx d r t).2) }, { outs := [outS d lat] }))
    p pr _ _ hi (fun _ => hon) rfl rfl rfl rfl rfl
  rw [hsrc] at hrun
  rw [← hv]
  exact hrun

/-- Settles O2: each form is the mould at a function of the model, and that function is the word operation the statement names. -/
theorem twoSourceResults : Obligations.TwoSourceResults := by
  unfold Obligations.TwoSourceResults
  constructor
  · intro s p pr m d r t hi hon a b n gives
    have hsrc : src2 pr.ctx d r t = (a, b) := by cases t <;> rfl
    have alu (lat : Nat) (f : Word → Word → Word) {v : Word} (hv : f a b = v) : gives v (runAlu2 m d r t lat f s) :=
      runAlu2_goesOn hi hon hsrc hv
    exact ⟨alu 1 (· + ·) rfl, alu 1 (· - ·) rfl, alu 3 (· * ·) rfl,
      alu 4 mulhS (mulhS_eq_extractLsb' a b), alu 4 mulhU (mulhU_eq_extractLsb' a b),
      alu 1 (· &&& ·) rfl, alu 1 (· ||| ·) rfl, alu 1 (· ^^^ ·) rfl,
      alu 1 (· <<< shAmt ·) (shiftLeft_shAmt a b), alu 1 (· >>> shAmt ·) (ushiftRight_shAmt a b),
      alu 1 (fun a b => a.sshiftRight (shAmt b)) (sshiftRight_shAmt a b),
      alu 1 (fun a b => a.rotateLeft (shAmt b)) (rotateLeft_shAmt a b),
      alu 1 minS (minS_eq_ite_slt a b), alu 1 maxS (maxS_eq_ite_slt a b),
      alu 1 minU (minU_eq_ite_ult a b), alu 1 maxU (maxU_eq_ite_ult a b)⟩
  · intro s p pr m d r t hi hon a b gives
    have hsrc : src2 pr.ctx d r t = (a, b) := by cases t <;> rfl
    have alu (lat : Nat) (f : Word → Word → Word) {v : Word} (hv : f a b = v) : gives v (runAlu2 m d r t lat f s) :=
      runAlu2_goesOn hi hon hsrc hv
    exact ⟨alu 34 divS (divS_eq_sdiv a b), alu 34 divU (divU_eq_udiv a b), alu 34 remS (remS_eq_srem a b),
      alu 34 remU (remU_eq_umod a b)⟩

end Sys2Proof.Machine

/-! # The vector forms that compare, select and combine bit by bit

Every vector form goes through `runV`; what it writes is blended bytewise under the mask (R241), and its sources pass the tag and
scale checks (R179, R242). Each of these is said once below; the forms of R246 to R248 are then short. -/

namespace Sys2Proof.Machine

/-! ## Running a vector form -/

/-- A vector form that its gate lets through and whose checks pass goes on with the context it computed. -/
theorem runV_goesOn {s : State} {p : Pid} {pr : Proc} {m : Mods} {third gate : Bool} {c : Ctx} {outs : List (BitVec 2 × BitVec 6 × Nat)}
    {f : Ctx → Except TrapInfo (Ctx × List (BitVec 2 × BitVec 6 × Nat))} (hi : Issues s p pr (lenOf m true third))
    (hon : gate = true → On m pr) (hf : f pr.ctx = .ok (c, outs)) :
    GoesOn s p pr (lenOf m true third) c (runV m third gate s f) :=
  runReg_goesOn m _ gate s _ p pr { pr with ctx := c } { outs := outs } hi hon (by simp only [hf]) rfl rfl rfl rfl

/-! ## The tag and scale checks -/

theorem tag?_vOp_of_code {c : Ctx} {pos : Nat} {r : VReg} {tag : Tag} (h : c.rvtag r = BitVec.ofNat 4 tag.code) :
    (vOp c pos r).tag? = some tag := by
  rw [Opnd.tag?, vOp, h]
  cases tag <;> rfl

/-- Every code up to 13 is that of a tag (R200). -/
theorem exists_tag?_vOp {c : Ctx} {r : VReg} (pos : Nat) (h : c.rvtag r ≤ 13) : ∃ tag, (vOp c pos r).tag? = some tag :=
  Option.isSome_iff_exists.1 ((by decide : ∀ x : BitVec 4, x ≤ 13 → (Tag.ofCode? x.toNat).isSome = true) _ h)

theorem needTag_eq_ok {o : Opnd} {ok : Tag → Bool} {tag : Tag} (ht : o.tag? = some tag) (hok : ok tag = true) :
    needTag o ok = .ok tag := by
  rw [needTag, ht]
  exact if_pos hok

theorem sameTag_pair_eq_ok {a b : Opnd} {ok : Tag → Bool} {tag : Tag} (ht : a.tag? = some tag) (hok : ok tag = true)
    (hab : b.tag = a.tag) : sameTag ok [a, b] = .ok tag := by
  simp [sameTag, needTag_eq_ok ht hok, hab, bind, Except.bind]

theorem sameScale_pair_eq_ok {a b : Opnd} (hab : b.scale = a.scale) : sameScale [a, b] = .ok () := by
  simp [sameScale, hab]

/-! ## Blending under the byte mask (R241) -/

theorem testBit_255 (i : Nat) : (255 : Nat).testBit i = decide (i < 8) := Nat.testBit_two_pow_sub_one 8 i

theorem spread_lt (mask : Word) (n : Nat) : spread mask n < 2 ^ (8 * n) := by
  induction n with
  | zero => exact Nat.one_pos
  | succ n ih =>
    rw [spread, Nat.mul_succ, Nat.pow_add]
    split <;> omega

theorem testBit_spread (mask : Word) (n i : Nat) : (spread mask n).testBit i = (decide (i < 8 * n) && mask.getLsbD (i / 8)) := by
  induction n with
  | zero => simp [spread]
  | succ n ih =>
    have hadd : spread mask (n + 1) = 2 ^ (8 * n) * (if mask.getLsbD n then 255 else 0) + spread mask n := by
      rw [spread]; split <;> omega
    rw [hadd, Nat.testBit_two_pow_mul_add _ (spread_lt mask n), ih]
    split
    case isTrue hlow => simp [hlow, show i < 8 * (n + 1) by omega]
    case isFalse hhigh =>
      by_cases hbyte : i < 8 * (n + 1)
      · rw [show i / 8 = n by omega]
        cases mask.getLsbD n <;> simp [hbyte, testBit_255, show i - 8 * n < 8 by omega]
      · cases mask.getLsbD n <;> simp [hbyte, testBit_255, show ¬ i - 8 * n < 8 by omega]

theorem getLsbD_vecMask (mask : Word) {i : Nat} (h : i < 512) : (vecMask mask).getLsbD i = mask.getLsbD (i / 8) := by
  rw [vecMask, BitVec.getLsbD_ofNat, testBit_spread]
  simp [h]

theorem merged_blend (mask : Word) (old new : Line) : Merged mask old new (blend (vecMask mask) old new) := by
  intro i h
  simp only [blend, BitVec.getLsbD_or, BitVec.getLsbD_and, BitVec.getLsbD_not, getLsbD_vecMask mask h, h]
  cases mask.getLsbD (i / 8) <;> simp

/-! ## Bitwise forms (R246) -/

theorem needTag_anyTag_eq_ok {c : Ctx} {r : VReg} (pos : Nat) (h : c.rvtag r ≤ 13) : ∃ tag, needTag (vOp c pos r) anyTag = .ok tag := by
  obtain ⟨tag, ht⟩ := exists_tag?_vOp pos h
  exact ⟨tag, needTag_eq_ok ht rfl⟩

theorem putsV_putLine {s : State} {p : Pid} {pr : Proc} {m : Mods} {len : Nat} {d : VReg} {x : Line} {tag : BitVec 4} {scale : BitVec 8}
    {o : Host.Outcome State Fault Refusal} (h : GoesOn s p pr len (putLine m pr.ctx d x tag scale) o) :
    PutsV s p pr len m d x tag scale o :=
  ⟨_, merged_blend _ _ _, h⟩

/-- A two-source bitwise form, its sources at whatever positions `vSrc` gives them. -/
theorem runBit_putsV {s : State} {p : Pid} {pr : Proc} {m : Mods} {d r : VReg} {t : Option VReg} {a b : VReg} {i j : Nat}
    (f : Line → Line → Line) (hi : Issues s p pr (lenOf m true t.isSome))
    (hsrc : vSrc pr.ctx d r t = ((a, vOp pr.ctx i a), (b, vOp pr.ctx j b))) (ha : pr.ctx.rvtag a ≤ 13) (hb : pr.ctx.rvtag b ≤ 13) :
    PutsV s p pr (lenOf m true t.isSome) m d (f (pr.ctx.rv a) (pr.ctx.rv b)) (pr.ctx.rvtag a) (pr.ctx.rvscale a) (runBit f m d r t s) := by
  obtain ⟨ta, hta⟩ := needTag_anyTag_eq_ok i ha
  obtain ⟨tb, htb⟩ := needTag_anyTag_eq_ok j hb
  refine putsV_putLine (runV_goesOn (outs := [outV d 2]) hi nofun ?_)
  simp only [hsrc, hta, htb]
  rfl

theorem execVnot_putsV {s : State} {p : Pid} {pr : Proc} {m : Mods} {d r : VReg} (hi : Issues s p pr (lenOf m true false))
    (hr : pr.ctx.rvtag r ≤ 13) :
    PutsV s p pr (lenOf m true false) m d (~~~(pr.ctx.rv r)) (pr.ctx.rvtag r) (pr.ctx.rvscale r) (execVnot m d r s) := by
  obtain ⟨tag, ht⟩ := needTag_anyTag_eq_ok 2 hr
  refine putsV_putLine (runV_goesOn (outs := [outV d 2]) hi nofun ?_)
  simp only [ht]
  rfl

/-! ## Integer compares (R247) -/

theorem fmt?_eq_none_of_isI {tag : Tag} (h : Tag.isI tag = true) : Tag.fmt? tag = none := by
  cases tag <;> simp_all [Tag.isI, Tag.fmt?]

theorem bits_of_isI {tag : Tag} (h : Tag.isI tag = true) : Tag.bits tag = 8 ∨ Tag.bits tag = 16 ∨ Tag.bits tag = 32 := by
  cases tag <;> simp_all [Tag.isI, Tag.bits]

/-! On an integer tag these conditions compare the integers and raise no flag. -/

theorem eltCmp_eq_of_isI {tag : Tag} (h : Tag.isI tag = true) (x y : Nat) :
    eltCmp .eq tag x y = some (Tag.int tag x == Tag.int tag y, 0) := by
  rw [eltCmp, fmt?_eq_none_of_isI h]
  rfl
theorem eltCmp_ne_of_isI {tag : Tag} (h : Tag.isI tag = true) (x y : Nat) :
    eltCmp .ne tag x y = some (Tag.int tag x != Tag.int tag y, 0) := by
  rw [eltCmp, fmt?_eq_none_of_isI h]
  exact congrArg (fun b => some (b, 0)) decide_not
theorem eltCmp_lt_of_isI {tag : Tag} (h : Tag.isI tag = true) (x y : Nat) :
    eltCmp .lt tag x y = some (decide (Tag.int tag x < Tag.int tag y), 0) := by
  simp only [eltCmp, fmt?_eq_none_of_isI h]
theorem eltCmp_ge_of_isI {tag : Tag} (h : Tag.isI tag = true) (x y : Nat) :
    eltCmp .ge tag x y = some (decide (Tag.int tag y ≤ Tag.int tag x), 0) := by
  simp only [eltCmp, fmt?_eq_none_of_isI h]

/-- Without a flag to raise, raising changes nothing. -/
theorem raiseElts_of_zero (c : Ctx) (w i : Nat) {fs : List Flags} (h : ∀ f ∈ fs, f = 0) : raiseElts c w i fs = c := by
  induction fs generalizing i with
  | nil => rfl
  | cons f fs ih =>
    rw [raiseElts, if_pos (h f (List.mem_cons_self ..))]
    exact ih (i + 1) fun g hg => h g (List.mem_cons_of_mem _ hg)

theorem raiseIf_of_zero (m : Mods) (c : Ctx) (w : Nat) {fs : List Flags} (h : ∀ f ∈ fs, f = 0) : raiseIf m c w fs = c := by
  rw [raiseIf, raiseElts_of_zero c w 0 h, ite_self]

/-- Results one element further on stand one element's bits higher. -/
theorem cmpBits_succ (w i : Nat) (rs : List (Bool × Flags)) : cmpBits w (i + 1) rs = 2 ^ (w / 8) * cmpBits w i rs := by
  induction rs generalizing i with
  | nil => rfl
  | cons r rs ih =>
    rw [cmpBits, cmpBits, ih, Nat.mul_add]
    congr 1
    split
    · rw [eltBits, eltBits, Nat.succ_mul, Nat.pow_add, ← Nat.mul_assoc, Nat.mul_comm]
    · rfl

theorem testBit_cmpBits {w : Nat} (hw : 0 < w / 8) (rs : List (Bool × Flags)) (b : Nat) :
    (cmpBits w 0 rs).testBit b = ((rs.map (·.1))[b / (w / 8)]?).getD false := by
  induction rs generalizing b with
  | nil => simp [cmpBits]
  | cons r rs ih =>
    have hfirst : (if r.1 then eltBits w 0 else 0) < 2 ^ (w / 8) := by
      split
      · rw [eltBits, Nat.zero_mul, Nat.pow_zero, Nat.mul_one]
        exact Nat.sub_lt (Nat.two_pow_pos _) Nat.one_pos
      · exact Nat.two_pow_pos _
    rw [cmpBits, cmpBits_succ, Nat.add_comm, Nat.testBit_two_pow_mul_add _ hfirst]
    split
    case isTrue hlow =>
      rw [Nat.div_eq_of_lt hlow]
      cases h : r.1 <;> simp [h, eltBits, hlow]
    case isFalse hhigh =>
      rw [ih, ← Nat.sub_add_cancel (Nat.le_of_not_lt hhigh), Nat.add_sub_cancel, Nat.add_div_right _ hw]
      rfl

/-- The results of a compare, element by element. -/
theorem zipWith_vElts {α : Type} (f : Nat → Nat → α) (c : Ctx) (r q : VReg) (w : Nat) :
    List.zipWith f (vElts c r w) (vElts c q w) =
      (List.range (countOf 64 w)).map fun i => f (elt w (c.rv r).toNat i) (elt w (c.rv q).toNat i) := by
  simp only [vElts, elts, List.zipWith_map, List.zipWith_self]

/-- A predicate bit is the result for the element of its byte. -/
theorem getLsbD_cmpBits_range {w b : Nat} (hw : w = 8 ∨ w = 16 ∨ w = 32) (g : Nat → Bool) (hb : b < 64) :
    (BitVec.ofNat 64 (cmpBits w 0 ((List.range (countOf 64 w)).map fun i => (g i, 0)))).getLsbD b = g (b / (w / 8)) := by
  have hin : b / (w / 8) < countOf 64 w := by
    unfold countOf
    rcases hw with rfl | rfl | rfl <;> omega
  rw [BitVec.getLsbD_ofNat, testBit_cmpBits (by omega)]
  simp [hb, hin]

/-- A compare on an integer tag whose condition is `f` sets each element's predicate bits to what `f` says, and raises no flag. -/
theorem execVcmp_sets {s : State} {p : Pid} {pr : Proc} {m : Mods} {d : PReg} {r q : VReg} {cnd : Cnd} {tag : Tag}
    {f : Nat → Nat → Bool} (hI : Tag.isI tag = true) (hf : ∀ x y, eltCmp cnd tag x y = some (f x y, 0))
    (hi : Issues s p pr (lenOf m true true)) (hon : On m pr) (hr : pr.ctx.rvtag r = BitVec.ofNat 4 tag.code)
    (hq : pr.ctx.rvtag q = pr.ctx.rvtag r) (hscale : pr.ctx.rvscale q = pr.ctx.rvscale r) :
    ∃ x : Word,
      (∀ b < 64, x.getLsbD b = f (elt (Tag.bits tag) (pr.ctx.rv r).toNat (b / (Tag.bits tag / 8)))
        (elt (Tag.bits tag) (pr.ctx.rv q).toNat (b / (Tag.bits tag / 8)))) ∧
      GoesOn s p pr (lenOf m true true) (pr.ctx.wp d x) (execVcmp m d r q cnd s) := by
  refine ⟨_, fun b hb => getLsbD_cmpBits_range (bits_of_isI hI)
    (fun i => f (elt (Tag.bits tag) (pr.ctx.rv r).toNat i) (elt (Tag.bits tag) (pr.ctx.rv q).toNat i)) hb,
    runV_goesOn (outs := [outP d 3]) hi (fun _ => hon) ?_⟩
  have htag := sameTag_pair_eq_ok (a := vOp pr.ctx 2 r) (b := vOp pr.ctx 3 q) (ok := isArith) (tag?_vOp_of_code hr)
    (by rw [isArith, hI]; rfl) hq
  have hsc := sameScale_pair_eq_ok (a := vOp pr.ctx 2 r) (b := vOp pr.ctx 3 q) hscale
  simp only [htag, hsc, hf, zipWith_vElts, bind, Except.bind, Option.isNone_some, Option.getD_some, Bool.false_eq_true, if_false]
  rw [raiseIf_of_zero _ _ _ (by simp)]

/-! ## VSEL (R248) -/

theorem execVsel_goesOn {s : State} {p : Pid} {pr : Proc} {m : Mods} {d r q : VReg} (hi : Issues s p pr (lenOf m true true))
    (hr : pr.ctx.rvtag r ≤ 13) (hq : pr.ctx.rvtag q = pr.ctx.rvtag r) (hscale : pr.ctx.rvscale q = pr.ctx.rvscale r) :
    GoesOn s p pr (lenOf m true true)
      (pr.ctx.wv d (blend (vecMask (maskOf m pr.ctx)) (pr.ctx.rv q) (pr.ctx.rv r)) (pr.ctx.rvtag r) (pr.ctx.rvscale r))
      (execVsel m d r q s) := by
  obtain ⟨tag, ht⟩ := exists_tag?_vOp 2 hr
  have htag := sameTag_pair_eq_ok (a := vOp pr.ctx 2 r) (b := vOp pr.ctx 3 q) (ok := anyTag) ht rfl hq
  have hsc := sameScale_pair_eq_ok (a := vOp pr.ctx 2 r) (b := vOp pr.ctx 3 q) hscale
  refine runV_goesOn (outs := [outV d 2]) hi nofun ?_
  simp only [htag, hsc]
  rfl

/-- Settles O10: the bitwise forms are one mould, the four conditions another, and VSEL writes a blend of its sources. -/
theorem vectorBitwiseAndCompare : Obligations.VectorBitwiseAndCompare := by
  unfold Obligations.VectorBitwiseAndCompare
  constructor
  · intro s p pr m d r t a b c ha hb hr
    have hsrc : ∃ i j, vSrc c d r t = ((a, vOp c i a), (b, vOp c j b)) := by cases t <;> exact ⟨_, _, rfl⟩
    obtain ⟨i, j, hsrc⟩ := hsrc
    exact ⟨fun hi => ⟨runBit_putsV (· &&& ·) hi hsrc ha hb, runBit_putsV (· ||| ·) hi hsrc ha hb,
        runBit_putsV (· ^^^ ·) hi hsrc ha hb⟩,
      fun hi => execVnot_putsV hi hr⟩
  · intro s p pr m dp d r q tag hi w c val hq hscale
    constructor
    · intro hI hon hr sets
      have cmp {cnd : Cnd} {f : Nat → Nat → Bool} (hf : ∀ x y, eltCmp cnd tag x y = some (f x y, 0)) :=
        execVcmp_sets (d := dp) hI hf hi hon hr hq hscale
      exact ⟨cmp (eltCmp_eq_of_isI hI), cmp (eltCmp_ne_of_isI hI), cmp (eltCmp_lt_of_isI hI), cmp (eltCmp_ge_of_isI hI)⟩
    · intro hr
      exact ⟨_, merged_blend _ _ _, execVsel_goesOn hi hr hq hscale⟩

end Sys2Proof.Machine

/-! # EXIT with a stray directory entry for its reply endpoint

EXIT frees the endpoint to which the directory leads from the key of the process's reply endpoint (R357 step 5). Nothing in the
statement ties that entry to a reply endpoint of the process, and `State.Canon` speaks of tables alone. Where it leads to a buffered
channel instead, freeing the channel cancels the bulk transfer into its slot, the slot becomes free, and the prefix of the next
message is copied into the scratchpad (R331): memory changes. Such an entry is no consequence of any rule; but the statement speaks of
every state in canonical form, and does not rule it out. -/

namespace Sys2Proof.Machine

namespace StrayReply

/-- The process that exits: running, of team 1 on cluster 0, with nothing outstanding. -/
def issuer : Proc := { state := .running, slot := some 0, team := 1, lid := 1, pc := 0x10000 }

/-- Another process of the team, waiting in SENDT for the end of message `id`. -/
def sender (id : Nat) : Proc :=
  { issuer with state := .blocked, slot := none, wkind := .sendt, op := some { id := id, key := 0, res := .waiting } }

/-- A bulk message of 2 KiB for channel 5, held in request-store entry `k`; the first byte of its prefix is 42. -/
def message (p : Pid) (k : Nat) : Msg :=
  { sender := some p, kind := 0, idx := 5, efmt := 63, sclass := 11, len := 2048, bytes := 42 :: List.replicate 1023 0, bad := []
    srcCl := 0, srcOff := 0x2000, bulk := true, expert := none, place := some (0, k), ended := false, dropped := [] }

/-- The unmatched request of message `id` at endpoint-table entry 0. -/
def request (id : Nat) : GReq :=
  { src := .msg id, len := 2048, pfx := 1024, ep := some 0, cls := 2, arrival := 0, matched := false, rcvr := none, dest := 0, rcv := []
    granted := [], toks := [], lastAcc := 0 }

/-- Channel 5, with one buffer slot at the start of its team's scratchpad: a transfer fills it, and request 1 waits behind. -/
def channel : Endp :=
  { buffered := true, depth := 1, sclass := 11, team := 1, idx := 5, unm := [1]
    slots := [{ st := .filling, sender := some 257, arrival := 0, bytes := [] }] }

/-- Request 0 is matched to the slot. The directory leads to the channel from its own index, and from the reply key of process 256. -/
def start : State :=
  { cur := some 256, procs := [(256, issuer), (257, sender 1), (258, sender 2)]
    clusters := [(0, { endps := [(0, channel)]
                       greqs := [(0, { request 1 with matched := true, dest := sramLoc 0 0 }), (1, request 2)] })]
    teams := [(1, { lid := 1, index := 0, state := .running, nproc := 3, spmsz := 1, entry := 0x10000 })]
    msgs := [(1, message 257 0), (2, message 258 1)], dir := [(5, (0, 0)), (replyKey 256, (0, 0))] }

theorem issues : Issues start 256 issuer (lenOf BadSource.mods true false) where
  cur := rfl
  proc := rfl
  settled := by simp [Ctx.Settled, issuer]
  inside := by simp [Proc.Inside, issuer]

theorem quiet : Quiet start issuer where
  outs := rfl
  held := rfl
  reds := by simp [issuer]
  att := rfl

theorem drained : Drained start issuer.cl := ⟨by simp [start, issuer, State.cluster, Tab.getD, Tab.get?], rfl, by decide⟩

/-- A cluster other than 0 is as at reset. -/
theorem cluster_of_ne {cl : Nat} (h : cl ≠ 0) : start.cluster cl = {} := by
  simp [State.cluster, Tab.getD, start, Tab.get?, Ne.symm h]

/-- Every process has its registers as at reset, and belongs to no barrier. -/
theorem proc_regs {p : Pid} {pr : Proc} (h : start.proc? p = some pr) : pr.ctx.s = [] ∧ pr.bars = [] :=
  (by decide : ∀ e ∈ start.procs, e.2.ctx.s = [] ∧ e.2.bars = []) _ (Tab.mem_of_get? h)

theorem canon : start.Canon where
  mem := rfl
  procs := by decide
  clusters := rfl
  memdies := rfl
  teams := rfl
  launches := rfl
  msgs := by decide
  regs := rfl
  dieRegs := rfl
  links := rfl
  merges := rfl
  coalesce := rfl
  codeErr := rfl
  twinH := rfl
  twinWait := rfl
  poison := List.nodup_nil
  cluster cl := by
    by_cases h : cl = 0
    · subst h
      exact ⟨by decide, rfl, rfl, rfl, rfl, rfl⟩
    · rw [cluster_of_ne h]
      exact ⟨rfl, rfl, rfl, rfl, rfl, rfl⟩
  proc p pr h := by
    obtain ⟨hregs, hbars⟩ := proc_regs h
    rw [hregs, hbars]
    exact ⟨rfl, rfl⟩

/-- The outcome by evaluation: after EXIT the first byte of the scratchpad is that of the second message. -/
theorem exit_writes_scratchpad : (match exec (.exit BadSource.mods) start with
    | .next t => Memory.get (sramLoc 0 0) t.mem
    | _ => 0) = 42 := by decide +kernel

/-- So no outcome of EXIT keeps memory, which was all 0. -/
theorem mem_ne_of_exit {u : State} (h : exec (.exit BadSource.mods) start = .next u) : u.mem ≠ start.mem := by
  intro hmem
  have hbyte := exit_writes_scratchpad
  rw [h] at hbyte
  exact absurd (hbyte.symm.trans (congrArg (Memory.get (sramLoc 0 0)) hmem)) (by decide)

end StrayReply

open StrayReply in
/-- Refutes O36: EXIT of a process with nothing outstanding writes memory where the directory leads from the key of its reply endpoint to
a buffered channel; the statement has no hypothesis on that entry. -/
theorem not_processes : ¬ Obligations.Processes := by
  unfold Obligations.Processes
  intro h
  obtain ⟨-, hrest⟩ := h start 256 issuer BadSource.mods 4 5 none 0 0 { lid := 1, index := 0 } 0 canon rfl quiet
  obtain ⟨-, -, -, -, -, -, -, -, -, -, hexit⟩ := hrest issues
  obtain ⟨u, hu, -, hmem, -⟩ :=
    hexit rfl rfl rfl drained rfl (by decide) (by decide) ⟨(257, sender 1), by decide, by decide, rfl⟩
  exact mem_ne_of_exit hu hmem

end Sys2Proof.Machine
